-- ==== Sys2Proof/Word.lean ====
section
/-! DEFINITION. The word types of the BV1632: window words, addresses, samples and the numbers of streams and groups. -/

namespace Sys2Proof

/-- One byte: the operand or the opcode of a COMMAND write, a tag. -/
abbrev Byte := BitVec 8

/-- One word of the window and of host memory (16 bits, bit 15 first; 00_scope.md section 4). -/
abbrev Word := BitVec 16

/-- A 24-bit byte address of host memory (00_scope.md section 4, "Addresses"). -/
abbrev Addr := BitVec 24

/-- A sample of width W ≤ 24, right-justified; the bits at W and above are 0 (R67). -/
abbrev Sample := BitVec 24

/-- A stream number, 0..15 (chapter 3). -/
abbrev StreamId := Fin 16

/-- A group number, 0..3 (R139). -/
abbrev GroupId := Fin 4

end Sys2Proof
end

