-- ==== Sys2Proof/Syntax.lean ====
section
/-! DEFINITION. The commands and events of the block: one constructor for each row of spec/opcode_table.json. -/

namespace Sys2Proof

/-- The read-only words of the window (section 10.1). -/
inductive ReadOnlyWord where
  | id | frame | fieldData | result | resultDetail | cqHead0 | cqHead1 | cqHead2 | cqHead3 | cqHead4
  deriving DecidableEq, Repr

/-- The control words whose row is CONTROL_WORD_WRITE (R163). -/
inductive ControlWord where
  | holdoff | busCtrl | readyTimeout
  deriving DecidableEq, Repr

/-- The read-write words with no behaviour of their own, and the reserved words 1AH to 1FH (R160). -/
inductive PlainWord where
  | mapIndex | streamSel | fieldSel
  | stage (i : Fin 6)
  | reserved (i : Fin 6)
  deriving DecidableEq, Repr

/-- The seventeen opcodes of the table of section 10.6. -/
def definedOpcodes : List Byte :=
  [0x01, 0x02, 0x03, 0x04, 0x05, 0x06, 0x07, 0x10, 0x11, 0x12, 0x20, 0x21, 0x30, 0x31, 0x40, 0x41, 0x42]

/-- An opcode outside the seventeen (R167). -/
abbrev UndefinedOpcode := { op : Byte // op ∉ definedOpcodes }

/-- One command of the host or one event, with its operands (log 1). A COMMAND write carries its operand byte
(bits 7–0 of COMMAND), also where the command does not read it, because COMMAND reads back as written (R167). -/
inductive Instr where
  | configure (operand : Byte)
  | deconfigure (operand : Byte)
  | post (operand : Byte)
  | start (operand : Byte)
  | stop (operand : Byte)
  | abort (operand : Byte)
  | clear (operand : Byte)
  | gstart (operand : Byte)
  | gstop (operand : Byte)
  | gabort (operand : Byte)
  | mapswap (operand : Byte)
  | mapcopy (operand : Byte)
  | cqpop (operand : Byte)
  | cqflush (operand : Byte)
  | lineSet (operand : Byte)
  | lineUp (operand : Byte)
  | lineDown (operand : Byte)
  | unknownOpcode (opcode : UndefinedOpcode) (operand : Byte)
  | mapDataWrite (value : Word)
  | statusWrite (value : Word)
  | readOnlyWrite (word : ReadOnlyWord) (value : Word)
  | intCtrlWrite (value : Word)
  | controlWordWrite (word : ControlWord) (value : Word)
  | samplesServedLowRead
  | registerWrite (word : PlainWord) (value : Word)
  | pinReset
  | resetRelease
  /-- `bit`: the bit period of the high sample, counted from the last boundary or the start of the trial. -/
  | syncArrival (bit : Nat)
  | trialTimeout
  | missedSync
  | frameEnd
  /-- `slot`: the slot of the frame that starts. -/
  | transmitSlot (slot : Nat)
  /-- `slot`: the slot of the frame; `rxd`: the bits sampled on RXD in bit periods 0..W−1, the last one in bit 0. -/
  | receiveSlot (slot : Nat) (rxd : Sample)
  | busGrant
  | busGrantLow
  | busGrantWithdrawn
  /-- `level`: BYLD asserted (true, the row) or removed (false; log 8). -/
  | busYield (level : Bool)
  /-- `hostWrote`: the word the host has written at the address of a fetch since the part last stored or fetched
  there, if it has; memory otherwise stands as the part left it (R172, log 4). A store's answer carries no word. -/
  | wordTransferComplete (hostWrote : Option Word)
  | busFault
  | holdoffExpiry
  | fsyncLowSample
  deriving DecidableEq, Repr

end Sys2Proof
end

