-- ==== Sys2Proof/Decode.lean ====
section
/-! DEFINITION. Which row a slave write is (section 10.1, R160, R167), and which command a COMMAND word spells (section 10.6). -/

namespace Sys2Proof

/-- The command a COMMAND write of this opcode and operand runs (the opcode table of section 10.6, R167). -/
def Instr.ofCommand (op arg : Byte) : Instr :=
  if h : op ∉ definedOpcodes then .unknownOpcode ⟨op, h⟩ arg
  else if op = 0x01 then .configure arg
  else if op = 0x02 then .deconfigure arg
  else if op = 0x03 then .post arg
  else if op = 0x04 then .start arg
  else if op = 0x05 then .stop arg
  else if op = 0x06 then .abort arg
  else if op = 0x07 then .clear arg
  else if op = 0x10 then .gstart arg
  else if op = 0x11 then .gstop arg
  else if op = 0x12 then .gabort arg
  else if op = 0x20 then .mapswap arg
  else if op = 0x21 then .mapcopy arg
  else if op = 0x30 then .cqpop arg
  else if op = 0x31 then .cqflush arg
  else if op = 0x40 then .lineSet arg
  else if op = 0x41 then .lineUp arg
  else .lineDown arg

/-- The command a write of this word to COMMAND runs: opcode in bits 15–8, operand in bits 7–0 (section 10.6). -/
def Instr.ofCommandWord (w : Word) : Instr := .ofCommand (w.extractLsb' 8 8) (w.extractLsb' 0 8)

/-- The opcode of a command (the same table, read the other way); none for the rows that are no COMMAND write. -/
def Instr.opcode? : Instr → Option Byte
  | .configure _ => some 0x01
  | .deconfigure _ => some 0x02
  | .post _ => some 0x03
  | .start _ => some 0x04
  | .stop _ => some 0x05
  | .abort _ => some 0x06
  | .clear _ => some 0x07
  | .gstart _ => some 0x10
  | .gstop _ => some 0x11
  | .gabort _ => some 0x12
  | .mapswap _ => some 0x20
  | .mapcopy _ => some 0x21
  | .cqpop _ => some 0x30
  | .cqflush _ => some 0x31
  | .lineSet _ => some 0x40
  | .lineUp _ => some 0x41
  | .lineDown _ => some 0x42
  | .unknownOpcode op _ => some op.val
  | .mapDataWrite _ | .statusWrite _ | .readOnlyWrite _ _ | .intCtrlWrite _ | .controlWordWrite _ _
  | .samplesServedLowRead | .registerWrite _ _ | .pinReset | .resetRelease | .syncArrival _
  | .trialTimeout | .missedSync | .frameEnd | .transmitSlot _ | .receiveSlot _ _ | .busGrant
  | .busGrantLow | .busGrantWithdrawn | .busYield _ | .wordTransferComplete _ | .busFault
  | .holdoffExpiry | .fsyncLowSample => none

/-- The operand byte of a command, bits 7–0 of COMMAND; none for the rows that are no COMMAND write. -/
def Instr.operand? : Instr → Option Byte
  | .configure a | .deconfigure a | .post a | .start a | .stop a | .abort a | .clear a | .gstart a | .gstop a
  | .gabort a | .mapswap a | .mapcopy a | .cqpop a | .cqflush a | .lineSet a | .lineUp a | .lineDown a
  | .unknownOpcode _ a => some a
  | .mapDataWrite _ | .statusWrite _ | .readOnlyWrite _ _ | .intCtrlWrite _ | .controlWordWrite _ _
  | .samplesServedLowRead | .registerWrite _ _ | .pinReset | .resetRelease | .syncArrival _
  | .trialTimeout | .missedSync | .frameEnd | .transmitSlot _ | .receiveSlot _ _ | .busGrant
  | .busGrantLow | .busGrantWithdrawn | .busYield _ | .wordTransferComplete _ | .busFault
  | .holdoffExpiry | .fsyncLowSample => none

/-- The row that a slave write of `value` to window word `word` is, by the window map of section 10.1. -/
def Instr.ofWrite (word : Fin 32) (value : Word) : Instr :=
  match word.val with
  | 0x00 => .readOnlyWrite .id value
  | 0x01 => .statusWrite value
  | 0x02 => .readOnlyWrite .frame value
  | 0x03 => .intCtrlWrite value
  | 0x04 => .controlWordWrite .holdoff value
  | 0x05 => .controlWordWrite .busCtrl value
  | 0x06 => .controlWordWrite .readyTimeout value
  | 0x07 => .registerWrite .mapIndex value
  | 0x08 => .mapDataWrite value
  | 0x09 => .registerWrite .streamSel value
  | 0x0A => .registerWrite .fieldSel value
  | 0x0B => .readOnlyWrite .fieldData value
  | 0x0C => .registerWrite (.stage 0) value
  | 0x0D => .registerWrite (.stage 1) value
  | 0x0E => .registerWrite (.stage 2) value
  | 0x0F => .registerWrite (.stage 3) value
  | 0x10 => .registerWrite (.stage 4) value
  | 0x11 => .registerWrite (.stage 5) value
  | 0x12 => .ofCommandWord value
  | 0x13 => .readOnlyWrite .result value
  | 0x14 => .readOnlyWrite .resultDetail value
  | 0x15 => .readOnlyWrite .cqHead0 value
  | 0x16 => .readOnlyWrite .cqHead1 value
  | 0x17 => .readOnlyWrite .cqHead2 value
  | 0x18 => .readOnlyWrite .cqHead3 value
  | 0x19 => .readOnlyWrite .cqHead4 value
  | 0x1A => .registerWrite (.reserved 0) value
  | 0x1B => .registerWrite (.reserved 1) value
  | 0x1C => .registerWrite (.reserved 2) value
  | 0x1D => .registerWrite (.reserved 3) value
  | 0x1E => .registerWrite (.reserved 4) value
  | _ => .registerWrite (.reserved 5) value

/-- The command a word spells. opcode_table.json gives no row any bits; the one word that spells a command is the
16-bit COMMAND word of section 10.6, so a word of 16 bits is read as that (R167, log 29). -/
def decodeTableWord (nbits w : Nat) : Option Instr :=
  if nbits = 16 then some (.ofCommandWord (BitVec.ofNat 16 w)) else none

end Sys2Proof
end

