-- ==== Sys2Proof/Config.lean ====
section
/-! DEFINITION. What the part fixes (sizes), and the three free values: choices the spec leaves open, of which nothing can be proved. -/

namespace Sys2Proof

/-- Samples a stream FIFO holds (R67). -/
def Config.fifoDepth : Nat := 8

/-- Descriptors a stream's queue holds (R87). -/
def Config.queueDepth : Nat := 8

/-- Descriptor records of the pool (R86). -/
def Config.poolSize : Nat := 64

/-- Records the completion queue keeps before an OVERFLOW record stands last (R150). -/
def Config.recordRoom : Nat := 31

/-- The largest value of the 16-bit counts that stay at their end (R40, R150). -/
def Config.countMax : Nat := 65535

/-- FREE VALUE (log 3). Which of the records that may stand next does stand next, where R149 lets records
raised together stand in either order. -/
opaque Config.recordOrder : Nat → Nat

/-- FREE VALUE (log 2). Whether a bit period of the trunk's BCLK passes in one period of REFCLK: the trunk
supplies BCLK in FOLLOWER mode (R2) and may stop it (R12). -/
opaque Config.trunkBit : Nat → Bool

/-- FREE VALUE (log 4). The word host memory holds at an address that neither the part nor, as far as the part has
read it, the host has written: the manual says nothing of the contents of memory. -/
opaque Config.memoryAtStart : Nat → Word

end Sys2Proof
end

