-- ==== Sys2Proof/Machine/State.lean ====
section
/-! DEFINITION. The state of the block, unit by unit as 00_scope.md section 2 names them, and the state after pin reset. -/

namespace Sys2Proof.Machine

/-! ### Line Port (chapter 1) -/

/-- The line mode (section 1.1). -/
inductive LineMode where
  | follower | master | loopback
  deriving DecidableEq, Repr

/-- The line state (section 1.3). -/
inductive LineState where
  | disabled | hunt | confirm | aligned | flywheel
  deriving DecidableEq, Repr

/-- The six line settings (section 1.1, R1). -/
structure LineFormat where
  /-- N, slots per frame. -/
  slots : Nat
  /-- S, bit periods per slot. -/
  slotLen : Nat
  mode : LineMode
  /-- D, bit clock divider. -/
  bclkDiv : Nat
  /-- F, flywheel limit. -/
  flywheel : Nat
  /-- timebase divider. -/
  tbDiv : Nat
  deriving DecidableEq, Repr

/-- The Line Port: line state, positions, shift registers, counts (R5 to R21). -/
structure LinePort where
  fmt : LineFormat
  state : LineState
  /-- frame counter (R14). -/
  frame : BitVec 16
  /-- miss count (R10). -/
  miss : Nat
  /-- bit periods passed since the last boundary or the start of the trial (log 13). -/
  bitPos : Nat
  /-- the next slot the frame takes (R15). -/
  nextSlot : Nat
  /-- the width of each stream that was configured at the boundary that opened the frame, for the slots of that
  frame (R15, R34, R45; log 27). -/
  frameWidths : Vector (Option Nat) 16
  /-- whose sample is being shifted out (R16). -/
  txStream : Option StreamId
  /-- bits still to drive in this slot, the one being driven first (R16). -/
  txBits : List Bool
  /-- receive shift register, first bit first (R17). -/
  rxBits : List Bool
  /-- loopback delay line: what the transmit output gave, newest bit first, over two slot lengths (R18). -/
  driven : List Bool
  /-- sync detector: FSYNC was low at the last sample (R4). -/
  lowSeen : Bool
  /-- REFCLK periods left in the timebase tick (R2, log 12). -/
  tbLeft : Nat
  /-- REFCLK periods left in the bit period of a MASTER or LOOPBACK line (R2). -/
  bitLeft : Nat
  deriving DecidableEq, Repr

/-! ### Slot Map (chapter 2) -/

/-- A stream's or an entry's direction. -/
inductive Direction where
  | tx | rx
  deriving DecidableEq, Repr

/-- A slot-map entry: UNASSIGNED, or a stream with a direction (R23). -/
abbrev Entry := Option (StreamId × Direction)

/-- The number of a bank (R22). -/
inductive BankId where
  | b0 | b1
  deriving DecidableEq, Repr

/-- The Slot Map (R22). -/
structure SlotMap where
  bank0 : Vector Entry 32
  bank1 : Vector Entry 32
  active : BankId
  swapPending : Bool
  deriving DecidableEq, Repr

/-! ### Stream Engine (chapters 3, 4, 6) -/

/-- Layout in memory (R104). -/
inductive Packing where
  | packed | word | pair
  deriving DecidableEq, Repr

/-- How the upper bits of a received word are filled (R108). -/
inductive Extension where
  | none | zero | sign
  deriving DecidableEq, Repr

/-- Underrun policy (R71, R72). -/
inductive UnderrunPolicy where
  | none | repeat | fill | release | halt
  deriving DecidableEq, Repr

/-- Overrun policy (R75, R76). -/
inductive OverrunPolicy where
  | none | drop | halt
  deriving DecidableEq, Repr

/-- A stream's configuration (R38). -/
structure StreamConfig where
  direction : Direction
  width : Nat
  packing : Packing
  extension : Extension
  underrun : UnderrunPolicy
  fill : Sample
  overrun : OverrunPolicy
  watermark : Nat
  haltOnLoss : Bool
  group : Option GroupId
  deriving DecidableEq, Repr

/-- Start mode (R47). -/
inductive StartMode where
  | next
  | at (frame : BitVec 16)
  deriving DecidableEq, Repr

/-- Drain kind (R39). -/
inductive DrainKind where
  | ended | stop
  deriving DecidableEq, Repr

/-- Halt cause (R63). -/
inductive HaltCause where
  | xrun | busFault | align | group | line
  deriving DecidableEq, Repr

/-- The six stream states (R42), each with the fields present in it only (R39). -/
inductive RunState where
  | off
  | armed (mode : StartMode) (endFetched : Bool)
  | running
  | stopping
  | draining (kind : DrainKind) (releaseSeen : Bool)
  | halted (cause : HaltCause)
  deriving DecidableEq, Repr

/-- A queued descriptor (R85), with the identity of the POST that made it (R126, log 10). -/
structure Descriptor where
  address : Addr
  length : Nat
  endFlag : Bool
  notify : Bool
  tag : Byte
  posting : Nat
  deriving DecidableEq, Repr

/-- A stream context (R38 to R40) with its descriptor queue (R87). -/
structure StreamCtx where
  /-- absent while the stream is unconfigured. -/
  cfg : Option StreamConfig
  state : RunState
  /-- samples, oldest first. -/
  fifo : List Sample
  /-- residual bits of the packer or unpacker, first bit first. -/
  residual : List Bool
  /-- head progress. -/
  samplesDone : Nat
  wordsDone : Nat
  underrunEp : Bool
  overrunEp : Bool
  lastSample : Option Sample
  samplesServed : BitVec 32
  underrunSlots : BitVec 16
  overrunSamples : BitVec 16
  postedTotal : BitVec 16
  buffersDone : BitVec 16
  lastTag : Option Byte
  /-- descriptors, oldest first; the first is the head. -/
  queue : List Descriptor
  deriving DecidableEq, Repr

/-! ### Memory Mover (chapter 7) -/

/-- Bus state (R118). -/
inductive BusState where
  | idle | requesting | holding | waitLow
  deriving DecidableEq, Repr

/-- The move in progress (R126). -/
structure Move where
  stream : StreamId
  dir : Direction
  posting : Nat
  nextAddr : Addr
  wordsLeft : Nat
  deriving DecidableEq, Repr

/-- The word in flight (section 7.1, R130). -/
structure InFlight where
  addr : Addr
  dir : Direction
  /-- the word the packer handed over; a read drives none and holds 0 here. -/
  word : Word
  /-- ready timer, ticks remaining (R131). -/
  timer : Nat
  /-- samples taken for this word and not yet counted, 0 or 1 (R115). -/
  uncounted : Nat
  deriving DecidableEq, Repr

/-- The Memory Mover, with its two input pins (R118 to R138). -/
structure Mover where
  bus : BusState
  wordCount : Nat
  limit : Option Nat
  move : Option Move
  inFlight : Option InFlight
  pointer : StreamId
  tenureMax : Nat
  readyTimeout : Nat
  /-- BYLD was asserted, or BGNT withdrawn, during this tenure (R123, log 8). -/
  yielded : Bool
  /-- level of BGNT. -/
  bgnt : Bool
  /-- level of BYLD. -/
  byld : Bool
  deriving DecidableEq, Repr

/-! ### Group Control (chapter 8) -/

/-- A group's pending action (R139). -/
inductive GroupAction where
  | none
  | start (mode : StartMode)
  | stop
  deriving DecidableEq, Repr

/-! ### Completion Queue (chapter 9) -/

/-- Return status (R97). -/
inductive Status where
  | ok | short | cancelled | aborted
  deriving DecidableEq, Repr

/-- Cause in STREAM_STOPPED (R148). -/
inductive StopCause where
  | ended | stop | abort
  deriving DecidableEq, Repr

/-- A completion record of every kind but OVERFLOW (R148). -/
inductive Record where
  | bufferDone (stream : StreamId) (frame : BitVec 16) (tag : Byte) (status : Status) (count : Nat)
  | underrun (stream : StreamId) (frame : BitVec 16)
  | overrun (stream : StreamId) (frame : BitVec 16)
  | streamStarted (stream : StreamId) (frame : BitVec 16)
  | streamStopped (stream : StreamId) (frame : BitVec 16) (cause : StopCause) (discarded : Nat)
  | streamHalted (stream : StreamId) (frame : BitVec 16) (cause : HaltCause)
  | mapSwapped (frame : BitVec 16) (bank : BankId)
  | frameSlip (frame : BitVec 16)
  | alignLost (frame : BitVec 16)
  | alignGained (frame : BitVec 16)
  | busFault (stream : StreamId) (frame : BitVec 16) (address : Addr)
  deriving DecidableEq, Repr

/-- Holdoff timer (R158). -/
inductive HoldoffTimer where
  | stopped
  | counting (ticks : Nat)
  | expired
  deriving DecidableEq, Repr

/-- The Completion Queue. The OVERFLOW record, when present, is the newest one (R150), so it stands apart. -/
structure CompletionQueue where
  records : List Record
  /-- lost count of the OVERFLOW record. -/
  overflow : Option Nat
  timer : HoldoffTimer
  enable : Bool
  threshold : Nat
  holdoff : BitVec 16
  deriving DecidableEq, Repr

/-- Why two records raised together must keep their order (R149); records that share no chain need not. -/
inductive Chain where
  | linePort
  | slotMap
  | stream (i : StreamId)
  | groupStart (g : GroupId)
  | groupStop (g : GroupId)
  | groupHalt (g : GroupId)
  deriving DecidableEq, Repr

/-- A record being raised, with the chains it belongs to. -/
abbrev Raised := List Chain × Record

/-! ### Register Window (chapter 10) -/

/-- Result codes (R168). -/
inductive ResultCode where
  | ok | badOp | badStream | badParam | state | unconfigured | empty | queueFull | poolEmpty
  | badLength | badAddress | conflict | busy | late | grouped | groupNotReady | lineUpErr
  deriving DecidableEq, Repr

/-- The Register Window's own words. -/
structure Window where
  stage : Vector Word 6
  command : Word
  resultOp : Byte
  resultCode : ResultCode
  detail : Word
  mapBank : BankId
  mapEntry : Fin 32
  streamSel : StreamId
  fieldSel : BitVec 5
  captured : Word
  accessErr : Bool
  deriving DecidableEq, Repr

/-! ### The whole block -/

/-- Why a step can stop with a fault: never. The part halts streams and raises records; it does not stop. -/
inductive Fault where
  deriving DecidableEq, Repr

/-- Why a step can be refused. -/
inductive Refusal where
  /-- Raised by an arm of `exec` whose row has no meaning yet; safe, since nothing can then be proved of it. No arm
  raises it: every row has its meaning. -/
  | notModelled (mnemonic : String)
  deriving DecidableEq, Repr

/-- The state of the block. -/
structure State where
  line : LinePort
  map : SlotMap
  streams : Vector StreamCtx 16
  /-- free count of the descriptor pool (R86). -/
  free : Nat
  /-- identity of the next posting (log 10). -/
  nextPosting : Nat
  mover : Mover
  groups : Vector GroupAction 4
  cq : CompletionQueue
  win : Window
  /-- the RESET pin is low (R171). -/
  resetLow : Bool
  /-- host memory where the part has stored or has read a word of the host's, by address, addresses rising (R172,
  log 4). -/
  mem : List (Nat × Word)
  /-- which free value comes next (logs 2 and 3). -/
  freeIdx : Nat
  /-- commands and events waiting, first in first out. -/
  pending : List Instr
  deriving DecidableEq, Repr

/-! ### Pin reset -/

/-- R21: the line settings after pin reset. -/
def LineFormat.reset : LineFormat :=
  { slots := 8, slotLen := 16, mode := .follower, bclkDiv := 3, flywheel := 3, tbDiv := 15 }

/-- R21. -/
def LinePort.reset : LinePort :=
  { fmt := .reset, state := .disabled, frame := 0, miss := 0, bitPos := 0, nextSlot := 0
    frameWidths := .replicate 16 none, txStream := none, txBits := [], rxBits := [], driven := [], lowSeen := false
    tbLeft := 16, bitLeft := 8 }

/-- R22. -/
def SlotMap.reset : SlotMap :=
  { bank0 := .replicate 32 none, bank1 := .replicate 32 none, active := .b0, swapPending := false }

/-- R41. -/
def StreamCtx.reset : StreamCtx :=
  { cfg := none, state := .off, fifo := [], residual := [], samplesDone := 0, wordsDone := 0
    underrunEp := false, overrunEp := false, lastSample := none, samplesServed := 0, underrunSlots := 0
    overrunSamples := 0, postedTotal := 0, buffersDone := 0, lastTag := none, queue := [] }

/-- R118 and the table of section 7.1. The levels of BGNT and BYLD belong to the host: log 9. -/
def Mover.reset : Mover :=
  { bus := .waitLow, wordCount := 0, limit := none, move := none, inFlight := none, pointer := 15
    tenureMax := 8, readyTimeout := 16, yielded := false, bgnt := false, byld := false }

/-- R156. -/
def CompletionQueue.reset : CompletionQueue :=
  { records := [], overflow := none, timer := .stopped, enable := false, threshold := 1, holdoff := 0 }

/-- Section 10.10, block RW. -/
def Window.reset : Window :=
  { stage := .replicate 6 0, command := 0, resultOp := 0, resultCode := .ok, detail := 0
    mapBank := .b0, mapEntry := 0, streamSel := 0, fieldSel := 0, captured := 0, accessErr := false }

/-- The block at the rising edge of RESET, with its pin-reset values and no sample of BGNT taken yet (R171; log 9). -/
def State.reset : State :=
  { line := .reset, map := .reset, streams := .replicate 16 .reset, free := 64, nextPosting := 0
    mover := .reset, groups := .replicate 4 .none, cq := .reset, win := .reset, resetLow := false
    mem := [], freeIdx := 0, pending := [] }

end Sys2Proof.Machine
end

