-- ==== Sys2Proof/Machine/Ops.lean ====
section
/-! DEFINITION. The named operations every family shares: bits, accessors, records and their queue, returns, halts. -/

namespace Sys2Proof.Machine

/-! ### Bits -/

/-- The low `w` bits of `x`, most significant first: the order of the line and of memory (section 4 of 00_scope.md). -/
def bitsOf : Nat → Nat → List Bool
  | 0, _ => []
  | w + 1, x => x.testBit w :: bitsOf w x

/-- The number whose bits are `bs`, most significant first. -/
def natOf (bs : List Bool) : Nat := bs.foldl (fun a b => 2 * a + b.toNat) 0

/-- Bits `hi` down to `lo` of a word, as a number (the layout tables of chapter 10). -/
def field (w : Word) (hi lo : Nat) : Nat := w.toNat / 2 ^ lo % 2 ^ (hi - lo + 1)

/-- One bit of a word. -/
def flag (w : Word) (i : Nat) : Bool := w.toNat.testBit i

/-- A 16-bit word from a number. -/
def word (n : Nat) : Word := BitVec.ofNat 16 n

/-- The low `w` bits of a sample (R67: an entry is one W-bit sample; R38: fill pattern bits above W are not kept). -/
def keepBits (w : Nat) (x : Sample) : Sample := BitVec.ofNat 24 (x.toNat % 2 ^ w)

/-- A 16-bit count that advances by one and stays at 65535 (R40). -/
def saturate (x : BitVec 16) : BitVec 16 := if x.toNat = Config.countMax then x else x + 1

/-! ### Streams, queues and the pool -/

/-- Streams in increasing number. -/
def allStreams : List StreamId := [0, 1, 2, 3, 4, 5, 6, 7, 8, 9, 10, 11, 12, 13, 14, 15]

/-- Groups in increasing number. -/
def allGroups : List GroupId := [0, 1, 2, 3]

/-- The context of stream `i`. -/
def State.stream (s : State) (i : StreamId) : StreamCtx := s.streams[i.val]'i.isLt

/-- Writes the context of stream `i`. The descriptor records its queue gives up join the free list, and those it
takes leave it (R86, R90, R98 step 1; log 11). -/
def State.putStream (s : State) (i : StreamId) (c : StreamCtx) : State :=
  { s with
    streams := s.streams.set i.val c i.isLt
    free := s.free + (s.stream i).queue.length - c.queue.length }

/-- The stream a COMMAND operand names, 0..15 (R43). -/
def streamOf (operand : Byte) : Option StreamId :=
  if h : operand.toNat < 16 then some ⟨operand.toNat, h⟩ else none

/-- The group a COMMAND operand names, 0..3 (R140). -/
def groupOf (operand : Byte) : Option GroupId :=
  if h : operand.toNat < 4 then some ⟨operand.toNat, h⟩ else none

/-- The width of a configured stream (R38). -/
def StreamCtx.width? (c : StreamCtx) : Option Nat := c.cfg.map StreamConfig.width

/-- The group a stream is a member of: it is configured with that group (R139). -/
def StreamCtx.group? (c : StreamCtx) : Option GroupId :=
  match c.cfg with
  | none => none
  | some cfg => cfg.group

/-- The members of a group, in increasing stream number, read from the configurations (R139). -/
def State.members (s : State) (g : GroupId) : List StreamId :=
  allStreams.filter fun i => decide ((s.stream i).group? = some g)

/-- ARMED, RUNNING, STOPPING or DRAINING: the states a halt can meet (R63). -/
def StreamCtx.working (c : StreamCtx) : Bool :=
  match c.state with
  | .armed _ _ | .running | .stopping | .draining _ _ => true
  | .off | .halted _ => false

/-- RUNNING, STOPPING or DRAINING: the states whose sample may be shifted out (R16). -/
def StreamCtx.driving (c : StreamCtx) : Bool :=
  match c.state with
  | .running | .stopping | .draining _ _ => true
  | .off | .armed _ _ | .halted _ => false

/-- ARMED. -/
def StreamCtx.isArmed (c : StreamCtx) : Bool :=
  match c.state with
  | .armed _ _ => true
  | .off | .running | .stopping | .draining _ _ | .halted _ => false

/-! ### The completion queue -/

/-- Records in the queue, an OVERFLOW record counted as one (R152). -/
def CompletionQueue.count (q : CompletionQueue) : Nat :=
  q.records.length + (if q.overflow.isSome then 1 else 0)

/-- R158: the timer as HOLDOFF loads it; with 0 it is EXPIRED at once. -/
def loadTimer (holdoff : BitVec 16) : HoldoffTimer :=
  if holdoff.toNat = 0 then .expired else .counting holdoff.toNat

/-- R150: what a newly raised record does. R158: a record that finds the queue empty loads the timer. -/
def CompletionQueue.raise (q : CompletionQueue) (r : Record) : CompletionQueue :=
  match q.overflow with
  | some n => { q with overflow := some (min Config.countMax (n + 1)) }
  | none =>
    if q.records.length < Config.recordRoom then
      { q with
        records := q.records ++ [r]
        timer := if q.records.length = 0 then loadTimer q.holdoff else q.timer }
    else { q with overflow := some 1 }

/-- Records raised one after the other (R149: records of one act stand in the order its rule gives). -/
def CompletionQueue.raiseAll (q : CompletionQueue) (rs : List Record) : CompletionQueue :=
  rs.foldl CompletionQueue.raise q

/-- Records raised by one act, in the order given. -/
def State.raiseAll (s : State) (rs : List Record) : State := { s with cq := s.cq.raiseAll rs }

/-- Positions of the records that may stand next: no earlier record of the batch shares a chain with them (R149). -/
def freePositions (batch : List Raised) : List Nat :=
  (List.range batch.length).filter fun j =>
    match batch[j]? with
    | none => false
    | some r => (batch.take j).all fun a => a.1.all fun c => !r.1.contains c

/-- R149: an order of records raised together. Where more than one may stand next, the free value
`Config.recordOrder` says which (log 3). Answers the records and the next free index. -/
def orderBatch : Nat → Nat → List Raised → List Record × Nat
  | 0, n, _ => ([], n)
  | fuel + 1, n, batch =>
    let free := freePositions batch
    let pick := if free.length ≤ 1 then 0 else Config.recordOrder n % free.length
    let n' := if free.length ≤ 1 then n else n + 1
    let j := free.getD pick 0
    match batch[j]? with
    | none => ([], n)
    | some r =>
      let rest := orderBatch fuel n' (batch.eraseIdx j)
      (r.2 :: rest.1, rest.2)

/-- Records raised together at one boundary, one loss or one LINE_DOWN (R149). -/
def State.raiseBatch (s : State) (batch : List Raised) : State :=
  let o := orderBatch batch.length s.freeIdx batch
  { s.raiseAll o.1 with freeIdx := o.2 }

/-! ### Returns (section 5.6) -/

/-- The BUFFER_DONE record of a return (R98 step 4). -/
def Descriptor.done (d : Descriptor) (i : StreamId) (frame : BitVec 16) (st : Status) (count : Nat) : Record :=
  .bufferDone i frame d.tag st count

/-- Steps 2 and 3 of R98 for descriptors returned oldest first: buffers_done advances by one for each, and last_tag
ends with the tag of the newest (R101). -/
def StreamCtx.noteReturns (c : StreamCtx) (ds : List Descriptor) : StreamCtx :=
  { c with
    buffersDone := c.buffersDone + BitVec.ofNat 16 ds.length
    lastTag := match ds.getLast? with
      | some d => some d.tag
      | none => c.lastTag }

/-- R98 for the head: it leaves the queue, the next descriptor becomes head with zero progress (R94) and no
residual bits (R109, R113). R100: an OK return of a descriptor without NOTIFY raises no record. -/
def StreamCtx.returnHead (c : StreamCtx) (i : StreamId) (frame : BitVec 16) (st : Status) (count : Nat) :
    StreamCtx × List Record :=
  match c.queue with
  | [] => (c, [])
  | d :: rest =>
    ({ c.noteReturns [d] with queue := rest, samplesDone := 0, wordsDone := 0, residual := [] },
      if st = .ok ∧ d.notify = false then [] else [d.done i frame st count])

/-- R42: the condition in which every transition into OFF leaves a stream: empty FIFO, no residual bits, zero head
progress, clear episode flags. -/
def StreamCtx.enterOff (c : StreamCtx) : StreamCtx :=
  { c with
    state := .off, fifo := [], residual := [], samplesDone := 0, wordsDone := 0
    underrunEp := false, overrunEp := false }

/-- A sweep that returns the whole queue with one status and count 0 (R101: oldest first), the stream going OFF. -/
def StreamCtx.sweepOff (c : StreamCtx) (i : StreamId) (frame : BitVec 16) (st : Status) :
    StreamCtx × List Record :=
  ({ (c.noteReturns c.queue).enterOff with queue := [] }, c.queue.map fun d => d.done i frame st 0)

/-- A stream's new context is written and the records of its act are raised in order. -/
def State.apply (s : State) (i : StreamId) (r : StreamCtx × List Record) : State :=
  (s.putStream i r.1).raiseAll r.2

/-- Acts of all streams at one moment, in increasing number, each on the state the earlier ones left; their
records are gathered with their chains. -/
def State.eachStream (s : State) (f : State → StreamId → StreamCtx × List Raised) : State × List Raised :=
  allStreams.foldl (fun a i => let r := f a.1 i; (a.1.putStream i r.1, a.2 ++ r.2)) (s, [])

/-! ### Halts (R63, R146) -/

/-- R63: HALTED with a cause; start mode, end fetched and drain fields become absent, everything else is kept. -/
def StreamCtx.halt (c : StreamCtx) (cause : HaltCause) : StreamCtx := { c with state := .halted cause }

/-- R63: a working stream goes HALTED and raises STREAM_HALTED; a stream in OFF or HALTED stays as it is. -/
def State.haltOne (s : State) (i : StreamId) (cause : HaltCause) : State :=
  if (s.stream i).working then
    s.apply i ((s.stream i).halt cause, [.streamHalted i s.line.frame cause])
  else s

/-- R146: the halt of a member with cause XRUN or BUS_FAULT, then the cascade over the other working members of its
group with cause GROUP, in increasing stream number. -/
def State.haltCascade (s : State) (i : StreamId) (cause : HaltCause) : State :=
  let s1 := s.haltOne i cause
  match (s.stream i).group? with
  | none => s1
  | some g => (s1.members g).foldl (fun a j => a.haltOne j .group) s1

/-! ### Slot-map accessors (R22, R31) -/

/-- The other bank. -/
def BankId.other : BankId → BankId
  | .b0 => .b1
  | .b1 => .b0

/-- A bank by its number. -/
def SlotMap.bank (m : SlotMap) : BankId → Vector Entry 32
  | .b0 => m.bank0
  | .b1 => m.bank1

/-- Writes a bank. -/
def SlotMap.putBank (m : SlotMap) (b : BankId) (v : Vector Entry 32) : SlotMap :=
  match b with
  | .b0 => { m with bank0 := v }
  | .b1 => { m with bank1 := v }

/-- The active bank (R22). -/
def SlotMap.activeBank (m : SlotMap) : Vector Entry 32 := m.bank m.active

/-- The shadow bank (R22). -/
def SlotMap.shadowBank (m : SlotMap) : Vector Entry 32 := m.bank m.active.other

/-- R31: the exchange of roles; no entry moves. -/
def SlotMap.swap (m : SlotMap) : SlotMap := { m with active := m.active.other, swapPending := false }

/-- A pending swap takes effect, with the record MAP_SWAPPED (R31). -/
def State.swapIfPending (s : State) (frame : BitVec 16) : State × List Raised :=
  if s.map.swapPending then
    ({ s with map := s.map.swap }, [([.slotMap], .mapSwapped frame s.map.active.other)])
  else (s, [])

/-! ### Host memory (R172, log 4) -/

/-- A word stored at an address: one entry an address, addresses rising. -/
def storeMem (a : Nat) (w : Word) : List (Nat × Word) → List (Nat × Word)
  | [] => [(a, w)]
  | (b, v) :: rest =>
    if a < b then (a, w) :: (b, v) :: rest
    else if a = b then (a, w) :: rest
    else (b, v) :: storeMem a w rest

/-- The word last written at an address, if the list has one. -/
def loadMem (a : Nat) : List (Nat × Word) → Option Word
  | [] => none
  | (b, v) :: rest => if a = b then some v else loadMem a rest

/-- Memory as it stands at an address (R172): what was last written there, or the free value of its start. -/
def State.memoryWord (s : State) (a : Addr) : Word :=
  (loadMem a.toNat s.mem).getD (Config.memoryAtStart a.toNat)

/-- The canonical form: addresses strictly rising. -/
def memWf : List (Nat × Word) → Bool
  | [] => true
  | (_, _) :: [] => true
  | (a, _) :: (b, v) :: rest => decide (a < b) && memWf ((b, v) :: rest)

/-! ### Line positions (R12, R16, R18) -/

/-- The line is up: any state but DISABLED (section 1.1). -/
def LinePort.up (l : LinePort) : Bool := decide (l.state ≠ .disabled)

/-- Frames are served: ALIGNED or FLYWHEEL (section 1.3). -/
def LinePort.served (l : LinePort) : Bool := decide (l.state = .aligned ∨ l.state = .flywheel)

/-- Bit periods of a frame, N·S. -/
def LineFormat.frameBits (f : LineFormat) : Nat := f.slots * f.slotLen

/-- `k` bit periods pass: the transmit shift register gives its bits, then drives nothing, and the loopback delay
line takes what was given; a bit period in which nothing was driven reads as 1 (R16, R18). -/
def LinePort.pass (l : LinePort) (k : Nat) : LinePort :=
  let given := l.txBits.take k ++ List.replicate (k - l.txBits.length) true
  { l with
    bitPos := l.bitPos + k
    txBits := l.txBits.drop k
    driven := (given.reverse ++ l.driven).take (2 * l.fmt.slotLen) }

/-- Time passes up to a bit position of the frame. -/
def LinePort.passTo (l : LinePort) (pos : Nat) : LinePort := l.pass (pos - l.bitPos)

/-- A new frame, or none: what was being shifted or assembled is cut and the positions start again (R9, R13, R17). -/
def LinePort.newFrame (l : LinePort) : LinePort :=
  { l with bitPos := 0, nextSlot := 0, txStream := none, txBits := [], rxBits := [] }

/-- The shift registers are emptied (R5, R19). -/
def LinePort.emptyShift (l : LinePort) : LinePort := { l.newFrame with driven := [] }

end Sys2Proof.Machine
end

