-- ==== Sys2Proof/Machine/Operands.lean ====
section
/-! DEFINITION. The arguments of commands: the staging layouts of section 10.7, read and, for the selector window, written. -/

namespace Sys2Proof.Machine

/-! ### CONFIGURE: STAGE0 to STAGE3 -/

/-- Direction code. -/
def directionOf : Nat → Option Direction
  | 0 => some .tx
  | 1 => some .rx
  | _ => none

/-- Packing code. -/
def packingOf : Nat → Option Packing
  | 0 => some .packed
  | 1 => some .word
  | 2 => some .pair
  | _ => none

/-- Extension code. -/
def extensionOf : Nat → Option Extension
  | 0 => some .none
  | 1 => some .zero
  | 2 => some .sign
  | _ => none

/-- Underrun policy code. -/
def underrunOf : Nat → Option UnderrunPolicy
  | 0 => some .none
  | 1 => some .repeat
  | 2 => some .fill
  | 3 => some .release
  | 4 => some .halt
  | _ => none

/-- Overrun policy code. -/
def overrunOf : Nat → Option OverrunPolicy
  | 0 => some .none
  | 1 => some .drop
  | 2 => some .halt
  | _ => none

/-- Group code: NONE or a group. -/
def groupFieldOf : Nat → Option (Option GroupId)
  | 0 => some (some 0)
  | 1 => some (some 1)
  | 2 => some (some 2)
  | 3 => some (some 3)
  | 4 => some none
  | _ => none

/-- Field 4 of R44: ZERO or SIGN for an RX stream with WORD or PAIR, NONE for any other. -/
def extensionFits (d : Direction) (p : Packing) (e : Extension) : Bool :=
  match d, p with
  | .rx, .word | .rx, .pair => decide (e ≠ .none)
  | .rx, .packed | .tx, _ => decide (e = .none)

/-- Field 5 of R44. -/
def underrunFits (d : Direction) (u : UnderrunPolicy) : Bool :=
  match d with
  | .tx => decide (u ≠ .none)
  | .rx => decide (u = .none)

/-- Field 6 of R44. -/
def overrunFits (d : Direction) (o : OverrunPolicy) : Bool :=
  match d with
  | .rx => decide (o ≠ .none)
  | .tx => decide (o = .none)

/-- Check 2 of R44: the staged configuration, or the number of the first field that fails. The fill pattern and
HALT_ON_LOSS are not checked; fill pattern bits at W and above are not kept (R38). -/
def StreamConfig.parse (slotLen : Nat) (w0 w1 w2 w3 : Word) : Except Nat StreamConfig :=
  match directionOf (field w0 1 0) with
  | none => .error 1
  | some d =>
    let width := field w0 12 8
    if width < 4 ∨ 24 < width ∨ slotLen < width then .error 2 else
    match packingOf (field w0 15 14) with
    | none => .error 3
    | some p =>
      if p = .word ∧ 16 < width then .error 3 else
      match extensionOf (field w0 5 4) with
      | none => .error 4
      | some e =>
        if extensionFits d p e = false then .error 4 else
        match underrunOf (field w1 2 0) with
        | none => .error 5
        | some u =>
          if underrunFits d u = false then .error 5 else
          match overrunOf (field w1 5 4) with
          | none => .error 6
          | some o =>
            if overrunFits d o = false then .error 6 else
            let mark := field w1 11 8
            if mark = 0 ∨ 7 < mark then .error 7 else
            match groupFieldOf (field w1 14 12) with
            | none => .error 8
            | some g =>
              .ok { direction := d, width := width, packing := p, extension := e, underrun := u
                    fill := BitVec.ofNat 24 ((field w3 7 0 * 65536 + w2.toNat) % 2 ^ width)
                    overrun := o, watermark := mark, haltOnLoss := flag w1 15, group := g }

/-- Direction as coded. -/
def Direction.code : Direction → Nat
  | .tx => 0
  | .rx => 1

/-- Packing as coded. -/
def Packing.code : Packing → Nat
  | .packed => 0
  | .word => 1
  | .pair => 2

/-- Extension as coded. -/
def Extension.code : Extension → Nat
  | .none => 0
  | .zero => 1
  | .sign => 2

/-- Underrun policy as coded. -/
def UnderrunPolicy.code : UnderrunPolicy → Nat
  | .none => 0
  | .repeat => 1
  | .fill => 2
  | .release => 3
  | .halt => 4

/-- Overrun policy as coded. -/
def OverrunPolicy.code : OverrunPolicy → Nat
  | .none => 0
  | .drop => 1
  | .halt => 2

/-- Group as coded; 4 is NONE. -/
def groupCode : Option GroupId → Nat
  | none => 4
  | some g => g.val

/-- FIELD_SEL 02H to 05H: the configuration in the layout of CONFIGURE's STAGE0 to STAGE3 (section 10.5). -/
def StreamConfig.words (c : StreamConfig) : Word × Word × Word × Word :=
  (word (c.packing.code * 2 ^ 14 + c.width * 2 ^ 8 + c.extension.code * 2 ^ 4 + c.direction.code),
   word (c.haltOnLoss.toNat * 2 ^ 15 + groupCode c.group * 2 ^ 12 + c.watermark * 2 ^ 8
     + c.overrun.code * 2 ^ 4 + c.underrun.code),
   word (c.fill.toNat % 2 ^ 16),
   word (c.fill.toNat / 2 ^ 16))

/-! ### POST: STAGE0 to STAGE3 -/

/-- The staged descriptor, under the identity `posting` (section 10.7). -/
def Descriptor.parse (posting : Nat) (w0 w1 w2 w3 : Word) : Descriptor :=
  { address := BitVec.ofNat 24 (field w1 7 0 * 65536 + w0.toNat)
    length := field w2 12 0
    endFlag := flag w3 15
    notify := flag w3 14
    tag := BitVec.ofNat 8 (field w3 7 0)
    posting := posting }

/-! ### START and GSTART: STAGE4 and STAGE5 -/

/-- The staged start mode; none for the undefined codes 2 and 3 (section 10.7). -/
def StartMode.parse (w4 w5 : Word) : Option StartMode :=
  match field w4 1 0 with
  | 0 => some .next
  | 1 => some (.at w5)
  | _ => none

/-- R47 check 6: the target is neither the counter itself nor behind it. -/
def StartMode.late (m : StartMode) (frame : BitVec 16) : Bool :=
  match m with
  | .next => false
  | .at f => decide ((f - frame).toNat = 0 ∨ 32768 ≤ (f - frame).toNat)

/-! ### LINE_SET: STAGE0 to STAGE2 -/

/-- Line mode code. -/
def lineModeOf : Nat → Option LineMode
  | 0 => some .follower
  | 1 => some .master
  | 2 => some .loopback
  | _ => none

/-- The range check of R1: the staged format, or none when some setting is out of its range. -/
def LineFormat.parse (w0 w1 w2 : Word) : Option LineFormat :=
  let n := field w0 5 0
  let code := field w0 11 8
  let f := field w1 11 8
  match lineModeOf (field w0 13 12) with
  | none => none
  | some m =>
    if n < 2 ∨ 32 < n ∨ 6 < code ∨ f = 0 then none
    else some { slots := n, slotLen := 8 + 4 * code, mode := m, bclkDiv := field w1 7 0
                flywheel := f, tbDiv := field w2 5 0 }

end Sys2Proof.Machine
end

