-- ==== Sys2Proof/Machine/Layout.lean ====
section
/-! DEFINITION. Chapter 6: footprints, the transmit unpacker, the receive packer, and the counts both depend on. -/

namespace Sys2Proof.Machine

/-- Words of a buffer of `len` samples (R104). -/
def StreamConfig.footprint (c : StreamConfig) (len : Nat) : Nat :=
  match c.packing with
  | .packed => (len * c.width + 15) / 16
  | .word => len
  | .pair => 2 * len

/-- Byte address of word `i` of a buffer (R104). -/
def Descriptor.wordAddr (d : Descriptor) (i : Nat) : Nat := d.address.toNat + 2 * i

/-- R89: the last word of the footprint lies at or below FFFFFEH. -/
def StreamConfig.fits (c : StreamConfig) (d : Descriptor) : Bool :=
  decide (d.wordAddr (c.footprint d.length - 1) ≤ 0xFFFFFE)

/-! ### The transmit unpacker -/

/-- `k` samples of `w` bits cut from a bit list, and the bits left. -/
def cutSamples (w : Nat) : Nat → List Bool → List Sample × List Bool
  | 0, bs => ([], bs)
  | k + 1, bs =>
    let rest := cutSamples w k (bs.drop w)
    (BitVec.ofNat 24 (natOf (bs.take w)) :: rest.1, rest.2)

/-- k of R110 and R111: samples the next word completes, from the residual bit count, the words done and the
samples of the head not yet completed. -/
def StreamConfig.completes (c : StreamConfig) (residual wordsDone left : Nat) : Nat :=
  match c.packing with
  | .packed => min ((residual + 16) / c.width) left
  | .word => 1
  | .pair => if wordsDone % 2 = 0 then 0 else 1

/-- R110, R111: a fetched word becomes samples and residual bits. -/
def StreamConfig.unpack (c : StreamConfig) (residual : List Bool) (wordsDone left : Nat) (w : Word) :
    List Sample × List Bool :=
  match c.packing with
  | .packed =>
    cutSamples c.width (c.completes residual.length wordsDone left) (residual ++ bitsOf 16 w.toNat)
  | .word => ([BitVec.ofNat 24 (w.toNat % 2 ^ c.width)], [])
  | .pair =>
    if wordsDone % 2 = 0 then ([], bitsOf (c.width - 16) w.toNat)
    else ([BitVec.ofNat 24 (natOf (residual ++ bitsOf 16 w.toNat) % 2 ^ c.width)], [])

/-! ### The receive packer -/

/-- R108: a bit of the extension. -/
def Extension.bit (e : Extension) (width : Nat) (x : Sample) : Bool :=
  match e with
  | .sign => x.toNat.testBit (width - 1)
  | .zero | .none => false

/-- R113: the bits one taken sample appends. -/
def StreamConfig.sampleBits (c : StreamConfig) (x : Sample) : List Bool :=
  match c.packing with
  | .packed => bitsOf c.width x.toNat
  | .word => List.replicate (16 - c.width) (c.extension.bit c.width x) ++ bitsOf c.width x.toNat
  | .pair => List.replicate (32 - c.width) (c.extension.bit c.width x) ++ bitsOf c.width x.toNat

/-- R116: samples needed for one word, with `r` residual bits and `m` samples of the head not yet taken. -/
def StreamConfig.needed (c : StreamConfig) (r m : Nat) : Nat :=
  match c.packing with
  | .packed => if 16 ≤ r then 0 else min m ((16 - r + c.width - 1) / c.width)
  | .word => 1
  | .pair => if 16 ≤ r then 0 else 1

/-- Steps 1 and 2 of R114: samples taken, oldest first, until 16 residual bits or the head's last sample. Answers
the residual bits, the FIFO left, the samples counted at their take, and those that wait for the store (R115). -/
def takeSamples (c : StreamConfig) : Nat → List Bool → List Sample → List Bool × List Sample × Nat × Nat
  | _, r, [] => (r, [], 0, 0)
  | m, r, x :: xs =>
    if 16 ≤ r.length ∨ m = 0 then (r, x :: xs, 0, 0)
    else
      let r' := r ++ c.sampleBits x
      if 16 ≤ r'.length then (r', xs, 0, 1)
      else
        let t := takeSamples c (m - 1) r' xs
        (t.1, t.2.1, t.2.2.1 + 1, t.2.2.2)

/-- RX in DRAINING with drain kind STOP (R56). -/
def StreamCtx.flushing (c : StreamCtx) : Bool :=
  match c.state with
  | .draining .stop _ => true
  | .draining .ended _ | .off | .armed _ _ | .running | .stopping | .halted _ => false

/-- R114: the preparation of the next word of the head. Answers the stream after the takes, the word, and the
samples taken for it and not yet counted; none when no word is prepared (and then nothing is taken). -/
def StreamCtx.prepare (c : StreamCtx) (cfg : StreamConfig) (d : Descriptor) : Option (StreamCtx × Word × Nat) :=
  let m := d.length - c.samplesDone
  if c.flushing = true ∨ cfg.needed c.residual.length m ≤ c.fifo.length then
    let t := takeSamples cfg m c.residual c.fifo
    let r := t.1
    let c' := { c with fifo := t.2.1, samplesDone := c.samplesDone + t.2.2.1 }
    if 16 ≤ r.length then
      some ({ c' with residual := r.drop 16 }, word (natOf (r.take 16)), t.2.2.2)
    else if r ≠ [] ∧ (m ≤ t.2.2.1 + t.2.2.2 ∨ (c.flushing = true ∧ t.2.1 = [])) then
      some ({ c' with residual := [] }, word (natOf (r ++ List.replicate (16 - r.length) false)), t.2.2.2)
    else none
  else none

end Sys2Proof.Machine
end

