-- ==== Sys2Proof/Machine/Requests.lean ====
section
/-! DEFINITION. Service requests (section 4.5): presence and class, worked out from the stream as it stands (R81). -/

namespace Sys2Proof.Machine

/-- A request of the urgent class (true) or the normal class (false), or none (section 4.5). -/
abbrev Request := Option Bool

/-- R78 condition 1 and the ARMED half of condition 2; also condition 1 of R127. -/
def StreamCtx.mayFetch (c : StreamCtx) : Bool :=
  match c.state with
  | .armed _ endFetched => !endFetched
  | .running | .stopping => true
  | .off | .draining _ _ | .halted _ => false

/-- Condition 1 of R128. -/
def StreamCtx.mayStore (c : StreamCtx) : Bool :=
  match c.state with
  | .running | .stopping | .draining _ _ => true
  | .off | .armed _ _ | .halted _ => false

/-- R112: the FIFO has room for every sample the next word of the head completes. -/
def StreamCtx.roomCheck (c : StreamCtx) (cfg : StreamConfig) (d : Descriptor) : Bool :=
  decide (c.fifo.length + cfg.completes c.residual.length c.wordsDone (d.length - c.samplesDone)
    ≤ Config.fifoDepth)

/-- R78 and R80 for a transmit stream. -/
def StreamCtx.txRequest (c : StreamCtx) (cfg : StreamConfig) (d : Descriptor) : Request :=
  if c.mayFetch = true ∧ c.fifo.length ≤ cfg.watermark ∧ c.roomCheck cfg d = true then
    some (decide (c.state = .running ∧ c.fifo.length ≤ 1))
  else none

/-- R79 and R80 for a receive stream; `uncounted` samples were taken for the word in flight (R115). -/
def StreamCtx.rxRequest (c : StreamCtx) (cfg : StreamConfig) (d : Descriptor) (uncounted : Nat) : Request :=
  match c.state with
  | .draining _ _ => some true
  | .running | .stopping =>
    if cfg.watermark ≤ c.fifo.length
        ∧ cfg.needed c.residual.length (d.length - (c.samplesDone + uncounted)) ≤ c.fifo.length then
      some (decide (7 ≤ c.fifo.length))
    else none
  | .off | .armed _ _ | .halted _ => none

/-- A stream's request. Without a descriptor at the head there is none (R78 condition 2, R79). -/
def StreamCtx.request (c : StreamCtx) (uncounted : Nat) : Request :=
  match c.cfg, c.queue with
  | some cfg, d :: _ =>
    match cfg.direction with
    | .tx => c.txRequest cfg d
    | .rx => c.rxRequest cfg d uncounted
  | _, _ => none

/-- The posting served by the move in progress is the head of stream `i` (R126, R134). -/
def State.servesHead (s : State) (i : StreamId) : Bool :=
  match s.mover.move, (s.stream i).queue with
  | some m, d :: _ => decide (m.stream = i ∧ m.posting = d.posting)
  | _, _ => false

/-- A word of the head of stream `i` is in flight (R136). -/
def State.headInFlight (s : State) (i : StreamId) : Bool :=
  s.mover.inFlight.isSome && s.servesHead i

/-- Samples of the head of stream `i` taken and not yet counted: those of the word in flight (R93, R115). -/
def State.uncounted (s : State) (i : StreamId) : Nat :=
  match s.mover.inFlight with
  | some w => if s.servesHead i then w.uncounted else 0
  | none => 0

/-- The request stream `i` presents now. -/
def State.request (s : State) (i : StreamId) : Request := (s.stream i).request (s.uncounted i)

/-- Some stream presents a request (R119). -/
def State.anyRequest (s : State) : Bool := allStreams.any fun i => (s.request i).isSome

end Sys2Proof.Machine
end

