-- ==== Sys2Proof/Machine/Mover.lean ====
section
/-! DEFINITION. The Memory Mover (chapter 7): choice, moves, word transfers, the end of a tenure, a bus fault. -/

namespace Sys2Proof.Machine

/-! ### The end of a tenure (R121) -/

/-- R121: BREQ falls, the limit becomes absent, any move ends; the word count keeps its final value. -/
def State.endTenure (s : State) : State :=
  { s with mover := { s.mover with
      bus := .waitLow, limit := none, move := none, inFlight := none, yielded := false } }

/-! ### A word transfer starts (R126 to R128, R130) -/

/-- R130: the address is driven, the ready timer is loaded; the move's copy goes on by one word (R126). -/
def State.launch (s : State) (m : Move) (w : Word) (uncounted : Nat) : State :=
  { s with mover := { s.mover with
      move := some { m with nextAddr := m.nextAddr + 2, wordsLeft := m.wordsLeft - 1 }
      inFlight := some { addr := m.nextAddr, dir := m.dir, word := w, timer := s.mover.readyTimeout
                         uncounted := uncounted } } }

/-- R127 and R128, conditions 1 to 3: the next word transfer of the move, or none when the move ends. The
preparation of an RX word is part of its start. -/
def State.nextWord (s : State) (m : Move) : Option State :=
  match (s.stream m.stream).cfg, (s.stream m.stream).queue with
  | some cfg, d :: _ =>
    if d.posting = m.posting ∧ 0 < m.wordsLeft then
      match m.dir with
      | .tx =>
        if (s.stream m.stream).mayFetch = true ∧ (s.stream m.stream).roomCheck cfg d = true then
          some (s.launch m 0 0)
        else none
      | .rx =>
        if (s.stream m.stream).mayStore = true then
          match (s.stream m.stream).prepare cfg d with
          | some (c, w, u) => some ((s.putStream m.stream c).launch m w u)
          | none => none
        else none
    else none
  | _, _ => none

/-! ### Choosing a stream (R124, R125) -/

/-- Streams in the order of the search: after the pointer, wrapping, the pointer's own stream last (R124). -/
def searchOrder (pointer : StreamId) : List StreamId :=
  allStreams.map fun k => pointer + k + 1

/-- R124: the first stream of the urgent class, or else of the normal class. -/
def State.choice (s : State) : Option StreamId :=
  match (searchOrder s.mover.pointer).find? (fun i => decide (s.request i = some true)) with
  | some i => some i
  | none => (searchOrder s.mover.pointer).find? (fun i => decide (s.request i = some false))

/-- R126: what the Mover records at the start of a move for stream `i`. -/
def State.moveFor (s : State) (i : StreamId) : Option Move :=
  match (s.stream i).cfg, (s.stream i).queue with
  | some cfg, d :: _ =>
    some { stream := i, dir := cfg.direction, posting := d.posting
           nextAddr := BitVec.ofNat 24 (d.wordAddr (s.stream i).wordsDone)
           wordsLeft := cfg.footprint d.length - (s.stream i).wordsDone }
  | _, _ => none

/-- R124 to R126, R129: a choice, the pointer set, and the first word of the new move; with no request present the
tenure ends (R121). A chosen stream always has a word to transfer (R126; log 23). -/
def State.chooseMove (s : State) : State :=
  match s.choice with
  | none => s.endTenure
  | some i =>
    let s1 := { s with mover := { s.mover with pointer := i, move := none } }
    match s1.moveFor i with
    | none => s1.endTenure
    | some m =>
      match s1.nextWord m with
      | some s2 => s2
      | none => s1.endTenure

/-- R120: a tenure begins; it is empty when BYLD is asserted or no request is present. -/
def State.beginTenure (s : State) : State :=
  let s1 := { s with mover := { s.mover with
    bus := .holding, wordCount := 0, limit := some s.mover.tenureMax, yielded := false } }
  if s.mover.byld then s1.endTenure else s1.chooseMove

/-- R119: in IDLE a request makes the Mover ask; BGNT still asserted is then taken as arriving at that moment. -/
def State.pollMover (s : State) : State :=
  if s.mover.bus = .idle ∧ s.anyRequest = true then
    let s1 := { s with mover := { s.mover with bus := .requesting } }
    if s.mover.bgnt then s1.beginTenure else s1
  else s

/-- R127, R129 after a completion: the tenure ends at its limit (R122) or when it was yielded (R123); otherwise the
move goes on with its next word, or a new choice is made. BYLD that arrives together with RDY stands before it in the
queue (DESIGN CHOICE, log 33). -/
def State.goOn (s : State) (m : Move) : State :=
  if s.mover.limit.any (fun l => decide (l ≤ s.mover.wordCount)) || s.mover.yielded then s.endTenure
  else match s.nextWord m with
    | some s1 => s1
    | none => s.chooseMove

/-! ### A word transfer completes (R130) -/

/-- The END descriptor's last sample has been fetched: R57 in RUNNING, R50 in ARMED, R53 in STOPPING; a halted
stream makes no transition (R133). -/
def StreamCtx.endReached (c : StreamCtx) : StreamCtx :=
  match c.state with
  | .running => { c with state := .draining .ended false }
  | .armed m _ => { c with state := .armed m true }
  | .off | .stopping | .draining _ _ | .halted _ => c

/-- R130 for a read: the unpacker, the FIFO, the head progress (R92), and the completion point (R95). -/
def StreamCtx.fetchWord (c : StreamCtx) (i : StreamId) (frame : BitVec 16) (w : Word) : StreamCtx × List Record :=
  match c.cfg, c.queue with
  | some cfg, d :: _ =>
    let u := cfg.unpack c.residual c.wordsDone (d.length - c.samplesDone) w
    let c1 := { c with
      fifo := c.fifo ++ u.1, residual := u.2
      samplesDone := c.samplesDone + u.1.length, wordsDone := c.wordsDone + 1 }
    if d.length ≤ c1.samplesDone then
      let r := c1.returnHead i frame .ok d.length
      (if d.endFlag then r.1.endReached else r.1, r.2)
    else (c1, [])
  | _, _ => (c, [])

/-- The end of an RX drain or flush: samples still in the FIFO are discarded, the stream goes OFF and STREAM_STOPPED
stands after the returns (R56, R60). -/
def StreamCtx.drained (r : StreamCtx × List Record) (i : StreamId) (frame : BitVec 16) (cause : StopCause) :
    StreamCtx × List Record :=
  (r.1.enterOff, r.2 ++ [.streamStopped i frame cause r.1.fifo.length])

/-- R130 for a write: words done, the sample of the word counted (R93, R115), the completion point (R96) with the
end of a drain (R60) or of a flush (R56); a halted stream makes no transition (R133). -/
def StreamCtx.storeWord (c : StreamCtx) (i : StreamId) (frame : BitVec 16) (uncounted : Nat) :
    StreamCtx × List Record :=
  match c.cfg, c.queue with
  | some cfg, d :: _ =>
    let c1 := { c with samplesDone := c.samplesDone + uncounted, wordsDone := c.wordsDone + 1 }
    if d.length ≤ c1.samplesDone ∧ cfg.footprint d.length ≤ c1.wordsDone then
      let r := c1.returnHead i frame .ok d.length
      match c.state with
      | .draining .stop _ => StreamCtx.drained r i frame .stop
      | .draining .ended _ => if d.endFlag then StreamCtx.drained r i frame .ended else r
      | .off | .armed _ _ | .running | .stopping | .halted _ => r
    else if c.flushing = true ∧ c1.fifo = [] ∧ c1.residual = [] then
      StreamCtx.drained (c1.returnHead i frame .short c1.samplesDone) i frame .stop
    else (c1, [])
  | _, _ => (c, [])

/-- What the word in flight does to its stream at its completion; nothing when its posting has been returned (R134). -/
def State.takeWord (s : State) (m : Move) (w : InFlight) (data : Word) : State :=
  if s.servesHead m.stream then
    match w.dir with
    | .tx => s.apply m.stream ((s.stream m.stream).fetchWord m.stream s.line.frame data)
    | .rx => s.apply m.stream ((s.stream m.stream).storeWord m.stream s.line.frame w.uncounted)
  else s

/-- R172: the word a fetch reads, memory as it stands: the host's, where it has written since, or what is there. -/
def State.fetched (s : State) (w : InFlight) (hostWrote : Option Word) : Word :=
  hostWrote.getD (s.memoryWord w.addr)

/-- Memory at the memory's answer: a stored word is in it, taken or discarded (R130, R134); a fetch finds what the
host has written (R172). -/
def State.memAt (s : State) (w : InFlight) (hostWrote : Option Word) : List (Nat × Word) :=
  match w.dir, hostWrote with
  | .rx, _ => storeMem w.addr.toNat w.word s.mem
  | .tx, some x => storeMem w.addr.toNat x s.mem
  | .tx, none => s.mem

/-- R130, R133, R134: RDY arrives. With no word in flight it changes nothing. -/
def State.completeWord (s : State) (hostWrote : Option Word) : State :=
  match s.mover.move, s.mover.inFlight with
  | some m, some w =>
    let s1 := { s.takeWord m w (s.fetched w hostWrote) with mem := s.memAt w hostWrote }
    let s2 := { s1 with mover := { s1.mover with wordCount := s1.mover.wordCount + 1, inFlight := none } }
    s2.goOn m
  | _, _ => s

/-! ### A bus fault, a yield -/

/-- R132: BUS_FAULT is raised, a working stream goes HALTED with the cascade, the move and the tenure end. With no
word in flight no ready timer runs. -/
def State.faultWord (s : State) : State :=
  match s.mover.move, s.mover.inFlight with
  | some m, some w =>
    let s1 := s.raiseAll [.busFault m.stream s.line.frame w.addr]
    (if (s1.stream m.stream).working then s1.haltCascade m.stream .busFault else s1).endTenure
  | _, _ => s

/-- R123: BYLD asserted, or BGNT withdrawn, while HOLDING: the tenure ends at once with no word in flight, otherwise
after it. In any other bus state nothing happens. -/
def State.yieldBus (s : State) : State :=
  if s.mover.bus = .holding then
    if s.mover.inFlight.isSome then { s with mover := { s.mover with yielded := true } } else s.endTenure
  else s

/-! ### What follows every event that touches a stream -/

/-- R16: when the stream whose sample is being shifted has left RUNNING, STOPPING or DRAINING, TXD is released from
the next bit period. -/
def State.cutShift (s : State) : State :=
  match s.line.txStream with
  | none => s
  | some i =>
    if (s.stream i).driving then s
    else { s with line := { s.line with txStream := none, txBits := s.line.txBits.take 1 } }

/-- R139: a pending START is cleared the moment no member is ARMED, a pending STOP the moment none is STOPPING. -/
def State.groupActionNow (s : State) (g : GroupId) : GroupAction :=
  match s.groups[g.val]'g.isLt with
  | .none => .none
  | .start m => if (s.members g).any fun i => (s.stream i).isArmed then .start m else .none
  | .stop => if (s.members g).any fun i => decide ((s.stream i).state = .stopping) then .stop else .none

/-- R139 for the four groups. -/
def State.clearGroups (s : State) : State :=
  { s with groups := allGroups.foldl (fun v g => v.set g.val (s.groupActionNow g) g.isLt) s.groups }

/-- What follows at once from a change of a stream: R16, R139 and R119. -/
def State.settle (s : State) : State := s.cutShift.clearGroups.pollMover

end Sys2Proof.Machine
end

