-- ==== Sys2Proof/Machine/Stops.lean ====
section
/-! DEFINITION. Starts, stops and drains of one stream (sections 3.5 to 3.7), the frame boundary (R13) and the loss of alignment (R11). -/

namespace Sys2Proof.Machine

/-! ### One stream -/

/-- R48: the arming of an accepted START. -/
def StreamCtx.arm (c : StreamCtx) (m : StartMode) : StreamCtx :=
  { c with state := .armed m false, underrunEp := false, overrunEp := false, lastSample := none }

/-- R54: the stop of a TX stream. -/
def StreamCtx.stopTx (c : StreamCtx) (i : StreamId) (frame : BitVec 16) : StreamCtx × List Record :=
  let returns := match c.queue with
    | [] => []
    | d :: rest =>
      (if 0 < c.samplesDone then d.done i frame .short c.samplesDone else d.done i frame .cancelled 0)
        :: rest.map fun e => e.done i frame .cancelled 0
  ({ (c.noteReturns c.queue).enterOff with queue := [] },
    returns ++ [.streamStopped i frame .stop c.fifo.length])

/-- R55: the stop of an RX stream; a word of the head in flight counts as bits the packer holds (R136). Where the
head returns it returns first (R87, R101; log 7). -/
def StreamCtx.stopRx (c : StreamCtx) (i : StreamId) (frame : BitVec 16) (inFlight : Bool) :
    StreamCtx × List Record :=
  match c.queue with
  | [] => ({ c.enterOff with queue := [] }, [.streamStopped i frame .stop c.fifo.length])
  | d :: rest =>
    let later := rest.map fun e => e.done i frame .cancelled 0
    if c.fifo = [] ∧ c.residual = [] ∧ inFlight = false then
      let first := if 0 < c.samplesDone then d.done i frame .short c.samplesDone else d.done i frame .cancelled 0
      ({ (c.noteReturns c.queue).enterOff with queue := [] },
        first :: later ++ [.streamStopped i frame .stop 0])
    else
      ({ c.noteReturns rest with state := .draining .stop false, queue := [d] }, later)

/-- The stop of a stream, by its direction (R54, R55). -/
def StreamCtx.stopNow (c : StreamCtx) (i : StreamId) (frame : BitVec 16) (inFlight : Bool) :
    StreamCtx × List Record :=
  match c.cfg with
  | some cfg =>
    match cfg.direction with
    | .tx => c.stopTx i frame
    | .rx => c.stopRx i frame inFlight
  | none => c.stopTx i frame

/-- R51: STOP in ARMED. -/
def StreamCtx.stopArmed (c : StreamCtx) (i : StreamId) (frame : BitVec 16) : StreamCtx × List Record :=
  let r := c.sweepOff i frame .cancelled
  (r.1, r.2 ++ [.streamStopped i frame .stop c.fifo.length])

/-- R65 for a stream that is not OFF, with or without STREAM_STOPPED (R66: CLEAR raises none). -/
def StreamCtx.abortNow (c : StreamCtx) (i : StreamId) (frame : BitVec 16) (report : Bool) :
    StreamCtx × List Record :=
  let r := c.sweepOff i frame .aborted
  ({ r.1 with lastSample := none },
    r.2 ++ (if report then [.streamStopped i frame .abort c.fifo.length] else []))

/-- R65 in OFF: the descriptors return, and nothing else happens. -/
def StreamCtx.abortOff (c : StreamCtx) (i : StreamId) (frame : BitVec 16) : StreamCtx × List Record :=
  ({ c.noteReturns c.queue with queue := [] }, c.queue.map fun d => d.done i frame .aborted 0)

/-- The boundary that opens `frame` is the start boundary of this mode (R49). -/
def StartMode.fires (m : StartMode) (frame : BitVec 16) : Bool :=
  match m with
  | .next => true
  | .at f => decide (f = frame)

/-- The chains a stream's record belongs to: the stream's own, and its group's where a group rule orders it (R149). -/
def StreamCtx.chains (c : StreamCtx) (i : StreamId) (g : GroupId → Chain) : List Chain :=
  match c.group? with
  | none => [.stream i]
  | some k => [.stream i, g k]

/-- What a frame boundary does to one stream: a start (R49, R50, R142), a stop (R54, R55, R143), the end of a TX
drain (R58). -/
def StreamCtx.atBoundary (c : StreamCtx) (i : StreamId) (frame : BitVec 16) (inFlight : Bool) :
    StreamCtx × List Raised :=
  match c.state with
  | .armed m endFetched =>
    if m.fires frame then
      ({ c with state := if endFetched then .draining .ended false else .running },
        [(c.chains i .groupStart, .streamStarted i frame)])
    else (c, [])
  | .stopping =>
    let r := c.stopNow i frame inFlight
    (r.1, r.2.map fun x => (c.chains i .groupStop, x))
  | .draining .ended true =>
    (c.enterOff, [([.stream i], .streamStopped i frame .ended 0)])
  | .draining .ended false | .draining .stop _ | .off | .running | .halted _ => (c, [])

/-- R11 step 1 for one stream: a pending stop completes as if a boundary had come. -/
def StreamCtx.stopAtLoss (c : StreamCtx) (i : StreamId) (frame : BitVec 16) (inFlight : Bool) :
    StreamCtx × List Raised :=
  if c.state = .stopping then
    let r := c.stopNow i frame inFlight
    (r.1, r.2.map fun x => (c.chains i .groupStop, x))
  else (c, [])

/-- R11 step 2: the stream was RUNNING or DRAINING at the loss and its HALT_ON_LOSS is set. -/
def StreamCtx.haltsOnLoss (c : StreamCtx) : Bool :=
  match c.cfg with
  | none => false
  | some cfg =>
    cfg.haltOnLoss && match c.state with
      | .running | .draining _ _ => true
      | .off | .armed _ _ | .stopping | .halted _ => false

/-- A halt among others at one moment (R63), with its record. -/
def StreamCtx.haltRaised (c : StreamCtx) (i : StreamId) (frame : BitVec 16) (cause : HaltCause) :
    StreamCtx × List Raised :=
  (c.halt cause, [(c.chains i .groupHalt, .streamHalted i frame cause)])

/-! ### The frame boundary (R13) -/

/-- R13, R14: the counter advances, a pending swap takes effect (R31), the streams' deferred actions are carried out
(R49, R54, R55, R58, R142, R143), and the slots of the new frame go to the streams configured now (R15, R45).
`lp` are the line port's own records, with the number of the frame that opens. -/
def State.boundary (s : State) (lp : BitVec 16 → List Record) : State :=
  let frame := s.line.frame + 1
  let s1 := { s with line := { s.line.newFrame with frame := frame, frameWidths := s.streams.map StreamCtx.width? } }
  let a := s1.swapIfPending frame
  let b := a.1.eachStream fun t i => (t.stream i).atBoundary i frame (t.headInFlight i)
  b.1.raiseBatch ((lp frame).map (fun r => ([.linePort], r)) ++ a.2 ++ b.2)

/-! ### The loss of alignment (R10, R11) -/

/-- R10 and R11: the line goes to HUNT with ALIGN_LOST, pending stops complete, the streams with HALT_ON_LOSS halt
and then their groups (R146, R147), and a pending swap takes effect. R147's order of the STREAM_HALTED records, those of
cause ALIGN in increasing stream number and then those of cause GROUP, names no group; the model keeps it inside each
group, by the chain `groupHalt`, and leaves records of different groups, and of ungrouped streams, in the free order of
R149 (DESIGN CHOICE, log 35). -/
def State.loseAlignment (s : State) : State :=
  let frame := s.line.frame
  let s1 := { s with line := { s.line.newFrame with state := .hunt, miss := 0 } }
  let stops := s1.eachStream fun t i => (t.stream i).stopAtLoss i frame (t.headInFlight i)
  let aligns := stops.1.eachStream fun t i =>
    if (s.stream i).haltsOnLoss then (t.stream i).haltRaised i frame .align else (t.stream i, [])
  let hit := fun g : GroupId => (s.members g).any fun i => (s.stream i).haltsOnLoss
  let cascades := aligns.1.eachStream fun t i =>
    if (t.stream i).working = true ∧ (t.stream i).group?.any hit = true then
      (t.stream i).haltRaised i frame .group
    else (t.stream i, [])
  let swapped := cascades.1.swapIfPending frame
  swapped.1.raiseBatch
    ([([.linePort], .alignLost frame)] ++ stops.2 ++ aligns.2 ++ cascades.2 ++ swapped.2)

/-- R20 and R19: LINE_DOWN of an up line. -/
def State.takeLineDown (s : State) : State :=
  let frame := s.line.frame
  let s1 := { s with line := { s.line.emptyShift with state := .disabled, miss := 0, lowSeen := false } }
  let halts := s1.eachStream fun t i =>
    if (t.stream i).working then ((t.stream i).halt .line, [([.stream i], .streamHalted i frame .line)])
    else (t.stream i, [])
  let swapped := halts.1.swapIfPending frame
  swapped.1.raiseBatch (halts.2 ++ swapped.2)

end Sys2Proof.Machine
end

