-- ==== Sys2Proof/Machine/Commands.lean ====
section
/-! DEFINITION. How a COMMAND write is taken (R167, R168), and its two outcomes: refused or accepted. -/

namespace Sys2Proof.Machine

/-- The number a RESULT_DETAIL or RESULT code holds (R168). -/
def ResultCode.code : ResultCode → Nat
  | .ok => 0x00
  | .badOp => 0x01
  | .badStream => 0x02
  | .badParam => 0x03
  | .state => 0x04
  | .unconfigured => 0x05
  | .empty => 0x06
  | .queueFull => 0x07
  | .poolEmpty => 0x08
  | .badLength => 0x09
  | .badAddress => 0x0A
  | .conflict => 0x0B
  | .busy => 0x0C
  | .late => 0x0D
  | .grouped => 0x0E
  | .groupNotReady => 0x0F
  | .lineUpErr => 0x10

/-- A command's state afterwards, its result code and its detail. -/
abbrev Answer := State × ResultCode × Word

/-- A refused command changes no state and raises no record (R43). -/
def State.refuse (s : State) (code : ResultCode) (detail : Nat) : Answer := (s, code, word detail)

/-- An accepted command. -/
def State.accept (s : State) (detail : Nat) : Answer := (s, .ok, word detail)

/-- R167, R168: COMMAND keeps what was written, RESULT and RESULT_DETAIL take the outcome. While RESET is low no
slave access is taken (R171). -/
def State.runCommand (s : State) (op arg : Byte) (run : State → Answer) : State :=
  if s.resetLow then s
  else
    let r := run s
    { r.1 with win := { r.1.win with
        command := op ++ arg, resultOp := op, resultCode := r.2.1, detail := r.2.2 } }

/-- R43: a stream number above 15 is refused with BAD_STREAM before any other check. -/
def State.forStream (s : State) (arg : Byte) (run : StreamId → Answer) : Answer :=
  match streamOf arg with
  | none => s.refuse .badStream 0
  | some i => run i

/-- R140, R143, R144: a group number above 3 is refused with BAD_PARAM. -/
def State.forGroup (s : State) (arg : Byte) (run : GroupId → Answer) : Answer :=
  match groupOf arg with
  | none => s.refuse .badParam 0
  | some g => run g

/-- A staging word (R169). -/
def State.stageWord (s : State) (k : Fin 6) : Word := s.win.stage[k.val]'k.isLt

/-- An event inside the part or at a pin: while RESET stays low the part holds its values (R171). -/
def State.event (s : State) (run : State → State) : State := if s.resetLow then s else run s

/-- A write of the host to the window: not taken while RESET is low (R171). -/
def State.hostWrite (s : State) (run : Window → Window) : State :=
  if s.resetLow then s else { s with win := run s.win }

end Sys2Proof.Machine
end

