-- ==== Sys2Proof/Machine/Streams.lean ====
section
/-! DEFINITION. The stream commands: CONFIGURE, DECONFIGURE, POST, START, STOP, ABORT, CLEAR (chapters 3 and 5). -/

namespace Sys2Proof.Machine

/-- The outcome of a meaning. -/
abbrev Outcome := Host.Outcome State Fault Refusal

/-! ### CONFIGURE, DECONFIGURE -/

/-- R33: the lowest entry of a bank that names `i` with a direction other than `d`, from entry `k` on. -/
def conflictFrom (i : StreamId) (d : Direction) : Nat → List Entry → Option Nat
  | _, [] => none
  | k, e :: rest =>
    match e with
    | some (j, x) => if j = i ∧ x ≠ d then some k else conflictFrom i d (k + 1) rest
    | none => conflictFrom i d (k + 1) rest

/-- R45: the slots of the frame already being served are not presented to the stream. -/
def State.leaveFrame (s : State) (i : StreamId) : State :=
  { s with line := { s.line with frameWidths := s.line.frameWidths.set i.val none i.isLt } }

/-- R45, R46: the context under a new configuration, or under none. Last sample sent is present for TX only and loses
its value when it becomes absent (R39; log 20). -/
def StreamCtx.reconfigure (c : StreamCtx) (cfg : Option StreamConfig) : StreamCtx :=
  { c with
    cfg := cfg
    lastSample := if cfg.map StreamConfig.direction = some .tx then c.lastSample else none }

/-- CONFIGURE i: the checks of R44 in order, then R45. -/
def State.configure (s : State) (i : StreamId) : Answer :=
  let c := s.stream i
  if c.state ≠ .off ∨ c.queue ≠ [] then s.refuse .state c.queue.length
  else
    match StreamConfig.parse s.line.fmt.slotLen (s.stageWord 0) (s.stageWord 1) (s.stageWord 2) (s.stageWord 3) with
    | .error n => s.refuse .badParam n
    | .ok cfg =>
      if s.map.swapPending then s.refuse .busy 0
      else
        match conflictFrom i cfg.direction 0 s.map.activeBank.toList with
        | some k => s.refuse .conflict k
        | none => ((s.putStream i (c.reconfigure (some cfg))).leaveFrame i).accept 0

/-- CONFIGURE (R44, R45). -/
def execConfigure (operand : Byte) (s : State) : Outcome :=
  .next (s.runCommand 0x01 operand fun s => s.forStream operand s.configure)

/-- DECONFIGURE i (R46). The slots of the frame being served stay the stream's until the next boundary (R34). -/
def State.deconfigure (s : State) (i : StreamId) : Answer :=
  let c := s.stream i
  if c.state ≠ .off ∨ c.queue ≠ [] then s.refuse .state c.queue.length
  else (s.putStream i (c.reconfigure none)).accept 0

/-- DECONFIGURE (R46). -/
def execDeconfigure (operand : Byte) (s : State) : Outcome :=
  .next (s.runCommand 0x02 operand fun s => s.forStream operand s.deconfigure)

/-! ### POST -/

/-- Check 3 of R88. -/
def StreamCtx.takesPost (c : StreamCtx) : Bool :=
  (match c.state with
    | .off | .armed _ false | .running => true
    | .armed _ true | .stopping | .draining _ _ | .halted _ => false)
  && (match c.queue.getLast? with
    | some d => !d.endFlag
    | none => true)

/-- R59: the samples accepted cover the whole queue, whose last descriptor carries END. -/
def StreamCtx.endCondition (c : StreamCtx) (uncounted : Nat) : Bool :=
  (match c.queue.getLast? with
    | some d => d.endFlag
    | none => false)
  && decide ((c.queue.map Descriptor.length).sum ≤ c.samplesDone + uncounted + c.fifo.length)

/-- R59: an RX stream in RUNNING or STOPPING tests its END condition; when true it goes DRAINING with kind END. -/
def StreamCtx.testEnd (c : StreamCtx) (uncounted : Nat) : StreamCtx :=
  match c.cfg with
  | none => c
  | some cfg =>
    if cfg.direction = .rx ∧ (c.state = .running ∨ c.state = .stopping) ∧ c.endCondition uncounted = true then
      { c with state := .draining .ended false }
    else c

/-- R90: the descriptor joins the tail; R59: a POST with END tests the END condition. -/
def StreamCtx.enqueue (c : StreamCtx) (d : Descriptor) (uncounted : Nat) : StreamCtx :=
  let c1 := { c with queue := c.queue ++ [d], postedTotal := c.postedTotal + 1 }
  if d.endFlag then c1.testEnd uncounted else c1

/-- POST i: the checks of R88 in order, then R90. R88 gives check 5 a detail of 1 for an odd address and of 2 for a
footprint past the top, and no order between them; an address that is both is answered 1 (DESIGN CHOICE, log 32). -/
def State.post (s : State) (i : StreamId) : Answer :=
  let c := s.stream i
  let d := Descriptor.parse s.nextPosting (s.stageWord 0) (s.stageWord 1) (s.stageWord 2) (s.stageWord 3)
  match c.cfg with
  | none => s.refuse .unconfigured 0
  | some cfg =>
    if c.takesPost = false then s.refuse .state 0
    else if d.length = 0 ∨ 4096 < d.length then s.refuse .badLength 0
    else if d.address.toNat % 2 = 1 then s.refuse .badAddress 1
    else if cfg.fits d = false then s.refuse .badAddress 2
    else if Config.queueDepth ≤ c.queue.length then s.refuse .queueFull 8
    else if s.free = 0 then s.refuse .poolEmpty 0
    else
      let s1 := s.putStream i (c.enqueue d (s.uncounted i))
      (State.settle { s1 with nextPosting := s.nextPosting + 1 }).accept (c.queue.length + 1)

/-- POST (R88 to R90). -/
def execPost (operand : Byte) (s : State) : Outcome :=
  .next (s.runCommand 0x03 operand fun s => s.forStream operand s.post)

/-! ### START, STOP -/

/-- START i: the checks of R47 in order, then R48. -/
def State.startStream (s : State) (i : StreamId) : Answer :=
  let c := s.stream i
  match c.cfg with
  | none => s.refuse .unconfigured 0
  | some cfg =>
    match cfg.group with
    | some g => s.refuse .grouped g.val
    | none =>
      if c.state ≠ .off then s.refuse .state 0
      else
        match StartMode.parse (s.stageWord 4) (s.stageWord 5) with
        | none => s.refuse .badParam 0
        | some m =>
          if c.queue = [] then s.refuse .empty 0
          else if m.late s.line.frame then s.refuse .late s.line.frame.toNat
          else (s.putStream i (c.arm m)).settle.accept 0

/-- START (R47, R48). -/
def execStart (operand : Byte) (s : State) : Outcome :=
  .next (s.runCommand 0x04 operand fun s => s.forStream operand s.startStream)

/-- STOP i: R51 in ARMED, R52 in RUNNING. -/
def State.stopStream (s : State) (i : StreamId) : Answer :=
  let c := s.stream i
  match c.group? with
  | some g => s.refuse .grouped g.val
  | none =>
    match c.state with
    | .armed _ _ => (s.apply i (c.stopArmed i s.line.frame)).settle.accept 1
    | .running =>
      if s.line.served then (s.putStream i { c with state := .stopping }).settle.accept 0
      else (s.apply i (c.stopNow i s.line.frame (s.headInFlight i))).settle.accept 1
    | .off | .stopping | .draining _ _ | .halted _ => s.refuse .state 0

/-- STOP (R51, R52). -/
def execStop (operand : Byte) (s : State) : Outcome :=
  .next (s.runCommand 0x05 operand fun s => s.forStream operand s.stopStream)

/-! ### ABORT, CLEAR -/

/-- R65 for one stream. -/
def State.abortOne (s : State) (i : StreamId) : State :=
  let c := s.stream i
  if c.state = .off then s.apply i (c.abortOff i s.line.frame)
  else s.apply i (c.abortNow i s.line.frame true)

/-- ABORT i (R65). -/
def State.abortStream (s : State) (i : StreamId) : Answer :=
  (s.abortOne i).settle.accept (s.stream i).queue.length

/-- ABORT (R65). -/
def execAbort (operand : Byte) (s : State) : Outcome :=
  .next (s.runCommand 0x06 operand fun s => s.forStream operand s.abortStream)

/-- CLEAR i (R66). -/
def State.clearStream (s : State) (i : StreamId) : Answer :=
  let c := s.stream i
  match c.state with
  | .halted _ => (s.apply i (c.abortNow i s.line.frame false)).settle.accept c.queue.length
  | .off | .armed _ _ | .running | .stopping | .draining _ _ => s.refuse .state 0

/-- CLEAR (R66). -/
def execClear (operand : Byte) (s : State) : Outcome :=
  .next (s.runCommand 0x07 operand fun s => s.forStream operand s.clearStream)

end Sys2Proof.Machine
end

