-- ==== Sys2Proof/Machine/Bus.lean ====
section
/-! DEFINITION. The bus events: BGNT, BYLD, RDY and the ready timeout (chapter 7). -/

namespace Sys2Proof.Machine

/-- BGNT is asserted; in REQUESTING a tenure begins, in any other state it is no grant (R119, R120). -/
def State.grant (s : State) : State :=
  let s1 := { s with mover := { s.mover with bgnt := true } }
  if s.mover.bus = .requesting then s1.beginTenure else s1

/-- BUS_GRANT (R120). The level of the pin is the host's also while RESET is low (R171; log 9). -/
def execBusGrant (s : State) : Outcome :=
  .next (if s.resetLow then { s with mover := { s.mover with bgnt := true } } else s.grant.settle)

/-- BGNT is sampled low: WAIT_LOW goes to IDLE (R119), a tenure is yielded (R123), any other state stays (log 25). -/
def State.grantLow (s : State) : State :=
  let s1 := { s with mover := { s.mover with bgnt := false } }
  match s.mover.bus with
  | .waitLow => { s1 with mover := { s1.mover with bus := .idle } }
  | .holding => s1.yieldBus
  | .idle | .requesting => s1

/-- R118, R119: a sample of BGNT taken with time, at the release of RESET and then in every period of REFCLK: in
WAIT_LOW a low one takes the Mover to IDLE, and on to REQUESTING when a request is present (log 25). -/
def State.sampleGrant (s : State) : State :=
  if s.mover.bus = .waitLow ∧ s.mover.bgnt = false then s.grantLow.pollMover else s

/-- BUS_GRANT_LOW (R118, R119). -/
def execBusGrantLow (s : State) : Outcome :=
  .next (if s.resetLow then { s with mover := { s.mover with bgnt := false } } else s.grantLow.settle)

/-- BUS_GRANT_WITHDRAWN (R123): BGNT falls; outside HOLDING it is a low sample like any other. -/
def execBusGrantWithdrawn (s : State) : Outcome :=
  .next (if s.resetLow then { s with mover := { s.mover with bgnt := false } } else s.grantLow.settle)

/-- BUS_YIELD (R123): BYLD is asserted, or removed (log 8). -/
def execBusYield (level : Bool) (s : State) : Outcome :=
  let s1 := { s with mover := { s.mover with byld := level } }
  .next (if s.resetLow = false ∧ level = true then s1.yieldBus.settle else s1)

/-- WORD_TRANSFER_COMPLETE (R130, R133, R134). -/
def execWordTransferComplete (hostWrote : Option Word) (s : State) : Outcome :=
  .next (s.event fun s => (s.completeWord hostWrote).settle)

/-- BUS_FAULT (R132). -/
def execBusFault (s : State) : Outcome := .next (s.event fun s => s.faultWord.settle)

end Sys2Proof.Machine
end

