-- ==== Sys2Proof/Machine/Groups.lean ====
section
/-! DEFINITION. The group commands: GSTART, GSTOP, GABORT (chapter 8). -/

namespace Sys2Proof.Machine

/-- Check 4 of R140 for one member. -/
def StreamCtx.groupReady (c : StreamCtx) : Bool := decide (c.state = .off ∧ c.queue ≠ [])

/-- Sets a group's pending action. -/
def State.setGroup (s : State) (g : GroupId) (a : GroupAction) : State :=
  { s with groups := s.groups.set g.val a g.isLt }

/-- R141: every member is armed, in one act. -/
def State.armMembers (s : State) (g : GroupId) (m : StartMode) : State :=
  (s.members g).foldl (fun a i => a.putStream i ((a.stream i).arm m)) s

/-- GSTART g: the checks of R140 in order, then R141. Check 1 is made before it is called. -/
def State.gstart (s : State) (g : GroupId) : Answer :=
  match StartMode.parse (s.stageWord 4) (s.stageWord 5) with
  | none => s.refuse .badParam 1
  | some m =>
    if s.members g = [] then s.refuse .groupNotReady 0xFFFF
    else
      match (s.members g).find? fun i => !(s.stream i).groupReady with
      | some i => s.refuse .groupNotReady i.val
      | none =>
        if m.late s.line.frame then s.refuse .late s.line.frame.toNat
        else ((s.armMembers g m).setGroup g (.start m)).settle.accept (s.members g).length

/-- GSTART (R140, R141). -/
def execGstart (operand : Byte) (s : State) : Outcome :=
  .next (s.runCommand 0x10 operand fun s => s.forGroup operand s.gstart)

/-- R143 for one member. -/
def State.gstopMember (s : State) (i : StreamId) : State :=
  let c := s.stream i
  match c.state with
  | .armed _ _ => s.apply i (c.stopArmed i s.line.frame)
  | .running =>
    if s.line.served then s.putStream i { c with state := .stopping }
    else s.apply i (c.stopNow i s.line.frame (s.headInFlight i))
  | .off | .stopping | .draining _ _ | .halted _ => s

/-- GSTOP g (R143): the members in increasing stream number; a stop left pending is the group's pending STOP. -/
def State.gstop (s : State) (g : GroupId) : Answer :=
  if (s.members g).any (fun i => (s.stream i).isArmed || decide ((s.stream i).state = .running)) then
    let s1 := (s.members g).foldl State.gstopMember s
    if s.line.served = true ∧ (s.members g).any (fun i => decide ((s.stream i).state = .running)) = true then
      (s1.setGroup g .stop).settle.accept 0
    else s1.settle.accept 1
  else s.refuse .state 0

/-- GSTOP (R143). -/
def execGstop (operand : Byte) (s : State) : Outcome :=
  .next (s.runCommand 0x11 operand fun s => s.forGroup operand s.gstop)

/-- The members GABORT aborts: those not OFF (R144). -/
def State.abortable (s : State) (g : GroupId) : List StreamId :=
  (s.members g).filter fun i => decide ((s.stream i).state ≠ .off)

/-- GABORT g (R144): the members in increasing stream number; the pending action becomes NONE. -/
def State.gabort (s : State) (g : GroupId) : Answer :=
  (((s.abortable g).foldl State.abortOne s).setGroup g .none).settle.accept (s.abortable g).length

/-- GABORT (R144). -/
def execGabort (operand : Byte) (s : State) : Outcome :=
  .next (s.runCommand 0x12 operand fun s => s.forGroup operand s.gabort)

end Sys2Proof.Machine
end

