-- ==== Sys2Proof/Machine/Line.lean ====
section
/-! DEFINITION. The slot line: LINE_SET, LINE_UP, LINE_DOWN, follower alignment and the end of a frame (chapter 1). -/

namespace Sys2Proof.Machine

/-! ### The line commands -/

/-- A configured stream whose width is greater than S (R1). -/
def StreamCtx.widerThan (c : StreamCtx) (slotLen : Nat) : Bool :=
  match c.cfg with
  | some cfg => decide (slotLen < cfg.width)
  | none => false

/-- LINE_SET: the checks of R1 in order. -/
def State.lineSet (s : State) : Answer :=
  if s.line.up then s.refuse .lineUpErr 0
  else
    match LineFormat.parse (s.stageWord 0) (s.stageWord 1) (s.stageWord 2) with
    | none => s.refuse .badParam 0xFFFF
    | some fmt =>
      match allStreams.find? fun i => (s.stream i).widerThan fmt.slotLen with
      | some i => s.refuse .badParam i.val
      | none => State.accept { s with line := { s.line with fmt := fmt } } 0

/-- LINE_SET (R1, R173). -/
def execLineSet (operand : Byte) (s : State) : Outcome :=
  .next (s.runCommand 0x40 operand State.lineSet)

/-- LINE_UP (R5): FOLLOWER goes to HUNT, MASTER and LOOPBACK to ALIGNED with the first boundary at once. -/
def State.lineUp (s : State) : Answer :=
  if s.line.up then s.refuse .lineUpErr 0
  else
    let l := { s.line.emptyShift with
      frame := 0, miss := 0, lowSeen := false, bitLeft := 2 * (s.line.fmt.bclkDiv + 1) }
    match s.line.fmt.mode with
    | .follower => State.accept { s with line := { l with state := .hunt } } 0
    | .master | .loopback =>
      (State.boundary { s with line := { l with state := .aligned } } fun _ => []).settle.accept 0

/-- LINE_UP (R5). -/
def execLineUp (operand : Byte) (s : State) : Outcome :=
  .next (s.runCommand 0x41 operand State.lineUp)

/-- LINE_DOWN (R19, R20). -/
def State.lineDown (s : State) : Answer :=
  if s.line.up then s.takeLineDown.settle.accept 0 else s.accept 0

/-- LINE_DOWN (R19, R20). -/
def execLineDown (operand : Byte) (s : State) : Outcome :=
  .next (s.runCommand 0x42 operand State.lineDown)

/-! ### Follower alignment -/

/-- The line is a follower line that is up, so FSYNC is an input (R3). -/
def State.following (s : State) : Bool := decide (s.line.fmt.mode = .follower) && s.line.up

/-- FSYNC sampled low (R4). -/
def State.sampleLow (s : State) : State :=
  if s.following then { s with line := { s.line with lowSeen := true } } else s

/-- FSYNC_LOW_SAMPLE (R4). -/
def execFsyncLowSample (s : State) : Outcome := .next (s.event State.sampleLow)

/-- A sync arrival at bit position `pos` of the trial or the frame (R7, R8, R9). -/
def State.takeSync (s : State) (pos : Nat) : State :=
  let l := { s.line with lowSeen := false }
  match s.line.state with
  | .disabled => s
  | .hunt => { s with line := { l.newFrame with state := .confirm } }
  | .confirm =>
    if pos < l.fmt.frameBits then { s with line := l.newFrame }
    else if pos = l.fmt.frameBits then
      (State.boundary { s with line := { l with state := .aligned, miss := 0 } }
        fun f => [.alignGained f]).settle
    else s
  | .aligned | .flywheel =>
    if pos < l.fmt.frameBits then
      (State.boundary { s with line := { l.passTo pos with state := .aligned, miss := 0 } }
        fun f => [.frameSlip f]).settle
    else if pos = l.fmt.frameBits then
      (State.boundary { s with line := { l.passTo pos with state := .aligned, miss := 0 } }
        fun _ => []).settle
    else s

/-- A high sample of FSYNC is an arrival when a low sample went before (R4); only a follower line that is up
examines it (R3, R6). An arrival is not earlier than the line stands (log 13). -/
def State.sampleHigh (s : State) (bit : Nat) : State :=
  if s.following = true ∧ s.line.lowSeen = true then s.takeSync (max bit s.line.bitPos) else s

/-- SYNC_ARRIVAL (R4, R7 to R9). -/
def execSyncArrival (bit : Nat) (s : State) : Outcome := .next (s.event fun s => s.sampleHigh bit)

/-- Third row of R7. -/
def State.endTrial (s : State) : State :=
  if s.following = true ∧ s.line.state = .confirm then
    { s with line := { s.line.newFrame with state := .hunt } }
  else s

/-- TRIAL_TIMEOUT (R7). -/
def execTrialTimeout (s : State) : Outcome := .next (s.event State.endTrial)

/-- R10: the expected bit period passes with no arrival. -/
def State.missSync (s : State) : State :=
  if s.following = true ∧ s.line.served = true then
    let miss := s.line.miss + 1
    let l := s.line.passTo s.line.fmt.frameBits
    if miss < s.line.fmt.flywheel then
      (State.boundary { s with line := { l with state := .flywheel, miss := miss } } fun _ => []).settle
    else (State.loseAlignment { s with line := l }).settle
  else s

/-- MISSED_SYNC (R10, R11). -/
def execMissedSync (s : State) : Outcome := .next (s.event State.missSync)

/-! ### The end of a frame of a MASTER or LOOPBACK line -/

/-- R6. -/
def State.endFrame (s : State) : State :=
  if s.line.fmt.mode ≠ .follower ∧ s.line.state = .aligned then
    (State.boundary { s with line := s.line.passTo s.line.fmt.frameBits } fun _ => []).settle
  else s

/-- FRAME_END (R6). -/
def execFrameEnd (s : State) : Outcome := .next (s.event State.endFrame)

end Sys2Proof.Machine
end

