-- ==== Sys2Proof/Machine/Map.lean ====
section
/-! DEFINITION. The slot map: MAPSWAP, MAPCOPY and writes to MAP_DATA (chapter 2). -/

namespace Sys2Proof.Machine

/-- Condition 1 of R28: an earlier entry names the same stream with the other direction. -/
def opposes (i : StreamId) (d : Direction) : Entry → Bool
  | some (j, x) => decide (j = i ∧ x ≠ d)
  | none => false

/-- Condition 2 of R28: the stream is configured in the other direction. -/
def State.disagrees (s : State) (i : StreamId) (d : Direction) : Bool :=
  match (s.stream i).cfg with
  | some cfg => decide (cfg.direction ≠ d)
  | none => false

/-- The validation of R28 from entry `k` on, `earlier` being the entries before it: the lowest offending index. -/
def State.offending (s : State) : Nat → List Entry → List Entry → Option Nat
  | _, _, [] => none
  | k, earlier, e :: rest =>
    match e with
    | some (i, d) =>
      if earlier.any (opposes i d) = true ∨ s.disagrees i d = true then some k
      else s.offending (k + 1) (e :: earlier) rest
    | none => s.offending (k + 1) (e :: earlier) rest

/-- The validation of a bank (R28): none when it passes. -/
def State.validate (s : State) (bank : Vector Entry 32) : Option Nat := s.offending 0 [] bank.toList

/-- MAPSWAP (R29, R30). -/
def State.mapswap (s : State) : Answer :=
  if s.map.swapPending then s.refuse .busy 0
  else
    match s.validate s.map.shadowBank with
    | some k => s.refuse .conflict k
    | none =>
      if s.line.served then (State.accept { s with map := { s.map with swapPending := true } } 0)
      else
        (State.raiseAll { s with map := s.map.swap } [.mapSwapped s.line.frame s.map.active.other]).accept 1

/-- MAPSWAP (R29 to R31). -/
def execMapswap (operand : Byte) (s : State) : Outcome :=
  .next (s.runCommand 0x20 operand State.mapswap)

/-- MAPCOPY (R27). -/
def State.mapcopy (s : State) : Answer :=
  if s.map.swapPending then s.refuse .busy 0
  else State.accept { s with map := s.map.putBank s.map.active.other s.map.activeBank } 0

/-- MAPCOPY (R27). -/
def execMapcopy (operand : Byte) (s : State) : Outcome :=
  .next (s.runCommand 0x21 operand State.mapcopy)

/-- An entry as MAP_DATA codes it (section 10.4, R164). -/
def Entry.parse (w : Word) : Entry :=
  if flag w 15 then
    some (⟨field w 3 0 % 16, Nat.mod_lt _ (by decide)⟩, if flag w 8 then .rx else .tx)
  else none

/-- MAP_DATA as it reads (R25, R164). -/
def Entry.word : Entry → Word
  | none => 0
  | some (i, d) => Machine.word (2 ^ 15 + (match d with | .tx => 0 | .rx => 2 ^ 8) + i.val)

/-- An edit of the named entry (R26): taken only for the shadow bank with no swap pending. -/
def State.writeMapData (s : State) (value : Word) : State :=
  if s.win.mapBank = s.map.active.other ∧ s.map.swapPending = false then
    let bank := (s.map.bank s.win.mapBank).set s.win.mapEntry.val (Entry.parse value) s.win.mapEntry.isLt
    { s with map := s.map.putBank s.win.mapBank bank }
  else { s with win := { s.win with accessErr := true } }

/-- MAP_DATA_WRITE (R26). -/
def execMapDataWrite (value : Word) (s : State) : Outcome :=
  .next (s.event fun s => s.writeMapData value)

end Sys2Proof.Machine
end

