-- ==== Sys2Proof/Machine/Records.lean ====
section
/-! DEFINITION. The completion queue's commands, its timer's expiry and INT_CTRL (chapter 9, R163). -/

namespace Sys2Proof.Machine

/-- The queue empties: the holdoff timer is stopped (R158). -/
def CompletionQueue.empty (q : CompletionQueue) : CompletionQueue :=
  { q with records := [], overflow := none, timer := .stopped }

/-- R153: the head is removed. -/
def CompletionQueue.pop (q : CompletionQueue) : CompletionQueue :=
  match q.records with
  | [] => q.empty
  | _ :: rest => if rest = [] ∧ q.overflow = none then q.empty else { q with records := rest }

/-- CQPOP (R153). -/
def State.cqpop (s : State) : Answer :=
  if s.cq.count = 0 then s.refuse .empty 0
  else State.accept { s with cq := s.cq.pop } s.cq.pop.count

/-- CQPOP (R153). -/
def execCqpop (operand : Byte) (s : State) : Outcome :=
  .next (s.runCommand 0x30 operand State.cqpop)

/-- CQFLUSH (R154). -/
def State.cqflush (s : State) : Answer := State.accept { s with cq := s.cq.empty } s.cq.count

/-- CQFLUSH (R154). -/
def execCqflush (operand : Byte) (s : State) : Outcome :=
  .next (s.runCommand 0x31 operand State.cqflush)

/-- R158: a COUNTING timer reaches its end. -/
def CompletionQueue.expire (q : CompletionQueue) : CompletionQueue :=
  match q.timer with
  | .counting _ => { q with timer := .expired }
  | .stopped | .expired => q

/-- HOLDOFF_EXPIRY (R158). -/
def execHoldoffExpiry (s : State) : Outcome :=
  .next (s.event fun s => { s with cq := s.cq.expire })

/-- A write to INT_CTRL (R163): out of range it is ignored whole and sets ACCESS_ERR. -/
def State.writeIntCtrl (s : State) (v : Word) : State :=
  if field v 5 0 = 0 ∨ 32 < field v 5 0 then { s with win := { s.win with accessErr := true } }
  else { s with cq := { s.cq with enable := flag v 15, threshold := field v 5 0 } }

/-- INT_CTRL_WRITE (R163, R157). -/
def execIntCtrlWrite (value : Word) (s : State) : Outcome :=
  .next (s.event fun s => s.writeIntCtrl value)

end Sys2Proof.Machine
end

