-- ==== Sys2Proof/Machine/Flags.lean ====
section
/-! DEFINITION. What is computed from the state and shown outside: STATUS, the INT condition and the output pins. -/

namespace Sys2Proof.Machine

/-- Line state as STATUS codes it (section 10.2). -/
def LineState.code : LineState → Nat
  | .disabled => 0
  | .hunt => 1
  | .confirm => 2
  | .aligned => 3
  | .flywheel => 4

/-- A bank's number. -/
def BankId.code : BankId → Nat
  | .b0 => 0
  | .b1 => 1

/-- The BREQ pin: high in REQUESTING and HOLDING (R118). -/
def State.breq (s : State) : Bool := decide (s.mover.bus = .requesting ∨ s.mover.bus = .holding)

/-- The STATUS word (section 10.2, R162). -/
def State.statusWord (s : State) : Word :=
  word (s.win.accessErr.toNat * 2 ^ 15 + s.breq.toNat * 2 ^ 14 + s.cq.count * 2 ^ 8
    + s.map.active.code * 2 ^ 4 + s.map.swapPending.toNat * 2 ^ 3 + s.line.state.code)

/-- The INT condition (R157). -/
def CompletionQueue.interrupts (q : CompletionQueue) : Bool :=
  decide (0 < q.count) && q.enable
    && (decide (q.threshold ≤ q.count) || q.overflow.isSome || decide (q.timer = .expired))

/-- The INT pin is asserted, driven low (R157, R171). -/
def State.intAsserted (s : State) : Bool := s.cq.interrupts

/-- The TXD pin in the present bit period: the bit driven, or none when released (R3, R16, R18). -/
def State.txdPin (s : State) : Option Bool :=
  if s.line.up = false ∨ s.line.fmt.mode = .loopback then none else s.line.txBits.head?

/-- The part drives BCLK and FSYNC: MASTER mode with the line up (R3). -/
def State.bclkDriven (s : State) : Bool := s.line.up && decide (s.line.fmt.mode = .master)

/-- The FSYNC pin as an output: high in bit period 0 of slot 0 of every frame (R4). -/
def State.fsyncPin (s : State) : Option Bool :=
  if s.bclkDriven then some (decide (s.line.bitPos = 0)) else none

/-- The part is the master of the local bus: in HOLDING it drives A23–A16, ALE, RD and WR, and in every other bus state
it has released them (R171). -/
def State.busMaster (s : State) : Bool := decide (s.mover.bus = .holding)

/-- ALE is driven as an output; its pulse within a word transfer is no level of the model (R171, log 16). -/
def State.aleDriven (s : State) : Bool := s.busMaster

/-- A strobe pin as an output: released outside HOLDING, otherwise its level, low for a word in flight of this
direction (R171, section 10.9; log 16). -/
def State.strobe (s : State) (d : Direction) : Option Bool :=
  if s.busMaster then some (!s.mover.inFlight.any fun w => decide (w.dir = d)) else none

/-- The RD pin as an output: low for a fetch in flight. -/
def State.rdPin (s : State) : Option Bool := s.strobe .tx

/-- The WR pin as an output: low for a store in flight. -/
def State.wrPin (s : State) : Option Bool := s.strobe .rx

/-- The pins A23–A16: released outside HOLDING, the upper address of the word in flight in it (R171). -/
def State.upperAddress (s : State) : Option Byte :=
  if s.busMaster then s.mover.inFlight.map fun w => w.addr.extractLsb' 16 8 else none

/-- The address driven on AD15–AD0 and A23–A16 for the word in flight (R130, R171). -/
def State.busAddress (s : State) : Option Addr :=
  match s.mover.inFlight with
  | some w => some w.addr
  | none => none

/-- The data driven for the word in flight of an RX transfer (R130). -/
def State.busData (s : State) : Option Word :=
  match s.mover.inFlight with
  | some w => if w.dir = .rx then some w.word else none
  | none => none

end Sys2Proof.Machine
end

