-- ==== Sys2Proof/Machine/Registers.lean ====
section
/-! DEFINITION. The register window (chapter 10): its writes, the one read with an effect, and what every word reads as. -/

namespace Sys2Proof.Machine

/-! ### Writes -/

/-- UNKNOWN_OPCODE (R167). -/
def execUnknownOpcode (opcode : UndefinedOpcode) (operand : Byte) (s : State) : Outcome :=
  .next (s.runCommand opcode.val operand fun s => s.refuse .badOp 0)

/-- STATUS_WRITE (R160, R161): bit 15 written as 1 clears ACCESS_ERR, the rest is ignored. -/
def execStatusWrite (value : Word) (s : State) : Outcome :=
  .next (s.hostWrite fun w => if flag value 15 then { w with accessErr := false } else w)

/-- READ_ONLY_WRITE (R160, R161): ignored, and ACCESS_ERR is set. -/
def execReadOnlyWrite (_word : ReadOnlyWord) (_value : Word) (s : State) : Outcome :=
  .next (s.hostWrite fun w => { w with accessErr := true })

/-- A write to HOLDOFF, BUS_CTRL or READY_TIMEOUT (R163). -/
def State.writeControl (s : State) (cw : ControlWord) (v : Word) : State :=
  match cw with
  | .holdoff => { s with cq := { s.cq with holdoff := v } }
  | .busCtrl =>
    if field v 5 0 = 0 ∨ 32 < field v 5 0 then { s with win := { s.win with accessErr := true } }
    else { s with mover := { s.mover with tenureMax := field v 5 0 } }
  | .readyTimeout =>
    if field v 7 0 = 0 then { s with win := { s.win with accessErr := true } }
    else { s with mover := { s.mover with readyTimeout := field v 7 0 } }

/-- CONTROL_WORD_WRITE (R163). -/
def execControlWordWrite (cw : ControlWord) (value : Word) (s : State) : Outcome :=
  .next (s.event fun s => s.writeControl cw value)

/-- The bits of a staging word that are in a field of some layout of section 10.7. The layouts of CONFIGURE, POST and
LINE_SET together leave bits 13–8 of STAGE3 without a field, and those of START and GSTART bits 15–2 of STAGE4 (R160;
log 34). -/
def stageFields (k : Fin 6) : Word :=
  match k with
  | 3 => 0xC0FF
  | 4 => 0x0003
  | 0 | 1 | 2 | 5 => 0xFFFF

/-- A write to a read-write word with no behaviour of its own: it takes the value in its fields, and bits outside them
are ignored and read back 0 (R160, R164, R165, R169). -/
def Window.write (w : Window) (p : PlainWord) (v : Word) : Window :=
  match p with
  | .mapIndex =>
    { w with
      mapBank := if flag v 8 then .b1 else .b0
      mapEntry := ⟨field v 4 0 % 32, Nat.mod_lt _ (by decide)⟩ }
  | .streamSel => { w with streamSel := ⟨field v 3 0 % 16, Nat.mod_lt _ (by decide)⟩ }
  | .fieldSel => { w with fieldSel := BitVec.ofNat 5 (field v 4 0) }
  | .stage i => { w with stage := w.stage.set i.val (v &&& stageFields i) i.isLt }
  | .reserved _ => w

/-- REGISTER_WRITE (R160, R164, R165, R169). -/
def execRegisterWrite (p : PlainWord) (value : Word) (s : State) : Outcome :=
  .next (s.hostWrite fun w => w.write p value)

/-! ### Reads -/

/-- State as FIELD_SEL 00H codes it. -/
def RunState.code : RunState → Nat
  | .off => 0
  | .armed _ _ => 1
  | .running => 2
  | .stopping => 3
  | .draining _ _ => 4
  | .halted _ => 5

/-- Halt cause as FIELD_SEL 00H and CQ_HEAD2 code it. -/
def HaltCause.code : HaltCause → Nat
  | .xrun => 1
  | .busFault => 2
  | .align => 3
  | .group => 4
  | .line => 5

/-- FIELD_SEL 00H (section 10.5): fields absent in the present state read 0 (R165). -/
def StreamCtx.runWord (c : StreamCtx) : Word :=
  let (release, kind, fetched, mode, cause) := match c.state with
    | .armed m e => (0, 0, e.toNat, (match m with | .next => 0 | .at _ => 1), 0)
    | .draining k r => (r.toNat, (match k with | .ended => 0 | .stop => 1), 0, 0, 0)
    | .halted h => (0, 0, 0, 0, h.code)
    | .off | .running | .stopping => (0, 0, 0, 0, 0)
  word (c.cfg.isSome.toNat * 2 ^ 15 + c.overrunEp.toNat * 2 ^ 13 + c.underrunEp.toNat * 2 ^ 12
    + release * 2 ^ 11 + kind * 2 ^ 10 + fetched * 2 ^ 9 + mode * 2 ^ 8 + cause * 2 ^ 4 + c.state.code)

/-- FIELD_SEL 01H: the target of an AT start. -/
def StreamCtx.targetWord (c : StreamCtx) : Word :=
  match c.state with
  | .armed (.at f) _ => f
  | .armed .next _ | .off | .running | .stopping | .draining _ _ | .halted _ => 0

/-- FIELD_SEL 02H to 05H; 0 for an unconfigured stream (R165). -/
def StreamCtx.configWords (c : StreamCtx) : Word × Word × Word × Word :=
  match c.cfg with
  | some cfg => cfg.words
  | none => (0, 0, 0, 0)

/-- FIELD_DATA of one stream (section 10.5, R103, R165, R166). -/
def StreamCtx.fieldWord (c : StreamCtx) (captured : Word) (sel : Nat) : Word :=
  match sel with
  | 0x00 => c.runWord
  | 0x01 => c.targetWord
  | 0x02 => c.configWords.1
  | 0x03 => c.configWords.2.1
  | 0x04 => c.configWords.2.2.1
  | 0x05 => c.configWords.2.2.2
  | 0x06 => word (c.residual.length * 2 ^ 8 + c.fifo.length)
  | 0x07 => word c.queue.length
  | 0x08 => word c.samplesDone
  | 0x09 => word c.wordsDone
  | 0x0A => word c.samplesServed.toNat
  | 0x0B => captured
  | 0x0C => c.underrunSlots
  | 0x0D => c.overrunSamples
  | 0x0E => c.postedTotal
  | 0x0F => c.buffersDone
  | 0x10 => match c.lastTag with
    | some t => word (2 ^ 15 + t.toNat)
    | none => 0
  | _ => 0

/-- FIELD_DATA (R165). -/
def State.fieldData (s : State) : Word :=
  (s.stream s.win.streamSel).fieldWord s.win.captured s.win.fieldSel.toNat

/-- SAMPLES_SERVED_LOW_READ (R166): the read of FIELD_DATA with FIELD_SEL 0AH copies the counter's high half; with
another FIELD_SEL a read of FIELD_DATA changes nothing (R160). -/
def execSamplesServedLowRead (s : State) : Outcome :=
  .next (s.hostWrite fun w =>
    if w.fieldSel.toNat = 0x0A then
      { w with captured := word ((s.stream w.streamSel).samplesServed.toNat / 2 ^ 16) }
    else w)

/-- Status as CQ_HEAD2 codes it. -/
def Status.code : Status → Nat
  | .ok => 0
  | .short => 1
  | .cancelled => 2
  | .aborted => 3

/-- Cause of STREAM_STOPPED as CQ_HEAD2 codes it. -/
def StopCause.code : StopCause → Nat
  | .ended => 0
  | .stop => 1
  | .abort => 2

/-- The five CQ_HEAD words of a record (section 10.8, R170). -/
def Record.words : Record → Vector Word 5
  | .bufferDone i f t st n =>
    #v[word (1 * 2 ^ 12 + i.val), f, word st.code, word t.toNat, word n]
  | .underrun i f => #v[word (2 * 2 ^ 12 + i.val), f, 0, 0, 0]
  | .overrun i f => #v[word (3 * 2 ^ 12 + i.val), f, 0, 0, 0]
  | .streamStarted i f => #v[word (4 * 2 ^ 12 + i.val), f, 0, 0, 0]
  | .streamStopped i f c n => #v[word (5 * 2 ^ 12 + i.val), f, word c.code, word n, 0]
  | .streamHalted i f c => #v[word (6 * 2 ^ 12 + i.val), f, word c.code, 0, 0]
  | .mapSwapped f b => #v[word (7 * 2 ^ 12), f, word (b.code * 2 ^ 8), 0, 0]
  | .frameSlip f => #v[word (8 * 2 ^ 12), f, 0, 0, 0]
  | .alignLost f => #v[word (9 * 2 ^ 12), f, 0, 0, 0]
  | .alignGained f => #v[word (10 * 2 ^ 12), f, 0, 0, 0]
  | .busFault i f a =>
    #v[word (11 * 2 ^ 12 + i.val), f, 0, word (a.toNat / 2 ^ 16), word (a.toNat % 2 ^ 16)]

/-- The CQ_HEAD words (R152, R170): the oldest record, the OVERFLOW record when it is alone, or zeros. -/
def CompletionQueue.headWords (q : CompletionQueue) : Vector Word 5 :=
  match q.records, q.overflow with
  | r :: _, _ => r.words
  | [], some n => #v[word (15 * 2 ^ 12), 0, 0, word n, 0]
  | [], none => #v[0, 0, 0, 0, 0]

/-- INT_CTRL as it reads (section 10.3). -/
def CompletionQueue.ctrlWord (q : CompletionQueue) : Word := word (q.enable.toNat * 2 ^ 15 + q.threshold)

/-- MAP_INDEX as it reads (R24, R164). -/
def Window.mapIndexWord (w : Window) : Word := word (w.mapBank.code * 2 ^ 8 + w.mapEntry.val)

/-- RESULT as it reads (R168). -/
def Window.resultWord (w : Window) : Word := word (w.resultOp.toNat * 2 ^ 8 + w.resultCode.code)

/-- Window word `k` as it stands (section 10.1, R160, R162). No read changes the state, but for
FIELD_DATA with FIELD_SEL 0AH, whose effect is the row SAMPLES_SERVED_LOW_READ. -/
def State.readWord (s : State) (k : Fin 32) : Word :=
  match k.val with
  | 0x00 => 0x1632
  | 0x01 => s.statusWord
  | 0x02 => s.line.frame
  | 0x03 => s.cq.ctrlWord
  | 0x04 => s.cq.holdoff
  | 0x05 => word s.mover.tenureMax
  | 0x06 => word s.mover.readyTimeout
  | 0x07 => s.win.mapIndexWord
  | 0x08 => Entry.word ((s.map.bank s.win.mapBank)[s.win.mapEntry.val]'s.win.mapEntry.isLt)
  | 0x09 => word s.win.streamSel.val
  | 0x0A => word s.win.fieldSel.toNat
  | 0x0B => s.fieldData
  | 0x0C => s.stageWord 0
  | 0x0D => s.stageWord 1
  | 0x0E => s.stageWord 2
  | 0x0F => s.stageWord 3
  | 0x10 => s.stageWord 4
  | 0x11 => s.stageWord 5
  | 0x12 => s.win.command
  | 0x13 => s.win.resultWord
  | 0x14 => s.win.detail
  | 0x15 => s.cq.headWords[0]
  | 0x16 => s.cq.headWords[1]
  | 0x17 => s.cq.headWords[2]
  | 0x18 => s.cq.headWords[3]
  | 0x19 => s.cq.headWords[4]
  | _ => 0

/-- A slave read of window word `k` (R160, R171): what the part drives on AD15–AD0, none while RESET is low, when the
access is not taken. -/
def State.slaveRead (s : State) (k : Fin 32) : Option Word := if s.resetLow then none else some (s.readWord k)

/-- A slave write of `v` to window word `k`, next in the queue as the row it is (R160, R167). -/
def State.withSlaveWrite (s : State) (k : Fin 32) (v : Word) : State :=
  { s with pending := .ofWrite k v :: s.pending }

end Sys2Proof.Machine
end

