-- ==== Sys2Proof/Machine/Reset.lean ====
section
/-! DEFINITION. The RESET pin (R171). -/

namespace Sys2Proof.Machine

/-- R171, R21, R22, R41, R86, R118, R138, R139, R156: every block takes its pin-reset values, and holds them while
RESET is low. The levels of BGNT and BYLD, what is already in host memory, and the commands still waiting are outside
the part. -/
def State.pinReset (s : State) : State :=
  { State.reset with
    resetLow := true
    mover := { Mover.reset with bgnt := s.mover.bgnt, byld := s.mover.byld }
    nextPosting := s.nextPosting
    mem := s.mem
    freeIdx := s.freeIdx
    pending := s.pending }

/-- PIN_RESET (R171). -/
def execPinReset (s : State) : Outcome := .next s.pinReset

/-- R171, R2: at the rising edge the timebase begins counting, and the Mover begins watching BGNT in WAIT_LOW; if BGNT
is already low, that sample is the first one taken (R118). -/
def State.releaseReset (s : State) : State :=
  if s.resetLow then
    State.sampleGrant { s with resetLow := false, line := { s.line with tbLeft := s.line.fmt.tbDiv + 1 } }
  else s

/-- RESET_RELEASE (R171). -/
def execResetRelease (s : State) : Outcome := .next s.releaseReset

end Sys2Proof.Machine
end

