-- ==== Sys2Proof/Machine/Slots.lean ====
section
/-! DEFINITION. Slot events (section 1.6) and slot service (chapter 4). -/

namespace Sys2Proof.Machine

/-- The stream an entry of the active bank gives slot `slot` to in direction `d`, and the stream's width, when the
frame is served, the slot exists, it is still to come, and the stream was configured at the boundary that opened the
frame (R15, R34, R45). -/
def State.slotOwner (s : State) (slot : Nat) (d : Direction) : Option (StreamId × Nat) :=
  if s.line.served = true ∧ slot < s.line.fmt.slots ∧ s.line.nextSlot ≤ slot then
    match s.map.activeBank[slot]? with
    | some (some (i, x)) => if x = d then (s.line.frameWidths[i.val]'i.isLt).map fun w => (i, w) else none
    | some none | none => none
  else none

/-- Shifts a sample out from bit period 0 of the slot (R16), or releases the slot. -/
def LinePort.drive (l : LinePort) (i : StreamId) (width : Nat) : Option Sample → LinePort
  | some x => { l with txStream := some i, txBits := bitsOf width x.toNat }
  | none => { l with txStream := none, txBits := [] }

/-- R71: what an underrun slot sends. -/
def StreamConfig.underrunSample (cfg : StreamConfig) (last : Option Sample) : Option Sample :=
  match cfg.underrun with
  | .repeat => last
  | .fill => some cfg.fill
  | .release | .halt | .none => none

/-- R69: the oldest sample is taken. -/
def StreamCtx.takeSample (c : StreamCtx) (x : Sample) (rest : List Sample) : StreamCtx :=
  { c with fifo := rest, lastSample := some x, samplesServed := c.samplesServed + 1, underrunEp := false }

/-- R70, R72: an underrun is counted and its episode is open. -/
def StreamCtx.underrunNow (c : StreamCtx) : StreamCtx :=
  { c with underrunSlots := saturate c.underrunSlots, underrunEp := true }

/-- R68 to R72: the stream's answer at the start of a transmit slot, and the slot on the line. A stream that was
unconfigured since the boundary is OFF and answers with no sample. -/
def State.serveTx (s : State) (i : StreamId) (width : Nat) : State :=
  let c := s.stream i
  let send := fun (t : State) (x : Option Sample) => { t with line := t.line.drive i width x }
  match c.cfg with
  | none => send s none
  | some cfg =>
    match c.state with
    | .off | .armed _ _ | .halted _ => send s none
    | .running | .stopping =>
      match c.fifo with
      | x :: rest => send (s.putStream i (c.takeSample x rest)) (some x)
      | [] =>
        let s1 := s.putStream i c.underrunNow
        if cfg.underrun = .halt then send (s1.haltCascade i .xrun) none
        else
          let s2 := if c.underrunEp then s1 else s1.raiseAll [.underrun i s.line.frame]
          send s2 (cfg.underrunSample c.lastSample)
    | .draining kind _ =>
      match c.fifo with
      | x :: rest => send (s.putStream i (c.takeSample x rest)) (some x)
      | [] => send (s.putStream i { c with state := .draining kind true }) none

/-- R16, R68: slot `slot` starts as a transmit slot; nothing happens when it is no transmit slot (log 5). -/
def State.startTxSlot (s : State) (slot : Nat) : State :=
  match s.slotOwner slot .tx with
  | none => s
  | some (i, width) =>
    let l := { s.line.passTo (slot * s.line.fmt.slotLen) with nextSlot := slot + 1 }
    (State.serveTx { s with line := l } i width).settle

/-- TRANSMIT_SLOT (R16, R68 to R72). -/
def execTransmitSlot (slot : Nat) (s : State) : Outcome := .next (s.event fun s => s.startTxSlot slot)

/-- R18: the bits the transmit output gave one slot length before the last `width` bit periods, first bit first;
bit periods before the first frame read as ones. -/
def LinePort.loopback (l : LinePort) (width : Nat) : List Bool :=
  let bits := (l.driven.drop l.fmt.slotLen).take width
  (bits ++ List.replicate (width - bits.length) true).reverse

/-- R74: an offered sample enters the FIFO. -/
def StreamCtx.enter (c : StreamCtx) (x : Sample) : StreamCtx :=
  { c with fifo := c.fifo ++ [x], samplesServed := c.samplesServed + 1, overrunEp := false }

/-- R73 to R76: a sample offered at the end of bit period W−1. -/
def State.offerRx (s : State) (i : StreamId) (x : Sample) : State :=
  let c := s.stream i
  match c.cfg with
  | none => s
  | some cfg =>
    match c.state with
    | .off | .armed _ _ | .halted _ | .draining _ _ => s
    | .running | .stopping =>
      if c.fifo.length < Config.fifoDepth then s.putStream i ((c.enter x).testEnd (s.uncounted i))
      else if cfg.overrun = .halt then
        (s.putStream i { c with overrunEp := true }).haltCascade i .xrun
      else
        let s1 := s.putStream i { c with overrunSamples := saturate c.overrunSamples, overrunEp := true }
        if c.overrunEp then s1 else s1.raiseAll [.overrun i s.line.frame]

/-- The bits assembled in a receive slot of a stream of width `width`: the loopback path or RXD (R17, R18). -/
def LinePort.received (l : LinePort) (width : Nat) (rxd : Sample) : List Bool :=
  if l.fmt.mode = .loopback then l.loopback width else bitsOf width rxd.toNat

/-- R17, R73: bit period W−1 of receive slot `slot` ends; nothing happens when it is no receive slot (log 5). -/
def State.endRxSlot (s : State) (slot : Nat) (rxd : Sample) : State :=
  match s.slotOwner slot .rx with
  | none => s
  | some (i, width) =>
    let l := { s.line.passTo (slot * s.line.fmt.slotLen + width) with nextSlot := slot + 1 }
    let l1 := { l with rxBits := l.received width rxd }
    (State.offerRx { s with line := l1 } i (BitVec.ofNat 24 (natOf l1.rxBits))).settle

/-- RECEIVE_SLOT (R17, R73 to R76). -/
def execReceiveSlot (slot : Nat) (rxd : Sample) (s : State) : Outcome :=
  .next (s.event fun s => s.endRxSlot slot rxd)

end Sys2Proof.Machine
end

