-- ==== Sys2Proof/Machine/Dispatch.lean ====
section
/-! DEFINITION. One arm for each row of the table: the meaning it has. -/

namespace Sys2Proof.Machine

def exec (i : Instr) (s : State) : Host.Outcome State Fault Refusal :=
  match i with
  | .configure operand => Sys2Proof.Machine.execConfigure operand s
  | .deconfigure operand => Sys2Proof.Machine.execDeconfigure operand s
  | .post operand => Sys2Proof.Machine.execPost operand s
  | .start operand => Sys2Proof.Machine.execStart operand s
  | .stop operand => Sys2Proof.Machine.execStop operand s
  | .abort operand => Sys2Proof.Machine.execAbort operand s
  | .clear operand => Sys2Proof.Machine.execClear operand s
  | .gstart operand => Sys2Proof.Machine.execGstart operand s
  | .gstop operand => Sys2Proof.Machine.execGstop operand s
  | .gabort operand => Sys2Proof.Machine.execGabort operand s
  | .mapswap operand => Sys2Proof.Machine.execMapswap operand s
  | .mapcopy operand => Sys2Proof.Machine.execMapcopy operand s
  | .cqpop operand => Sys2Proof.Machine.execCqpop operand s
  | .cqflush operand => Sys2Proof.Machine.execCqflush operand s
  | .lineSet operand => Sys2Proof.Machine.execLineSet operand s
  | .lineUp operand => Sys2Proof.Machine.execLineUp operand s
  | .lineDown operand => Sys2Proof.Machine.execLineDown operand s
  | .unknownOpcode opcode operand => Sys2Proof.Machine.execUnknownOpcode opcode operand s
  | .mapDataWrite value => Sys2Proof.Machine.execMapDataWrite value s
  | .statusWrite value => Sys2Proof.Machine.execStatusWrite value s
  | .readOnlyWrite word value => Sys2Proof.Machine.execReadOnlyWrite word value s
  | .intCtrlWrite value => Sys2Proof.Machine.execIntCtrlWrite value s
  | .controlWordWrite word value => Sys2Proof.Machine.execControlWordWrite word value s
  | .samplesServedLowRead => Sys2Proof.Machine.execSamplesServedLowRead s
  | .registerWrite word value => Sys2Proof.Machine.execRegisterWrite word value s
  | .pinReset => Sys2Proof.Machine.execPinReset s
  | .resetRelease => Sys2Proof.Machine.execResetRelease s
  | .syncArrival bit => Sys2Proof.Machine.execSyncArrival bit s
  | .trialTimeout => Sys2Proof.Machine.execTrialTimeout s
  | .missedSync => Sys2Proof.Machine.execMissedSync s
  | .frameEnd => Sys2Proof.Machine.execFrameEnd s
  | .transmitSlot slot => Sys2Proof.Machine.execTransmitSlot slot s
  | .receiveSlot slot rxd => Sys2Proof.Machine.execReceiveSlot slot rxd s
  | .busGrant => Sys2Proof.Machine.execBusGrant s
  | .busGrantLow => Sys2Proof.Machine.execBusGrantLow s
  | .busGrantWithdrawn => Sys2Proof.Machine.execBusGrantWithdrawn s
  | .busYield level => Sys2Proof.Machine.execBusYield level s
  | .wordTransferComplete hostWrote => Sys2Proof.Machine.execWordTransferComplete hostWrote s
  | .busFault => Sys2Proof.Machine.execBusFault s
  | .holdoffExpiry => Sys2Proof.Machine.execHoldoffExpiry s
  | .fsyncLowSample => Sys2Proof.Machine.execFsyncLowSample s

end Sys2Proof.Machine
end

