-- ==== Sys2Proof/Machine/Time.lean ====
section
/-! DEFINITION. The passage of time: one period of REFCLK, in which the two dividers count (R2; log 1). -/

namespace Sys2Proof.Machine

/-- R158: a timebase tick of the holdoff timer. -/
def HoldoffTimer.tick : HoldoffTimer → HoldoffTimer
  | .counting n => if n ≤ 1 then .expired else .counting (n - 1)
  | .stopped => .stopped
  | .expired => .expired

/-- R131, R132: a timebase tick of the ready timer; at its end the word is a bus fault. -/
def State.readyTick (s : State) : State :=
  match s.mover.inFlight with
  | none => s
  | some w =>
    if w.timer ≤ 1 then s.faultWord.settle
    else { s with mover := { s.mover with inFlight := some { w with timer := w.timer - 1 } } }

/-- A timebase tick: the holdoff timer, then the ready timer. R131 and R158 give no order. So a tick whose ready-timer
expiry raises BUS_FAULT on an empty queue does not count for the holdoff timer that this record loads: with HOLDOFF 1
the timer stands at COUNTING 1 after that tick, where the other order would leave it EXPIRED (DESIGN CHOICE, log 19). -/
def State.tick (s : State) : State :=
  State.readyTick { s with cq := { s.cq with timer := s.cq.timer.tick } }

/-- R2: the timebase divider; the tick in progress ends by the divider it began with (log 12). -/
def State.timebase (s : State) : State :=
  if s.line.tbLeft ≤ 1 then
    State.tick { s with line := { s.line with tbLeft := s.line.fmt.tbDiv + 1 } }
  else { s with line := { s.line with tbLeft := s.line.tbLeft - 1 } }

/-- A slot event of the frame in progress is due at the present bit position (R15 to R17): the start of a transmit
slot, or the end of bit period W−1 of a receive slot. -/
def State.slotDue (s : State) (slot : Nat) : Bool :=
  (s.slotOwner slot .tx).any (fun _ => decide (slot * s.line.fmt.slotLen ≤ s.line.bitPos))
  || (s.slotOwner slot .rx).any fun o => decide (slot * s.line.fmt.slotLen + o.2 ≤ s.line.bitPos)

/-- A line event is due, so that it comes before another bit period passes (log 13). -/
def State.lineDue (s : State) : Bool :=
  decide (s.line.fmt.frameBits ≤ s.line.bitPos) || (List.range 32).any s.slotDue

/-- Bit periods are counted: in a trial and in a served frame (R7, R8, R12). -/
def LinePort.counts (l : LinePort) : Bool := l.served || decide (l.state = .confirm)

/-- A bit period passes on the line, unless a line event is due. -/
def State.bitPeriod (s : State) : State :=
  if s.line.counts = true ∧ s.lineDue = false then { s with line := s.line.pass 1 } else s

/-- The bit clock in one period of REFCLK: the divider D in MASTER and LOOPBACK (R2), the trunk in FOLLOWER (R12;
log 2). -/
def State.bitClock (s : State) : State :=
  if s.line.up = false then s
  else match s.line.fmt.mode with
    | .follower =>
      let t := { s with freeIdx := s.freeIdx + 1 }
      if Config.trunkBit s.freeIdx then t.bitPeriod else t
    | .master | .loopback =>
      if s.line.bitLeft ≤ 1 then
        State.bitPeriod { s with line := { s.line with bitLeft := 2 * (s.line.fmt.bclkDiv + 1) } }
      else { s with line := { s.line with bitLeft := s.line.bitLeft - 1 } }

/-- One period of REFCLK passes with nothing waiting (log 1). While RESET is low the part holds its values (R171). The
manual gives no order to a sample of BGNT, a timebase tick and a bit period that fall in one period of REFCLK; the
model takes them in that order, so a halt by the ready timeout cuts TXD before the bit period passes (DESIGN CHOICE,
log 31). -/
def State.idle (s : State) : State := if s.resetLow then s else s.sampleGrant.timebase.bitClock

end Sys2Proof.Machine
end

