-- ==== Sys2Proof/Safety.lean ====
section
/-! DEFINITION. The words statements are made of: a command's answer, what a stop, a boundary, a loss and a bus fault leave, and the laws every step keeps. -/

namespace Sys2Proof.Machine

/-! ### The answer of a command -/

/-- The state with COMMAND, RESULT and RESULT_DETAIL as a command of this outcome leaves them (R167, R168). -/
def State.withResult (s : State) (op arg : Byte) (code : ResultCode) (detail : Nat) : State :=
  { s with win := { s.win with command := op ++ arg, resultOp := op, resultCode := code, detail := word detail } }

/-- The state with one stream context replaced, and nothing else. -/
def State.withStream (s : State) (i : StreamId) (c : StreamCtx) : State :=
  { s with streams := s.streams.set i.val c i.isLt }

/-- Descriptors in all sixteen queues. -/
def State.queued (s : State) : Nat := (allStreams.map fun i => (s.stream i).queue.length).sum

/-! ### The Mover's tenures and moves -/

/-- A tenure begins (R120). -/
def Mover.begun (m : Mover) : Mover :=
  { m with bus := .holding, wordCount := 0, limit := some m.tenureMax, yielded := false }

/-- A tenure has ended (R121). -/
def Mover.ended (m : Mover) : Mover :=
  { m with bus := .waitLow, limit := none, move := none, inFlight := none, yielded := false }

/-- A move of stream `i`, whose context is `c` and whose head is `d`, has started with word `w` of the head, for which
`n` samples were taken and not counted (R125, R126, R130, R131). -/
def Mover.moving (m : Mover) (i : StreamId) (c : StreamCtx) (cfg : StreamConfig) (d : Descriptor) (w : Word)
    (n : Nat) : Mover :=
  let addr : Addr := BitVec.ofNat 24 (d.address.toNat + 2 * c.wordsDone)
  { m with
    pointer := i
    move := some { stream := i, dir := cfg.direction, posting := d.posting, nextAddr := addr + 2
                   wordsLeft := cfg.footprint d.length - c.wordsDone - 1 }
    inFlight := some { addr := addr, dir := cfg.direction, word := w, timer := m.readyTimeout, uncounted := n } }

/-- `t` has the Mover and the streams of `s` after the first word of a move for the stream chosen in `s`, from the
Mover's items `m` (R124 to R126): a fetch takes nothing, a store what its packer prepares (R114). -/
def MoveStarted (s : State) (m : Mover) (t : State) : Prop :=
  ∀ (i : StreamId) (cfg : StreamConfig) (d : Descriptor) (rest : List Descriptor),
    s.choice = some i → (s.stream i).cfg = some cfg → (s.stream i).queue = d :: rest →
    (s.stream i).wordsDone < cfg.footprint d.length →
    (cfg.direction = .tx → t.mover = m.moving i (s.stream i) cfg d 0 0 ∧ t.streams = s.streams)
    ∧ (cfg.direction = .rx → ∀ c' w n, (s.stream i).prepare cfg d = some (c', w, n) →
        t.mover = m.moving i (s.stream i) cfg d w n ∧ t.streams = (s.withStream i c').streams)

/-- Stream `j` of `t` is the context `c`, but for the samples that the word in flight of `t` was prepared from when
that word is a store for stream `j` (R114). -/
def StreamCtx.NextWordTaken (c : StreamCtx) (j : StreamId) (t : State) : Prop :=
  match t.mover.move, t.mover.inFlight with
  | some m, some w =>
    if m.stream = j ∧ m.dir = .rx then
      ∃ cfg d rest, c.cfg = some cfg ∧ c.queue = d :: rest
        ∧ c.prepare cfg d = some (t.stream j, w.word, w.uncounted)
    else t.stream j = c
  | _, _ => t.stream j = c

/-- The move goes on with its next word for its stream, now of context `c` (R127, R128): the posting served is still
the head, words remain, and a fetch finds its state and its room, a store its state and a word. -/
def StreamCtx.GoesOn (c : StreamCtx) (m : Move) : Prop :=
  ∃ cfg d rest, c.cfg = some cfg ∧ c.queue = d :: rest ∧ d.posting = m.posting ∧ 0 < m.wordsLeft
    ∧ (m.dir = .tx → c.mayFetch = true ∧ c.roomCheck cfg d = true)
    ∧ (m.dir = .rx → c.mayStore = true ∧ c.prepare cfg d ≠ none)

/-! ### A bit period -/

/-- One bit period has passed on the line (R16, R18): the bit driven, or a 1 where none was, enters the loopback delay
line of two slot lengths. -/
def LinePort.passed (l : LinePort) : LinePort :=
  { l with
    bitPos := l.bitPos + 1
    txBits := l.txBits.drop 1
    driven := (l.txBits.head?.getD true :: l.driven).take (2 * l.fmt.slotLen) }

/-- The bit clock of `s` in one period of REFCLK takes the line port from `l` to `l'`: a bit period takes 2(D+1) periods
in MASTER and LOOPBACK (R2) and is the trunk's in FOLLOWER (R12), and it passes in a trial and in a served frame while
no line event is due (logs 2, 12 and 13). -/
def State.BitClockTo (s : State) (l l' : LinePort) : Prop :=
  let counts := (s.line.state = .confirm ∨ s.line.state = .aligned ∨ s.line.state = .flywheel) ∧ s.lineDue = false
  (s.line.state = .disabled → l' = l)
  ∧ (s.line.state ≠ .disabled → s.line.fmt.mode ≠ .follower →
      (1 < l.bitLeft → l' = { l with bitLeft := l.bitLeft - 1 })
      ∧ (l.bitLeft ≤ 1 → l' = { (if counts then l.passed else l) with bitLeft := 2 * (s.line.fmt.bclkDiv + 1) }))
  ∧ (s.line.state ≠ .disabled → s.line.fmt.mode = .follower → l' = l ∨ (counts ∧ l' = l.passed))

/-! ### What follows at once -/

/-- The state `s` with the streams of `t` and what settle makes of it: the line port and the group actions of `t` are
its own (R16, R139; SettleFollowsAStreamChange says what they are). -/
def State.followed (s t : State) : State := State.settle { s with streams := t.streams }

/-- No act of the Mover touches the line port, the group actions, the RESET pin, the posting numbers, the free values
or the waiting commands of `s`, but for what follows in `t` from the change of the streams. -/
def State.FollowedBy (s t : State) : Prop :=
  t.line = (s.followed t).line ∧ t.groups = (s.followed t).groups
  ∧ t.resetLow = s.resetLow ∧ t.nextPosting = s.nextPosting ∧ t.freeIdx = s.freeIdx ∧ t.pending = s.pending

/-! ### Returns and stops of one stream -/

/-- The counters after these returns, oldest first (R98 steps 2 and 3, R101). -/
def StreamCtx.counted (c : StreamCtx) (ds : List Descriptor) : StreamCtx :=
  { c with
    buffersDone := c.buffersDone + BitVec.ofNat 16 ds.length
    lastTag := match ds.getLast? with
      | some d => some d.tag
      | none => c.lastTag }

/-- OFF, with the whole queue returned, in the condition of R42. -/
def StreamCtx.swept (c : StreamCtx) : StreamCtx :=
  { c.counted c.queue with
    state := .off, fifo := [], residual := [], samplesDone := 0, wordsDone := 0
    underrunEp := false, overrunEp := false, queue := [] }

/-- BUFFER_DONE records of a sweep with one status and count 0, oldest first (R101). -/
def sweepRecords (ds : List Descriptor) (i : StreamId) (frame : BitVec 16) (st : Status) : List Record :=
  ds.map fun d => .bufferDone i frame d.tag st 0

/-- The returns of a stop that ends the stream: the head SHORT with its samples done, or CANCELLED with none, and the
rest CANCELLED (R54, R55). -/
def StreamCtx.stopReturns (c : StreamCtx) (i : StreamId) (frame : BitVec 16) : List Record :=
  match c.queue with
  | [] => []
  | d :: rest =>
    (if 0 < c.samplesDone then .bufferDone i frame d.tag .short c.samplesDone
     else .bufferDone i frame d.tag .cancelled 0) :: sweepRecords rest i frame .cancelled

/-- The stop of this stream begins a flush: receive, a head, and something left to store (R55, R136). -/
def StreamCtx.stopFlushes (c : StreamCtx) (inFlight : Bool) : Prop :=
  c.cfg.map StreamConfig.direction = some .rx ∧ c.queue ≠ [] ∧ (c.fifo ≠ [] ∨ c.residual ≠ [] ∨ inFlight = true)

/-- The stream after its stop, and the records of the stop (R54, R55). -/
def StreamCtx.Stopped (c : StreamCtx) (i : StreamId) (frame : BitVec 16) (inFlight : Bool)
    (c' : StreamCtx) (records : List Record) : Prop :=
  (c.stopFlushes inFlight →
    c' = { c.counted (c.queue.drop 1) with state := .draining .stop false, queue := c.queue.take 1 }
    ∧ records = sweepRecords (c.queue.drop 1) i frame .cancelled)
  ∧ (¬ c.stopFlushes inFlight →
    c' = c.swept ∧ records = c.stopReturns i frame ++ [.streamStopped i frame .stop c.fifo.length])

/-! ### The frame boundary (R13) -/

/-- What the boundary that opens `frame` makes of one stream, and the records it raises for it (R49, R50, R54, R55,
R58): a start, a stop, the end of a transmit drain, or nothing. -/
def StreamCtx.Crossed (c : StreamCtx) (i : StreamId) (frame : BitVec 16) (inFlight : Bool)
    (c' : StreamCtx) (records : List Record) : Prop :=
  match c.state with
  | .armed m endFetched =>
    if m = .next ∨ m = .at frame then
      c' = { c with state := if endFetched then .draining .ended false else .running }
      ∧ records = [.streamStarted i frame]
    else c' = c ∧ records = []
  | .stopping => c.Stopped i frame inFlight c' records
  | .draining .ended true =>
    c' = { c with
      state := .off, fifo := [], residual := [], samplesDone := 0, wordsDone := 0
      underrunEp := false, overrunEp := false }
    ∧ records = [.streamStopped i frame .ended 0]
  | .draining .ended false | .draining .stop _ | .off | .running | .halted _ => c' = c ∧ records = []

/-- `u` is `s` after a frame boundary whose line records are `own`: the counter advances and the positions start
again (R13, R14), the new frame's slots go to the streams configured now (R15, R45), a pending swap is carried out
(R31), every stream crosses (R49 to R58), and the records are raised in some order that keeps each stream's own, the
starts of one group's members in stream order (R142), and their stops (R143, R149). -/
def BoundaryTo (s u : State) (own : List Record) : Prop :=
  let frame := s.line.frame + 1
  u.line = { s.line with
    frame := frame, bitPos := 0, nextSlot := 0, txStream := none, txBits := [], rxBits := []
    frameWidths := s.streams.map fun c => c.cfg.map StreamConfig.width }
  ∧ u.map = (if s.map.swapPending then { s.map with active := s.map.active.other, swapPending := false } else s.map)
  ∧ u.free + u.queued = s.free + s.queued
  ∧ (∃ (records : StreamId → List Record) (raised : List Record),
      (∀ i, (s.stream i).Crossed i frame (s.headInFlight i) (u.stream i) (records i))
      ∧ raised.Perm (own
          ++ (if s.map.swapPending then [.mapSwapped frame s.map.active.other] else [])
          ++ allStreams.flatMap records)
      ∧ (∀ i, (records i).Sublist raised)
      ∧ (∀ g : GroupId,
          (((s.members g).filter fun i => (s.stream i).isArmed).flatMap records).Sublist raised
          ∧ (((s.members g).filter fun i => decide ((s.stream i).state = .stopping)).flatMap records).Sublist raised)
      ∧ u.cq = s.cq.raiseAll raised)
  ∧ u = { s with
      line := u.line, map := u.map, streams := u.streams, free := u.free, cq := u.cq, freeIdx := u.freeIdx }

/-! ### The loss of alignment (R11) -/

/-- The stream was RUNNING or DRAINING at the loss, with HALT_ON_LOSS (R11 step 2). -/
def StreamCtx.alignHalts (c : StreamCtx) : Prop :=
  c.cfg.map StreamConfig.haltOnLoss = some true ∧ (c.state = .running ∨ ∃ k r, c.state = .draining k r)

/-- A member of the stream's group halts with cause ALIGN at the loss. -/
def State.groupHit (s : State) (i : StreamId) : Prop :=
  ∃ g, (s.stream i).group? = some g ∧ ∃ j, (s.stream j).group? = some g ∧ (s.stream j).alignHalts

/-- What the loss of alignment makes of one stream: step 1 of R11 to `c1` with the records of its stop, step 2 (with
R146 and R147) to `c'` with the record of its halt. -/
def State.Lost (s : State) (i : StreamId) (c' : StreamCtx) (stops halts : List Record) : Prop :=
  ∃ c1,
    (if (s.stream i).state = .stopping then
      (s.stream i).Stopped i s.line.frame (s.headInFlight i) c1 stops
     else c1 = s.stream i ∧ stops = [])
    ∧ ((s.stream i).alignHalts →
        c' = { c1 with state := .halted .align } ∧ halts = [.streamHalted i s.line.frame .align])
    ∧ (¬ (s.stream i).alignHalts → s.groupHit i → c1.working = true →
        c' = { c1 with state := .halted .group } ∧ halts = [.streamHalted i s.line.frame .group])
    ∧ (¬ (s.stream i).alignHalts → (¬ s.groupHit i ∨ c1.working = false) → c' = c1 ∧ halts = [])

/-- A STREAM_HALTED record of this cause. -/
def Record.haltedBy (r : Record) (cause : HaltCause) : Bool :=
  match r with
  | .streamHalted _ _ h => decide (h = cause)
  | _ => false

/-- The records raised at the loss of alignment: each once, those of one stream in their order, the stops of one
group's members in stream order (R143), and of one group's halts first those of cause ALIGN and then those of cause
GROUP, each in stream order (R147); otherwise in either order (R149). That R147's order does not bind the records of
different groups, or of ungrouped streams, is the model's choice (log 35). -/
def State.LossRaised (s : State) (stops halts : StreamId → List Record) (raised : List Record) : Prop :=
  raised.Perm ([.alignLost s.line.frame] ++ allStreams.flatMap stops ++ allStreams.flatMap halts
    ++ (if s.map.swapPending then [.mapSwapped s.line.frame s.map.active.other] else []))
  ∧ (∀ i, (stops i ++ halts i).Sublist raised)
  ∧ ∀ g : GroupId,
      ((s.members g).flatMap stops).Sublist raised
      ∧ ((((s.members g).flatMap halts).filter fun r => r.haltedBy .align)
          ++ (((s.members g).flatMap halts).filter fun r => r.haltedBy .group)).Sublist raised

/-! ### A bus fault (R132) -/

/-- The members a cascade from stream `i` halts, in increasing number: working, of the same group, not `i` (R146). -/
def State.cascade (s : State) (i : StreamId) : List StreamId :=
  allStreams.filter fun j =>
    decide (j ≠ i) && (s.stream j).working && decide ((s.stream i).group? = (s.stream j).group?)
      && (s.stream i).group?.isSome

/-- The records of a halt of stream `i` and its cascade (R63, R146). -/
def State.haltRecords (s : State) (i : StreamId) (cause : HaltCause) : List Record :=
  .streamHalted i s.line.frame cause :: (s.cascade i).map fun j => .streamHalted j s.line.frame .group

/-- Every stream after the halt of stream `i` and its cascade (R63, R146). -/
def State.HaltedBy (s t : State) (i : StreamId) (cause : HaltCause) : Prop :=
  ∀ j, t.stream j =
    if j = i then { s.stream j with state := .halted cause }
    else if j ∈ s.cascade i then { s.stream j with state := .halted .group }
    else s.stream j

/-- What the bus fault of word `w` of move `m` leaves but for the line port (R132): `q` is the completion queue it
finds. That the stored words do not change, also where the word was a store, which R132 leaves outside the part, is
the model's choice (log 4). -/
def FaultOutcome (s t : State) (m : Move) (w : InFlight) (q : CompletionQueue) : Prop :=
  t.mover = s.mover.ended
  ∧ ((s.stream m.stream).working = true →
      s.HaltedBy t m.stream .busFault
      ∧ t.cq = q.raiseAll (.busFault m.stream s.line.frame w.addr :: s.haltRecords m.stream .busFault))
  ∧ ((s.stream m.stream).working = false →
      t.streams = s.streams ∧ t.cq = q.raiseAll [.busFault m.stream s.line.frame w.addr])
  ∧ t.groups = (s.followed t).groups
  ∧ t.map = s.map ∧ t.free = s.free ∧ t.win = s.win ∧ t.mem = s.mem ∧ t.pending = s.pending
  ∧ t.resetLow = s.resetLow ∧ t.nextPosting = s.nextPosting

/-! ### Laws of the state -/

/-- R86, R87: 64 records in all, at most 8 in a queue. -/
def State.PoolLaw (s : State) : Prop :=
  s.free + s.queued = 64 ∧ ∀ i, (s.stream i).queue.length ≤ 8

/-- R102: posted_total minus buffers_done, modulo 65536, is the queue length. -/
def State.CounterLaw (s : State) : Prop :=
  ∀ i, (s.stream i).postedTotal - (s.stream i).buffersDone = BitVec.ofNat 16 (s.stream i).queue.length

/-- R150, R151, R158, R163: at most 31 records before an OVERFLOW record of lost count 1..65535; the holdoff timer is
STOPPED exactly while the queue is empty; the threshold is 1..32. -/
def CompletionQueue.Law (q : CompletionQueue) : Prop :=
  q.records.length ≤ 31
  ∧ (∀ n, q.overflow = some n → 1 ≤ n ∧ n ≤ 65535)
  ∧ (q.timer = .stopped ↔ q.records = [] ∧ q.overflow = none)
  ∧ (∀ n, q.timer = .counting n → 1 ≤ n)
  ∧ 1 ≤ q.threshold ∧ q.threshold ≤ 32

/-- R28, R32: in the bank no stream appears with both directions, and a configured stream appears with its own. -/
def State.BankAgrees (s : State) (bank : Vector Entry 32) : Prop :=
  ∀ (k : Fin 32) (i : StreamId) (d : Direction), bank[k] = some (i, d) →
    (∀ (j : Fin 32) (d' : Direction), bank[j] = some (i, d') → d' = d)
    ∧ ∀ cfg, (s.stream i).cfg = some cfg → cfg.direction = d

/-- R32, with what keeps it: a pending swap waits in a served line for a shadow bank that passed validation (R30). -/
def State.MapLaw (s : State) : Prop :=
  s.BankAgrees s.map.activeBank
  ∧ (s.map.swapPending = true → s.BankAgrees s.map.shadowBank ∧ s.line.served = true)

/-- R38, R44: every field of a configuration lies in its range and agrees with the others, for slot length `slotLen`. -/
def StreamConfig.Agrees (c : StreamConfig) (slotLen : Nat) : Prop :=
  4 ≤ c.width ∧ c.width ≤ 24 ∧ c.width ≤ slotLen
  ∧ (c.packing = .word → c.width ≤ 16)
  ∧ (c.extension ≠ .none ↔ c.direction = .rx ∧ c.packing ≠ .packed)
  ∧ (c.underrun ≠ .none ↔ c.direction = .tx)
  ∧ (c.overrun ≠ .none ↔ c.direction = .rx)
  ∧ 1 ≤ c.watermark ∧ c.watermark ≤ 7
  ∧ c.fill.toNat < 2 ^ c.width

/-- R1: every line setting lies in its range. -/
def LineFormat.Legal (f : LineFormat) : Prop :=
  2 ≤ f.slots ∧ f.slots ≤ 32 ∧ f.slotLen ∈ [8, 12, 16, 20, 24, 28, 32]
  ∧ f.bclkDiv ≤ 255 ∧ 1 ≤ f.flywheel ∧ f.flywheel ≤ 15 ∧ f.tbDiv ≤ 63

/-- Section 1.3, R1, R6, R10, R38: legal settings; MASTER and LOOPBACK lines are DISABLED or ALIGNED; the miss count
is 1..F−1 in FLYWHEEL and 0 elsewhere; every configuration agrees with the slot length. In a served frame the widths
its slots were opened with fit the slot, and a stream that drives its slots has the width it is configured with. -/
def State.LineLaw (s : State) : Prop :=
  s.line.fmt.Legal
  ∧ (s.line.fmt.mode ≠ .follower → s.line.state = .disabled ∨ s.line.state = .aligned)
  ∧ (s.line.state = .flywheel → 1 ≤ s.line.miss ∧ s.line.miss < s.line.fmt.flywheel)
  ∧ (s.line.state ≠ .flywheel → s.line.miss = 0)
  ∧ (∀ i cfg, (s.stream i).cfg = some cfg → cfg.Agrees s.line.fmt.slotLen)
  ∧ (s.line.served = true → ∀ i : StreamId,
      (∀ w, s.line.frameWidths[i] = some w → 4 ≤ w ∧ w ≤ s.line.fmt.slotLen)
      ∧ ((s.stream i).driving = true → s.line.frameWidths[i] = (s.stream i).cfg.map StreamConfig.width))

/-- R118 to R122, R130, R131: a move, a word in flight and a limit are there exactly in HOLDING, so at most one of
each; the word count stays below the limit; the timer has ticks left; TENURE_MAX and READY_TIMEOUT are in range. -/
def Mover.Law (m : Mover) : Prop :=
  (m.bus = .holding ↔ m.move.isSome = true)
  ∧ (m.bus = .holding ↔ m.inFlight.isSome = true)
  ∧ (m.bus = .holding ↔ m.limit.isSome = true)
  ∧ (∀ l, m.limit = some l → m.wordCount < l ∧ l ≤ 32)
  ∧ (∀ w, m.inFlight = some w → 1 ≤ w.timer)
  ∧ 1 ≤ m.tenureMax ∧ m.tenureMax ≤ 32 ∧ 1 ≤ m.readyTimeout ∧ m.readyTimeout ≤ 255

/-- R121, R123, R171: while a tenure goes on that nothing has asked to end, BGNT is asserted and BYLD is not, so that
condition 4 of R127 holds but for the limit; and while RESET is low the Mover is in WAIT_LOW. -/
def State.TenureLaw (s : State) : Prop :=
  (s.resetLow = true → s.mover.bus = .waitLow)
  ∧ (s.mover.bus = .holding → s.mover.yielded = false → s.mover.bgnt = true ∧ s.mover.byld = false)

/-- R119: in IDLE no stream presents a request. -/
def State.IdleLaw (s : State) : Prop := s.mover.bus = .idle → ∀ i, s.request i = none

/-- R139, R141, R143: a pending START has ARMED members, all with its mode; a pending STOP has STOPPING members; and
an ARMED or STOPPING member belongs to such a pending action. -/
def State.GroupLaw (s : State) : Prop :=
  ∀ g : GroupId,
    (∀ m, s.groups[g] = .start m → ∃ i ∈ s.members g, (s.stream i).isArmed = true)
    ∧ (s.groups[g] = .stop → ∃ i ∈ s.members g, (s.stream i).state = .stopping)
    ∧ ∀ i, (s.stream i).group? = some g →
        (∀ m e, (s.stream i).state = .armed m e → s.groups[g] = .start m)
        ∧ ((s.stream i).state = .stopping → s.groups[g] = .stop)

/-- R88, R126: the postings of a queue are distinct and in the order they were made, and only the newest descriptor
may carry END. -/
def StreamCtx.QueueLaw (c : StreamCtx) (nextPosting : Nat) : Prop :=
  c.queue.Pairwise (fun a b => a.posting < b.posting ∧ a.endFlag = false)
  ∧ ∀ d ∈ c.queue, d.posting < nextPosting

/-- R39, R42, R50, R57, R58: what a stream's state and configuration say of the rest of its context. -/
def StreamCtx.OffLaw (c : StreamCtx) : Prop :=
  (c.state = .off →
    c.fifo = [] ∧ c.residual = [] ∧ c.samplesDone = 0 ∧ c.wordsDone = 0
    ∧ c.underrunEp = false ∧ c.overrunEp = false)
  ∧ (c.cfg = none → c.state = .off ∧ c.queue = [])
  ∧ (∀ m, c.state = .armed m true → c.queue = [])
  ∧ (∀ r, c.state = .draining .ended r → c.cfg.map StreamConfig.direction = some .tx → c.queue = [])
  ∧ (∀ k, c.state = .draining k true → c.cfg.map StreamConfig.direction = some .tx)
  ∧ (c.cfg.map StreamConfig.direction ≠ some .tx → c.lastSample = none)

/-- R67, R112, R126, R134: a FIFO holds at most 8 samples, also when the word in flight has given it its own; a move
has its stream's direction while it serves the head; a stream that went OFF under a move holds no posting of it. -/
def State.MoveLaw (s : State) : Prop :=
  (∀ i, (s.stream i).fifo.length ≤ 8)
  ∧ ∀ m, s.mover.move = some m →
      m.posting < s.nextPosting
      ∧ ((s.stream m.stream).state = .off → ∀ d ∈ (s.stream m.stream).queue, d.posting ≠ m.posting)
      ∧ (s.servesHead m.stream = true → (s.stream m.stream).cfg.map StreamConfig.direction = some m.dir)
      ∧ ∀ w, s.mover.inFlight = some w →
          w.dir = m.dir
          ∧ ∀ cfg d rest, m.dir = .tx → s.servesHead m.stream = true →
              (s.stream m.stream).cfg = some cfg → (s.stream m.stream).queue = d :: rest →
              (s.stream m.stream).roomCheck cfg d = true

/-- Bits that one sample fills in memory (R105 to R107). -/
def StreamConfig.sampleSize (c : StreamConfig) : Nat :=
  match c.packing with
  | .packed => c.width
  | .word => 16
  | .pair => 32

/-- R92, R109, R111: the head progress and the residual bits of a transmit stream. The words fetched hold the samples
completed and the residual bits, and the head is not at its completion point. -/
def StreamCtx.FetchProgress (c : StreamCtx) (cfg : StreamConfig) (d : Descriptor) : Prop :=
  c.residual.length < cfg.width ∧ c.samplesDone < d.length ∧ c.wordsDone < cfg.footprint d.length
  ∧ match cfg.packing with
    | .packed => 16 * c.wordsDone = c.samplesDone * cfg.width + c.residual.length
    | .word => c.samplesDone = c.wordsDone ∧ c.residual = []
    | .pair => c.samplesDone = c.wordsDone / 2
      ∧ c.residual.length = if c.wordsDone % 2 = 0 then 0 else cfg.width - 16

/-- R93, R113, R114, R115: the head progress and the residual bits of a receive stream; `flying` is, if a word is in
flight for its head, the number of that word's uncounted samples. The words handed and the residual bits hold the samples
taken, but for the zeros of a final padded word, which the head's last sample or the end of a flush fills. A bus fault
loses the bits of its word (R132), and a halted stream keeps what it has, so nothing more is said of it. -/
def StreamCtx.StoreProgress (c : StreamCtx) (cfg : StreamConfig) (d : Descriptor) (flying : Option Nat) : Prop :=
  let taken := c.samplesDone + flying.getD 0
  let handed := c.wordsDone + (if flying.isSome then 1 else 0)
  let bits := taken * cfg.sampleSize
  c.residual.length ≤ 23 ∧ (cfg.packing = .word → c.residual = [])
  ∧ (cfg.packing = .pair → c.residual.length = 0 ∨ c.residual.length = 16)
  ∧ taken ≤ d.length ∧ handed ≤ cfg.footprint d.length
  ∧ ((∃ h, c.state = .halted h) ∧ flying = none
    ∨ c.wordsDone < cfg.footprint d.length
      ∧ (16 * handed + c.residual.length = bits
        ∨ flying.isSome = true ∧ c.residual = [] ∧ bits < 16 * handed ∧ 16 * handed < bits + 16
          ∧ (taken = d.length ∨ (∃ h, c.state = .halted h) ∨ c.flushing = true ∧ c.fifo = [])))

/-- R85, R88, R94: lengths are 1 to 4096, and without a head there is no progress and no residual bit. -/
def StreamCtx.HeadLaw (c : StreamCtx) (flying : Option Nat) : Prop :=
  (∀ d ∈ c.queue, 1 ≤ d.length ∧ d.length ≤ 4096)
  ∧ (c.queue = [] → c.residual = [] ∧ c.samplesDone = 0 ∧ c.wordsDone = 0)
  ∧ ∀ cfg d rest, c.cfg = some cfg → c.queue = d :: rest →
      (cfg.direction = .tx → c.FetchProgress cfg d) ∧ (cfg.direction = .rx → c.StoreProgress cfg d flying)

/-- The uncounted samples of the word in flight for the head of stream `i`, if there is one (R115, R136). -/
def State.headWord (s : State) (i : StreamId) : Option Nat :=
  match s.mover.inFlight with
  | some w => if s.servesHead i then some w.uncounted else none
  | none => none

/-- R92, R93, R96, R109, R113, R115: at most one sample is taken and not yet counted, and the progress of every head
stays in its length and its footprint and agrees with the residual bits. -/
def State.HeadLaw (s : State) : Prop :=
  (∀ w, s.mover.inFlight = some w → w.uncounted ≤ 1 ∧ (w.dir = .tx → w.uncounted = 0))
  ∧ ∀ i, (s.stream i).HeadLaw (s.headWord i)

/-- The stream and the Mover agree: R32, R42, R67, R88, R126, R134 together, each resting on the others. -/
def State.StreamLaw (s : State) : Prop :=
  s.MapLaw ∧ s.MoveLaw
  ∧ ∀ i, (s.stream i).OffLaw ∧ (s.stream i).QueueLaw s.nextPosting

/-- The canonical form of the stored words: addresses strictly rising (log 4). -/
def State.MemoryLaw (s : State) : Prop := memWf s.mem = true

/-- The law holds after every step from a state where it holds. -/
def KeptByStep (law : State → Prop) : Prop := ∀ s t, law s → step s = .next t → law t

end Sys2Proof.Machine
end

