-- ==== Sys2Proof/Certificates/Slice0/Obligations.lean ====
section
/-! DEFINITION. The statements for the provers: the step, every command and event, the shared acts, the laws every step keeps, the encodings. -/

open Sys2Proof Sys2Proof.Machine

/-! ### The step -/

/-- A step takes the command at the front of the queue (log 1). -/
def Obligations.StepRunsFrontCommand : Prop :=
  ∀ (c : Instr) (rest : List Instr) (s : State),
    step { s with pending := c :: rest } = exec c { s with pending := rest }

/-- Every command and every event completes, and leaves the queue of the waiting ones alone. While RESET is low
(R171) nothing but the RESET pin and the levels of BGNT and BYLD changes anything (logs 9 and 30). -/
def Obligations.EveryCommandCompletes : Prop :=
  ∀ (c : Instr) (s : State), ∃ t, exec c s = .next t ∧ t.pending = s.pending
    ∧ (s.resetLow = true →
        match c with
        | .pinReset => t.resetLow = true
        | .resetRelease => t.resetLow = false
        | .busGrant => t = { s with mover := { s.mover with bgnt := true } }
        | .busGrantLow | .busGrantWithdrawn => t = { s with mover := { s.mover with bgnt := false } }
        | .busYield level => t = { s with mover := { s.mover with byld := level } }
        | _ => t = s)

/-- Log 1, R2, R118, R131, R158: with nothing waiting one period of REFCLK passes. BGNT is sampled, which takes
WAIT_LOW to IDLE and on to REQUESTING (log 25); both timers count at a timebase tick (R2); a bit period takes 2(D+1)
periods in MASTER and LOOPBACK (log 12) and passes when the trunk has it pass in FOLLOWER (log 2), but not while a
line event is due (log 13); and it shifts the transmit path by one bit (R16, R18). -/
def Obligations.TimePassesOnAnEmptyQueue : Prop :=
  ∀ s : State, s.pending = [] →
    (s.resetLow = true → step s = .next s)
    ∧ (s.resetLow = false → (∀ w, s.mover.inFlight = some w → 1 < w.timer ∨ 1 < s.line.tbLeft) →
      let tbLeft := if s.line.tbLeft ≤ 1 then s.line.fmt.tbDiv + 1 else s.line.tbLeft - 1
      ∃ t, step s = .next t
        ∧ t.cq = { s.cq with timer :=
            if s.line.tbLeft ≤ 1 then
              match s.cq.timer with
              | .counting n => if n ≤ 1 then .expired else .counting (n - 1)
              | .stopped => .stopped
              | .expired => .expired
            else s.cq.timer }
        ∧ t.mover = { s.mover with
            bus := if s.mover.bus = .waitLow ∧ s.mover.bgnt = false then
                if ∃ i, s.request i ≠ none then .requesting else .idle
              else s.mover.bus
            inFlight :=
              if s.line.tbLeft ≤ 1 then s.mover.inFlight.map fun w => { w with timer := w.timer - 1 }
              else s.mover.inFlight }
        ∧ s.BitClockTo { s.line with tbLeft := tbLeft } t.line
        ∧ t = { s with line := t.line, cq := t.cq, mover := t.mover, freeIdx := t.freeIdx })

/-- What follows at once from every change of a stream: a cut sample is released (R16), group actions with nobody
left are cleared (R139), and an idle Mover that finds a request asks for the bus; with BGNT still high a tenure begins
at that moment (R119, R120). -/
def Obligations.SettleFollowsAStreamChange : Prop :=
  ∀ s : State,
    ((∀ i, s.line.txStream = some i → (s.stream i).driving = true) → s.settle.line = s.line)
    ∧ (∀ i, s.line.txStream = some i → (s.stream i).driving = false →
        s.settle.line = { s.line with txStream := none, txBits := s.line.txBits.take 1 })
    ∧ (∀ g : GroupId, s.settle.groups[g] =
        match s.groups[g] with
        | .none => .none
        | .start m => if ∃ i ∈ s.members g, (s.stream i).isArmed = true then .start m else .none
        | .stop => if ∃ i ∈ s.members g, (s.stream i).state = .stopping then .stop else .none)
    ∧ ((s.mover.bus ≠ .idle ∨ ∀ i, s.request i = none) →
        s.settle.mover = s.mover ∧ s.settle.streams = s.streams)
    ∧ (s.mover.bus = .idle → (∃ i, s.request i ≠ none) →
        (s.mover.bgnt = false →
          s.settle.mover = { s.mover with bus := .requesting } ∧ s.settle.streams = s.streams)
        ∧ (s.mover.bgnt = true → s.mover.byld = true →
          s.settle.mover = s.mover.begun.ended ∧ s.settle.streams = s.streams)
        ∧ (s.mover.bgnt = true → s.mover.byld = false →
          MoveStarted s s.mover.begun s.settle ∧ ∀ j, (s.stream j).NextWordTaken j s.settle))
    ∧ s.settle = { s with
        line := s.settle.line, groups := s.settle.groups, mover := s.settle.mover, streams := s.settle.streams }

/-! ### Commands refused before any other check -/

/-- R167, R43, R140, R143, R144: an opcode outside the table is BAD_OP, a stream above 15 BAD_STREAM, a group above 3
BAD_PARAM, each with detail 0; COMMAND, RESULT and RESULT_DETAIL change and nothing else. -/
def Obligations.BadOpcodeOrNumberIsRefused : Prop :=
  ∀ (s : State) (arg : Byte), s.resetLow = false →
    (∀ op : UndefinedOpcode, exec (.unknownOpcode op arg) s = .next (s.withResult op.val arg .badOp 0))
    ∧ (16 ≤ arg.toNat →
        exec (.configure arg) s = .next (s.withResult 0x01 arg .badStream 0)
        ∧ exec (.deconfigure arg) s = .next (s.withResult 0x02 arg .badStream 0)
        ∧ exec (.post arg) s = .next (s.withResult 0x03 arg .badStream 0)
        ∧ exec (.start arg) s = .next (s.withResult 0x04 arg .badStream 0)
        ∧ exec (.stop arg) s = .next (s.withResult 0x05 arg .badStream 0)
        ∧ exec (.abort arg) s = .next (s.withResult 0x06 arg .badStream 0)
        ∧ exec (.clear arg) s = .next (s.withResult 0x07 arg .badStream 0))
    ∧ (4 ≤ arg.toNat →
        exec (.gstart arg) s = .next (s.withResult 0x10 arg .badParam 0)
        ∧ exec (.gstop arg) s = .next (s.withResult 0x11 arg .badParam 0)
        ∧ exec (.gabort arg) s = .next (s.withResult 0x12 arg .badParam 0))

/-! ### Stream commands -/

/-- R44, R45, R33: CONFIGURE's four checks in order, and the configuration installed. No slot of the frame already
being served is the stream's; from the next boundary every slot whose entry names it is (R15, R23). A receive stream
has no last sample sent (R39; that a transmit stream keeps it is log 20). -/
def Obligations.ConfigureOutcome : Prop :=
  ∀ (s : State) (i : StreamId) (arg : Byte), s.resetLow = false → arg.toNat = i.val →
    let c := s.stream i
    let staged := StreamConfig.parse s.line.fmt.slotLen
      (s.stageWord 0) (s.stageWord 1) (s.stageWord 2) (s.stageWord 3)
    let answer := fun code detail => exec (.configure arg) s = .next (s.withResult 0x01 arg code detail)
    (c.state ≠ .off ∨ c.queue ≠ [] → answer .state c.queue.length)
    ∧ (c.state = .off → c.queue = [] →
        (∀ n, staged = .error n → answer .badParam n)
        ∧ ∀ cfg, staged = .ok cfg →
          (s.map.swapPending = true → answer .busy 0)
          ∧ (s.map.swapPending = false →
              (∀ (k : Fin 32) (d : Direction), s.map.activeBank[k] = some (i, d) → d ≠ cfg.direction →
                (∀ (j : Fin 32) (d' : Direction), j < k → s.map.activeBank[j] = some (i, d') → d' = cfg.direction) →
                answer .conflict k.val)
              ∧ ((∀ (k : Fin 32) (d : Direction), s.map.activeBank[k] = some (i, d) → d = cfg.direction) →
                let configured := { c with
                  cfg := some cfg, lastSample := if cfg.direction = .tx then c.lastSample else none }
                let u := { s.withStream i configured with
                  line := { s.line with frameWidths := s.line.frameWidths.set i.val none } }
                let t := u.withResult 0x01 arg .ok 0
                exec (.configure arg) s = .next t
                ∧ (∀ slot d w, t.slotOwner slot d ≠ some (i, w))
                ∧ ∀ (v : State) (own : List Record) (k : Fin 32), BoundaryTo t v own → v.line.served = true →
                    k.val < v.line.fmt.slots → v.map.activeBank[k] = some (i, cfg.direction) →
                    v.slotOwner k.val cfg.direction = some (i, cfg.width))))

/-- R44 check 2: the first field that fails, in the order of the table, by its number; and with none failing the
configuration the staging words spell. -/
def Obligations.ConfigureChecksFieldsInOrder : Prop :=
  ∀ (slotLen : Nat) (w0 w1 w2 w3 : Word),
    let tx := field w0 1 0 = 0
    let rx := field w0 1 0 = 1
    let packing := field w0 15 14
    let width := field w0 12 8
    let bad : Nat → Prop := fun n => match n with
      | 1 => ¬ tx ∧ ¬ rx
      | 2 => width < 4 ∨ 24 < width ∨ slotLen < width
      | 3 => packing = 3 ∨ (packing = 1 ∧ 16 < width)
      | 4 => if rx ∧ packing ≠ 0 then field w0 5 4 ≠ 1 ∧ field w0 5 4 ≠ 2 else field w0 5 4 ≠ 0
      | 5 => if tx then field w1 2 0 = 0 ∨ 4 < field w1 2 0 else field w1 2 0 ≠ 0
      | 6 => if rx then field w1 5 4 = 0 ∨ 2 < field w1 5 4 else field w1 5 4 ≠ 0
      | 7 => field w1 11 8 = 0 ∨ 7 < field w1 11 8
      | 8 => 4 < field w1 14 12
      | _ => False
    (∀ n, bad n → (∀ k, k < n → ¬ bad k) → StreamConfig.parse slotLen w0 w1 w2 w3 = .error n)
    ∧ ((∀ n, ¬ bad n) → ∃ cfg, StreamConfig.parse slotLen w0 w1 w2 w3 = .ok cfg
        ∧ cfg.direction.code = field w0 1 0 ∧ cfg.width = width ∧ cfg.packing.code = packing
        ∧ cfg.extension.code = field w0 5 4 ∧ cfg.underrun.code = field w1 2 0
        ∧ cfg.overrun.code = field w1 5 4 ∧ cfg.watermark = field w1 11 8
        ∧ groupCode cfg.group = field w1 14 12 ∧ cfg.haltOnLoss = w1.getLsbD 15
        ∧ cfg.fill.toNat = (field w3 7 0 * 65536 + w2.toNat) % 2 ^ width)

/-- R46, R34, R39: DECONFIGURE needs OFF and an empty queue; it takes the configuration away, and last sample sent with
it. The slots of the frame being served stay as they are, and from the next boundary no slot is the stream's. An
unconfigured stream, which holds no last sample sent (`EveryStepKeepsTheStreams`), is not changed. -/
def Obligations.DeconfigureOutcome : Prop :=
  ∀ (s : State) (i : StreamId) (arg : Byte), s.resetLow = false → arg.toNat = i.val →
    let c := s.stream i
    (c.state ≠ .off ∨ c.queue ≠ [] →
      exec (.deconfigure arg) s = .next (s.withResult 0x02 arg .state c.queue.length))
    ∧ (c.state = .off → c.queue = [] →
      let t := (s.withStream i { c with cfg := none, lastSample := none }).withResult 0x02 arg .ok 0
      exec (.deconfigure arg) s = .next t
      ∧ (∀ slot d, t.slotOwner slot d = s.slotOwner slot d)
      ∧ (∀ (v : State) (own : List Record), BoundaryTo t v own → ∀ slot d w, v.slotOwner slot d ≠ some (i, w))
      ∧ (c.cfg = none → c.lastSample = none → t = s.withResult 0x02 arg .ok 0))

/-- R88, R89, R90, R59: POST's checks in order, and the descriptor at the tail of the queue; a receive stream whose
samples already cover the queue goes DRAINING at once. That an odd address past the top is answered 1 is the model's
choice (log 32). -/
def Obligations.PostOutcome : Prop :=
  ∀ (s : State) (i : StreamId) (arg : Byte), s.resetLow = false → arg.toNat = i.val →
    let c := s.stream i
    let d : Descriptor :=
      { address := BitVec.ofNat 24 ((s.stageWord 1).toNat % 256 * 65536 + (s.stageWord 0).toNat)
        length := (s.stageWord 2).toNat % 8192
        endFlag := (s.stageWord 3).getLsbD 15
        notify := (s.stageWord 3).getLsbD 14
        tag := (s.stageWord 3).setWidth 8
        posting := s.nextPosting }
    let answer := fun code detail => exec (.post arg) s = .next (s.withResult 0x03 arg code detail)
    let takes := (c.state = .off ∨ (∃ m, c.state = .armed m false) ∨ c.state = .running)
      ∧ ∀ e, c.queue.getLast? = some e → e.endFlag = false
    let inSpace := fun cfg : StreamConfig => d.address.toNat + 2 * (cfg.footprint d.length - 1) ≤ 0xFFFFFE
    (c.cfg = none → answer .unconfigured 0)
    ∧ ∀ cfg, c.cfg = some cfg →
      (¬ takes → answer .state 0)
      ∧ (takes → d.length = 0 ∨ 4096 < d.length → answer .badLength 0)
      ∧ (takes → 1 ≤ d.length → d.length ≤ 4096 →
          (d.address.toNat % 2 = 1 → answer .badAddress 1)
          ∧ (d.address.toNat % 2 = 0 → ¬ inSpace cfg → answer .badAddress 2)
          ∧ (d.address.toNat % 2 = 0 → inSpace cfg →
              (8 ≤ c.queue.length → answer .queueFull 8)
              ∧ (c.queue.length < 8 → s.free = 0 → answer .poolEmpty 0)
              ∧ (c.queue.length < 8 → 1 ≤ s.free →
                  let covered := cfg.direction = .rx ∧ c.state = .running ∧ d.endFlag = true
                    ∧ (c.queue.map Descriptor.length).sum + d.length
                        ≤ c.samplesDone + s.uncounted i + c.fifo.length
                  let u := { s.withStream i { c with
                      queue := c.queue ++ [d], postedTotal := c.postedTotal + 1
                      state := if covered then .draining .ended false else c.state } with
                    free := s.free - 1, nextPosting := s.nextPosting + 1 }
                  exec (.post arg) s = .next (u.settle.withResult 0x03 arg .ok (c.queue.length + 1)))))

/-- R47, R48: START's checks in order, and the arming. -/
def Obligations.StartOutcome : Prop :=
  ∀ (s : State) (i : StreamId) (arg : Byte), s.resetLow = false → arg.toNat = i.val →
    let c := s.stream i
    let code := (s.stageWord 4).toNat % 4
    let target := s.stageWord 5
    let mode : StartMode := if code = 0 then .next else .at target
    let answer := fun code detail => exec (.start arg) s = .next (s.withResult 0x04 arg code detail)
    let late := code = 1 ∧ ((target - s.line.frame).toNat = 0 ∨ 32768 ≤ (target - s.line.frame).toNat)
    (c.cfg = none → answer .unconfigured 0)
    ∧ ∀ cfg, c.cfg = some cfg →
      (∀ g : GroupId, cfg.group = some g → answer .grouped g.val)
      ∧ (cfg.group = none →
          (c.state ≠ .off → answer .state 0)
          ∧ (c.state = .off → 2 ≤ code → answer .badParam 0)
          ∧ (c.state = .off → code ≤ 1 → c.queue = [] → answer .empty 0)
          ∧ (c.state = .off → code ≤ 1 → c.queue ≠ [] → late → answer .late s.line.frame.toNat)
          ∧ (c.state = .off → code ≤ 1 → c.queue ≠ [] → ¬ late →
              let u := s.withStream i { c with
                state := .armed mode false, underrunEp := false, overrunEp := false, lastSample := none }
              exec (.start arg) s = .next (u.settle.withResult 0x04 arg .ok 0)))

/-- R51, R52, R54, R55: STOP by the stream's group, its state and the line state. -/
def Obligations.StopOutcome : Prop :=
  ∀ (s : State) (i : StreamId) (arg : Byte), s.resetLow = false → arg.toNat = i.val →
    let c := s.stream i
    let answer := fun code detail => exec (.stop arg) s = .next (s.withResult 0x05 arg code detail)
    (∀ g : GroupId, c.group? = some g → answer .grouped g.val)
    ∧ (c.group? = none →
        ((c.state = .off ∨ c.state = .stopping ∨ (∃ k r, c.state = .draining k r) ∨ ∃ h, c.state = .halted h) →
          answer .state 0)
        ∧ (∀ m e, c.state = .armed m e →
            let u := { s.withStream i c.swept with
              free := s.free + c.queue.length
              cq := s.cq.raiseAll (sweepRecords c.queue i s.line.frame .cancelled
                ++ [Record.streamStopped i s.line.frame .stop c.fifo.length]) }
            exec (.stop arg) s = .next (u.settle.withResult 0x05 arg .ok 1))
        ∧ (c.state = .running → s.line.served = true →
            let u := s.withStream i { c with state := .stopping }
            exec (.stop arg) s = .next (u.settle.withResult 0x05 arg .ok 0))
        ∧ (c.state = .running → s.line.served = false →
            ∃ c' records, c.Stopped i s.line.frame (s.headInFlight i) c' records
              ∧ exec (.stop arg) s = .next ((State.settle { s.withStream i c' with
                  free := s.free + c.queue.length - c'.queue.length
                  cq := s.cq.raiseAll records }).withResult 0x05 arg .ok 1)))

/-- R65, R66: ABORT in every state; CLEAR, which releases a halted stream without STREAM_STOPPED and is refused in
every other state. -/
def Obligations.AbortAndClearOutcome : Prop :=
  ∀ (s : State) (i : StreamId) (arg : Byte), s.resetLow = false → arg.toNat = i.val →
    let c := s.stream i
    let returns := sweepRecords c.queue i s.line.frame .aborted
    let stopped := Record.streamStopped i s.line.frame .abort c.fifo.length
    let ended := fun records => { s.withStream i { c.swept with lastSample := none } with
      free := s.free + c.queue.length, cq := s.cq.raiseAll records }
    (c.state = .off →
      let u := { s.withStream i { c.counted c.queue with queue := [] } with
        free := s.free + c.queue.length, cq := s.cq.raiseAll returns }
      exec (.abort arg) s = .next (u.settle.withResult 0x06 arg .ok c.queue.length))
    ∧ (c.state ≠ .off →
      exec (.abort arg) s
        = .next ((ended (returns ++ [stopped])).settle.withResult 0x06 arg .ok c.queue.length))
    ∧ ((∀ h, c.state ≠ .halted h) → exec (.clear arg) s = .next (s.withResult 0x07 arg .state 0))
    ∧ (∀ h, c.state = .halted h →
      exec (.clear arg) s = .next ((ended returns).settle.withResult 0x07 arg .ok c.queue.length))

/-! ### Group commands -/

/-- R140, R141: GSTART's checks in order; every member is armed in one act and the pending action is START. -/
def Obligations.GroupStartOutcome : Prop :=
  ∀ (s : State) (g : GroupId) (arg : Byte), s.resetLow = false → arg.toNat = g.val →
    let code := (s.stageWord 4).toNat % 4
    let target := s.stageWord 5
    let mode : StartMode := if code = 0 then .next else .at target
    let answer := fun code detail => exec (.gstart arg) s = .next (s.withResult 0x10 arg code detail)
    let member := fun i => (s.stream i).group? = some g
    let ready := fun i => (s.stream i).state = .off ∧ (s.stream i).queue ≠ []
    let late := code = 1 ∧ ((target - s.line.frame).toNat = 0 ∨ 32768 ≤ (target - s.line.frame).toNat)
    (2 ≤ code → answer .badParam 1)
    ∧ (code ≤ 1 →
        ((∀ i, ¬ member i) → answer .groupNotReady 0xFFFF)
        ∧ (∀ i, member i → ¬ ready i → (∀ j, j < i → member j → ready j) → answer .groupNotReady i.val)
        ∧ ((∃ i, member i) → (∀ i, member i → ready i) →
            (late → answer .late s.line.frame.toNat)
            ∧ (¬ late → ∃ u : State,
                exec (.gstart arg) s = .next (u.settle.withResult 0x10 arg .ok (s.members g).length)
                ∧ (∀ i, u.stream i = if member i then
                      { s.stream i with
                        state := .armed mode false, underrunEp := false, overrunEp := false, lastSample := none }
                    else s.stream i)
                ∧ u.groups = s.groups.set g.val (.start mode)
                ∧ u = { s with streams := u.streams, groups := u.groups })))

/-- R143: GSTOP stops armed members at once and running ones at the next boundary, or at once on a line without
boundaries. -/
def Obligations.GroupStopOutcome : Prop :=
  ∀ (s : State) (g : GroupId) (arg : Byte), s.resetLow = false → arg.toNat = g.val →
    let member := fun i => (s.stream i).group? = some g
    let armed := fun i => ∃ m e, (s.stream i).state = .armed m e
    let running := fun i => (s.stream i).state = .running
    ((∀ i, member i → ¬ armed i ∧ ¬ running i) →
      exec (.gstop arg) s = .next (s.withResult 0x11 arg .state 0))
    ∧ ((∃ i, member i ∧ (armed i ∨ running i)) →
      ∃ (u : State) (records : StreamId → List Record),
        (∀ i, (member i → armed i → u.stream i = (s.stream i).swept
              ∧ records i = sweepRecords (s.stream i).queue i s.line.frame .cancelled
                  ++ [.streamStopped i s.line.frame .stop (s.stream i).fifo.length])
            ∧ (member i → running i → s.line.served = true →
              u.stream i = { s.stream i with state := .stopping } ∧ records i = [])
            ∧ (member i → running i → s.line.served = false →
              (s.stream i).Stopped i s.line.frame (s.headInFlight i) (u.stream i) (records i))
            ∧ (¬ member i ∨ (¬ armed i ∧ ¬ running i) → u.stream i = s.stream i ∧ records i = []))
        ∧ u.cq = s.cq.raiseAll (allStreams.flatMap records)
        ∧ u.free + u.queued = s.free + s.queued
        ∧ (s.line.served = true ∧ (∃ i, member i ∧ running i) →
            u.groups = s.groups.set g.val .stop
            ∧ exec (.gstop arg) s = .next (u.settle.withResult 0x11 arg .ok 0))
        ∧ (s.line.served = false ∨ (∀ i, member i → ¬ running i) →
            u.groups = s.groups
            ∧ exec (.gstop arg) s = .next (u.settle.withResult 0x11 arg .ok 1))
        ∧ u = { s with streams := u.streams, groups := u.groups, cq := u.cq, free := u.free })

/-- R144: GABORT aborts every member that is not OFF, in increasing stream number, and the pending action is NONE. -/
def Obligations.GroupAbortOutcome : Prop :=
  ∀ (s : State) (g : GroupId) (arg : Byte), s.resetLow = false → arg.toNat = g.val →
    let hit := fun i => (s.stream i).group? = some g ∧ (s.stream i).state ≠ .off
    ∃ u : State,
      exec (.gabort arg) s
        = .next (u.settle.withResult 0x12 arg .ok (allStreams.filter fun i => decide (hit i)).length)
      ∧ (∀ i, u.stream i = if hit i then { (s.stream i).swept with lastSample := none } else s.stream i)
      ∧ u.cq = s.cq.raiseAll ((allStreams.filter fun i => decide (hit i)).flatMap fun i =>
          sweepRecords (s.stream i).queue i s.line.frame .aborted
            ++ [.streamStopped i s.line.frame .abort (s.stream i).fifo.length])
      ∧ u.free + u.queued = s.free + s.queued
      ∧ u.groups = s.groups.set g.val .none
      ∧ u = { s with streams := u.streams, groups := u.groups, cq := u.cq, free := u.free }

/-! ### The slot map -/

/-- R28 to R31: MAPSWAP is BUSY with a swap pending, CONFLICT at the lowest offending entry, left pending on a served
line, and carried out at once with MAP_SWAPPED on any other. -/
def Obligations.MapSwapOutcome : Prop :=
  ∀ (s : State) (arg : Byte), s.resetLow = false →
    let offends := fun k : Fin 32 => ∃ i d, s.map.shadowBank[k] = some (i, d)
      ∧ ((∃ j : Fin 32, j < k ∧ ∃ d', s.map.shadowBank[j] = some (i, d') ∧ d' ≠ d)
        ∨ ∃ cfg, (s.stream i).cfg = some cfg ∧ cfg.direction ≠ d)
    let answer := fun code detail => exec (.mapswap arg) s = .next (s.withResult 0x20 arg code detail)
    (s.map.swapPending = true → answer .busy 0)
    ∧ (s.map.swapPending = false →
        (∀ k, offends k → (∀ j, j < k → ¬ offends j) → answer .conflict k.val)
        ∧ ((∀ k, ¬ offends k) → s.line.served = true →
            exec (.mapswap arg) s
              = .next (State.withResult { s with map := { s.map with swapPending := true } } 0x20 arg .ok 0))
        ∧ ((∀ k, ¬ offends k) → s.line.served = false →
            exec (.mapswap arg) s
              = .next (State.withResult
                  { s with
                    map := { s.map with active := s.map.active.other, swapPending := false }
                    cq := s.cq.raise (.mapSwapped s.line.frame s.map.active.other) } 0x20 arg .ok 1)))

/-- R27, whole: MAPCOPY. -/
def Obligations.MapCopyOutcome : Prop :=
  ∀ (s : State) (arg : Byte), s.resetLow = false →
    (s.map.swapPending = true → exec (.mapcopy arg) s = .next (s.withResult 0x21 arg .busy 0))
    ∧ (s.map.swapPending = false → ∃ m : SlotMap,
        exec (.mapcopy arg) s = .next (State.withResult { s with map := m } 0x21 arg .ok 0)
        ∧ m.activeBank = s.map.activeBank ∧ m.shadowBank = s.map.activeBank
        ∧ m.active = s.map.active ∧ m.swapPending = false)

/-- R24, R26, R164: a write to MAP_DATA edits the named entry of the shadow with no swap pending, and sets ACCESS_ERR
otherwise; the entry reads back with its own fields only. -/
def Obligations.MapDataWriteOutcome : Prop :=
  ∀ (s : State) (v : Word), s.resetLow = false →
    (s.win.mapBank = s.map.active.other → s.map.swapPending = false →
      ∃ t, exec (.mapDataWrite v) s = .next t
        ∧ t.map.activeBank = s.map.activeBank
        ∧ (∀ k : Fin 32, t.map.shadowBank[k] = if k = s.win.mapEntry then Entry.parse v else s.map.shadowBank[k])
        ∧ t.readWord 0x08 = (if v.getLsbD 15 then v &&& 0x810F else 0)
        ∧ t.map.active = s.map.active ∧ t.map.swapPending = false
        ∧ t = { s with map := t.map })
    ∧ (s.win.mapBank = s.map.active ∨ s.map.swapPending = true →
      exec (.mapDataWrite v) s = .next { s with win := { s.win with accessErr := true } })

/-! ### The completion queue -/

/-- R153, whole: CQPOP. -/
def Obligations.CqPopOutcome : Prop :=
  ∀ (s : State) (arg : Byte), s.resetLow = false →
    let popped := fun (q : CompletionQueue) =>
      exec (.cqpop arg) s = .next (State.withResult { s with cq := q } 0x30 arg .ok q.count)
    (s.cq.records = [] → s.cq.overflow = none → exec (.cqpop arg) s = .next (s.withResult 0x30 arg .empty 0))
    ∧ (∀ r rest, s.cq.records = r :: rest → (rest ≠ [] ∨ s.cq.overflow ≠ none) →
        popped { s.cq with records := rest } ∧ CompletionQueue.count { s.cq with records := rest } + 1 = s.cq.count)
    ∧ ((∃ r, s.cq.records = [r] ∧ s.cq.overflow = none) ∨ (s.cq.records = [] ∧ s.cq.overflow ≠ none) →
        let q := { s.cq with records := [], overflow := none, timer := .stopped }
        popped q ∧ q.count = 0 ∧ State.intAsserted { s with cq := q } = false
        ∧ ∀ r, (q.raise r).records = [r] ∧ (q.raise r).overflow = none)

/-- R154, whole: CQFLUSH. -/
def Obligations.CqFlushOutcome : Prop :=
  ∀ (s : State) (arg : Byte), s.resetLow = false →
    let q := { s.cq with records := [], overflow := none, timer := .stopped }
    exec (.cqflush arg) s = .next (State.withResult { s with cq := q } 0x31 arg .ok
        (s.cq.records.length + if s.cq.overflow.isSome then 1 else 0))
    ∧ State.intAsserted { s with cq := q } = false
    ∧ (s.cq.Law → s.cq.count = 0 → exec (.cqflush arg) s = .next (s.withResult 0x31 arg .ok 0))

/-- R150, R151, R157, R158: the three outcomes of a raised record, the timer it loads on an empty queue, the timer's
expiry as an event (which ends it whatever number of ticks remains, log 19), and the INT condition. -/
def Obligations.RecordsTimerAndInterrupt : Prop :=
  (∀ (q : CompletionQueue) (r : Record),
    (∀ n, q.overflow = some n → q.raise r = { q with overflow := some (if n < 65535 then n + 1 else 65535) })
    ∧ (q.overflow = none → q.records.length < 31 →
        q.raise r = { q with
          records := q.records ++ [r]
          timer := if q.records ≠ [] then q.timer
            else if q.holdoff = 0 then .expired else .counting q.holdoff.toNat })
    ∧ (q.overflow = none → 31 ≤ q.records.length → q.raise r = { q with overflow := some 1 }))
  ∧ ∀ s : State, s.resetLow = false →
    (∀ n, s.cq.timer = .counting n →
      exec .holdoffExpiry s = .next { s with cq := { s.cq with timer := .expired } })
    ∧ ((∀ n, s.cq.timer ≠ .counting n) → exec .holdoffExpiry s = .next s)
    ∧ (s.intAsserted = true ↔
        (s.cq.records ≠ [] ∨ s.cq.overflow ≠ none) ∧ s.cq.enable = true
        ∧ (s.cq.threshold ≤ s.cq.count ∨ s.cq.overflow ≠ none ∨ s.cq.timer = .expired))

/-- R149: records raised together are raised in some order, and those of one chain (one stream, one group action, the
line port, the slot map) in the order their rule gives. -/
def Obligations.RecordsRaisedTogetherKeepTheirOrders : Prop :=
  ∀ (s : State) (batch : List Raised), ∃ raised : List Record,
    (s.raiseBatch batch).cq = s.cq.raiseAll raised
    ∧ raised.Perm (batch.map Prod.snd)
    ∧ (∀ k : Chain, ((batch.filter fun r => r.1.contains k).map Prod.snd).Sublist raised)
    ∧ s.raiseBatch batch = { s with cq := (s.raiseBatch batch).cq, freeIdx := (s.raiseBatch batch).freeIdx }

/-! ### The slot line -/

/-- R1: LINE_SET's checks in order, and the six settings. -/
def Obligations.LineSetOutcome : Prop :=
  ∀ (s : State) (arg : Byte), s.resetLow = false →
    let w0 := s.stageWord 0
    let w1 := s.stageWord 1
    let w2 := s.stageWord 2
    let slotLen := 8 + 4 * field w0 11 8
    let inRange := 2 ≤ field w0 5 0 ∧ field w0 5 0 ≤ 32 ∧ field w0 11 8 ≤ 6 ∧ field w0 13 12 ≤ 2
      ∧ field w1 11 8 ≠ 0
    let wide := fun i : StreamId => ∃ cfg, (s.stream i).cfg = some cfg ∧ slotLen < cfg.width
    let answer := fun code detail => exec (.lineSet arg) s = .next (s.withResult 0x40 arg code detail)
    (s.line.state ≠ .disabled → answer .lineUpErr 0)
    ∧ (s.line.state = .disabled →
        (¬ inRange → answer .badParam 0xFFFF)
        ∧ (inRange →
            (∀ i, wide i → (∀ j, j < i → ¬ wide j) → answer .badParam i.val)
            ∧ ((∀ i, ¬ wide i) →
                let fmt : LineFormat :=
                  { slots := field w0 5 0, slotLen := slotLen
                    mode := if field w0 13 12 = 0 then .follower else if field w0 13 12 = 1 then .master
                      else .loopback
                    bclkDiv := field w1 7 0, flywheel := field w1 11 8, tbDiv := field w2 5 0 }
                exec (.lineSet arg) s
                  = .next (State.withResult { s with line := { s.line with fmt := fmt } } 0x40 arg .ok 0))))

/-- R5: LINE_UP. A follower hunts; a MASTER or LOOPBACK line opens frame 1 at once. -/
def Obligations.LineUpOutcome : Prop :=
  ∀ (s : State) (arg : Byte), s.resetLow = false →
    let l := { s.line with
      frame := 0, miss := 0, bitPos := 0, nextSlot := 0, txStream := none, txBits := [], rxBits := []
      driven := [], lowSeen := false, bitLeft := 2 * (s.line.fmt.bclkDiv + 1) }
    (s.line.state ≠ .disabled → exec (.lineUp arg) s = .next (s.withResult 0x41 arg .lineUpErr 0))
    ∧ (s.line.state = .disabled → s.line.fmt.mode = .follower →
        exec (.lineUp arg) s
          = .next (State.withResult { s with line := { l with state := .hunt } } 0x41 arg .ok 0))
    ∧ (s.line.state = .disabled → s.line.fmt.mode ≠ .follower →
        ∃ u, BoundaryTo { s with line := { l with state := .aligned } } u []
          ∧ u.line.frame = 1
          ∧ exec (.lineUp arg) s = .next (u.settle.withResult 0x41 arg .ok 0))

/-- R19, R20: LINE_DOWN of an up line empties the line port, halts every working stream with cause LINE and carries
out a pending swap; of a line that is down it changes nothing. -/
def Obligations.LineDownOutcome : Prop :=
  ∀ (s : State) (arg : Byte), s.resetLow = false →
    (s.line.state = .disabled → exec (.lineDown arg) s = .next (s.withResult 0x42 arg .ok 0))
    ∧ (s.line.state ≠ .disabled → ∃ (u : State) (raised : List Record),
        exec (.lineDown arg) s = .next (u.settle.withResult 0x42 arg .ok 0)
        ∧ u.line = { s.line with
            state := .disabled, miss := 0, bitPos := 0, nextSlot := 0, txStream := none, txBits := []
            rxBits := [], driven := [], lowSeen := false }
        ∧ (∀ i, u.stream i = if (s.stream i).working = true then { s.stream i with state := .halted .line }
            else s.stream i)
        ∧ u.map = (if s.map.swapPending then { s.map with active := s.map.active.other, swapPending := false }
            else s.map)
        ∧ raised.Perm (((allStreams.filter fun i => (s.stream i).working).map
              fun i => .streamHalted i s.line.frame .line)
            ++ (if s.map.swapPending then [.mapSwapped s.line.frame s.map.active.other] else []))
        ∧ u.cq = s.cq.raiseAll raised
        ∧ u = { s with line := u.line, streams := u.streams, map := u.map, cq := u.cq, freeIdx := u.freeIdx })

/-- R4, R6, R7: FSYNC samples and the trial of a follower line. A high sample is an arrival only after a low one; it
starts or restarts a trial; a trial that runs out goes back to HUNT. -/
def Obligations.FollowerHuntsAndTries : Prop :=
  ∀ s : State, s.resetLow = false →
    let follows := s.line.fmt.mode = .follower ∧ s.line.state ≠ .disabled
    let trial := { s.line with
      state := .confirm, lowSeen := false, bitPos := 0, nextSlot := 0, txStream := none, txBits := [], rxBits := [] }
    (follows → exec .fsyncLowSample s = .next { s with line := { s.line with lowSeen := true } })
    ∧ (¬ follows → exec .fsyncLowSample s = .next s)
    ∧ (∀ bit, ¬ follows ∨ s.line.lowSeen = false → exec (.syncArrival bit) s = .next s)
    ∧ (∀ bit, follows → s.line.lowSeen = true → s.line.state = .hunt →
        exec (.syncArrival bit) s = .next { s with line := trial })
    ∧ (∀ bit, follows → s.line.lowSeen = true → s.line.state = .confirm →
        max bit s.line.bitPos < s.line.fmt.slots * s.line.fmt.slotLen →
        exec (.syncArrival bit) s = .next { s with line := trial })
    ∧ (follows → s.line.state = .confirm →
        exec .trialTimeout s = .next { s with line := { s.line with
          state := .hunt, bitPos := 0, nextSlot := 0, txStream := none, txBits := [], rxBits := [] } })
    ∧ (¬ follows ∨ s.line.state ≠ .confirm → exec .trialTimeout s = .next s)

/-- R6 to R10, R13: the confirming sync, the sync on time, the slip, the missing sync below the flywheel limit and the
end of a MASTER or LOOPBACK frame are frame boundaries; the first raises ALIGN_GAINED, the slip FRAME_SLIP, each with
the number of the frame that opens. What a boundary does is BoundaryTo, with the order of the records of one group
(R142, R143); at a receive stop that returns its head the head's return stands first (log 7). -/
def Obligations.EveryFrameBoundary : Prop :=
  ∀ s : State, s.resetLow = false →
    let frameBits := s.line.fmt.slots * s.line.fmt.slotLen
    let opens := fun (c : Instr) (l : LinePort) (own : List Record) =>
      ∃ u, BoundaryTo { s with line := l } u own ∧ exec c s = .next u.settle
    let aligned := fun l : LinePort => { l with lowSeen := false, state := .aligned, miss := 0 }
    (s.line.fmt.mode = .follower → s.line.lowSeen = true → ∀ bit,
      (s.line.state = .confirm → max bit s.line.bitPos = frameBits →
        opens (.syncArrival bit) (aligned s.line) [.alignGained (s.line.frame + 1)])
      ∧ (s.line.served = true → max bit s.line.bitPos = frameBits →
        opens (.syncArrival bit) (aligned (s.line.passTo frameBits)) [])
      ∧ (s.line.served = true → max bit s.line.bitPos < frameBits →
        opens (.syncArrival bit) (aligned (s.line.passTo (max bit s.line.bitPos)))
          [.frameSlip (s.line.frame + 1)]))
    ∧ (s.line.fmt.mode = .follower → s.line.served = true → s.line.miss + 1 < s.line.fmt.flywheel →
      opens .missedSync { s.line.passTo frameBits with state := .flywheel, miss := s.line.miss + 1 } [])
    ∧ (s.line.fmt.mode ≠ .follower → s.line.state = .aligned →
      opens .frameEnd (s.line.passTo frameBits) [])

/-- R10, R11, R146, R147: a missing sync at the flywheel limit is the loss of alignment: pending stops are carried out,
streams with HALT_ON_LOSS halt and then their groups, a pending swap takes effect, and the records are exactly those of
these acts. That R147's order of the halts' records is kept inside each group and not across groups is the model's choice
(log 35). -/
def Obligations.MissedSyncLosesAlignment : Prop :=
  ∀ s : State, s.resetLow = false → s.line.fmt.mode = .follower → s.line.served = true →
    s.line.fmt.flywheel ≤ s.line.miss + 1 →
    ∃ (u : State) (stops halts : StreamId → List Record) (raised : List Record), exec .missedSync s = .next u.settle
      ∧ u.line = { s.line.passTo (s.line.fmt.slots * s.line.fmt.slotLen) with
          state := .hunt, miss := 0, bitPos := 0, nextSlot := 0, txStream := none, txBits := [], rxBits := [] }
      ∧ (∀ i, s.Lost i (u.stream i) (stops i) (halts i))
      ∧ u.map = (if s.map.swapPending then { s.map with active := s.map.active.other, swapPending := false }
          else s.map)
      ∧ s.LossRaised stops halts raised
      ∧ u.cq = s.cq.raiseAll raised
      ∧ u.free + u.queued = s.free + s.queued
      ∧ u = { s with
          line := u.line, map := u.map, streams := u.streams, free := u.free, cq := u.cq, freeIdx := u.freeIdx }

/-- R14: the frame counter changes only by one at an event that can be a frame boundary, or to 0 at pin reset and at
LINE_UP (whose first boundary may follow at once). -/
def Obligations.FrameCounterChangesOnlyAtBoundaries : Prop :=
  ∀ (c : Instr) (s t : State), exec c s = .next t →
    match c with
    | .pinReset => t.line.frame = 0
    | .lineUp _ => t.line.frame = s.line.frame ∨ t.line.frame = 0 ∨ t.line.frame = 1
    | .syncArrival _ | .missedSync | .frameEnd =>
      t.line.frame = s.line.frame ∨ t.line.frame = s.line.frame + 1
    | _ => t.line.frame = s.line.frame

/-! ### Slot events -/

/-- R16, R58, R68, R69: a transmit slot that finds a sample sends the oldest one; a draining stream with an empty FIFO
notes the release; a stream that is OFF, ARMED or HALTED changes nothing and the slot is released. A stream that drives
its slots has the width it is configured with (EveryStepKeepsLineAndConfigurations). -/
def Obligations.TransmitSlotOutcome : Prop :=
  ∀ (s : State) (slot : Nat) (i : StreamId) (width : Nat),
    s.resetLow = false → s.slotOwner slot .tx = some (i, width) →
    let c := s.stream i
    let l := { s.line.passTo (slot * s.line.fmt.slotLen) with nextSlot := slot + 1, txStream := none, txBits := [] }
    (c.driving = false → exec (.transmitSlot slot) s = .next (State.settle { s with line := l }))
    ∧ ∀ cfg, c.cfg = some cfg → cfg.width = width →
      (c.driving = true → ∀ x rest, c.fifo = x :: rest →
        exec (.transmitSlot slot) s = .next (State.settle
          { s.withStream i { c with
              fifo := rest, lastSample := some x, samplesServed := c.samplesServed + 1, underrunEp := false } with
            line := { l with txStream := some i, txBits := bitsOf cfg.width x.toNat } }))
      ∧ (∀ k r, c.state = .draining k r → c.fifo = [] →
        exec (.transmitSlot slot) s = .next (State.settle
          { s.withStream i { c with state := .draining k true } with line := l }))

/-- R70, R71, R72: an underrun slot by each policy. -/
def Obligations.TransmitSlotUnderruns : Prop :=
  ∀ (s : State) (slot : Nat) (i : StreamId) (cfg : StreamConfig),
    s.resetLow = false → s.slotOwner slot .tx = some (i, cfg.width) → (s.stream i).cfg = some cfg →
    ((s.stream i).state = .running ∨ (s.stream i).state = .stopping) → (s.stream i).fifo = [] →
    let c := s.stream i
    let c' := { c with
      underrunEp := true
      underrunSlots := if c.underrunSlots = 65535#16 then 65535#16 else c.underrunSlots + 1 }
    let driven := fun x : Option Sample =>
      { s.line.passTo (slot * s.line.fmt.slotLen) with
        nextSlot := slot + 1
        txStream := if x.isSome then some i else none
        txBits := match x with
          | some y => bitsOf cfg.width y.toNat
          | none => [] }
    let sends := fun x => exec (.transmitSlot slot) s = .next (State.settle { s.withStream i c' with
      line := driven x
      cq := if c.underrunEp then s.cq else s.cq.raise (.underrun i s.line.frame) })
    (cfg.underrun = .repeat → sends c.lastSample)
    ∧ (cfg.underrun = .fill → sends (some cfg.fill))
    ∧ (cfg.underrun = .release → sends none)
    ∧ (cfg.underrun = .halt → ∃ u,
        exec (.transmitSlot slot) s = .next (State.settle u)
        ∧ State.HaltedBy { s.withStream i c' with line := driven none } u i .xrun
        ∧ u.cq = s.cq.raiseAll (s.haltRecords i .xrun)
        ∧ u = { s with streams := u.streams, cq := u.cq, line := driven none })

/-- R17, R73, R74, R59: a receive sample that finds room enters the FIFO as the newest; when the queue is then covered
up to its END descriptor the stream goes DRAINING. -/
def Obligations.ReceiveSlotTakesTheSample : Prop :=
  ∀ (s : State) (slot : Nat) (rxd : Sample) (i : StreamId) (cfg : StreamConfig),
    s.resetLow = false → s.slotOwner slot .rx = some (i, cfg.width) → (s.stream i).cfg = some cfg →
    cfg.direction = .rx →
    ((s.stream i).state = .running ∨ (s.stream i).state = .stopping) → (s.stream i).fifo.length < 8 →
    let c := s.stream i
    let l := s.line.passTo (slot * s.line.fmt.slotLen + cfg.width)
    let bits := if s.line.fmt.mode = .loopback then l.loopback cfg.width else bitsOf cfg.width rxd.toNat
    let covered := (∃ d, c.queue.getLast? = some d ∧ d.endFlag = true)
      ∧ (c.queue.map Descriptor.length).sum ≤ c.samplesDone + s.uncounted i + (c.fifo.length + 1)
    (covered → exec (.receiveSlot slot rxd) s = .next (State.settle
      { s.withStream i { c with
          fifo := c.fifo ++ [BitVec.ofNat 24 (natOf bits)], samplesServed := c.samplesServed + 1
          overrunEp := false, state := .draining .ended false } with
        line := { l with nextSlot := slot + 1, rxBits := bits } }))
    ∧ (¬ covered → exec (.receiveSlot slot rxd) s = .next (State.settle
      { s.withStream i { c with
          fifo := c.fifo ++ [BitVec.ofNat 24 (natOf bits)], samplesServed := c.samplesServed + 1
          overrunEp := false } with
        line := { l with nextSlot := slot + 1, rxBits := bits } }))

/-- R17, R73, R75, R76: a sample that finds the FIFO full is dropped or halts the stream; a sample offered in any other
state is assembled in the receive shift register and not taken. -/
def Obligations.ReceiveSlotOverrunsOrRefuses : Prop :=
  ∀ (s : State) (slot : Nat) (rxd : Sample) (i : StreamId) (width : Nat),
    s.resetLow = false → s.slotOwner slot .rx = some (i, width) →
    let c := s.stream i
    let passed := s.line.passTo (slot * s.line.fmt.slotLen + width)
    let l := { passed with
      nextSlot := slot + 1
      rxBits := if s.line.fmt.mode = .loopback then passed.loopback width else bitsOf width rxd.toNat }
    ((c.state ≠ .running ∧ c.state ≠ .stopping) →
      exec (.receiveSlot slot rxd) s = .next (State.settle { s with line := l }))
    ∧ ∀ cfg, c.cfg = some cfg → cfg.width = width →
      ((c.state = .running ∨ c.state = .stopping) → 8 ≤ c.fifo.length → cfg.overrun ≠ .halt →
        exec (.receiveSlot slot rxd) s = .next (State.settle
          { s.withStream i { c with
              overrunEp := true
              overrunSamples := if c.overrunSamples = 65535#16 then 65535#16 else c.overrunSamples + 1 } with
            line := l
            cq := if c.overrunEp then s.cq else s.cq.raise (.overrun i s.line.frame) }))
      ∧ ((c.state = .running ∨ c.state = .stopping) → 8 ≤ c.fifo.length → cfg.overrun = .halt → ∃ u,
        exec (.receiveSlot slot rxd) s = .next (State.settle u)
        ∧ State.HaltedBy { s.withStream i { c with overrunEp := true } with line := l } u i .xrun
        ∧ u.cq = s.cq.raiseAll (s.haltRecords i .xrun)
        ∧ u = { s with streams := u.streams, cq := u.cq, line := l })

/-! ### The Memory Mover -/

/-- R78, R79, R80, R112, R116: when a stream presents a request and of which class; R124: the choice is the first
stream after the pointer, urgent requests before normal ones. -/
def Obligations.ChoiceIsFirstAfterThePointer : Prop :=
  ∀ (s : State) (i : StreamId),
    (s.choice = some i ↔
      ∃ urgent, s.request i = some urgent
        ∧ (urgent = false → ∀ j, s.request j ≠ some true)
        ∧ ∀ j, s.request j = some urgent →
            (i - s.mover.pointer - 1).val ≤ (j - s.mover.pointer - 1).val)
    ∧ (let c := s.stream i
      let fill := c.fifo.length
      let r := c.residual.length
      let inService := c.state = .running ∨ c.state = .stopping
      (c.cfg = none → s.request i = none)
      ∧ ((∀ k b, c.state ≠ .draining k b) → c.queue = [] → s.request i = none)
      ∧ (∀ cfg, c.cfg = some cfg → cfg.direction = .tx → c.queue = [] → s.request i = none)
      ∧ ∀ cfg d rest, c.cfg = some cfg → c.queue = d :: rest →
        let completed := match cfg.packing with
          | .packed => min ((r + 16) / cfg.width) (d.length - c.samplesDone)
          | .word => 1
          | .pair => if c.wordsDone % 2 = 0 then 0 else 1
        let needed := match cfg.packing with
          | .packed =>
            if 16 ≤ r then 0
            else min (d.length - (c.samplesDone + s.uncounted i)) ((16 - r + cfg.width - 1) / cfg.width)
          | .word => 1
          | .pair => if 16 ≤ r then 0 else 1
        (cfg.direction = .tx →
          let asks := ((∃ m, c.state = .armed m false) ∨ inService) ∧ fill ≤ cfg.watermark ∧ fill + completed ≤ 8
          (asks → s.request i = some (decide (c.state = .running ∧ fill ≤ 1)))
          ∧ (¬ asks → s.request i = none))
        ∧ (cfg.direction = .rx →
          (∀ k b, c.state = .draining k b → s.request i = some true)
          ∧ (inService → cfg.watermark ≤ fill ∧ needed ≤ fill → s.request i = some (decide (7 ≤ fill)))
          ∧ (inService → ¬ (cfg.watermark ≤ fill ∧ needed ≤ fill) → s.request i = none)
          ∧ (¬ inService → (∀ k b, c.state ≠ .draining k b) → s.request i = none)))

/-- R120, R125, R126, R130: a grant in REQUESTING begins a tenure with the first word of a move for the chosen
stream; a receive stream's word is prepared in the same act (R114). -/
def Obligations.BusGrantBeginsATenure : Prop :=
  ∀ (s : State) (i : StreamId) (cfg : StreamConfig) (d : Descriptor) (rest : List Descriptor),
    s.resetLow = false → s.mover.bus = .requesting → s.mover.byld = false → s.choice = some i →
    (s.stream i).cfg = some cfg → (s.stream i).queue = d :: rest →
    (s.stream i).wordsDone < cfg.footprint d.length →
    let c := s.stream i
    let tenure := Mover.begun { s.mover with bgnt := true }
    (cfg.direction = .tx →
      exec .busGrant s = .next (State.settle { s with mover := tenure.moving i c cfg d 0 0 }))
    ∧ (cfg.direction = .rx → ∀ c' w n, c.prepare cfg d = some (c', w, n) →
        exec .busGrant s = .next (State.settle { s.withStream i c' with mover := tenure.moving i c cfg d w n }))

/-- R118 to R121, R123: the grant that begins no tenure, BGNT low, and BYLD. A grant with BYLD high or no request is
an empty tenure; outside REQUESTING it is none. WAIT_LOW goes to IDLE at a low BGNT; a tenure with a word in flight is
marked yielded, one with none ends; BYLD outside HOLDING has no effect. -/
def Obligations.BusReleaseAndYield : Prop :=
  ∀ s : State, s.resetLow = false →
    let low := { s.mover with bgnt := false }
    let marked := fun m : Mover => if m.inFlight.isSome then { m with yielded := true } else m.ended
    let answers := fun (c : Instr) (m : Mover) => exec c s = .next (State.settle { s with mover := m })
    let both := fun m : Mover => answers .busGrantLow m ∧ answers .busGrantWithdrawn m
    (s.mover.bus = .requesting → (s.mover.byld = true ∨ ∀ i, s.request i = none) →
      answers .busGrant (Mover.ended { s.mover with bgnt := true, wordCount := 0 }))
    ∧ (s.mover.bus ≠ .requesting → answers .busGrant { s.mover with bgnt := true })
    ∧ (s.mover.bus = .waitLow → both { low with bus := .idle })
    ∧ (s.mover.bus = .idle ∨ s.mover.bus = .requesting → both low)
    ∧ (s.mover.bus = .holding → both (marked low) ∧ answers (.busYield true) (marked { s.mover with byld := true }))
    ∧ (s.mover.bus ≠ .holding → answers (.busYield true) { s.mover with byld := true })
    ∧ exec (.busYield false) s = .next { s with mover := { s.mover with byld := false } }

/-- R92, R95, R110, R111, R122, R130, R133, R172: the word memory holds at the address (the host's, where it has
written, or the last one stored there) becomes samples behind the FIFO; the word that completes the head's last sample
returns it OK, with the END transitions of R50, R53 and R57. Of the other streams only the one the next word is
prepared from gives up samples (R114). -/
def Obligations.FetchedWordCompletes : Prop :=
  ∀ (s : State) (m : Move) (w : InFlight) (cfg : StreamConfig) (d : Descriptor) (rest : List Descriptor)
    (hostWrote : Option Word),
    s.resetLow = false → s.mover.bus = .holding → s.mover.move = some m → s.mover.inFlight = some w →
    w.dir = .tx → m.dir = .tx → (s.stream m.stream).cfg = some cfg → cfg.direction = .tx →
    (s.stream m.stream).queue = d :: rest → d.posting = m.posting →
    let c := s.stream m.stream
    let held := match loadMem w.addr.toNat s.mem with
      | some x => x
      | none => Config.memoryAtStart w.addr.toNat
    let data := match hostWrote with
      | some x => x
      | none => held
    let p := cfg.unpack c.residual c.wordsDone (d.length - c.samplesDone) data
    ∃ t, exec (.wordTransferComplete hostWrote) s = .next t
      ∧ t.mover.wordCount = s.mover.wordCount + 1
      ∧ (∀ j, j ≠ m.stream → (s.stream j).NextWordTaken j t)
      ∧ (c.samplesDone + p.1.length < d.length →
          t.stream m.stream = { c with
            fifo := c.fifo ++ p.1, residual := p.2, samplesDone := c.samplesDone + p.1.length
            wordsDone := c.wordsDone + 1 }
          ∧ t.cq = s.cq ∧ t.free = s.free)
      ∧ (d.length ≤ c.samplesDone + p.1.length →
          t.stream m.stream = { c with
            fifo := c.fifo ++ p.1, residual := [], samplesDone := 0, wordsDone := 0, queue := rest
            buffersDone := c.buffersDone + 1, lastTag := some d.tag
            state := if d.endFlag then
                match c.state with
                | .running => .draining .ended false
                | .armed mode _ => .armed mode true
                | other => other
              else c.state }
          ∧ t.free = s.free + 1
          ∧ t.cq = s.cq.raiseAll
              (if d.notify then [.bufferDone m.stream s.line.frame d.tag .ok d.length] else []))
      ∧ t.map = s.map ∧ t.win = s.win ∧ s.FollowedBy t
      ∧ t.mem = (match hostWrote with
          | some x => storeMem w.addr.toNat x s.mem
          | none => s.mem)

/-- R56, R60, R93, R96, R115, R122, R130, R133, R172: a stored word is what memory holds at its address, and it and its
uncounted sample count; the word that ends the head returns it OK and ends a drain that ends with it; the word that
empties a stop flush returns the head SHORT. Nothing else of a FIFO changes but for the samples the next word is
prepared from (R114). -/
def Obligations.StoredWordCompletes : Prop :=
  ∀ (s : State) (m : Move) (w : InFlight) (cfg : StreamConfig) (d : Descriptor) (rest : List Descriptor)
    (hostWrote : Option Word),
    s.resetLow = false → s.mover.bus = .holding → s.mover.move = some m → s.mover.inFlight = some w →
    w.dir = .rx → m.dir = .rx → (s.stream m.stream).cfg = some cfg → cfg.direction = .rx →
    (s.stream m.stream).queue = d :: rest → d.posting = m.posting →
    let c := s.stream m.stream
    let taken := c.samplesDone + w.uncounted
    let full := d.length ≤ taken ∧ cfg.footprint d.length ≤ c.wordsDone + 1
    let returned := { c with
      residual := [], samplesDone := 0, wordsDone := 0, queue := rest
      buffersDone := c.buffersDone + 1, lastTag := some d.tag }
    let off := { returned with state := .off, fifo := [], underrunEp := false, overrunEp := false }
    let okRecord := if d.notify then [.bufferDone m.stream s.line.frame d.tag .ok d.length] else []
    ∃ t, exec (.wordTransferComplete hostWrote) s = .next t
      ∧ t.mover.wordCount = s.mover.wordCount + 1
      ∧ t.mem = storeMem w.addr.toNat w.word s.mem
      ∧ (s.MemoryLaw → ∀ a, t.memoryWord a = if a = w.addr then w.word else s.memoryWord a)
      ∧ (∀ j, j ≠ m.stream → (s.stream j).NextWordTaken j t)
      ∧ (full → c.flushing = false → ¬ ((∃ r, c.state = .draining .ended r) ∧ d.endFlag = true) →
          returned.NextWordTaken m.stream t
          ∧ t.cq = s.cq.raiseAll okRecord ∧ t.free = s.free + 1)
      ∧ (full → (∃ r, c.state = .draining .ended r) → d.endFlag = true →
          t.stream m.stream = off ∧ t.free = s.free + 1
          ∧ t.cq = s.cq.raiseAll (okRecord ++ [.streamStopped m.stream s.line.frame .ended c.fifo.length]))
      ∧ (full → c.flushing = true →
          t.stream m.stream = off ∧ t.free = s.free + 1
          ∧ t.cq = s.cq.raiseAll (okRecord ++ [.streamStopped m.stream s.line.frame .stop c.fifo.length]))
      ∧ (¬ full → c.flushing = true → c.fifo = [] → c.residual = [] →
          t.stream m.stream = off ∧ t.free = s.free + 1
          ∧ t.cq = s.cq.raiseAll [.bufferDone m.stream s.line.frame d.tag .short taken,
              .streamStopped m.stream s.line.frame .stop 0])
      ∧ (¬ full → (c.flushing = false ∨ c.fifo ≠ [] ∨ c.residual ≠ []) →
          StreamCtx.NextWordTaken { c with samplesDone := taken, wordsDone := c.wordsDone + 1 } m.stream t
          ∧ t.cq = s.cq ∧ t.free = s.free)
      ∧ t.map = s.map ∧ t.win = s.win ∧ s.FollowedBy t

/-- R122, R134: the completion of a word whose posting has been returned is discarded: memory has the word of a
write, and no FIFO, head progress, counter or record changes, but for the samples that the next word is prepared from
(R114). -/
def Obligations.ReturnedPostingDiscardsTheWord : Prop :=
  ∀ (s : State) (m : Move) (w : InFlight) (hostWrote : Option Word),
    s.resetLow = false → s.mover.bus = .holding → s.mover.move = some m → s.mover.inFlight = some w →
    s.servesHead m.stream = false →
    ∃ t, exec (.wordTransferComplete hostWrote) s = .next t
      ∧ t.mover.wordCount = s.mover.wordCount + 1
      ∧ (∀ j, (s.stream j).NextWordTaken j t)
      ∧ t.mem = (match w.dir, hostWrote with
          | .rx, _ => storeMem w.addr.toNat w.word s.mem
          | .tx, some x => storeMem w.addr.toNat x s.mem
          | .tx, none => s.mem)
      ∧ t.cq = s.cq ∧ t.free = s.free ∧ t.map = s.map ∧ t.win = s.win ∧ s.FollowedBy t

/-- R121, R122, R123, R126 to R129: RDY ends the tenure at its limit, or when it was yielded (log 8), with every stream
as the word left it. Otherwise the move goes on with the word at the next address while R127 or R128 lets it; when it
does not, a new choice starts the next move, and with no request present the tenure ends. `u` is the state with the
word taken, which FetchedWordCompletes, StoredWordCompletes and ReturnedPostingDiscardsTheWord describe. -/
def Obligations.TenureEndsAtItsLimitOrYield : Prop :=
  ∀ (s : State) (m : Move) (w : InFlight) (hostWrote : Option Word) (l : Nat),
    s.resetLow = false → s.mover.bus = .holding → s.mover.move = some m → s.mover.inFlight = some w →
    s.mover.limit = some l →
    let counted := { s.mover with wordCount := s.mover.wordCount + 1, inFlight := none }
    let u := { s.takeWord m w (s.fetched w hostWrote) with mover := counted }
    let c := u.stream m.stream
    let next := fun (x : Word) (n : Nat) => { counted with
      move := some { m with nextAddr := m.nextAddr + 2, wordsLeft := m.wordsLeft - 1 }
      inFlight := some { addr := m.nextAddr, dir := m.dir, word := x, timer := s.mover.readyTimeout
                         uncounted := n } }
    ∃ t, exec (.wordTransferComplete hostWrote) s = .next t
      ∧ (l ≤ s.mover.wordCount + 1 ∨ s.mover.yielded = true → t.mover = counted.ended ∧ t.streams = u.streams)
      ∧ (s.mover.wordCount + 1 < l → s.mover.yielded = false →
          (c.GoesOn m → m.dir = .tx → t.mover = next 0 0 ∧ t.streams = u.streams)
          ∧ (c.GoesOn m → m.dir = .rx → ∀ cfg d rest c' x n, c.cfg = some cfg → c.queue = d :: rest →
              c.prepare cfg d = some (c', x, n) →
              t.mover = next x n ∧ t.streams = (u.withStream m.stream c').streams)
          ∧ (¬ c.GoesOn m → (∀ i, u.request i = none) → t.mover = counted.ended ∧ t.streams = u.streams)
          ∧ (¬ c.GoesOn m → MoveStarted u counted t))

/-- R130, R131, R132, R63, R146: the bus fault, as an event and as the tick at which the ready timer ends; RDY or an
expiry with no word in flight does nothing to the Mover. The line port is as the change of the streams leaves it, and
at the tick the bit clock counts after it. Three clauses are the model's choice: that no stored word changes when a
store is abandoned, which R132 leaves outside the part (log 4); that at the tick the record finds the holdoff timer
already counted, so that the tick does not count for a timer the record loads (log 19); and that the bit clock counts
last (log 31). -/
def Obligations.BusFaultOutcome : Prop :=
  ∀ s : State, s.resetLow = false →
    (∀ m w, s.mover.move = some m → s.mover.inFlight = some w →
      (∃ t, exec .busFault s = .next t ∧ FaultOutcome s t m w s.cq ∧ s.FollowedBy t)
      ∧ (s.pending = [] → s.line.tbLeft ≤ 1 → w.timer ≤ 1 →
        ∃ t, step s = .next t
          ∧ FaultOutcome s t m w { s.cq with timer :=
              match s.cq.timer with
              | .counting n => if n ≤ 1 then .expired else .counting (n - 1)
              | .stopped => .stopped
              | .expired => .expired }
          ∧ s.BitClockTo { (s.followed t).line with tbLeft := s.line.fmt.tbDiv + 1 } t.line))
    ∧ (s.mover.inFlight = none →
      exec .busFault s = .next s.settle ∧ ∀ x, exec (.wordTransferComplete x) s = .next s.settle)

/-! ### The register window -/

/-- R160, R161, R163, section 10.3: writes to STATUS, to read-only words and to the control words; and what a control
word reads as: the value last accepted in its fields and 0 elsewhere, whatever else happens, and its pin-reset value
after PIN_RESET. -/
def Obligations.ControlAndStatusWrites : Prop :=
  (∀ (s : State) (v : Word), s.resetLow = false →
    let misuse := { s with win := { s.win with accessErr := true } }
    exec (.statusWrite v) s
      = .next { s with win := { s.win with accessErr := s.win.accessErr && !v.getLsbD 15 } }
    ∧ (∀ r, exec (.readOnlyWrite r v) s = .next misuse)
    ∧ exec (.controlWordWrite .holdoff v) s = .next { s with cq := { s.cq with holdoff := v } }
    ∧ (1 ≤ v.toNat % 64 → v.toNat % 64 ≤ 32 →
        exec (.intCtrlWrite v) s
          = .next { s with cq := { s.cq with enable := v.getLsbD 15, threshold := v.toNat % 64 } }
        ∧ exec (.controlWordWrite .busCtrl v) s
          = .next { s with mover := { s.mover with tenureMax := v.toNat % 64 } })
    ∧ (v.toNat % 64 = 0 ∨ 32 < v.toNat % 64 →
        exec (.intCtrlWrite v) s = .next misuse ∧ exec (.controlWordWrite .busCtrl v) s = .next misuse)
    ∧ (1 ≤ v.toNat % 256 →
        exec (.controlWordWrite .readyTimeout v) s
          = .next { s with mover := { s.mover with readyTimeout := v.toNat % 256 } })
    ∧ (v.toNat % 256 = 0 → exec (.controlWordWrite .readyTimeout v) s = .next misuse))
  ∧ ∀ (c : Instr) (s : State), s.resetLow = false → ∃ t, exec c s = .next t
    ∧ t.readWord 0x03 = (match c with
      | .intCtrlWrite v => if 1 ≤ v.toNat % 64 ∧ v.toNat % 64 ≤ 32 then v &&& 0x803F else s.readWord 0x03
      | .pinReset => 0x0001
      | _ => s.readWord 0x03)
    ∧ t.readWord 0x04 = (match c with
      | .controlWordWrite .holdoff v => v
      | .pinReset => 0x0000
      | _ => s.readWord 0x04)
    ∧ t.readWord 0x05 = (match c with
      | .controlWordWrite .busCtrl v =>
        if 1 ≤ v.toNat % 64 ∧ v.toNat % 64 ≤ 32 then v &&& 0x003F else s.readWord 0x05
      | .pinReset => 0x0008
      | _ => s.readWord 0x05)
    ∧ t.readWord 0x06 = (match c with
      | .controlWordWrite .readyTimeout v => if 1 ≤ v.toNat % 256 then v &&& 0x00FF else s.readWord 0x06
      | .pinReset => 0x0010
      | _ => s.readWord 0x06)

/-- R24, R160, R164, R165, R169: a plain word takes the written value in its fields and reads back 0 elsewhere, and
nothing else changes; the reserved words read 0 and keep nothing. Only PIN_RESET and a write to one of these words
changes any of them. A staging word's fields are those of all the layouts that use it (log 34). -/
def Obligations.PlainWordsReadBackTheirFields : Prop :=
  ∀ (s : State) (v : Word), s.resetLow = false →
    let fields : Fin 6 → Word := fun k => if k = 3 then 0xC0FF else if k = 4 then 0x0003 else 0xFFFF
    (∃ t, exec (.registerWrite .mapIndex v) s = .next t ∧ t.readWord 0x07 = v &&& 0x011F
      ∧ t = { s with win := { s.win with mapBank := t.win.mapBank, mapEntry := t.win.mapEntry } })
    ∧ (∃ t, exec (.registerWrite .streamSel v) s = .next t ∧ t.readWord 0x09 = v &&& 0x000F
      ∧ t = { s with win := { s.win with streamSel := t.win.streamSel } })
    ∧ (∃ t, exec (.registerWrite .fieldSel v) s = .next t ∧ t.readWord 0x0A = v &&& 0x001F
      ∧ t = { s with win := { s.win with fieldSel := t.win.fieldSel } })
    ∧ (∀ k : Fin 6, ∃ t, exec (.registerWrite (.stage k) v) s = .next t
      ∧ t = { s with win := { s.win with stage := s.win.stage.set k.val (v &&& fields k) } }
      ∧ t.readWord ⟨12 + k.val, by omega⟩ = v &&& fields k)
    ∧ (∀ k : Fin 6, exec (.registerWrite (.reserved k) v) s = .next s
      ∧ s.readWord ⟨26 + k.val, by omega⟩ = 0)
    ∧ ∀ c t, exec c s = .next t → c ≠ .pinReset → (∀ p x, c ≠ .registerWrite p x) →
        t.win.stage = s.win.stage ∧ t.win.mapBank = s.win.mapBank ∧ t.win.mapEntry = s.win.mapEntry
        ∧ t.win.streamSel = s.win.streamSel ∧ t.win.fieldSel = s.win.fieldSel

/-- R161, whole: what sets ACCESS_ERR, what clears it, and that nothing else touches it. -/
def Obligations.AccessErrFlag : Prop :=
  (∀ (c : Instr) (s : State), s.resetLow = false → ∃ t, exec c s = .next t ∧ t.win.accessErr =
    match c with
    | .readOnlyWrite _ _ => true
    | .mapDataWrite _ =>
      s.win.accessErr || decide (s.win.mapBank = s.map.active) || s.map.swapPending
    | .intCtrlWrite v | .controlWordWrite .busCtrl v =>
      s.win.accessErr || decide (v.toNat % 64 = 0 ∨ 32 < v.toNat % 64)
    | .controlWordWrite .readyTimeout v => s.win.accessErr || decide (v.toNat % 256 = 0)
    | .statusWrite v => s.win.accessErr && !v.getLsbD 15
    | .pinReset => false
    | _ => s.win.accessErr)
  ∧ (∀ (s : State) (b : Bool), State.intAsserted { s with win := { s.win with accessErr := b } } = s.intAsserted)
  ∧ (∀ (c : Instr) (s t : State), exec c s = .next t → t.win.accessErr ≠ s.win.accessErr → c ≠ .pinReset →
      t.cq = s.cq)

/-- R166, whole: the captured high half of samples_served. -/
def Obligations.CapturedHighHalf : Prop :=
  ∀ s : State, s.resetLow = false →
    let served := (s.stream s.win.streamSel).samplesServed
    (s.win.fieldSel = 0x0A#5 →
      s.readWord 0x0B = served.extractLsb' 0 16
      ∧ exec .samplesServedLowRead s
        = .next { s with win := { s.win with captured := served.extractLsb' 16 16 } })
    ∧ (s.win.fieldSel ≠ 0x0A#5 → exec .samplesServedLowRead s = .next s)
    ∧ (s.win.fieldSel = 0x0B#5 → s.readWord 0x0B = s.win.captured)
    ∧ ∀ c t, exec c s = .next t → t.win.captured =
        match c with
        | .pinReset => 0
        | .samplesServedLowRead => if s.win.fieldSel = 0x0A#5 then served.extractLsb' 16 16 else s.win.captured
        | _ => s.win.captured

/-- R162, R170, R165, R168, R171, R3, R4, R16: what the host reads in STATUS, the head words, FIELD_DATA and RESULT,
that no read is answered while RESET is low, and what the output pins show. -/
def Obligations.StatusAndHeadWords : Prop :=
  (∀ s : State, s.cq.Law →
    let st := s.readWord 0x01
    st.getLsbD 15 = s.win.accessErr
    ∧ st.getLsbD 14 = decide (s.mover.bus = .requesting ∨ s.mover.bus = .holding)
    ∧ st.toNat / 256 % 64 = s.cq.records.length + (if s.cq.overflow.isSome then 1 else 0)
    ∧ st.toNat / 32 % 8 = 0
    ∧ st.toNat / 16 % 2 = s.map.active.code
    ∧ st.getLsbD 3 = s.map.swapPending
    ∧ st.toNat % 8 = s.line.state.code
    ∧ (st.toNat / 256 % 64 = 0 ↔ (s.readWord 0x15).toNat / 4096 = 0)
    ∧ s.readWord 0x00 = 0x1632 ∧ s.readWord 0x02 = s.line.frame)
  ∧ (∀ (s : State) (k : Fin 32), s.slaveRead k = if s.resetLow then none else some (s.readWord k))
  -- the head record
  ∧ (∀ s : State,
    let head := fun a b c d e : Nat =>
      (s.readWord 0x15).toNat = a ∧ (s.readWord 0x16).toNat = b ∧ (s.readWord 0x17).toNat = c
      ∧ (s.readWord 0x18).toNat = d ∧ (s.readWord 0x19).toNat = e
    (∀ r rest, s.cq.records = r :: rest →
      match r with
      | .bufferDone i f tag st n =>
        head (0x1000 + i.val) f.toNat
          (match st with | .ok => 0 | .short => 1 | .cancelled => 2 | .aborted => 3) tag.toNat (n % 65536)
      | .underrun i f => head (0x2000 + i.val) f.toNat 0 0 0
      | .overrun i f => head (0x3000 + i.val) f.toNat 0 0 0
      | .streamStarted i f => head (0x4000 + i.val) f.toNat 0 0 0
      | .streamStopped i f c n =>
        head (0x5000 + i.val) f.toNat (match c with | .ended => 0 | .stop => 1 | .abort => 2) (n % 65536) 0
      | .streamHalted i f c =>
        head (0x6000 + i.val) f.toNat
          (match c with | .xrun => 1 | .busFault => 2 | .align => 3 | .group => 4 | .line => 5) 0 0
      | .mapSwapped f b => head 0x7000 f.toNat (match b with | .b0 => 0 | .b1 => 256) 0 0
      | .frameSlip f => head 0x8000 f.toNat 0 0 0
      | .alignLost f => head 0x9000 f.toNat 0 0 0
      | .alignGained f => head 0xA000 f.toNat 0 0 0
      | .busFault i f a => head (0xB000 + i.val) f.toNat 0 (a.toNat / 65536) (a.toNat % 65536))
    ∧ (s.cq.records = [] → s.cq.overflow = none → head 0 0 0 0 0)
    ∧ (∀ n, s.cq.records = [] → s.cq.overflow = some n → head 0xF000 0 0 (n % 65536) 0))
  -- the fields of a stream
  ∧ (∀ s : State,
    let c := s.stream s.win.streamSel
    let shows := fun k : BitVec 5 => State.readWord { s with win := { s.win with fieldSel := k } } 0x0B
    let run := shows 0x00
    (run.getLsbD 15 = c.cfg.isSome ∧ run.getLsbD 14 = false
      ∧ run.getLsbD 13 = c.overrunEp ∧ run.getLsbD 12 = c.underrunEp
      ∧ (run.getLsbD 11 = true ↔ ∃ k, c.state = .draining k true)
      ∧ (run.getLsbD 10 = true ↔ ∃ b, c.state = .draining .stop b)
      ∧ (run.getLsbD 9 = true ↔ ∃ m, c.state = .armed m true)
      ∧ (run.getLsbD 8 = true ↔ ∃ f e, c.state = .armed (.at f) e)
      ∧ run.toNat / 8 % 2 = 0 ∧ run.toNat / 128 % 2 = 0
      ∧ run.toNat / 16 % 8 = (match c.state with
        | .halted .xrun => 1
        | .halted .busFault => 2
        | .halted .align => 3
        | .halted .group => 4
        | .halted .line => 5
        | _ => 0)
      ∧ run.toNat % 8 = (match c.state with
        | .off => 0
        | .armed _ _ => 1
        | .running => 2
        | .stopping => 3
        | .draining _ _ => 4
        | .halted _ => 5))
    ∧ shows 0x01 = (match c.state with
        | .armed (.at f) _ => f
        | _ => 0)
    ∧ (c.cfg = none → ∀ k ∈ [0x02#5, 0x03#5, 0x04#5, 0x05#5], shows k = 0)
    ∧ (∀ cfg slotLen, c.cfg = some cfg → cfg.Agrees slotLen →
        field (shows 0x02) 15 14 = cfg.packing.code ∧ field (shows 0x02) 12 8 = cfg.width
        ∧ field (shows 0x02) 5 4 = cfg.extension.code ∧ field (shows 0x02) 1 0 = cfg.direction.code
        ∧ shows 0x02 &&& 0x20CC = 0
        ∧ flag (shows 0x03) 15 = cfg.haltOnLoss ∧ field (shows 0x03) 14 12 = groupCode cfg.group
        ∧ field (shows 0x03) 11 8 = cfg.watermark ∧ field (shows 0x03) 5 4 = cfg.overrun.code
        ∧ field (shows 0x03) 2 0 = cfg.underrun.code ∧ shows 0x03 &&& 0x00C8 = 0
        ∧ (shows 0x05).toNat * 65536 + (shows 0x04).toNat = cfg.fill.toNat)
    ∧ (c.residual.length < 32 → c.fifo.length ≤ 8 →
        (shows 0x06).toNat = c.residual.length * 256 + c.fifo.length)
    ∧ (shows 0x07).toNat = c.queue.length % 65536
    ∧ (shows 0x08).toNat = c.samplesDone % 65536 ∧ (shows 0x09).toNat = c.wordsDone % 65536
    ∧ shows 0x0C = c.underrunSlots ∧ shows 0x0D = c.overrunSamples
    ∧ shows 0x0E = c.postedTotal ∧ shows 0x0F = c.buffersDone
    ∧ (shows 0x10).toNat = (match c.lastTag with
        | some tag => 32768 + tag.toNat
        | none => 0)
    ∧ ∀ k : BitVec 5, 0x11 ≤ k.toNat → shows k = 0)
  -- the result of a command
  ∧ [ResultCode.ok, .badOp, .badStream, .badParam, .state, .unconfigured, .empty, .queueFull, .poolEmpty, .badLength,
      .badAddress, .conflict, .busy, .late, .grouped, .groupNotReady, .lineUpErr].map ResultCode.code = List.range 17
  ∧ (∀ (c : Instr) (s t : State), s.resetLow = false → exec c s = .next t →
    (∀ op arg, c.opcode? = some op → c.operand? = some arg →
      (t.readWord 0x12).toNat = op.toNat * 256 + arg.toNat
      ∧ (t.readWord 0x13).toNat = op.toNat * 256 + t.win.resultCode.code
      ∧ t.readWord 0x14 = t.win.detail)
    ∧ (c.opcode? = none → c ≠ .pinReset → ∀ k ∈ [0x12, 0x13, 0x14], t.readWord k = s.readWord k))
  -- the output pins
  ∧ ∀ s : State,
    (s.line.state = .disabled ∨ s.line.fmt.mode = .loopback → s.txdPin = none)
    ∧ (s.line.state ≠ .disabled → s.line.fmt.mode ≠ .loopback → s.txdPin = s.line.txBits.head?)
    ∧ (s.bclkDriven = true ↔ s.line.state ≠ .disabled ∧ s.line.fmt.mode = .master)
    ∧ s.fsyncPin = (if s.bclkDriven then some (decide (s.line.bitPos = 0)) else none)
    ∧ (s.mover.bus ≠ .holding →
        s.aleDriven = false ∧ s.rdPin = none ∧ s.wrPin = none ∧ s.upperAddress = none)
    ∧ (s.mover.bus = .holding → ∀ w, s.mover.inFlight = some w →
        s.aleDriven = true ∧ s.rdPin = some (decide (w.dir = .rx)) ∧ s.wrPin = some (decide (w.dir = .tx))
        ∧ s.busAddress = some w.addr ∧ s.upperAddress = some (w.addr.extractLsb' 16 8)
        ∧ s.busData = (if w.dir = .rx then some w.word else none))

/-! ### Reset -/

/-- R171, R21, R22, R41, R86, R118, R138, R139, R156 and section 10.10: PIN_RESET gives every item its pin-reset
value and holds it (log 9 says what belongs to the outside), and RESET_RELEASE starts the part from those values; a BGNT
already low then is the first sample taken (R118). -/
def Obligations.PinResetAndRelease : Prop :=
  ∀ s : State,
    (∃ t, exec .pinReset s = .next t
      ∧ t.resetLow = true
      ∧ t.line.state = .disabled ∧ t.line.frame = 0 ∧ t.line.miss = 0 ∧ t.line.lowSeen = false
      ∧ t.line.txBits = [] ∧ t.line.rxBits = [] ∧ (∀ i : StreamId, t.line.frameWidths[i] = none)
      ∧ t.line.fmt = { slots := 8, slotLen := 16, mode := .follower, bclkDiv := 3, flywheel := 3, tbDiv := 15 }
      ∧ (∀ k : Fin 32, t.map.bank0[k] = none ∧ t.map.bank1[k] = none)
      ∧ t.map.active = .b0 ∧ t.map.swapPending = false
      ∧ (∀ i, t.stream i = { cfg := none, state := .off, fifo := [], residual := [], samplesDone := 0, wordsDone := 0
                             underrunEp := false, overrunEp := false, lastSample := none, samplesServed := 0
                             underrunSlots := 0, overrunSamples := 0, postedTotal := 0, buffersDone := 0
                             lastTag := none, queue := [] })
      ∧ t.free = 64
      ∧ t.mover = { bus := .waitLow, wordCount := 0, limit := none, move := none, inFlight := none, pointer := 15
                    tenureMax := 8, readyTimeout := 16, yielded := false, bgnt := s.mover.bgnt, byld := s.mover.byld }
      ∧ (∀ g : GroupId, t.groups[g] = .none)
      ∧ t.cq = { records := [], overflow := none, timer := .stopped, enable := false, threshold := 1, holdoff := 0 }
      ∧ t.intAsserted = false ∧ t.breq = false ∧ t.txdPin = none
      ∧ (∀ k : Fin 6, t.stageWord k = 0) ∧ t.win.accessErr = false ∧ t.win.captured = 0
      ∧ t.readWord 0x03 = 0x0001 ∧ t.readWord 0x04 = 0x0000 ∧ t.readWord 0x05 = 0x0008 ∧ t.readWord 0x06 = 0x0010
      ∧ t.readWord 0x12 = 0 ∧ t.readWord 0x13 = 0 ∧ t.readWord 0x14 = 0
      ∧ t.readWord 0x07 = 0 ∧ t.readWord 0x09 = 0 ∧ t.readWord 0x0A = 0)
    ∧ (s.resetLow = true →
      let released := { s with resetLow := false, line := { s.line with tbLeft := s.line.fmt.tbDiv + 1 } }
      let bus := fun b : BusState => exec .resetRelease s = .next { released with mover := { s.mover with bus := b } }
      (s.mover.bus ≠ .waitLow ∨ s.mover.bgnt = true → bus s.mover.bus)
      ∧ (s.mover.bus = .waitLow → s.mover.bgnt = false → (∀ i, s.request i = none) → bus .idle)
      ∧ (s.mover.bus = .waitLow → s.mover.bgnt = false → (∃ i, s.request i ≠ none) → bus .requesting))
    ∧ (∀ t u, exec .pinReset s = .next t → exec .resetRelease t = .next u →
        u.mover.bus = if s.mover.bgnt then .waitLow else .idle)
    ∧ (s.resetLow = false → exec .resetRelease s = .next s)

/-! ### Laws every step keeps -/

/-- The laws hold in the state right after pin reset. -/
def Obligations.LawsHoldAtReset : Prop :=
  State.reset.PoolLaw ∧ State.reset.CounterLaw ∧ State.reset.cq.Law ∧ State.reset.MapLaw ∧ State.reset.LineLaw
  ∧ State.reset.mover.Law ∧ State.reset.IdleLaw ∧ State.reset.GroupLaw ∧ State.reset.StreamLaw
  ∧ State.reset.MemoryLaw ∧ State.reset.TenureLaw ∧ State.reset.HeadLaw

/-- R86, R87, R102: the 64 descriptor records, the queues of at most 8, and posted_total minus buffers_done equal to
the queue length. -/
def Obligations.EveryStepKeepsThePool : Prop := KeptByStep fun s => s.PoolLaw ∧ s.CounterLaw

/-- R150, R151, R158: the shape of the completion queue and its timer. -/
def Obligations.EveryStepKeepsTheRecordQueue : Prop := KeptByStep fun s => s.cq.Law

/-- R32: the active bank stays consistent. -/
def Obligations.EveryStepKeepsTheMapConsistent : Prop := KeptByStep State.MapLaw

/-- R1, R10, R15, R38, R44: line settings, line state, miss count and configurations stay in their ranges, and the
widths a served frame was opened with are those of the streams that drive its slots. -/
def Obligations.EveryStepKeepsLineAndConfigurations : Prop := KeptByStep State.LineLaw

/-- R118 to R123, R171, log 4: the Mover's items agree with its bus state, the word count stays below the limit, a
tenure that goes on has BGNT asserted and BYLD not, and the words it has stored keep their canonical form. -/
def Obligations.EveryStepKeepsTheTenure : Prop :=
  (KeptByStep fun s => s.mover.Law ∧ s.MemoryLaw) ∧ KeptByStep fun s => s.mover.Law ∧ s.TenureLaw

/-- R119: an idle Mover never leaves a request waiting. -/
def Obligations.EveryStepKeepsIdleWithoutRequest : Prop := KeptByStep State.IdleLaw

/-- R139, R141, R143: pending group actions and the members' states agree. -/
def Obligations.EveryStepKeepsTheGroups : Prop := KeptByStep State.GroupLaw

/-- R32, R39, R42, R67, R88, R112, R126, R134: an OFF stream is clean, last sample sent is a transmit stream's, no FIFO
holds more than 8 samples, and the Mover never takes a returned posting for the head. R92, R93, R96, R109, R113, R115, with these and with legal
configurations: the progress of every head stays in its length and its footprint and agrees with the residual bits, of
which there are at most 23, and at most one sample is taken and not yet counted. -/
def Obligations.EveryStepKeepsTheStreams : Prop :=
  KeptByStep State.StreamLaw
  ∧ KeptByStep fun s => s.LineLaw ∧ s.mover.Law ∧ s.StreamLaw ∧ s.HeadLaw

/-! ### Encodings and layouts -/

/-- Sections 10.4 to 10.7, R38, R44, R164, R165, R167: a configuration shown in the selector window is read by
CONFIGURE as itself, an entry by MAP_DATA, and every command is the one its opcode and operand spell; a write to
COMMAND, and a word of 16 bits put in front of the queue (log 29), run the command the word spells. -/
def Obligations.WordsDecodeToWhatTheyEncode : Prop :=
  (∀ (slotLen : Nat) (cfg : StreamConfig), cfg.Agrees slotLen →
    StreamConfig.parse slotLen cfg.words.1 cfg.words.2.1 cfg.words.2.2.1 cfg.words.2.2.2 = .ok cfg)
  ∧ (∀ e : Entry, Entry.parse (Entry.word e) = e)
  ∧ (∀ op arg : Byte, (Instr.ofCommand op arg).opcode? = some op ∧ (Instr.ofCommand op arg).operand? = some arg)
  ∧ (∀ (c : Instr) (op : Byte), c.opcode? = some op →
      ∃ arg, c.operand? = some arg ∧ Instr.ofCommand op arg = c)
  ∧ (∀ (s : State) (op arg : Byte),
      step (s.withSlaveWrite 0x12 (op ++ arg)) = exec (Instr.ofCommand op arg) s
      ∧ step (s.withFetchWord 16 (op.toNat * 256 + arg.toNat)) = exec (Instr.ofCommand op arg) s)
  ∧ ∀ (s : State) (k : Fin 32) (v : Word), step (s.withSlaveWrite k v) = exec (Instr.ofWrite k v) s

/-- Section 4 of 00_scope.md, R16, R105, R110: samples are written most significant bit first, and a PACKED bit stream
cut into samples gives the samples it was made of. -/
def Obligations.PackedSamplesRoundTrip : Prop :=
  (∀ w n j, j < w → (bitsOf w n)[j]? = some (n.testBit (w - 1 - j)))
  ∧ (∀ w n, natOf (bitsOf w n) = n % 2 ^ w)
  ∧ ∀ (w : Nat) (xs : List Sample) (tail : List Bool), 1 ≤ w → w ≤ 24 → (∀ x ∈ xs, x.toNat < 2 ^ w) →
      cutSamples w xs.length (xs.flatMap (fun x => bitsOf w x.toNat) ++ tail) = (xs, tail)

/-- R106, R107, R108: the value of a received sample in a word or a pair, by its extension. R110, R111: what a fetched
word gives in each packing: samples cut from the residual bits and the word, the low W bits of a word whatever the
upper bits hold, or the upper and then the lower half of a pair. R114, R115, R116: the word a receive stream's
packer prepares, the samples it takes for it, and which of them count at their take. -/
def Obligations.ExtensionGivesTheValue : Prop :=
  (∀ (c : StreamConfig) (x : Sample), 1 ≤ c.width → c.width ≤ 24 → x.toNat < 2 ^ c.width →
    let value := fun size : Nat => natOf (c.sampleBits x)
      = if c.extension = .sign ∧ 2 ^ (c.width - 1) ≤ x.toNat then x.toNat + 2 ^ size - 2 ^ c.width else x.toNat
    (c.packing = .packed → c.sampleBits x = bitsOf c.width x.toNat)
    ∧ (c.packing = .word → c.width ≤ 16 → value 16)
    ∧ (c.packing = .pair → value 32)
    ∧ (c.packing = .word → c.width ≤ 16 → ∀ (r : List Bool) (n left : Nat) (w : Word),
        c.unpack r n left w = ([BitVec.ofNat 24 (w.toNat % 2 ^ c.width)], [])))
  ∧ (∀ (c : StreamConfig) (r : List Bool) (n left : Nat) (w : Word),
    let bits := r ++ bitsOf 16 w.toNat
    (c.packing = .packed →
      let k := min ((r.length + 16) / c.width) left
      (c.unpack r n left w).1 = (List.range k).map (fun j =>
        BitVec.ofNat 24 (natOf ((bits.drop (j * c.width)).take c.width)))
      ∧ (c.unpack r n left w).2 = bits.drop (k * c.width))
    ∧ (c.packing = .pair → c.width ≤ 24 →
      (n % 2 = 0 → c.unpack r n left w = ([], (bitsOf 16 w.toNat).drop (32 - c.width)))
      ∧ (n % 2 = 1 → c.unpack r n left w
        = ([BitVec.ofNat 24 (natOf (bits.drop (bits.length - c.width)))], []))))
  ∧ ∀ (c : StreamCtx) (cfg : StreamConfig) (d : Descriptor),
    let m := d.length - c.samplesDone
    let held := c.residual.length
    let needed := match cfg.packing with
      | .packed => if 16 ≤ held then 0 else min m ((16 - held + cfg.width - 1) / cfg.width)
      | .word => 1
      | .pair => if 16 ≤ held then 0 else 1
    let flush := ∃ b, c.state = .draining .stop b
    (¬ flush → c.fifo.length < needed → c.prepare cfg d = none)
    ∧ ∀ k, (flush ∨ needed ≤ c.fifo.length) → k ≤ m → k ≤ c.fifo.length →
      let bits := fun j => c.residual ++ (c.fifo.take j).flatMap cfg.sampleBits
      (∀ j, j < k → (bits j).length < 16) → (16 ≤ (bits k).length ∨ k = m ∨ k = c.fifo.length) →
      let uncounted := if k = 0 then 0 else 1
      let after := fun (n : Nat) (rest : List Bool) =>
        { c with fifo := c.fifo.drop k, samplesDone := c.samplesDone + n, residual := rest }
      (16 ≤ (bits k).length → c.prepare cfg d
        = some (after (k - uncounted) ((bits k).drop 16), word (natOf ((bits k).take 16)), uncounted))
      ∧ ((bits k).length < 16 → bits k ≠ [] → (k = m ∨ flush) → c.prepare cfg d
        = some (after k [], word (natOf (bits k ++ List.replicate (16 - (bits k).length) false)), 0))
      ∧ ((bits k).length < 16 → (bits k = [] ∨ (k < m ∧ ¬ flush)) → c.prepare cfg d = none)

/-- R18: in LOOPBACK a receive slot of any width up to S reads the first bits that the transmit output gave one slot
length before, and ones where it gave nothing; and after LINE_UP all ones until something is driven. -/
def Obligations.LoopbackDelaysOneSlot : Prop :=
  (∀ (l : LinePort) (width : Nat) (rxd : Sample), l.fmt.mode = .loopback → width ≤ l.fmt.slotLen →
    ((l.pass l.fmt.slotLen).pass width).received width rxd
      = l.txBits.take width ++ List.replicate (width - l.txBits.length) true)
  ∧ (∀ (l : LinePort) (w width : Nat) (x rxd : Sample), l.fmt.mode = .loopback → l.txBits = bitsOf w x.toNat →
    width ≤ l.fmt.slotLen →
    (w ≤ width → ((l.pass l.fmt.slotLen).pass width).received width rxd
      = bitsOf w x.toNat ++ List.replicate (width - w) true)
    ∧ (width ≤ w → ((l.pass l.fmt.slotLen).pass width).received width rxd = (bitsOf w x.toNat).take width))
  ∧ ∀ (s : State) (arg : Byte), s.resetLow = false → s.line.state = .disabled → s.line.fmt.mode = .loopback →
    ∃ t, exec (.lineUp arg) s = .next t
      ∧ ∀ (k width : Nat) (rxd : Sample), (t.line.pass k).received width rxd = List.replicate width true
end

