-- ==== Sys2Proof/Laws/State.lean ====
section
/-! SUPPORT. One lemma for each field and each named update of the state: what it becomes or that it stays. -/

namespace Sys2Proof.Machine

/-! ### putStream -/

@[simp] theorem State.putStream_line (s : State) (i : StreamId) (c : StreamCtx) : (s.putStream i c).line = s.line := rfl
@[simp] theorem State.putStream_map (s : State) (i : StreamId) (c : StreamCtx) : (s.putStream i c).map = s.map := rfl
@[simp] theorem State.putStream_nextPosting (s : State) (i : StreamId) (c : StreamCtx) : (s.putStream i c).nextPosting = s.nextPosting := rfl
@[simp] theorem State.putStream_mover (s : State) (i : StreamId) (c : StreamCtx) : (s.putStream i c).mover = s.mover := rfl
@[simp] theorem State.putStream_groups (s : State) (i : StreamId) (c : StreamCtx) : (s.putStream i c).groups = s.groups := rfl
@[simp] theorem State.putStream_cq (s : State) (i : StreamId) (c : StreamCtx) : (s.putStream i c).cq = s.cq := rfl
@[simp] theorem State.putStream_win (s : State) (i : StreamId) (c : StreamCtx) : (s.putStream i c).win = s.win := rfl
@[simp] theorem State.putStream_resetLow (s : State) (i : StreamId) (c : StreamCtx) : (s.putStream i c).resetLow = s.resetLow := rfl
@[simp] theorem State.putStream_mem (s : State) (i : StreamId) (c : StreamCtx) : (s.putStream i c).mem = s.mem := rfl
@[simp] theorem State.putStream_freeIdx (s : State) (i : StreamId) (c : StreamCtx) : (s.putStream i c).freeIdx = s.freeIdx := rfl
@[simp] theorem State.putStream_pending (s : State) (i : StreamId) (c : StreamCtx) : (s.putStream i c).pending = s.pending := rfl

/-! ### withStream -/

@[simp] theorem State.withStream_line (s : State) (i : StreamId) (c : StreamCtx) : (s.withStream i c).line = s.line := rfl
@[simp] theorem State.withStream_map (s : State) (i : StreamId) (c : StreamCtx) : (s.withStream i c).map = s.map := rfl
@[simp] theorem State.withStream_free (s : State) (i : StreamId) (c : StreamCtx) : (s.withStream i c).free = s.free := rfl
@[simp] theorem State.withStream_nextPosting (s : State) (i : StreamId) (c : StreamCtx) : (s.withStream i c).nextPosting = s.nextPosting := rfl
@[simp] theorem State.withStream_mover (s : State) (i : StreamId) (c : StreamCtx) : (s.withStream i c).mover = s.mover := rfl
@[simp] theorem State.withStream_groups (s : State) (i : StreamId) (c : StreamCtx) : (s.withStream i c).groups = s.groups := rfl
@[simp] theorem State.withStream_cq (s : State) (i : StreamId) (c : StreamCtx) : (s.withStream i c).cq = s.cq := rfl
@[simp] theorem State.withStream_win (s : State) (i : StreamId) (c : StreamCtx) : (s.withStream i c).win = s.win := rfl
@[simp] theorem State.withStream_resetLow (s : State) (i : StreamId) (c : StreamCtx) : (s.withStream i c).resetLow = s.resetLow := rfl
@[simp] theorem State.withStream_mem (s : State) (i : StreamId) (c : StreamCtx) : (s.withStream i c).mem = s.mem := rfl
@[simp] theorem State.withStream_freeIdx (s : State) (i : StreamId) (c : StreamCtx) : (s.withStream i c).freeIdx = s.freeIdx := rfl
@[simp] theorem State.withStream_pending (s : State) (i : StreamId) (c : StreamCtx) : (s.withStream i c).pending = s.pending := rfl

/-! ### raiseAll -/

@[simp] theorem State.raiseAll_line (s : State) (rs : List Record) : (s.raiseAll rs).line = s.line := rfl
@[simp] theorem State.raiseAll_map (s : State) (rs : List Record) : (s.raiseAll rs).map = s.map := rfl
@[simp] theorem State.raiseAll_streams (s : State) (rs : List Record) : (s.raiseAll rs).streams = s.streams := rfl
@[simp] theorem State.raiseAll_free (s : State) (rs : List Record) : (s.raiseAll rs).free = s.free := rfl
@[simp] theorem State.raiseAll_nextPosting (s : State) (rs : List Record) : (s.raiseAll rs).nextPosting = s.nextPosting := rfl
@[simp] theorem State.raiseAll_mover (s : State) (rs : List Record) : (s.raiseAll rs).mover = s.mover := rfl
@[simp] theorem State.raiseAll_groups (s : State) (rs : List Record) : (s.raiseAll rs).groups = s.groups := rfl
@[simp] theorem State.raiseAll_win (s : State) (rs : List Record) : (s.raiseAll rs).win = s.win := rfl
@[simp] theorem State.raiseAll_resetLow (s : State) (rs : List Record) : (s.raiseAll rs).resetLow = s.resetLow := rfl
@[simp] theorem State.raiseAll_mem (s : State) (rs : List Record) : (s.raiseAll rs).mem = s.mem := rfl
@[simp] theorem State.raiseAll_freeIdx (s : State) (rs : List Record) : (s.raiseAll rs).freeIdx = s.freeIdx := rfl
@[simp] theorem State.raiseAll_pending (s : State) (rs : List Record) : (s.raiseAll rs).pending = s.pending := rfl

/-! ### apply -/

@[simp] theorem State.apply_line (s : State) (i : StreamId) (r : StreamCtx × List Record) : (s.apply i r).line = s.line := rfl
@[simp] theorem State.apply_map (s : State) (i : StreamId) (r : StreamCtx × List Record) : (s.apply i r).map = s.map := rfl
@[simp] theorem State.apply_nextPosting (s : State) (i : StreamId) (r : StreamCtx × List Record) : (s.apply i r).nextPosting = s.nextPosting := rfl
@[simp] theorem State.apply_mover (s : State) (i : StreamId) (r : StreamCtx × List Record) : (s.apply i r).mover = s.mover := rfl
@[simp] theorem State.apply_groups (s : State) (i : StreamId) (r : StreamCtx × List Record) : (s.apply i r).groups = s.groups := rfl
@[simp] theorem State.apply_win (s : State) (i : StreamId) (r : StreamCtx × List Record) : (s.apply i r).win = s.win := rfl
@[simp] theorem State.apply_resetLow (s : State) (i : StreamId) (r : StreamCtx × List Record) : (s.apply i r).resetLow = s.resetLow := rfl
@[simp] theorem State.apply_mem (s : State) (i : StreamId) (r : StreamCtx × List Record) : (s.apply i r).mem = s.mem := rfl
@[simp] theorem State.apply_freeIdx (s : State) (i : StreamId) (r : StreamCtx × List Record) : (s.apply i r).freeIdx = s.freeIdx := rfl
@[simp] theorem State.apply_pending (s : State) (i : StreamId) (r : StreamCtx × List Record) : (s.apply i r).pending = s.pending := rfl

/-! ### raiseBatch -/

@[simp] theorem State.raiseBatch_line (s : State) (b : List Raised) : (s.raiseBatch b).line = s.line := rfl
@[simp] theorem State.raiseBatch_map (s : State) (b : List Raised) : (s.raiseBatch b).map = s.map := rfl
@[simp] theorem State.raiseBatch_streams (s : State) (b : List Raised) : (s.raiseBatch b).streams = s.streams := rfl
@[simp] theorem State.raiseBatch_free (s : State) (b : List Raised) : (s.raiseBatch b).free = s.free := rfl
@[simp] theorem State.raiseBatch_nextPosting (s : State) (b : List Raised) : (s.raiseBatch b).nextPosting = s.nextPosting := rfl
@[simp] theorem State.raiseBatch_mover (s : State) (b : List Raised) : (s.raiseBatch b).mover = s.mover := rfl
@[simp] theorem State.raiseBatch_groups (s : State) (b : List Raised) : (s.raiseBatch b).groups = s.groups := rfl
@[simp] theorem State.raiseBatch_win (s : State) (b : List Raised) : (s.raiseBatch b).win = s.win := rfl
@[simp] theorem State.raiseBatch_resetLow (s : State) (b : List Raised) : (s.raiseBatch b).resetLow = s.resetLow := rfl
@[simp] theorem State.raiseBatch_mem (s : State) (b : List Raised) : (s.raiseBatch b).mem = s.mem := rfl
@[simp] theorem State.raiseBatch_pending (s : State) (b : List Raised) : (s.raiseBatch b).pending = s.pending := rfl

/-! ### withResult -/

@[simp] theorem State.withResult_line (s : State) (op arg : Byte) (code : ResultCode) (n : Nat) : (s.withResult op arg code n).line = s.line := rfl
@[simp] theorem State.withResult_map (s : State) (op arg : Byte) (code : ResultCode) (n : Nat) : (s.withResult op arg code n).map = s.map := rfl
@[simp] theorem State.withResult_streams (s : State) (op arg : Byte) (code : ResultCode) (n : Nat) : (s.withResult op arg code n).streams = s.streams := rfl
@[simp] theorem State.withResult_free (s : State) (op arg : Byte) (code : ResultCode) (n : Nat) : (s.withResult op arg code n).free = s.free := rfl
@[simp] theorem State.withResult_nextPosting (s : State) (op arg : Byte) (code : ResultCode) (n : Nat) : (s.withResult op arg code n).nextPosting = s.nextPosting := rfl
@[simp] theorem State.withResult_mover (s : State) (op arg : Byte) (code : ResultCode) (n : Nat) : (s.withResult op arg code n).mover = s.mover := rfl
@[simp] theorem State.withResult_groups (s : State) (op arg : Byte) (code : ResultCode) (n : Nat) : (s.withResult op arg code n).groups = s.groups := rfl
@[simp] theorem State.withResult_cq (s : State) (op arg : Byte) (code : ResultCode) (n : Nat) : (s.withResult op arg code n).cq = s.cq := rfl
@[simp] theorem State.withResult_resetLow (s : State) (op arg : Byte) (code : ResultCode) (n : Nat) : (s.withResult op arg code n).resetLow = s.resetLow := rfl
@[simp] theorem State.withResult_mem (s : State) (op arg : Byte) (code : ResultCode) (n : Nat) : (s.withResult op arg code n).mem = s.mem := rfl
@[simp] theorem State.withResult_freeIdx (s : State) (op arg : Byte) (code : ResultCode) (n : Nat) : (s.withResult op arg code n).freeIdx = s.freeIdx := rfl
@[simp] theorem State.withResult_pending (s : State) (op arg : Byte) (code : ResultCode) (n : Nat) : (s.withResult op arg code n).pending = s.pending := rfl

/-! ### endTenure -/

@[simp] theorem State.endTenure_line (s : State) : (s.endTenure).line = s.line := rfl
@[simp] theorem State.endTenure_map (s : State) : (s.endTenure).map = s.map := rfl
@[simp] theorem State.endTenure_streams (s : State) : (s.endTenure).streams = s.streams := rfl
@[simp] theorem State.endTenure_free (s : State) : (s.endTenure).free = s.free := rfl
@[simp] theorem State.endTenure_nextPosting (s : State) : (s.endTenure).nextPosting = s.nextPosting := rfl
@[simp] theorem State.endTenure_groups (s : State) : (s.endTenure).groups = s.groups := rfl
@[simp] theorem State.endTenure_cq (s : State) : (s.endTenure).cq = s.cq := rfl
@[simp] theorem State.endTenure_win (s : State) : (s.endTenure).win = s.win := rfl
@[simp] theorem State.endTenure_resetLow (s : State) : (s.endTenure).resetLow = s.resetLow := rfl
@[simp] theorem State.endTenure_mem (s : State) : (s.endTenure).mem = s.mem := rfl
@[simp] theorem State.endTenure_freeIdx (s : State) : (s.endTenure).freeIdx = s.freeIdx := rfl
@[simp] theorem State.endTenure_pending (s : State) : (s.endTenure).pending = s.pending := rfl

/-! ### launch -/

@[simp] theorem State.launch_line (s : State) (m : Move) (w : Word) (u : Nat) : (s.launch m w u).line = s.line := rfl
@[simp] theorem State.launch_map (s : State) (m : Move) (w : Word) (u : Nat) : (s.launch m w u).map = s.map := rfl
@[simp] theorem State.launch_streams (s : State) (m : Move) (w : Word) (u : Nat) : (s.launch m w u).streams = s.streams := rfl
@[simp] theorem State.launch_free (s : State) (m : Move) (w : Word) (u : Nat) : (s.launch m w u).free = s.free := rfl
@[simp] theorem State.launch_nextPosting (s : State) (m : Move) (w : Word) (u : Nat) : (s.launch m w u).nextPosting = s.nextPosting := rfl
@[simp] theorem State.launch_groups (s : State) (m : Move) (w : Word) (u : Nat) : (s.launch m w u).groups = s.groups := rfl
@[simp] theorem State.launch_cq (s : State) (m : Move) (w : Word) (u : Nat) : (s.launch m w u).cq = s.cq := rfl
@[simp] theorem State.launch_win (s : State) (m : Move) (w : Word) (u : Nat) : (s.launch m w u).win = s.win := rfl
@[simp] theorem State.launch_resetLow (s : State) (m : Move) (w : Word) (u : Nat) : (s.launch m w u).resetLow = s.resetLow := rfl
@[simp] theorem State.launch_mem (s : State) (m : Move) (w : Word) (u : Nat) : (s.launch m w u).mem = s.mem := rfl
@[simp] theorem State.launch_freeIdx (s : State) (m : Move) (w : Word) (u : Nat) : (s.launch m w u).freeIdx = s.freeIdx := rfl
@[simp] theorem State.launch_pending (s : State) (m : Move) (w : Word) (u : Nat) : (s.launch m w u).pending = s.pending := rfl

/-! ### setGroup -/

@[simp] theorem State.setGroup_line (s : State) (g : GroupId) (a : GroupAction) : (s.setGroup g a).line = s.line := rfl
@[simp] theorem State.setGroup_map (s : State) (g : GroupId) (a : GroupAction) : (s.setGroup g a).map = s.map := rfl
@[simp] theorem State.setGroup_streams (s : State) (g : GroupId) (a : GroupAction) : (s.setGroup g a).streams = s.streams := rfl
@[simp] theorem State.setGroup_free (s : State) (g : GroupId) (a : GroupAction) : (s.setGroup g a).free = s.free := rfl
@[simp] theorem State.setGroup_nextPosting (s : State) (g : GroupId) (a : GroupAction) : (s.setGroup g a).nextPosting = s.nextPosting := rfl
@[simp] theorem State.setGroup_mover (s : State) (g : GroupId) (a : GroupAction) : (s.setGroup g a).mover = s.mover := rfl
@[simp] theorem State.setGroup_cq (s : State) (g : GroupId) (a : GroupAction) : (s.setGroup g a).cq = s.cq := rfl
@[simp] theorem State.setGroup_win (s : State) (g : GroupId) (a : GroupAction) : (s.setGroup g a).win = s.win := rfl
@[simp] theorem State.setGroup_resetLow (s : State) (g : GroupId) (a : GroupAction) : (s.setGroup g a).resetLow = s.resetLow := rfl
@[simp] theorem State.setGroup_mem (s : State) (g : GroupId) (a : GroupAction) : (s.setGroup g a).mem = s.mem := rfl
@[simp] theorem State.setGroup_freeIdx (s : State) (g : GroupId) (a : GroupAction) : (s.setGroup g a).freeIdx = s.freeIdx := rfl
@[simp] theorem State.setGroup_pending (s : State) (g : GroupId) (a : GroupAction) : (s.setGroup g a).pending = s.pending := rfl

/-! ### clearGroups -/

@[simp] theorem State.clearGroups_line (s : State) : (s.clearGroups).line = s.line := rfl
@[simp] theorem State.clearGroups_map (s : State) : (s.clearGroups).map = s.map := rfl
@[simp] theorem State.clearGroups_streams (s : State) : (s.clearGroups).streams = s.streams := rfl
@[simp] theorem State.clearGroups_free (s : State) : (s.clearGroups).free = s.free := rfl
@[simp] theorem State.clearGroups_nextPosting (s : State) : (s.clearGroups).nextPosting = s.nextPosting := rfl
@[simp] theorem State.clearGroups_mover (s : State) : (s.clearGroups).mover = s.mover := rfl
@[simp] theorem State.clearGroups_cq (s : State) : (s.clearGroups).cq = s.cq := rfl
@[simp] theorem State.clearGroups_win (s : State) : (s.clearGroups).win = s.win := rfl
@[simp] theorem State.clearGroups_resetLow (s : State) : (s.clearGroups).resetLow = s.resetLow := rfl
@[simp] theorem State.clearGroups_mem (s : State) : (s.clearGroups).mem = s.mem := rfl
@[simp] theorem State.clearGroups_freeIdx (s : State) : (s.clearGroups).freeIdx = s.freeIdx := rfl
@[simp] theorem State.clearGroups_pending (s : State) : (s.clearGroups).pending = s.pending := rfl

/-! ### The fields an update writes -/

@[simp] theorem State.putStream_streams (s : State) (i : StreamId) (c : StreamCtx) :
    (s.putStream i c).streams = s.streams.set i.val c i.isLt := rfl

@[simp] theorem State.putStream_free (s : State) (i : StreamId) (c : StreamCtx) :
    (s.putStream i c).free = s.free + (s.stream i).queue.length - c.queue.length := rfl

@[simp] theorem State.withStream_streams (s : State) (i : StreamId) (c : StreamCtx) :
    (s.withStream i c).streams = s.streams.set i.val c i.isLt := rfl

@[simp] theorem State.raiseAll_cq (s : State) (rs : List Record) : (s.raiseAll rs).cq = s.cq.raiseAll rs := rfl

@[simp] theorem State.apply_streams (s : State) (i : StreamId) (r : StreamCtx × List Record) :
    (s.apply i r).streams = s.streams.set i.val r.1 i.isLt := rfl

@[simp] theorem State.apply_free (s : State) (i : StreamId) (r : StreamCtx × List Record) :
    (s.apply i r).free = s.free + (s.stream i).queue.length - r.1.queue.length := rfl

@[simp] theorem State.apply_cq (s : State) (i : StreamId) (r : StreamCtx × List Record) :
    (s.apply i r).cq = s.cq.raiseAll r.2 := rfl

@[simp] theorem State.setGroup_groups (s : State) (g : GroupId) (a : GroupAction) :
    (s.setGroup g a).groups = s.groups.set g.val a g.isLt := rfl

@[simp] theorem State.withResult_win (s : State) (op arg : Byte) (code : ResultCode) (n : Nat) :
    (s.withResult op arg code n).win
      = { s.win with command := op ++ arg, resultOp := op, resultCode := code, detail := word n } := rfl

@[simp] theorem State.endTenure_mover (s : State) :
    s.endTenure.mover
      = { s.mover with bus := .waitLow, limit := none, move := none, inFlight := none, yielded := false } := rfl

@[simp] theorem State.launch_mover (s : State) (m : Move) (w : Word) (u : Nat) :
    (s.launch m w u).mover = { s.mover with
      move := some { m with nextAddr := m.nextAddr + 2, wordsLeft := m.wordsLeft - 1 }
      inFlight := some { addr := m.nextAddr, dir := m.dir, word := w, timer := s.mover.readyTimeout
                         uncounted := u } } := rfl

/-! ### Reading a stream after an update -/

/-- Two states with the same contexts show the same streams. -/
theorem State.stream_congr {s t : State} (h : t.streams = s.streams) (i : StreamId) : t.stream i = s.stream i := by
  simp only [State.stream, h]

@[simp] theorem State.stream_putStream_same (s : State) (i : StreamId) (c : StreamCtx) :
    (s.putStream i c).stream i = c := by
  simp [State.stream]

theorem State.stream_putStream_other (s : State) {i j : StreamId} (c : StreamCtx) (h : j ≠ i) :
    (s.putStream i c).stream j = s.stream j := by
  have h' : i.val ≠ j.val := fun e => h (Fin.ext e.symm)
  simp [State.stream, h']

theorem State.stream_putStream (s : State) (i j : StreamId) (c : StreamCtx) :
    (s.putStream i c).stream j = if j = i then c else s.stream j := by
  by_cases h : j = i
  · subst h; simp
  · simp [h, State.stream_putStream_other]

@[simp] theorem State.stream_withStream_same (s : State) (i : StreamId) (c : StreamCtx) :
    (s.withStream i c).stream i = c := by
  simp [State.stream]

theorem State.stream_withStream (s : State) (i j : StreamId) (c : StreamCtx) :
    (s.withStream i c).stream j = if j = i then c else s.stream j := by
  by_cases h : j = i
  · subst h; simp
  · have h' : i.val ≠ j.val := fun e => h (Fin.ext e.symm)
    simp [State.stream, h, h']

@[simp] theorem State.stream_apply_same (s : State) (i : StreamId) (r : StreamCtx × List Record) :
    (s.apply i r).stream i = r.1 := by
  simp [State.stream]

theorem State.stream_apply (s : State) (i j : StreamId) (r : StreamCtx × List Record) :
    (s.apply i r).stream j = if j = i then r.1 else s.stream j :=
  State.stream_putStream s i j r.1

@[simp] theorem State.stream_raiseAll (s : State) (rs : List Record) (i : StreamId) :
    (s.raiseAll rs).stream i = s.stream i := rfl

@[simp] theorem State.stream_raiseBatch (s : State) (b : List Raised) (i : StreamId) :
    (s.raiseBatch b).stream i = s.stream i := rfl

@[simp] theorem State.stream_endTenure (s : State) (i : StreamId) : s.endTenure.stream i = s.stream i := rfl

@[simp] theorem State.stream_launch (s : State) (m : Move) (w : Word) (u : Nat) (i : StreamId) :
    (s.launch m w u).stream i = s.stream i := rfl

@[simp] theorem State.stream_setGroup (s : State) (g : GroupId) (a : GroupAction) (i : StreamId) :
    (s.setGroup g a).stream i = s.stream i := rfl

@[simp] theorem State.stream_clearGroups (s : State) (i : StreamId) : s.clearGroups.stream i = s.stream i := rfl

@[simp] theorem State.stream_withResult (s : State) (op arg : Byte) (code : ResultCode) (n : Nat) (i : StreamId) :
    (s.withResult op arg code n).stream i = s.stream i := rfl

/-- Writing a context back changes nothing. -/
@[simp] theorem State.withStream_self (s : State) (i : StreamId) : s.withStream i (s.stream i) = s := by
  simp [State.withStream, State.stream]

/-- Two states with equal contexts stream by stream have equal contexts. -/
theorem State.streams_ext {s t : State} (h : ∀ i, t.stream i = s.stream i) : t.streams = s.streams := by
  apply Vector.ext
  intro k hk
  exact h ⟨k, hk⟩

/-- A write that keeps the queue's length moves no descriptor record (R86). -/
theorem State.putStream_eq_withStream (s : State) (i : StreamId) (c : StreamCtx)
    (h : c.queue.length = (s.stream i).queue.length) : s.putStream i c = s.withStream i c := by
  simp [State.putStream, State.withStream, h]

/-- The group read from a context that keeps its configuration. -/
theorem StreamCtx.group?_congr {c c' : StreamCtx} (h : c'.cfg = c.cfg) : c'.group? = c.group? := by
  simp only [StreamCtx.group?, h]

end Sys2Proof.Machine
end

