-- ==== Sys2Proof/Laws/Mover.lean ====
section
/-! SUPPORT. The Memory Mover: what preparing a word, starting a word, choosing, ending a tenure and settling can do. -/

namespace Sys2Proof.Machine

/-! ### What the Mover's acts leave alone -/

/-- Two contexts differ at most in what preparing a word of a receive buffer changes: FIFO, residual bits, samples
done (R114, R115). -/
def StreamCtx.sameButTaken (c c' : StreamCtx) : Prop :=
  c' = { c with fifo := c'.fifo, residual := c'.residual, samplesDone := c'.samplesDone }

theorem StreamCtx.sameButTaken_refl (c : StreamCtx) : c.sameButTaken c := rfl

theorem StreamCtx.sameButTaken_trans {a b c : StreamCtx} (h : a.sameButTaken b) (k : b.sameButTaken c) :
    a.sameButTaken c := by
  unfold StreamCtx.sameButTaken at *
  rw [h] at k
  exact k

/-- The fields a preparation leaves alone. -/
theorem StreamCtx.sameButTaken_fields {c c' : StreamCtx} (h : c.sameButTaken c') :
    c'.cfg = c.cfg ∧ c'.state = c.state ∧ c'.queue = c.queue ∧ c'.wordsDone = c.wordsDone
    ∧ c'.underrunEp = c.underrunEp ∧ c'.overrunEp = c.overrunEp ∧ c'.lastSample = c.lastSample
    ∧ c'.samplesServed = c.samplesServed ∧ c'.underrunSlots = c.underrunSlots
    ∧ c'.overrunSamples = c.overrunSamples ∧ c'.postedTotal = c.postedTotal
    ∧ c'.buffersDone = c.buffersDone ∧ c'.lastTag = c.lastTag := by
  unfold StreamCtx.sameButTaken at h
  rw [h]
  simp

/-- An act of the Mover: its own items, and FIFO, residual bits and samples done of streams it takes samples from. -/
def State.MoverAct (s t : State) : Prop :=
  t = { s with mover := t.mover, streams := t.streams } ∧ ∀ i, (s.stream i).sameButTaken (t.stream i)

theorem State.MoverAct.refl (s : State) : s.MoverAct s := ⟨rfl, fun _ => rfl⟩

theorem State.MoverAct.trans {s t u : State} (h : s.MoverAct t) (k : t.MoverAct u) : s.MoverAct u := by
  refine ⟨?_, fun i => StreamCtx.sameButTaken_trans (h.2 i) (k.2 i)⟩
  have h1 := h.1
  have k1 := k.1
  rw [h1] at k1
  exact k1

/-- An act that changes the Mover's items only. -/
theorem State.MoverAct.ofMover (s : State) (m : Mover) : s.MoverAct { s with mover := m } := ⟨rfl, fun _ => rfl⟩

theorem State.endTenure_act (s : State) : s.MoverAct s.endTenure := State.MoverAct.ofMover s _

/-! ### The packer (R114) -/

/-- Taking samples shortens the FIFO by what is taken, and takes no more than the head wants. -/
theorem takeSamples_spec (c : StreamConfig) (m : Nat) (r : List Bool) (fifo : List Sample) :
    (takeSamples c m r fifo).2.1.length ≤ fifo.length := by
  induction fifo generalizing m r with
  | nil => simp [takeSamples]
  | cons x xs ih =>
    simp only [takeSamples]
    split
    · simp
    · split
      · simp
      · have := ih (m - 1) (r ++ c.sampleBits x)
        simp only [List.length_cons]
        omega

/-- Everything the takes of a preparation do (R114, R115): `k` samples are taken, each while fewer than 16 bits are
there, up to 16 bits, the head's last sample or an empty FIFO; all but one that reaches 16 bits are counted. -/
theorem takeSamples_taken (c : StreamConfig) (m : Nat) (r : List Bool) (fifo : List Sample) :
    ∃ k u, k ≤ m ∧ k ≤ fifo.length ∧ u ≤ k ∧ u ≤ 1
      ∧ takeSamples c m r fifo = (r ++ (fifo.take k).flatMap c.sampleBits, fifo.drop k, k - u, u)
      ∧ (∀ j, j < k → (r ++ (fifo.take j).flatMap c.sampleBits).length < 16)
      ∧ (16 ≤ (r ++ (fifo.take k).flatMap c.sampleBits).length ∨ k = m ∨ k = fifo.length)
      ∧ (u = 1 ↔ 0 < k ∧ 16 ≤ (r ++ (fifo.take k).flatMap c.sampleBits).length) := by
  induction fifo generalizing m r with
  | nil => exact ⟨0, 0, by simp [takeSamples]⟩
  | cons x xs ih =>
    by_cases h : 16 ≤ r.length ∨ m = 0
    · refine ⟨0, 0, by simp, by simp, by simp, by simp, by simp [takeSamples, h], by simp, ?_, by simp⟩
      rcases h with h | h
      · exact Or.inl (by simpa using h)
      · exact Or.inr (Or.inl h.symm)
    · have hr : r.length < 16 := by omega
      have hm : 0 < m := by omega
      by_cases h' : 16 ≤ (r ++ c.sampleBits x).length
      · refine ⟨1, 1, hm, by simp, by simp, by simp, ?_, ?_, Or.inl (by simpa using h'), by simpa using h'⟩
        · simp only [takeSamples, h, h', if_true, if_false]; simp
        · intro j hj
          obtain rfl : j = 0 := by omega
          simpa using hr
      · obtain ⟨k, u, h1, h2, h3, h4, h5, h6, h7, h8⟩ := ih (m - 1) (r ++ c.sampleBits x)
        have hb : ∀ j, r ++ ((x :: xs).take (j + 1)).flatMap c.sampleBits
            = r ++ c.sampleBits x ++ (xs.take j).flatMap c.sampleBits := by intro j; simp
        refine ⟨k + 1, u, by omega, by simpa using h2, by omega, h4, ?_, ?_, ?_, ?_⟩
        · simp only [takeSamples, h, h', if_false, h5, hb, List.drop_succ_cons]
          congr 3
          omega
        · intro j hj
          cases j with
          | zero => simpa using hr
          | succ j => rw [hb]; exact h6 j (by omega)
        · rw [hb]
          rcases h7 with h7 | h7 | h7
          · exact Or.inl h7
          · exact Or.inr (Or.inl (by omega))
          · exact Or.inr (Or.inr (by simp [h7]))
        · rw [hb, h8]
          refine ⟨fun ⟨_, hk⟩ => ⟨by omega, hk⟩, fun ⟨_, hk⟩ => ⟨?_, hk⟩⟩
          rcases Nat.eq_zero_or_pos k with rfl | hk0
          · exact absurd (by simpa using hk) h'
          · exact hk0

/-- Everything a preparation can do to the stream. -/
theorem StreamCtx.prepare_spec {c c' : StreamCtx} {cfg : StreamConfig} {d : Descriptor} {w : Word} {n : Nat}
    (h : c.prepare cfg d = some (c', w, n)) : c.sameButTaken c' ∧ c'.fifo.length ≤ c.fifo.length := by
  have ht := takeSamples_spec cfg (d.length - c.samplesDone) c.residual c.fifo
  simp only [StreamCtx.prepare] at h
  split at h
  · split at h
    · simp only [Option.some.injEq, Prod.mk.injEq] at h
      obtain ⟨rfl, -, -⟩ := h
      exact ⟨rfl, ht⟩
    · split at h
      · simp only [Option.some.injEq, Prod.mk.injEq] at h
        obtain ⟨rfl, -, -⟩ := h
        exact ⟨rfl, ht⟩
      · exact absurd h (by simp)
  · exact absurd h (by simp)

/-! ### Starting a word (R127, R128) -/

/-- Everything starting the next word of a move does: the context of its stream after the preparation (a transmit
stream's is unchanged), and the word launched. -/
theorem State.nextWord_spec {s t : State} {m : Move} (h : s.nextWord m = some t) :
    ∃ (c : StreamCtx) (w : Word) (u : Nat), t = (s.withStream m.stream c).launch m w u
      ∧ (s.stream m.stream).sameButTaken c ∧ c.fifo.length ≤ (s.stream m.stream).fifo.length
      ∧ 0 < m.wordsLeft
      ∧ (∃ cfg d rest, (s.stream m.stream).cfg = some cfg ∧ (s.stream m.stream).queue = d :: rest
          ∧ d.posting = m.posting
          ∧ (m.dir = .tx → c = s.stream m.stream ∧ c.mayFetch = true ∧ c.roomCheck cfg d = true)
          ∧ (m.dir = .rx → (s.stream m.stream).mayStore = true
            ∧ (s.stream m.stream).prepare cfg d = some (c, w, u))) := by
  simp only [State.nextWord] at h
  split at h
  · rename_i cfg d rest hcfg hq
    split at h
    · rename_i hm
      split at h
      · rename_i hd
        split at h
        · rename_i hr
          simp only [Option.some.injEq] at h
          subst h
          exact ⟨s.stream m.stream, 0, 0, by simp, rfl, Nat.le_refl _, hm.2, cfg, d, rest, hcfg, hq, hm.1,
            fun _ => ⟨rfl, hr.1, hr.2⟩, fun hh => by simp [hd] at hh⟩
        · exact absurd h (by simp)
      · rename_i hd
        split at h
        · rename_i hs
          split at h
          · rename_i c w u hp
            simp only [Option.some.injEq] at h
            subst h
            have hp' := StreamCtx.prepare_spec hp
            have hlen : c.queue.length = (s.stream m.stream).queue.length := by
              rw [(StreamCtx.sameButTaken_fields hp'.1).2.2.1]
            refine ⟨c, w, u, ?_, hp'.1, hp'.2, hm.2, cfg, d, rest, hcfg, hq, hm.1, fun hh => ?_, fun _ => ⟨hs, hp⟩⟩
            · rw [State.putStream_eq_withStream _ _ _ hlen]
            · simp [hd] at hh
          · exact absurd h (by simp)
        · exact absurd h (by simp)
    · exact absurd h (by simp)
  · exact absurd h (by simp)

theorem State.nextWord_act {s t : State} {m : Move} (h : s.nextWord m = some t) : s.MoverAct t := by
  obtain ⟨c, w, u, rfl, hc, -⟩ := State.nextWord_spec h
  refine ⟨rfl, fun i => ?_⟩
  simp only [State.stream_launch, State.stream_withStream]
  split
  · rename_i hi; rw [hi]; exact hc
  · rfl

/-- A move has a next word exactly when it goes on (R127, R128). -/
theorem State.nextWord_none_iff (s : State) (m : Move) :
    s.nextWord m = none ↔ ¬ (s.stream m.stream).GoesOn m := by
  unfold State.nextWord StreamCtx.GoesOn
  generalize s.stream m.stream = c
  cases hc : c.cfg with
  | none => simp
  | some cfg =>
    cases hq : c.queue with
    | nil => simp
    | cons d rest =>
      by_cases hp : d.posting = m.posting ∧ 0 < m.wordsLeft
      · cases hd : m.dir with
        | tx => by_cases h : c.mayFetch = true ∧ c.roomCheck cfg d = true <;> simp [hp, h]
        | rx =>
          by_cases h : c.mayStore = true
          · cases hr : c.prepare cfg d <;> simp [hp, h, hr]
          · simp [hp, h]
      · simp only [hp, if_false]
        simp only [Option.some.injEq, List.cons.injEq, true_iff]
        rintro ⟨_, _, _, rfl, ⟨rfl, -⟩, h1, h2, -⟩
        exact hp ⟨h1, h2⟩

/-- Starting a word takes samples for that word only (R114). -/
theorem State.nextWord_taken {s t : State} {m : Move} (h : s.nextWord m = some t) (j : StreamId) :
    (s.stream j).NextWordTaken j t := by
  obtain ⟨c, w, u, rfl, -, -, -, cfg, d, rest, hcfg, hq, -, htx, hrx⟩ := State.nextWord_spec h
  simp only [StreamCtx.NextWordTaken, State.launch]
  show if m.stream = j ∧ m.dir = .rx then _ else (s.withStream m.stream c).stream j = _
  split
  · rename_i hj
    obtain ⟨rfl, hd⟩ := hj
    refine ⟨cfg, d, rest, hcfg, hq, ?_⟩
    show (s.stream m.stream).prepare cfg d = some ((s.withStream m.stream c).stream m.stream, w, u)
    rw [State.stream_withStream, if_pos rfl]
    exact (hrx hd).2
  · rename_i hj
    rw [State.stream_withStream]
    split
    · rename_i hjm
      subst hjm
      cases hd : m.dir with
      | tx => exact (htx hd).1
      | rx => exact absurd ⟨rfl, hd⟩ hj
    · rfl

/-- With no word in flight nothing has been taken. -/
theorem StreamCtx.nextWordTaken_idle {c : StreamCtx} {j : StreamId} {t : State} (h : t.stream j = c)
    (hm : t.mover.move = none ∨ t.mover.inFlight = none) : c.NextWordTaken j t := by
  unfold StreamCtx.NextWordTaken
  split
  · rename_i h1 h2; rcases hm with hm | hm <;> simp_all
  · exact h

/-! ### Choosing, tenures, settling -/

theorem State.chooseMove_act (s : State) : s.MoverAct s.chooseMove := by
  simp only [State.chooseMove]
  split
  · exact s.endTenure_act
  · split
    · exact (State.MoverAct.ofMover s _).trans (State.endTenure_act _)
    · split
      · rename_i h
        exact (State.MoverAct.ofMover s _).trans (State.nextWord_act h)
      · exact (State.MoverAct.ofMover s _).trans (State.endTenure_act _)

/-- A choice takes samples for the word it starts only (R114, R125). -/
theorem State.chooseMove_taken (s : State) (j : StreamId) : (s.stream j).NextWordTaken j s.chooseMove := by
  have hend : ∀ u : State, u.stream j = s.stream j → (s.stream j).NextWordTaken j u.endTenure :=
    fun u h => StreamCtx.nextWordTaken_idle h (Or.inl rfl)
  simp only [State.chooseMove]
  split
  · exact hend s rfl
  · split
    · exact hend _ rfl
    · split
      · rename_i h
        have := State.nextWord_taken h j
        exact this
      · exact hend _ rfl

theorem State.beginTenure_act (s : State) : s.MoverAct s.beginTenure := by
  simp only [State.beginTenure]
  split
  · exact (State.MoverAct.ofMover s _).trans (State.endTenure_act _)
  · exact (State.MoverAct.ofMover s _).trans (State.chooseMove_act _)

theorem State.pollMover_act (s : State) : s.MoverAct s.pollMover := by
  simp only [State.pollMover]
  split
  · split
    · exact (State.MoverAct.ofMover s _).trans (State.beginTenure_act _)
    · exact State.MoverAct.ofMover s _
  · exact State.MoverAct.refl s

theorem State.goOn_act (s : State) (m : Move) : s.MoverAct (s.goOn m) := by
  simp only [State.goOn]
  split
  · exact s.endTenure_act
  · split
    · rename_i h; exact State.nextWord_act h
    · exact s.chooseMove_act

/-- After a completion samples are taken for the next word only (R114, R127, R129). -/
theorem State.goOn_taken (s : State) (m : Move) (j : StreamId) : (s.stream j).NextWordTaken j (s.goOn m) := by
  simp only [State.goOn]
  split
  · exact StreamCtx.nextWordTaken_idle rfl (Or.inl rfl)
  · split
    · rename_i h; exact State.nextWord_taken h j
    · exact s.chooseMove_taken j

theorem State.yieldBus_act (s : State) : s.MoverAct s.yieldBus := by
  simp only [State.yieldBus]
  split
  · split
    · exact State.MoverAct.ofMover s _
    · exact s.endTenure_act
  · exact State.MoverAct.refl s

theorem State.grant_act (s : State) : s.MoverAct s.grant := by
  simp only [State.grant]
  split
  · exact (State.MoverAct.ofMover s _).trans (State.beginTenure_act _)
  · exact State.MoverAct.ofMover s _

theorem State.grantLow_act (s : State) : s.MoverAct s.grantLow := by
  simp only [State.grantLow]
  split
  · exact State.MoverAct.ofMover s _
  · exact (State.MoverAct.ofMover s _).trans (State.yieldBus_act _)
  · exact State.MoverAct.ofMover s _
  · exact State.MoverAct.ofMover s _

/-- An act of the Mover leaves every other unit as it was. -/
theorem State.MoverAct.fields {s t : State} (h : s.MoverAct t) :
    t.line = s.line ∧ t.map = s.map ∧ t.free = s.free ∧ t.nextPosting = s.nextPosting ∧ t.groups = s.groups
    ∧ t.cq = s.cq ∧ t.win = s.win ∧ t.resetLow = s.resetLow ∧ t.mem = s.mem ∧ t.freeIdx = s.freeIdx
    ∧ t.pending = s.pending := by
  have h1 := h.1
  rw [h1]
  simp

@[simp] theorem State.cutShift_streams (s : State) : s.cutShift.streams = s.streams := by
  simp only [State.cutShift]; split
  · rfl
  · split <;> rfl

@[simp] theorem State.cutShift_mover (s : State) : s.cutShift.mover = s.mover := by
  simp only [State.cutShift]; split
  · rfl
  · split <;> rfl

@[simp] theorem State.stream_cutShift (s : State) (i : StreamId) : s.cutShift.stream i = s.stream i :=
  State.stream_congr s.cutShift_streams i

/-- The shift register after a settle, in a state `s`. -/
def State.settledLine (s : State) : LinePort := s.cutShift.line

/-- The pending group actions after a settle, in a state `s`. -/
def State.settledGroups (s : State) : Vector GroupAction 4 := s.clearGroups.groups

/-- A settle is the cut, the clearing and then an act of the Mover. -/
theorem State.settle_act (s : State) :
    State.MoverAct { s with line := s.settledLine, groups := s.settledGroups } s.settle := by
  have h1 : s.cutShift = { s with line := s.settledLine } := by
    simp only [State.settledLine, State.cutShift]; split
    · rfl
    · split <;> rfl
  have h2 : s.cutShift.clearGroups = { s with line := s.settledLine, groups := s.settledGroups } := by
    rw [h1]; rfl
  rw [← h2]
  exact State.pollMover_act _

/-- What a settle leaves alone. -/
theorem State.settle_fields (s : State) :
    s.settle.map = s.map ∧ s.settle.free = s.free ∧ s.settle.nextPosting = s.nextPosting ∧ s.settle.cq = s.cq
    ∧ s.settle.win = s.win ∧ s.settle.resetLow = s.resetLow ∧ s.settle.mem = s.mem
    ∧ s.settle.freeIdx = s.freeIdx ∧ s.settle.pending = s.pending
    ∧ s.settle.line = s.settledLine ∧ s.settle.groups = s.settledGroups := by
  obtain ⟨h1, h2, h3, h4, h5, h6, h7, h8, h9, h10, h11⟩ := s.settle_act.fields
  exact ⟨h2, h3, h4, h6, h7, h8, h9, h10, h11, h1, h5⟩

theorem State.settle_sameButTaken (s : State) (i : StreamId) : (s.stream i).sameButTaken (s.settle.stream i) :=
  s.settle_act.2 i

/-- The cut changes the shift register only. -/
theorem State.settledLine_spec (s : State) :
    ((∀ i, s.line.txStream = some i → (s.stream i).driving = true) → s.settledLine = s.line)
    ∧ ∀ i, s.line.txStream = some i → (s.stream i).driving = false →
        s.settledLine = { s.line with txStream := none, txBits := s.line.txBits.take 1 } := by
  refine ⟨fun h => ?_, fun i hi hd => ?_⟩
  · simp only [State.settledLine, State.cutShift]
    split
    · rfl
    · rename_i i hi
      simp [h i hi]
  · simp only [State.settledLine, State.cutShift, hi, hd]
    simp

/-- A settle with the bus not IDLE, or with no request, leaves the Mover and the streams alone. -/
theorem State.settle_quiet (s : State) (h : s.mover.bus ≠ .idle ∨ ∀ i, s.request i = none) :
    s.settle = { s with line := s.settledLine, groups := s.settledGroups } := by
  have h1 : s.cutShift = { s with line := s.settledLine } := by
    simp only [State.settledLine, State.cutShift]; split
    · rfl
    · split <;> rfl
  have h2 : s.cutShift.clearGroups = { s with line := s.settledLine, groups := s.settledGroups } := by
    rw [h1]; rfl
  show s.cutShift.clearGroups.pollMover = _
  rw [h2]
  simp only [State.pollMover]
  rw [if_neg]
  rintro ⟨hb, hr⟩
  rcases h with h | h
  · exact h hb
  · simp only [State.anyRequest, List.any_eq_true] at hr
    obtain ⟨i, -, hi⟩ := hr
    have : s.request i = none := h i
    have hi' : (s.request i).isSome = true := hi
    rw [this] at hi'
    simp at hi'

/-- The preparation of a word plays no part in what follows from a change of the streams (R16, R139). -/
theorem State.followed_congr (s : State) {t u : State} (h : ∀ i, (t.stream i).sameButTaken (u.stream i)) :
    (s.followed t).line = (s.followed u).line ∧ (s.followed t).groups = (s.followed u).groups := by
  have hf := fun i => StreamCtx.sameButTaken_fields (h i)
  have ht : ∀ i, State.stream { s with streams := t.streams } i = t.stream i := fun _ => rfl
  have hu : ∀ i, State.stream { s with streams := u.streams } i = u.stream i := fun _ => rfl
  have hd : ∀ i, (t.stream i).driving = (u.stream i).driving := by
    intro i; simp only [StreamCtx.driving, (hf i).2.1]
  have ha : ∀ i, (t.stream i).isArmed = (u.stream i).isArmed := by
    intro i; simp only [StreamCtx.isArmed, (hf i).2.1]
  have hst : ∀ i, (t.stream i).state = (u.stream i).state := by
    intro i; simp only [(hf i).2.1]
  have hg : ∀ i, (t.stream i).group? = (u.stream i).group? := by
    intro i; simp only [StreamCtx.group?, (hf i).1]
  constructor
  · rw [State.followed, State.followed, (State.settle_fields _).2.2.2.2.2.2.2.2.2.1,
      (State.settle_fields _).2.2.2.2.2.2.2.2.2.1]
    simp only [State.settledLine, State.cutShift, ht, hu, hd]
    split
    · rfl
    · split <;> rfl
  · rw [State.followed, State.followed, (State.settle_fields _).2.2.2.2.2.2.2.2.2.2,
      (State.settle_fields _).2.2.2.2.2.2.2.2.2.2]
    have hm : ∀ g, State.members { s with streams := t.streams } g = State.members { s with streams := u.streams } g := by
      intro g; simp only [State.members, ht, hu, hg]
    simp only [State.settledGroups, State.clearGroups, State.groupActionNow, hm, ht, hu, ha, hst]

end Sys2Proof.Machine
end

