-- ==== Sys2Proof/Laws/Records.lean ====
section
/-! SUPPORT. The completion queue and the stored words: what raising, popping, storing and loading can do. -/

namespace Sys2Proof.Machine

/-! ### Raising records (R150, R158) -/

@[simp] theorem CompletionQueue.raiseAll_nil (q : CompletionQueue) : q.raiseAll [] = q := rfl

@[simp] theorem CompletionQueue.raiseAll_cons (q : CompletionQueue) (r : Record) (rs : List Record) :
    q.raiseAll (r :: rs) = (q.raise r).raiseAll rs := rfl

theorem CompletionQueue.raiseAll_append (q : CompletionQueue) (rs qs : List Record) :
    q.raiseAll (rs ++ qs) = (q.raiseAll rs).raiseAll qs := by
  simp [CompletionQueue.raiseAll, List.foldl_append]

/-- Raising a record keeps the law of the queue. -/
theorem CompletionQueue.raise_law {q : CompletionQueue} (h : q.Law) (r : Record) : (q.raise r).Law := by
  obtain ⟨h1, h2, h3, h4, h5, h6⟩ := h
  unfold CompletionQueue.raise
  split
  · rename_i n hn
    refine ⟨h1, ?_, ?_, h4, h5, h6⟩
    · intro k hk
      simp only [Option.some.injEq] at hk
      have := h2 n hn
      simp only [Config.countMax] at hk
      omega
    · simp only [reduceCtorEq, and_false, iff_false]
      intro ht
      have := (h3.1 ht).2
      simp_all
  · rename_i hn
    split
    · rename_i hlen
      simp only [Config.recordRoom] at hlen
      refine ⟨?_, ?_, ?_, ?_, h5, h6⟩
      · simp; omega
      · simp [hn]
      · simp only [List.append_eq_nil_iff, List.cons_ne_self, and_false, false_and, iff_false]
        split
        · simp only [loadTimer]; split <;> simp
        · intro ht
          have := (h3.1 ht).1
          simp_all
      · intro k
        simp only [loadTimer]
        split
        · split
          · simp
          · intro hk
            simp only [HoldoffTimer.counting.injEq] at hk
            omega
        · exact h4 k
    · rename_i hlen
      simp only [Config.recordRoom] at hlen
      refine ⟨h1, ?_, ?_, h4, h5, h6⟩
      · intro k hk
        simp only [Option.some.injEq] at hk
        omega
      · simp only [reduceCtorEq, and_false, iff_false]
        intro ht
        have := (h3.1 ht).1
        simp_all

/-- Raising records one after the other keeps the law of the queue. -/
theorem CompletionQueue.raiseAll_law {q : CompletionQueue} (h : q.Law) (rs : List Record) : (q.raiseAll rs).Law := by
  induction rs generalizing q with
  | nil => exact h
  | cons r rs ih => exact ih (raise_law h r)

/-- The queue emptied is in its law. -/
theorem CompletionQueue.empty_law {q : CompletionQueue} (h : q.Law) : q.empty.Law := by
  obtain ⟨-, -, -, -, h5, h6⟩ := h
  exact ⟨by simp [CompletionQueue.empty], by simp [CompletionQueue.empty], by simp [CompletionQueue.empty],
    by simp [CompletionQueue.empty], h5, h6⟩

/-- A pop keeps the law of the queue. -/
theorem CompletionQueue.pop_law {q : CompletionQueue} (h : q.Law) : q.pop.Law := by
  unfold CompletionQueue.pop
  split
  · exact empty_law h
  · rename_i r rest hr
    split
    · exact empty_law h
    · rename_i hne
      obtain ⟨h1, h2, h3, h4, h5, h6⟩ := h
      refine ⟨?_, h2, ?_, h4, h5, h6⟩
      · simp only [hr, List.length_cons] at h1
        show rest.length ≤ 31
        omega
      · show q.timer = .stopped ↔ rest = [] ∧ q.overflow = none
        rw [h3]
        simp only [hr, reduceCtorEq, false_and, false_iff]
        exact hne

/-- A tick of the holdoff timer keeps the law of the queue. -/
theorem CompletionQueue.timer_law {q : CompletionQueue} (h : q.Law) (t : HoldoffTimer)
    (hs : t = .stopped ↔ q.timer = .stopped) (hc : ∀ n, t = .counting n → 1 ≤ n) :
    CompletionQueue.Law { q with timer := t } := by
  obtain ⟨h1, h2, h3, -, h5, h6⟩ := h
  exact ⟨h1, h2, hs.trans h3, hc, h5, h6⟩

/-- The commands that raise nothing leave no count behind: the emptied queue counts 0. -/
@[simp] theorem CompletionQueue.count_empty (q : CompletionQueue) : q.empty.count = 0 := rfl

/-! ### Records raised together (R149) -/

/-- The first record of a batch may always stand next. -/
theorem freePositions_zero (r : Raised) (batch : List Raised) : 0 ∈ freePositions (r :: batch) := by
  simp [freePositions]

theorem freePositions_lt {batch : List Raised} {j : Nat} (h : j ∈ freePositions batch) : j < batch.length := by
  simp only [freePositions, List.mem_filter, List.mem_range] at h
  exact h.1

/-- The position an ordering step picks is one that may stand next. -/
theorem pick_mem {batch : List Raised} (h : batch ≠ []) (n : Nat) :
    (freePositions batch).getD
      (if (freePositions batch).length ≤ 1 then 0 else Config.recordOrder n % (freePositions batch).length) 0
      ∈ freePositions batch := by
  obtain ⟨r, rest, rfl⟩ := List.exists_cons_of_ne_nil h
  have hpos : 0 < (freePositions (r :: rest)).length := List.length_pos_of_mem (freePositions_zero r rest)
  have hlt : (if (freePositions (r :: rest)).length ≤ 1 then 0
      else Config.recordOrder n % (freePositions (r :: rest)).length) < (freePositions (r :: rest)).length := by
    split
    · exact hpos
    · exact Nat.mod_lt _ hpos
  rw [List.getD_eq_getElem?_getD, List.getElem?_eq_getElem hlt]
  exact List.getElem_mem hlt

/-- An order of a batch raises each of its records once, and keeps the order of the records of one chain. -/
theorem orderBatch_spec (fuel n : Nat) (batch : List Raised) (h : batch.length ≤ fuel) :
    ((orderBatch fuel n batch).1.Perm (batch.map Prod.snd))
    ∧ ∀ k : Chain, ((batch.filter fun r => r.1.contains k).map Prod.snd).Sublist (orderBatch fuel n batch).1 := by
  induction fuel generalizing n batch with
  | zero =>
    have : batch = [] := List.length_eq_zero_iff.1 (Nat.le_zero.1 h)
    subst this
    simp [orderBatch]
  | succ fuel ih =>
    by_cases hb : batch = []
    · subst hb; simp [orderBatch, freePositions]
    · simp only [orderBatch]
      have hm := pick_mem hb n
      generalize hj : (freePositions batch).getD
        (if (freePositions batch).length ≤ 1 then 0
          else Config.recordOrder n % (freePositions batch).length) 0 = j at hm ⊢
      generalize hn' : (if (freePositions batch).length ≤ 1 then n else n + 1) = n'
      have hlt := freePositions_lt hm
      have hget : batch[j]? = some batch[j] := List.getElem?_eq_getElem hlt
      simp only [hget]
      have hlen : (batch.eraseIdx j).length ≤ fuel := by
        rw [List.length_eraseIdx_of_lt hlt]; omega
      obtain ⟨hp, hs⟩ := ih n' (batch.eraseIdx j) hlen
      have hsplit : batch = batch.take j ++ batch[j] :: batch.drop (j + 1) := by
        rw [← List.drop_eq_getElem_cons hlt, List.take_append_drop]
      have herase : batch.eraseIdx j = batch.take j ++ batch.drop (j + 1) := by
        rw [List.eraseIdx_eq_take_drop_succ]
      have hfree : ∀ a ∈ batch.take j, ∀ c ∈ a.1, c ∉ batch[j].1 := by
        have h2 := (List.mem_filter.1 hm).2
        rw [hget] at h2
        intro a ha c hc hcc
        have h3 := List.all_eq_true.1 (List.all_eq_true.1 h2 a ha) c hc
        have h4 : batch[j].1.contains c = true := by simpa using hcc
        rw [h4] at h3
        exact absurd h3 (by decide)
      constructor
      · refine (List.Perm.cons _ hp).trans ?_
        rw [herase]
        conv => rhs; rw [hsplit]
        simp only [List.map_append, List.map_cons]
        exact List.perm_middle.symm
      · intro k
        have hs' := hs k
        by_cases hk : batch[j].1.contains k
        · have hnone : (batch.take j).filter (fun r => r.1.contains k) = [] := by
            rw [List.filter_eq_nil_iff]
            intro a ha hka
            exact hfree a ha k (by simpa using hka) (by simpa using hk)
          have hrest : (batch.eraseIdx j).filter (fun r => r.1.contains k)
              = (batch.drop (j + 1)).filter fun r => r.1.contains k := by
            rw [herase]
            simp only [List.filter_append, hnone, List.nil_append]
          rw [hrest] at hs'
          have : batch.filter (fun r => r.1.contains k)
              = batch[j] :: (batch.drop (j + 1)).filter fun r => r.1.contains k := by
            conv => lhs; rw [hsplit]
            simp only [List.filter_append, hnone, List.nil_append, List.filter_cons, hk, if_true]
          rw [this]
          simp only [List.map_cons]
          exact List.Sublist.cons_cons _ hs'
        · have : batch.filter (fun r => r.1.contains k)
              = (batch.eraseIdx j).filter fun r => r.1.contains k := by
            rw [herase]
            conv => lhs; rw [hsplit]
            simp only [List.filter_append, List.filter_cons, hk, Bool.false_eq_true, if_false]
          rw [this]
          exact hs'.trans (List.sublist_cons_self _ _)

/-- Everything raising a batch does: each record once, in an order that keeps every chain. -/
theorem State.raiseBatch_spec (s : State) (batch : List Raised) :
    ∃ raised : List Record, (s.raiseBatch batch).cq = s.cq.raiseAll raised
      ∧ raised.Perm (batch.map Prod.snd)
      ∧ (∀ k : Chain, ((batch.filter fun r => r.1.contains k).map Prod.snd).Sublist raised)
      ∧ s.raiseBatch batch
          = { s with cq := (s.raiseBatch batch).cq, freeIdx := (s.raiseBatch batch).freeIdx } :=
  ⟨(orderBatch batch.length s.freeIdx batch).1, rfl, (orderBatch_spec _ _ _ (Nat.le_refl _)).1,
    (orderBatch_spec _ _ _ (Nat.le_refl _)).2, rfl⟩

/-! ### The stored words (log 4) -/

/-- Every address of a list in canonical form is at or above its first. -/
theorem memWf_tail {a : Nat} {w : Word} {m : List (Nat × Word)} (h : memWf ((a, w) :: m) = true) :
    memWf m = true ∧ ∀ p ∈ m, a < p.1 := by
  induction m generalizing a w with
  | nil => simp [memWf]
  | cons p m ih =>
    obtain ⟨b, v⟩ := p
    simp only [memWf, Bool.and_eq_true, decide_eq_true_eq] at h
    refine ⟨h.2, ?_⟩
    intro q hq
    rcases List.mem_cons.1 hq with rfl | hq
    · exact h.1
    · exact Nat.lt_trans h.1 ((ih h.2).2 q hq)

theorem memWf_cons {a : Nat} {w : Word} {m : List (Nat × Word)} (h : memWf m = true) (hlt : ∀ p ∈ m, a < p.1) :
    memWf ((a, w) :: m) = true := by
  cases m with
  | nil => rfl
  | cons p m =>
    obtain ⟨b, v⟩ := p
    simp only [memWf, Bool.and_eq_true, decide_eq_true_eq]
    exact ⟨hlt (b, v) (by simp), h⟩

theorem mem_storeMem {a : Nat} {w : Word} {m : List (Nat × Word)} {p : Nat × Word} (h : p ∈ storeMem a w m) :
    p = (a, w) ∨ p ∈ m := by
  induction m with
  | nil => simpa [storeMem] using h
  | cons q m ih =>
    obtain ⟨b, v⟩ := q
    simp only [storeMem] at h
    split at h
    · simpa using h
    · split at h
      · simp only [List.mem_cons] at h ⊢
        rcases h with h | h
        · exact Or.inl h
        · exact Or.inr (Or.inr h)
      · simp only [List.mem_cons] at h ⊢
        rcases h with h | h
        · exact Or.inr (Or.inl h)
        · rcases ih h with h | h
          · exact Or.inl h
          · exact Or.inr (Or.inr h)

/-- A store keeps the canonical form. -/
theorem storeMem_wf (a : Nat) (w : Word) {m : List (Nat × Word)} (h : memWf m = true) :
    memWf (storeMem a w m) = true := by
  induction m with
  | nil => rfl
  | cons q m ih =>
    obtain ⟨b, v⟩ := q
    have ht := memWf_tail h
    simp only [storeMem]
    split
    · rename_i hab
      refine memWf_cons h ?_
      intro p hp
      rcases List.mem_cons.1 hp with rfl | hp
      · exact hab
      · exact Nat.lt_trans hab (ht.2 p hp)
    · split
      · rename_i hab
        subst hab
        exact memWf_cons ht.1 ht.2
      · rename_i h1 h2
        refine memWf_cons (ih ht.1) ?_
        intro p hp
        rcases mem_storeMem hp with rfl | hp
        · simp only; omega
        · exact ht.2 p hp

/-- A load after a store: the stored word at its address, what was there before at every other. -/
theorem loadMem_storeMem (a b : Nat) (w : Word) {m : List (Nat × Word)} (h : memWf m = true) :
    loadMem b (storeMem a w m) = if b = a then some w else loadMem b m := by
  induction m with
  | nil => simp [storeMem, loadMem]
  | cons q m ih =>
    obtain ⟨c, v⟩ := q
    have ht := memWf_tail h
    simp only [storeMem]
    split
    · simp [loadMem]
    · split
      · rename_i hac
        subst hac
        simp only [loadMem]
        split <;> simp_all
      · rename_i h1 h2
        simp only [loadMem, ih ht.1]
        by_cases hbc : b = c
        · subst hbc
          have : b ≠ a := fun e => h2 e.symm
          simp [this]
        · simp [hbc]

/-- The stored words right after reset are in canonical form. -/
theorem State.reset_mem_wf : memWf State.reset.mem = true := rfl

end Sys2Proof.Machine
end

