-- ==== Sys2Proof/Laws/Streams.lean ====
section
/-! SUPPORT. Streams: the pool under a write, acts of all streams at one moment, stops, sweeps, halts, boundaries. -/

namespace Sys2Proof.Machine

/-! ### The sixteen streams -/

theorem mem_allStreams (i : StreamId) : i ∈ allStreams := by
  revert i; decide

theorem allStreams_nodup : allStreams.Nodup := by decide

/-- A sum over streams after one term is replaced. -/
theorem sum_replace (f : StreamId → Nat) (i : StreamId) (a : Nat) (l : List StreamId) (hn : l.Nodup) :
    (l.map fun j => if j = i then a else f j).sum + (if i ∈ l then f i else 0)
      = (l.map f).sum + (if i ∈ l then a else 0) := by
  induction l with
  | nil => simp
  | cons k l ih =>
    have hn' := List.nodup_cons.1 hn
    have ih' := ih hn'.2
    simp only [List.map_cons, List.sum_cons, List.mem_cons]
    by_cases hk : k = i
    · subst hk
      simp only [hn'.1, if_false, true_or, if_true] at ih' ⊢
      omega
    · have hk' : i ≠ k := fun e => hk e.symm
      simp only [hk, hk', if_false, false_or]
      omega

/-- Descriptors queued after a write of one context. -/
theorem State.queued_withStream (s : State) (i : StreamId) (c : StreamCtx) :
    (s.withStream i c).queued + (s.stream i).queue.length = s.queued + c.queue.length := by
  have h := sum_replace (fun j => (s.stream j).queue.length) i c.queue.length allStreams allStreams_nodup
  simp only [mem_allStreams, if_true] at h
  rw [State.queued, State.queued, ← h]
  congr 2
  apply List.map_congr_left
  intro j _
  rw [State.stream_withStream]
  split <;> rfl

/-- Two states with the same contexts hold as many descriptors. -/
theorem State.queued_congr {s t : State} (h : t.streams = s.streams) : t.queued = s.queued := by
  simp only [State.queued, State.stream_congr h]

/-- R86: a write that returns descriptors frees their records. -/
theorem State.free_queued_putStream (s : State) (i : StreamId) (c : StreamCtx)
    (h : c.queue.length ≤ (s.stream i).queue.length) :
    (s.putStream i c).free + (s.putStream i c).queued = s.free + s.queued := by
  have h1 := s.queued_withStream i c
  have h2 : (s.putStream i c).queued = (s.withStream i c).queued := State.queued_congr rfl
  rw [h2, State.putStream_free]
  omega

/-! ### Acts of all streams at one moment -/

/-- Everything an act of all streams does, when what it does to each depends on that stream and the Mover only. -/
theorem State.eachStream_spec (s : State) (f : State → StreamId → StreamCtx × List Raised)
    (g : StreamId → StreamCtx × List Raised)
    (h : ∀ t i, t.stream i = s.stream i → t.mover = s.mover → f t i = g i) :
    (∀ i, (s.eachStream f).1.stream i = (g i).1)
    ∧ (s.eachStream f).2 = allStreams.flatMap (fun i => (g i).2)
    ∧ (s.eachStream f).1 = { s with streams := (s.eachStream f).1.streams, free := (s.eachStream f).1.free }
    ∧ ((∀ i, (g i).1.queue.length ≤ (s.stream i).queue.length) →
        (s.eachStream f).1.free + (s.eachStream f).1.queued = s.free + s.queued) := by
  have key : ∀ (l : List StreamId) (t : State) (acc : List Raised), l.Nodup → t.mover = s.mover →
      (∀ i ∈ l, t.stream i = s.stream i) →
      let r := l.foldl (fun a i => let r := f a.1 i; (a.1.putStream i r.1, a.2 ++ r.2)) (t, acc)
      (∀ i, r.1.stream i = if i ∈ l then (g i).1 else t.stream i)
      ∧ r.2 = acc ++ l.flatMap (fun i => (g i).2)
      ∧ r.1 = { t with streams := r.1.streams, free := r.1.free }
      ∧ ((∀ i, (g i).1.queue.length ≤ (s.stream i).queue.length) →
          r.1.free + r.1.queued = t.free + t.queued) := by
    intro l
    induction l with
    | nil => intro t acc _ _ _; simp
    | cons k l ih =>
      intro t acc hn hmov hstr
      have hn' := List.nodup_cons.1 hn
      have hf : f t k = g k := h t k (hstr k (by simp)) hmov
      simp only [List.foldl_cons, hf]
      have := ih (t.putStream k (g k).1) (acc ++ (g k).2) hn'.2 hmov (by
        intro i hi
        have hik : i ≠ k := fun e => hn'.1 (e ▸ hi)
        rw [State.stream_putStream_other _ _ hik]
        exact hstr i (by simp [hi]))
      obtain ⟨h1, h2, h3, h4⟩ := this
      refine ⟨?_, ?_, ?_, ?_⟩
      · intro i
        rw [h1 i]
        by_cases hil : i ∈ l
        · simp [hil]
        · by_cases hik : i = k
          · subst hik; simp [hil]
          · simp [hil, hik, State.stream_putStream_other]
      · rw [h2]; simp
      · rw [h3]; simp [State.putStream]
      · intro hq
        rw [h4 hq]
        apply State.free_queued_putStream
        rw [hstr k (by simp)]
        exact hq k
  obtain ⟨h1, h2, h3, h4⟩ := key allStreams s [] allStreams_nodup rfl (fun _ _ => rfl)
  refine ⟨fun i => ?_, ?_, h3, h4⟩
  · have := h1 i
    simp only [mem_allStreams, if_true] at this
    exact this
  · simpa [State.eachStream] using h2

/-! ### Returns, sweeps and stops -/

@[simp] theorem StreamCtx.counted_eq_noteReturns (c : StreamCtx) (ds : List Descriptor) :
    c.noteReturns ds = c.counted ds := rfl

@[simp] theorem StreamCtx.counted_nil (c : StreamCtx) : c.counted [] = c := by
  simp [StreamCtx.counted]

/-- A sweep into OFF (R101). -/
theorem StreamCtx.sweepOff_spec (c : StreamCtx) (i : StreamId) (frame : BitVec 16) (st : Status) :
    c.sweepOff i frame st = (c.swept, sweepRecords c.queue i frame st) := rfl

/-- STOP in ARMED (R51). -/
theorem StreamCtx.stopArmed_spec (c : StreamCtx) (i : StreamId) (frame : BitVec 16) :
    c.stopArmed i frame
      = (c.swept, sweepRecords c.queue i frame .cancelled ++ [.streamStopped i frame .stop c.fifo.length]) := rfl

/-- ABORT and CLEAR of a stream that is not OFF (R65, R66). -/
theorem StreamCtx.abortNow_spec (c : StreamCtx) (i : StreamId) (frame : BitVec 16) (report : Bool) :
    c.abortNow i frame report
      = ({ c.swept with lastSample := none }, sweepRecords c.queue i frame .aborted
          ++ if report then [.streamStopped i frame .abort c.fifo.length] else []) := rfl

/-- ABORT in OFF (R65). -/
theorem StreamCtx.abortOff_spec (c : StreamCtx) (i : StreamId) (frame : BitVec 16) :
    c.abortOff i frame = ({ c.counted c.queue with queue := [] }, sweepRecords c.queue i frame .aborted) := rfl

theorem StreamCtx.stopTx_spec (c : StreamCtx) (i : StreamId) (frame : BitVec 16) :
    c.stopTx i frame = (c.swept, c.stopReturns i frame ++ [.streamStopped i frame .stop c.fifo.length]) := by
  cases hq : c.queue <;>
    simp [StreamCtx.stopTx, StreamCtx.stopReturns, Descriptor.done, sweepRecords, StreamCtx.swept,
      StreamCtx.enterOff, StreamCtx.counted, hq]

/-- The stop of a stream, whatever its direction (R54, R55, R136). -/
theorem StreamCtx.stopNow_spec (c : StreamCtx) (i : StreamId) (frame : BitVec 16) (inFlight : Bool) :
    c.Stopped i frame inFlight (c.stopNow i frame inFlight).1 (c.stopNow i frame inFlight).2 := by
  simp only [StreamCtx.Stopped, StreamCtx.stopFlushes, StreamCtx.stopNow]
  split
  · rename_i cfg hcfg
    split
    · rename_i hd
      simp [hcfg, hd, StreamCtx.stopTx_spec]
    · rename_i hd
      simp only [hcfg, Option.map_some, hd, true_and, StreamCtx.stopRx]
      split
      · rename_i hq
        simp [hq, StreamCtx.swept, StreamCtx.enterOff, StreamCtx.stopReturns]
      · rename_i d rest hq
        split
        · rename_i he
          obtain ⟨h1, h2, h3⟩ := he
          simp only [hq, h1, h2, h3, ne_eq, not_true_eq_false, reduceCtorEq, not_false_eq_true, Bool.false_eq_true,
            or_self, and_false, false_implies, true_implies, true_and]
          simp [StreamCtx.swept, StreamCtx.enterOff, StreamCtx.stopReturns, hq, Descriptor.done, sweepRecords,
            StreamCtx.counted]
        · rename_i he
          have hl : c.fifo ≠ [] ∨ c.residual ≠ [] ∨ inFlight = true := by
            by_cases h1 : c.fifo = []
            · by_cases h2 : c.residual = []
              · cases inFlight
                · exact absurd ⟨h1, h2, rfl⟩ he
                · simp
              · exact Or.inr (Or.inl h2)
            · exact Or.inl h1
          simp [hq, hl, Descriptor.done, sweepRecords]
  · rename_i hcfg
    simp [hcfg, StreamCtx.stopTx_spec]

/-- A stop never lengthens the queue. -/
theorem StreamCtx.Stopped.queue_length {c c' : StreamCtx} {i : StreamId} {frame : BitVec 16} {b : Bool}
    {rs : List Record} (h : c.Stopped i frame b c' rs) : c'.queue.length ≤ c.queue.length := by
  by_cases hf : c.stopFlushes b
  · rw [(h.1 hf).1]; exact List.length_take_le' _ _
  · rw [(h.2 hf).1]; simp [StreamCtx.swept]

/-- A stop keeps the configuration. -/
theorem StreamCtx.Stopped.cfg {c c' : StreamCtx} {i : StreamId} {frame : BitVec 16} {b : Bool}
    {rs : List Record} (h : c.Stopped i frame b c' rs) : c'.cfg = c.cfg := by
  by_cases hf : c.stopFlushes b
  · rw [(h.1 hf).1]; rfl
  · rw [(h.2 hf).1]; rfl

/-! ### The boundary, one stream at a time -/

/-- A boundary's start record of a member stands in its group's start order, and the records of its stop in its
group's stop order. -/
theorem StreamCtx.atBoundary_chains (c : StreamCtx) (i : StreamId) (frame : BitVec 16) (inFlight : Bool)
    (g : GroupId) (hg : c.group? = some g) :
    (c.isArmed = true → ∀ r ∈ (c.atBoundary i frame inFlight).2, r.1.contains (Chain.groupStart g) = true)
    ∧ (c.state = .stopping → ∀ r ∈ (c.atBoundary i frame inFlight).2, r.1.contains (Chain.groupStop g) = true) := by
  refine ⟨fun ha r hr => ?_, fun hs r hr => ?_⟩
  · simp only [StreamCtx.isArmed] at ha
    cases hst : c.state <;> simp [hst] at ha
    simp only [StreamCtx.atBoundary, hst] at hr
    split at hr
    · simp only [List.mem_singleton] at hr
      subst hr
      simp [StreamCtx.chains, hg]
    · simp at hr
  · simp only [StreamCtx.atBoundary, hs, List.mem_map] at hr
    obtain ⟨x, -, rfl⟩ := hr
    simp [StreamCtx.chains, hg]

/-- What a boundary does to one stream is what `Crossed` says, and its records all belong to the stream's chain. -/
theorem StreamCtx.atBoundary_spec (c : StreamCtx) (i : StreamId) (frame : BitVec 16) (inFlight : Bool) :
    c.Crossed i frame inFlight (c.atBoundary i frame inFlight).1 ((c.atBoundary i frame inFlight).2.map Prod.snd)
    ∧ ∀ r ∈ (c.atBoundary i frame inFlight).2, r.1.contains (Chain.stream i) = true := by
  have hch : ∀ g : GroupId → Chain, Chain.stream i ∈ c.chains i g := by
    intro g; simp only [StreamCtx.chains]; split <;> simp
  simp only [StreamCtx.Crossed, StreamCtx.atBoundary]
  cases hs : c.state with
  | armed m e =>
    rcases m with _ | f
    · cases e <;> simp [StartMode.fires, hch]
    · by_cases hf : f = frame
      · cases e <;> simp [StartMode.fires, hf, hch]
      · simp [StartMode.fires, hf]
  | stopping =>
    refine ⟨?_, ?_⟩
    · have := c.stopNow_spec i frame inFlight
      simpa [List.map_map, Function.comp_def] using this
    · intro r hr
      simp only [List.mem_map] at hr
      obtain ⟨x, -, rfl⟩ := hr
      simpa using hch _
  | draining k b => cases k <;> cases b <;> simp [StreamCtx.enterOff]
  | off => simp
  | running => simp
  | halted h => simp

/-- Only a boundary's stop shortens a queue. -/
theorem StreamCtx.Crossed.queue_length {c c' : StreamCtx} {i : StreamId} {frame : BitVec 16} {b : Bool}
    {rs : List Record} (h : c.Crossed i frame b c' rs) : c'.queue.length ≤ c.queue.length := by
  simp only [StreamCtx.Crossed] at h
  split at h
  · split at h <;> exact Nat.le_of_eq (by rw [h.1])
  · exact StreamCtx.Stopped.queue_length h
  all_goals exact Nat.le_of_eq (by rw [h.1])

/-! ### Halts (R63, R146) -/

/-- R63: the halt of one stream. -/
theorem State.haltOne_spec (s : State) (i : StreamId) (cause : HaltCause) :
    s.haltOne i cause = if (s.stream i).working then
      { s.withStream i { s.stream i with state := .halted cause } with
        cq := s.cq.raise (.streamHalted i s.line.frame cause) }
    else s := by
  simp only [State.haltOne]
  split
  · simp [State.apply, State.raiseAll, State.putStream, State.withStream, StreamCtx.halt]
  · rfl

/-- The halts of a list of streams with one cause. -/
theorem State.haltAll_spec (s : State) (l : List StreamId) (hn : l.Nodup) (cause : HaltCause) :
    (∀ j, (l.foldl (fun a j => a.haltOne j cause) s).stream j
        = if j ∈ l ∧ (s.stream j).working = true then { s.stream j with state := .halted cause } else s.stream j)
    ∧ (l.foldl (fun a j => a.haltOne j cause) s).cq
        = s.cq.raiseAll ((l.filter fun j => (s.stream j).working).map fun j => .streamHalted j s.line.frame cause)
    ∧ l.foldl (fun a j => a.haltOne j cause) s
        = { s with
            streams := (l.foldl (fun a j => a.haltOne j cause) s).streams
            cq := (l.foldl (fun a j => a.haltOne j cause) s).cq } := by
  induction l generalizing s with
  | nil => simp
  | cons k l ih =>
    have hn' := List.nodup_cons.1 hn
    simp only [List.foldl_cons]
    obtain ⟨h1, h2, h3⟩ := ih (s.haltOne k cause) hn'.2
    have hstr : ∀ j, (s.haltOne k cause).stream j
        = if j = k ∧ (s.stream j).working = true then { s.stream j with state := .halted cause } else s.stream j := by
      intro j
      rw [State.haltOne_spec]
      by_cases hw : (s.stream k).working = true
      · simp only [hw, if_true]
        show (s.withStream k _).stream j = _
        rw [State.stream_withStream]
        by_cases hj : j = k
        · subst hj; simp [hw]
        · simp [hj]
      · simp only [hw]
        by_cases hj : j = k
        · subst hj; simp [hw]
        · simp [hj]
    have hfil : l.filter (fun j => ((s.haltOne k cause).stream j).working)
        = l.filter fun j => (s.stream j).working := by
      apply List.filter_congr
      intro j hj
      have hjk : j ≠ k := fun e => hn'.1 (e ▸ hj)
      rw [hstr j]; simp [hjk]
    have hline : (s.haltOne k cause).line = s.line := by
      rw [State.haltOne_spec]; split <;> rfl
    have hcq : (s.haltOne k cause).cq = s.cq.raiseAll
        (([k].filter fun j => (s.stream j).working).map fun j => .streamHalted j s.line.frame cause) := by
      rw [State.haltOne_spec]
      by_cases hw : (s.stream k).working = true
      · simp [hw]
      · simp [hw]
    refine ⟨?_, ?_, ?_⟩
    · intro j
      rw [h1 j, hstr j]
      by_cases hjk : j = k
      · subst hjk
        by_cases hw : (s.stream j).working = true
        · simp [hw, hn'.1]
        · simp [hw]
      · simp [hjk]
    · rw [h2, hfil, hline, hcq, ← CompletionQueue.raiseAll_append]
      congr 1
      by_cases hw : (s.stream k).working = true
      · simp [hw]
      · simp [hw]
    · rw [h3]
      rw [State.haltOne_spec]
      split <;> simp [State.withStream]

/-- R146: everything a halt with its cascade does. -/
theorem State.haltCascade_spec (s : State) (i : StreamId) (cause : HaltCause) (hw : (s.stream i).working = true) :
    s.HaltedBy (s.haltCascade i cause) i cause
    ∧ (s.haltCascade i cause).cq = s.cq.raiseAll (s.haltRecords i cause)
    ∧ s.haltCascade i cause
        = { s with streams := (s.haltCascade i cause).streams, cq := (s.haltCascade i cause).cq } := by
  have h1 : s.haltOne i cause = { s.withStream i { s.stream i with state := .halted cause } with
      cq := s.cq.raise (.streamHalted i s.line.frame cause) } := by
    rw [State.haltOne_spec, if_pos hw]
  have hstr : ∀ j, (s.haltOne i cause).stream j
      = if j = i then { s.stream j with state := .halted cause } else s.stream j := by
    intro j
    rw [h1]
    show (s.withStream i _).stream j = _
    rw [State.stream_withStream]
    by_cases hj : j = i
    · subst hj; simp
    · simp [hj]
  have hgrp : ∀ j, ((s.haltOne i cause).stream j).group? = (s.stream j).group? := by
    intro j
    rw [hstr j]
    split <;> rfl
  simp only [State.haltCascade]
  split
  · rename_i hg
    have hc : s.cascade i = [] := by
      simp [State.cascade, hg]
    refine ⟨?_, ?_, ?_⟩
    · intro j
      rw [hstr j, hc]
      by_cases hj : j = i
      · subst hj; simp
      · simp [hj]
    · rw [h1]; simp [State.haltRecords, hc]
    · rw [h1]; simp [State.withStream]
  · rename_i g hg
    have hn : ((s.haltOne i cause).members g).Nodup := allStreams_nodup.filter _
    obtain ⟨k1, k2, k3⟩ := (s.haltOne i cause).haltAll_spec _ hn .group
    have hmem : ∀ j, j ∈ (s.haltOne i cause).members g ↔ (s.stream j).group? = some g := by
      intro j
      simp [State.members, mem_allStreams, hgrp]
    have hwork : ∀ j, ((s.haltOne i cause).stream j).working = (decide (j ≠ i) && (s.stream j).working) := by
      intro j
      rw [hstr j]
      by_cases hj : j = i
      · subst hj; simp [StreamCtx.working]
      · simp [hj]
    have hcas : ((s.haltOne i cause).members g).filter (fun j => ((s.haltOne i cause).stream j).working)
        = s.cascade i := by
      simp only [State.members, State.cascade, List.filter_filter, hgrp, hwork, hg, Option.isSome_some]
      apply List.filter_congr
      intro j _
      rw [show (decide (some g = (s.stream j).group?)) = decide ((s.stream j).group? = some g) from
        decide_eq_decide.2 eq_comm]
      simp
    refine ⟨?_, ?_, ?_⟩
    · intro j
      rw [k1 j]
      have hjc : j ∈ s.cascade i ↔ (j ≠ i ∧ (s.stream j).working = true ∧ (s.stream j).group? = some g) := by
        simp only [State.cascade, List.mem_filter, mem_allStreams, true_and, hg, Option.isSome_some,
          Bool.and_true, Bool.and_eq_true, decide_eq_true_eq, and_assoc]
        constructor
        · rintro ⟨a, b, c⟩; exact ⟨a, b, c.symm⟩
        · rintro ⟨a, b, c⟩; exact ⟨a, b, c.symm⟩
      by_cases hj : j = i
      · subst hj
        rw [if_neg (by rw [hwork]; simp), hstr]
        simp
      · by_cases hg' : (s.stream j).group? = some g
        · by_cases hw' : (s.stream j).working = true
          · rw [if_pos (by rw [hwork, hmem]; simp [hj, hg', hw']), hstr]
            simp [hjc, hj, hg', hw']
          · rw [if_neg (by rw [hwork]; simp [hw']), hstr]
            simp [hjc, hj, hw']
        · rw [if_neg (by rw [hmem]; simp [hg']), hstr]
          simp [hjc, hj, hg']
    · rw [k2, hcas, h1]
      simp [State.haltRecords]
    · rw [k3, h1]; simp [State.withStream]

end Sys2Proof.Machine
end

