-- ==== Sys2Proof/Laws/Boundary.lean ====
section
/-! SUPPORT. The frame boundary, LINE_DOWN and the loss of alignment: everything each act does. -/

namespace Sys2Proof.Machine

/-- A pending swap carried out, or nothing. -/
theorem State.swapIfPending_spec (s : State) (frame : BitVec 16) :
    (s.swapIfPending frame).1 = { s with map :=
      if s.map.swapPending then { s.map with active := s.map.active.other, swapPending := false } else s.map }
    ∧ (s.swapIfPending frame).2.map Prod.snd
      = (if s.map.swapPending then [.mapSwapped frame s.map.active.other] else []) := by
  simp only [State.swapIfPending]
  split
  · simp [SlotMap.swap]
  · simp

/-- The records of some streams in a gathered list, all of one chain, keep their order in any order that keeps the
chains. -/
theorem records_sublist (before after : List Raised) (g : StreamId → List Raised) (raised : List Record) (k : Chain)
    (l : List StreamId) (hl : l.Sublist allStreams) (hg : ∀ i ∈ l, ∀ r ∈ g i, r.1.contains k = true)
    (h : (((before ++ allStreams.flatMap g ++ after).filter fun r => r.1.contains k).map Prod.snd).Sublist raised) :
    (l.flatMap fun i => (g i).map Prod.snd).Sublist raised := by
  refine List.Sublist.trans ?_ h
  have h1 : (l.flatMap g).filter (fun r => r.1.contains k) = l.flatMap g := by
    refine List.filter_eq_self.2 fun r hr => ?_
    obtain ⟨i, hi, hr⟩ := List.mem_flatMap.1 hr
    exact hg i hi r hr
  have h2 : (l.flatMap fun i => (g i).map Prod.snd) = (l.flatMap g).map Prod.snd := by
    rw [List.map_flatMap]
  rw [h2, ← h1]
  refine ((List.Sublist.trans ?_ ((List.sublist_append_right _ _).trans (List.sublist_append_left _ _))).filter _).map _
  exact (hl.map g).flatten

/-- The same for the records of one stream. -/
theorem stream_records_sublist (before after : List Raised) (g : StreamId → List Raised) (raised : List Record)
    (hg : ∀ i, ∀ r ∈ g i, r.1.contains (Chain.stream i) = true)
    (h : ∀ k : Chain,
      (((before ++ allStreams.flatMap g ++ after).filter fun r => r.1.contains k).map Prod.snd).Sublist raised)
    (i : StreamId) : ((g i).map Prod.snd).Sublist raised := by
  have := records_sublist before after g raised (.stream i) [i]
    (List.singleton_sublist.2 (mem_allStreams i)) (by simpa using hg i) (h _)
  simpa using this

/-- Everything a frame boundary does (R13). -/
theorem State.boundary_spec (s : State) (lp : BitVec 16 → List Record) :
    BoundaryTo s (s.boundary lp) (lp (s.line.frame + 1)) := by
  simp only [State.boundary]
  generalize hframe : s.line.frame + 1 = frame
  generalize hs1 : ({ s with line := { s.line.newFrame with
    frame := frame, frameWidths := s.streams.map StreamCtx.width? } } : State) = s1
  have hswap := s1.swapIfPending_spec frame
  generalize ha : s1.swapIfPending frame = a at hswap ⊢
  have hstr : ∀ i, a.1.stream i = s.stream i := by
    intro i; rw [hswap.1]; subst hs1; rfl
  have hmov : a.1.mover = s.mover := by rw [hswap.1]; subst hs1; rfl
  have hfly : ∀ t : State, ∀ i, t.stream i = a.1.stream i → t.mover = a.1.mover →
      t.headInFlight i = s.headInFlight i := by
    intro t i h1 h2
    simp only [State.headInFlight, State.servesHead, h1, h2, hstr, hmov]
  obtain ⟨b1, b2, b3, b4⟩ := a.1.eachStream_spec
    (fun t i => (t.stream i).atBoundary i frame (t.headInFlight i))
    (fun i => (s.stream i).atBoundary i frame (s.headInFlight i)) (by
      intro t i h1 h2
      simp only [hfly t i h1 h2, h1, hstr])
  generalize hb : a.1.eachStream (fun t i => (t.stream i).atBoundary i frame (t.headInFlight i)) = b
    at b1 b2 b3 b4 ⊢
  have hcross := fun i => (s.stream i).atBoundary_spec i frame (s.headInFlight i)
  have hlen : ∀ i, ((s.stream i).atBoundary i frame (s.headInFlight i)).1.queue.length
      ≤ (a.1.stream i).queue.length := by
    intro i
    rw [hstr i]
    exact (hcross i).1.queue_length
  have hbatch := b.1.raiseBatch_spec ((lp frame).map (fun r => ([Chain.linePort], r)) ++ a.2 ++ b.2)
  generalize hu : b.1.raiseBatch ((lp frame).map (fun r => ([Chain.linePort], r)) ++ a.2 ++ b.2) = u
    at hbatch ⊢
  obtain ⟨raised, r1, r2, r3, r4⟩ := hbatch
  have ha1 : a.1 = { s with
      line := { s.line.newFrame with frame := frame, frameWidths := s.streams.map StreamCtx.width? }
      map := if s.map.swapPending then { s.map with active := s.map.active.other, swapPending := false }
        else s.map } := by
    rw [hswap.1]; subst hs1; rfl
  have hb1 : b.1 = { a.1 with streams := b.1.streams, free := b.1.free } := b3
  have hu1 : u = { b.1 with cq := u.cq, freeIdx := u.freeIdx } := r4
  refine ⟨?_, ?_, ?_, ⟨fun i => ((s.stream i).atBoundary i frame (s.headInFlight i)).2.map Prod.snd, raised, ?_, ?_, ?_, ?_, ?_⟩, ?_⟩
  · rw [hu1]
    show b.1.line = _
    rw [hb1]
    show a.1.line = _
    rw [ha1]
    simp only [← hframe, LinePort.newFrame]
    rfl
  · rw [hu1]
    show b.1.map = _
    rw [hb1]
    show a.1.map = _
    rw [ha1]
  · have h1 := b4 hlen
    have h2 : u.free = b.1.free := by rw [hu1]
    have h3 : u.queued = b.1.queued := by
      apply State.queued_congr; rw [hu1]
    have h4 : a.1.free = s.free := by rw [ha1]
    have h5 : a.1.queued = s.queued := by
      apply State.queued_congr; rw [ha1]
    rw [h2, h3, h1, h4, h5]
  · intro i
    simp only [hframe]
    have : u.stream i = b.1.stream i := State.stream_congr (by rw [hu1]) i
    rw [this, b1 i]
    exact (hcross i).1
  · refine r2.trans ?_
    simp only [List.map_append, List.map_map, hswap.2, b2, List.map_flatMap, hframe]
    have hmap : s1.map = s.map := by subst hs1; rfl
    have hown : (lp frame).map (Prod.snd ∘ fun r => ([Chain.linePort], r)) = lp frame := by
      rw [show (Prod.snd ∘ fun r : Record => ([Chain.linePort], r)) = id from rfl]; simp
    rw [hmap, hown]
  · intro i
    refine stream_records_sublist ((lp frame).map (fun r => ([Chain.linePort], r)) ++ a.2) []
      (fun i => ((s.stream i).atBoundary i frame (s.headInFlight i)).2) raised (fun i => (hcross i).2) ?_ i
    rw [← b2, List.append_nil]
    exact r3
  · intro g
    have hch := fun i (hi : i ∈ s.members g) =>
      (s.stream i).atBoundary_chains i frame (s.headInFlight i) g (by simpa [State.members, mem_allStreams] using hi)
    have hsub : ∀ (k : Chain) (p : StreamId → Bool),
        (∀ i ∈ s.members g, p i = true →
          ∀ r ∈ ((s.stream i).atBoundary i frame (s.headInFlight i)).2, r.1.contains k = true) →
        (((s.members g).filter p).flatMap fun i =>
          ((s.stream i).atBoundary i frame (s.headInFlight i)).2.map Prod.snd).Sublist raised := by
      intro k p hp
      refine records_sublist ((lp frame).map (fun r => ([Chain.linePort], r)) ++ a.2) [] _ raised k _
        (List.filter_sublist.trans List.filter_sublist) ?_ ?_
      · intro i hi
        exact hp i (List.mem_filter.1 hi).1 (List.mem_filter.1 hi).2
      · rw [← b2, List.append_nil]
        exact r3 k
    exact ⟨hsub (.groupStart g) _ fun i hi ha => (hch i hi).1 ha,
      hsub (.groupStop g) _ fun i hi hs => (hch i hi).2 (of_decide_eq_true hs)⟩
  · rw [r1]
    have : b.1.cq = s.cq := by rw [hb1]; show a.1.cq = _; rw [ha1]
    rw [this]
  · conv => lhs; rw [hu1, hb1, ha1]
    have e1 : u.line = { s.line.newFrame with
        frame := frame, frameWidths := s.streams.map StreamCtx.width? } := by
      rw [hu1]; show b.1.line = _; rw [hb1]; show a.1.line = _; rw [ha1]
    have e2 : u.map = (if s.map.swapPending
        then { s.map with active := s.map.active.other, swapPending := false } else s.map) := by
      rw [hu1]; show b.1.map = _; rw [hb1]; show a.1.map = _; rw [ha1]
    have e3 : u.streams = b.1.streams := by rw [hu1]
    have e4 : u.free = b.1.free := by rw [hu1]
    simp only [e1, e2, e3, e4]

/-- What LINE_DOWN makes of one stream, with its record (R20, R63). -/
theorem StreamCtx.lineHalt_spec (c : StreamCtx) (i : StreamId) (frame : BitVec 16) :
    let r : StreamCtx × List Raised :=
      if c.working then (c.halt .line, [([.stream i], .streamHalted i frame .line)]) else (c, [])
    r.1 = (if c.working = true then { c with state := .halted .line } else c)
    ∧ r.1.queue.length = c.queue.length
    ∧ r.2.map Prod.snd = (if c.working = true then [.streamHalted i frame .line] else []) := by
  by_cases h : c.working = true
  · simp [h, StreamCtx.halt]
  · simp [h]

/-- The records of LINE_DOWN over a list of streams (R20). -/
theorem State.lineHalt_records (s : State) (frame : BitVec 16) (l : List StreamId) :
    (l.flatMap fun i => ((if (s.stream i).working then
        ((s.stream i).halt .line, [([Chain.stream i], Record.streamHalted i frame .line)])
      else (s.stream i, [])) : StreamCtx × List Raised).2.map Prod.snd)
    = (l.filter fun i => (s.stream i).working).map fun i => .streamHalted i frame .line := by
  induction l with
  | nil => rfl
  | cons k l ih =>
    rw [List.flatMap_cons, ih, ((s.stream k).lineHalt_spec k frame).2.2]
    by_cases h : (s.stream k).working = true <;> simp [h]

/-- What LINE_DOWN of an up line does to the streams, the map and the records (R20). -/
theorem State.takeLineDown_spec (s : State) :
    ∃ raised : List Record,
      s.takeLineDown.line = { s.line with
          state := .disabled, miss := 0, bitPos := 0, nextSlot := 0, txStream := none, txBits := []
          rxBits := [], driven := [], lowSeen := false }
      ∧ (∀ i, s.takeLineDown.stream i
          = if (s.stream i).working = true then { s.stream i with state := .halted .line } else s.stream i)
      ∧ s.takeLineDown.map
          = (if s.map.swapPending then { s.map with active := s.map.active.other, swapPending := false } else s.map)
      ∧ raised.Perm (((allStreams.filter fun i => (s.stream i).working).map
            fun i => .streamHalted i s.line.frame .line)
          ++ (if s.map.swapPending then [.mapSwapped s.line.frame s.map.active.other] else []))
      ∧ s.takeLineDown.cq = s.cq.raiseAll raised
      ∧ s.takeLineDown.free + s.takeLineDown.queued = s.free + s.queued := by
  generalize hu : s.takeLineDown = u
  simp only [State.takeLineDown] at hu
  generalize hs1 : ({ s with line := { s.line.emptyShift with state := .disabled, miss := 0, lowSeen := false } }
    : State) = s1 at hu
  have hstr : ∀ i, s1.stream i = s.stream i := fun i => State.stream_congr (by rw [← hs1]) i
  have hmap : s1.map = s.map := by rw [← hs1]
  have hcq : s1.cq = s.cq := by rw [← hs1]
  have hfree : s1.free = s.free := by rw [← hs1]
  have hqd : s1.queued = s.queued := State.queued_congr (by rw [← hs1])
  have hline : s1.line = { s.line with
          state := .disabled, miss := 0, bitPos := 0, nextSlot := 0, txStream := none, txBits := []
          rxBits := [], driven := [], lowSeen := false } := by rw [← hs1]; rfl
  clear hs1
  have hspec := fun i => (s.stream i).lineHalt_spec i s.line.frame
  obtain ⟨b1, b2, b3, b4⟩ := s1.eachStream_spec
    (fun t i => if (t.stream i).working then
        ((t.stream i).halt .line, [([Chain.stream i], Record.streamHalted i s.line.frame .line)])
      else (t.stream i, []))
    (fun i => if (s.stream i).working then
        ((s.stream i).halt .line, [([Chain.stream i], Record.streamHalted i s.line.frame .line)])
      else (s.stream i, [])) (by
      intro t i h1 h2
      have : t.stream i = s.stream i := by rw [h1, hstr]
      simp only [this])
  generalize hb : s1.eachStream (fun t i => if (t.stream i).working then
        ((t.stream i).halt .line, [([Chain.stream i], Record.streamHalted i s.line.frame .line)])
      else (t.stream i, [])) = b at b1 b2 b3 b4 hu
  have hlen := b4 (fun i => by rw [hstr]; exact Nat.le_of_eq (hspec i).2.1)
  have hbmap : b.1.map = s.map := by rw [b3]; exact hmap
  have hbcq : b.1.cq = s.cq := by rw [b3]; exact hcq
  have hbline : b.1.line = s1.line := by rw [b3]
  have hswap := b.1.swapIfPending_spec s.line.frame
  generalize ha : b.1.swapIfPending s.line.frame = a at hswap hu
  have hacq : a.1.cq = s.cq := by rw [hswap.1]; exact hbcq
  have hamap : a.1.map = (if s.map.swapPending
      then { s.map with active := s.map.active.other, swapPending := false } else s.map) := by
    rw [hswap.1, hbmap]
  have haline : a.1.line = s1.line := by rw [hswap.1]; exact hbline
  have hastr : ∀ i, a.1.stream i = b.1.stream i := fun i => State.stream_congr (by rw [hswap.1]) i
  have hafree : a.1.free = b.1.free := by rw [hswap.1]
  have haq : a.1.queued = b.1.queued := State.queued_congr (by rw [hswap.1])
  obtain ⟨raised, r1, r2, r3, r4⟩ := a.1.raiseBatch_spec (b.2 ++ a.2)
  rw [hu] at r1 r4
  have huline : u.line = a.1.line := by rw [r4]
  have humap : u.map = a.1.map := by rw [r4]
  have hustr : ∀ i, u.stream i = a.1.stream i := fun i => State.stream_congr (by rw [r4]) i
  have hufree : u.free = a.1.free := by rw [r4]
  have huq : u.queued = a.1.queued := State.queued_congr (by rw [r4])
  refine ⟨raised, ?_, ?_, ?_, ?_, ?_, ?_⟩
  · rw [huline, haline, hline]
  · intro i; rw [hustr, hastr, b1]; exact (hspec i).1
  · rw [humap, hamap]
  · refine r2.trans ?_
    rw [List.map_append, b2, hswap.2, hbmap, List.map_flatMap]
    rw [s.lineHalt_records s.line.frame allStreams]
  · rw [r1, hacq]
  · rw [hufree, huq, hafree, haq, hlen, hfree, hqd]

/-! ### The loss of alignment (R11) -/

/-- Step 1 of R11 for one stream, with the chain its records keep in its group (R143). -/
theorem StreamCtx.stopAtLoss_spec (c : StreamCtx) (i : StreamId) (frame : BitVec 16) (inFlight : Bool) :
    let r := c.stopAtLoss i frame inFlight
    (if c.state = .stopping then c.Stopped i frame inFlight r.1 (r.2.map Prod.snd)
      else r.1 = c ∧ r.2.map Prod.snd = [])
    ∧ r.1.cfg = c.cfg ∧ r.1.queue.length ≤ c.queue.length
    ∧ (∀ x ∈ r.2, x.1.contains (Chain.stream i) = true)
    ∧ ∀ g, c.group? = some g → ∀ x ∈ r.2, x.1.contains (Chain.groupStop g) = true := by
  by_cases hs : c.state = .stopping
  · have h := c.stopNow_spec i frame inFlight
    have hcfg : (c.stopNow i frame inFlight).1.cfg = c.cfg := by
      simp only [StreamCtx.stopNow, StreamCtx.stopTx, StreamCtx.stopRx]
      repeat' split
      all_goals rfl
    have hq : (c.stopNow i frame inFlight).1.queue.length ≤ c.queue.length := by
      by_cases hf : c.stopFlushes inFlight
      · rw [(h.1 hf).1]; simp
      · rw [(h.2 hf).1]; simp [StreamCtx.swept]
    simp only [StreamCtx.stopAtLoss, hs, if_true, List.map_map, Function.comp_def, List.map_id']
    refine ⟨h, hcfg, hq, ?_, ?_⟩
    · intro x hx
      obtain ⟨y, -, rfl⟩ := List.mem_map.1 hx
      simp only [StreamCtx.chains]; split <;> simp
    · intro g hg x hx
      obtain ⟨y, -, rfl⟩ := List.mem_map.1 hx
      simp [StreamCtx.chains, hg]
  · simp [StreamCtx.stopAtLoss, hs]

/-- One halt at the loss of alignment, or none. -/
theorem StreamCtx.haltAtLoss_spec (c : StreamCtx) (i : StreamId) (frame : BitVec 16) (h : HaltCause) (b : Bool) :
    let r : StreamCtx × List Raised := if b then c.haltRaised i frame h else (c, [])
    r.1 = (if b then { c with state := .halted h } else c)
    ∧ r.2.map Prod.snd = (if b then [.streamHalted i frame h] else [])
    ∧ (∀ x ∈ r.2, x.1.contains (Chain.stream i) = true)
    ∧ ∀ g, c.group? = some g → ∀ x ∈ r.2, x.1.contains (Chain.groupHalt g) = true := by
  cases b
  · simp
  · simp only [if_true, StreamCtx.haltRaised, StreamCtx.halt, List.map_cons, List.map_nil, List.mem_singleton,
      forall_eq, true_and]
    refine ⟨?_, fun g hg => ?_⟩
    · simp only [StreamCtx.chains]; split <;> simp
    · simp [StreamCtx.chains, hg]

/-- The test of R11 step 2 is its condition. -/
theorem StreamCtx.haltsOnLoss_iff (c : StreamCtx) : c.haltsOnLoss = true ↔ c.alignHalts := by
  simp only [StreamCtx.haltsOnLoss, StreamCtx.alignHalts]
  cases hc : c.cfg with
  | none => simp
  | some cfg => cases hs : c.state <;> simp

/-- The members of a group are the streams configured in it. -/
theorem mem_members (s : State) (g : GroupId) (i : StreamId) : i ∈ s.members g ↔ (s.stream i).group? = some g := by
  simp [State.members, mem_allStreams]

/-- The loss of alignment in its three stages: the stops `st`, the ALIGN halts `al`, the GROUP halts `ca`. -/
theorem State.loseAlignment_stages (s : State) :
    ∃ (st al ca : StreamId → StreamCtx × List Raised) (swap : List Raised) (raised : List Record),
      (∀ i, st i = (s.stream i).stopAtLoss i s.line.frame (s.headInFlight i))
      ∧ (∀ i, al i = if (s.stream i).haltsOnLoss then (st i).1.haltRaised i s.line.frame .align else ((st i).1, []))
      ∧ (∀ i, ca i = if (al i).1.working = true
            ∧ (al i).1.group?.any (fun g => (s.members g).any fun j => (s.stream j).haltsOnLoss) = true
          then (al i).1.haltRaised i s.line.frame .group else ((al i).1, []))
      ∧ swap.map Prod.snd = (if s.map.swapPending then [.mapSwapped s.line.frame s.map.active.other] else [])
      ∧ raised.Perm (([([Chain.linePort], Record.alignLost s.line.frame)] ++ allStreams.flatMap (fun i => (st i).2)
          ++ allStreams.flatMap (fun i => (al i).2) ++ allStreams.flatMap (fun i => (ca i).2) ++ swap).map Prod.snd)
      ∧ (∀ k : Chain, ((([([Chain.linePort], Record.alignLost s.line.frame)] ++ allStreams.flatMap (fun i => (st i).2)
          ++ allStreams.flatMap (fun i => (al i).2) ++ allStreams.flatMap (fun i => (ca i).2) ++ swap).filter
            fun r => r.1.contains k).map Prod.snd).Sublist raised)
      ∧ (∀ i, s.loseAlignment.stream i = (ca i).1)
      ∧ s.loseAlignment.cq = s.cq.raiseAll raised
      ∧ s.loseAlignment.free + s.loseAlignment.queued = s.free + s.queued
      ∧ s.loseAlignment = { s with
          line := { s.line with
            state := .hunt, miss := 0, bitPos := 0, nextSlot := 0, txStream := none, txBits := [], rxBits := [] }
          map := if s.map.swapPending then { s.map with active := s.map.active.other, swapPending := false } else s.map
          streams := s.loseAlignment.streams, free := s.loseAlignment.free
          cq := s.loseAlignment.cq, freeIdx := s.loseAlignment.freeIdx } := by
  generalize hu : s.loseAlignment = u
  simp only [State.loseAlignment] at hu
  generalize hframe : s.line.frame = frame at hu ⊢
  obtain ⟨s1, hs1⟩ : ∃ s1 : State, s1 = { s with line := { s.line.newFrame with state := .hunt, miss := 0 } } :=
    ⟨_, rfl⟩
  rw [← hs1] at hu
  have hstr : ∀ i, s1.stream i = s.stream i := fun i => State.stream_congr (by rw [hs1]) i
  have hmov : s1.mover = s.mover := by rw [hs1]
  have hqd : s1.queued = s.queued := State.queued_congr (by rw [hs1])
  have hfree : s1.free = s.free := by rw [hs1]
  -- step 1
  obtain ⟨st, hst⟩ : ∃ st : StreamId → StreamCtx × List Raised,
    ∀ i, st i = (s.stream i).stopAtLoss i frame (s.headInFlight i) := ⟨_, fun _ => rfl⟩
  obtain ⟨b1, b2, b3, b4⟩ := s1.eachStream_spec
    (fun t i => (t.stream i).stopAtLoss i frame (t.headInFlight i)) st (by
      intro t i h1 h2
      have h3 : t.stream i = s.stream i := by rw [h1, hstr]
      have h4 : t.headInFlight i = s.headInFlight i := by
        simp only [State.headInFlight, State.servesHead, h3, h2, hmov]
      simp only [h3, h4, hst])
  generalize s1.eachStream (fun t i => (t.stream i).stopAtLoss i frame (t.headInFlight i)) = b
    at b1 b2 b3 b4 hu
  have b5 := b4 fun i => by rw [hstr, hst]; exact ((s.stream i).stopAtLoss_spec i frame (s.headInFlight i)).2.2.1
  -- step 2, cause ALIGN
  obtain ⟨al, hal⟩ : ∃ al : StreamId → StreamCtx × List Raised,
    ∀ i, al i = if (s.stream i).haltsOnLoss then (st i).1.haltRaised i frame .align else ((st i).1, []) :=
    ⟨_, fun _ => rfl⟩
  obtain ⟨c1, c2, c3, c4⟩ := b.1.eachStream_spec
    (fun t i => if (s.stream i).haltsOnLoss then (t.stream i).haltRaised i frame .align else (t.stream i, [])) al (by
      intro t i h1 _
      simp only [h1, b1, hal])
  generalize b.1.eachStream (fun t i => if (s.stream i).haltsOnLoss
    then (t.stream i).haltRaised i frame .align else (t.stream i, [])) = c at c1 c2 c3 c4 hu
  have c5 := c4 fun i => by
    rw [b1, hal]
    split <;> exact Nat.le_refl _
  -- step 2, cause GROUP
  obtain ⟨ca, hca⟩ : ∃ ca : StreamId → StreamCtx × List Raised,
    ∀ i, ca i = if (al i).1.working = true
        ∧ (al i).1.group?.any (fun g => (s.members g).any fun j => (s.stream j).haltsOnLoss) = true
      then (al i).1.haltRaised i frame .group else ((al i).1, []) := ⟨_, fun _ => rfl⟩
  obtain ⟨d1, d2, d3, d4⟩ := c.1.eachStream_spec
    (fun t i => if (t.stream i).working = true ∧ (t.stream i).group?.any
        (fun g => (s.members g).any fun j => (s.stream j).haltsOnLoss) = true then
      (t.stream i).haltRaised i frame .group else (t.stream i, [])) ca (by
      intro t i h1 _
      simp only [h1, c1, hca])
  generalize c.1.eachStream (fun t i => if (t.stream i).working = true ∧ (t.stream i).group?.any
      (fun g => (s.members g).any fun j => (s.stream j).haltsOnLoss) = true
    then (t.stream i).haltRaised i frame .group else (t.stream i, [])) = e at d1 d2 d3 d4 hu
  have d5 := d4 fun i => by
    rw [c1, hca]
    split <;> exact Nat.le_refl _
  have hsw := e.1.swapIfPending_spec frame
  have he : e.1 = { s1 with streams := e.1.streams, free := e.1.free } := by
    rw [b3] at c3; rw [c3] at d3; exact d3
  have hemap : e.1.map = s.map := by rw [he, hs1]
  rw [hemap] at hsw
  generalize e.1.swapIfPending frame = f at hsw hu
  obtain ⟨raised, r1, r2, r3, r4⟩ := f.1.raiseBatch_spec
    ([([Chain.linePort], Record.alignLost frame)] ++ b.2 ++ c.2 ++ e.2 ++ f.2)
  rw [hu] at r1 r4
  rw [b2, c2, d2] at r2 r3
  have hstreams : u.streams = e.1.streams := by rw [r4]; show f.1.streams = _; rw [hsw.1]
  have hufree : u.free = e.1.free := by rw [r4]; show f.1.free = _; rw [hsw.1]
  refine ⟨st, al, ca, f.2, raised, hst, hal, hca, hsw.2, r2, r3, ?_, ?_, ?_, ?_⟩
  · intro i
    rw [State.stream_congr hstreams, d1]
  · rw [r1, hsw.1]
    show e.1.cq.raiseAll raised = _
    rw [he, hs1]
  · rw [State.queued_congr hstreams, hufree, d5, c5, b5, hqd, hfree]
  · rw [r4]
    simp only [hsw.1]
    rw [he, hs1]
    rfl


/-- Two batches in a list, in their order, kept in any order that keeps their chain. -/
theorem two_records_sublist (batch a b : List Raised) (raised : List Record) (k : Chain)
    (hab : (a ++ b).Sublist batch) (hk : ∀ r ∈ a ++ b, r.1.contains k = true)
    (h : ((batch.filter fun r => r.1.contains k).map Prod.snd).Sublist raised) :
    (a.map Prod.snd ++ b.map Prod.snd).Sublist raised := by
  rw [← List.map_append, ← List.filter_eq_self.2 hk]
  exact ((hab.filter _).map _).trans h

/-- Fewer streams give fewer records, in their order. -/
theorem flatMap_sublist_flatMap (g : StreamId → List Raised) {l l' : List StreamId} (h : l.Sublist l') :
    (l.flatMap g).Sublist (l'.flatMap g) := (h.map g).flatten

/-- The records of the halts at the loss, one stream: first the ALIGN halt, then the GROUP halt, never both. -/
theorem filter_haltedBy (frame : BitVec 16) (i : StreamId) (a g : Bool) (h : a = true → g = false) :
    let r : List Record := (if a then [.streamHalted i frame .align] else [])
      ++ if g then [.streamHalted i frame .group] else []
    (r.filter fun x => x.haltedBy .align) = (if a then [.streamHalted i frame .align] else [])
    ∧ (r.filter fun x => x.haltedBy .group) = if g then [.streamHalted i frame .group] else [] := by
  cases a <;> cases g <;> simp_all [Record.haltedBy]

/-- Everything the loss of alignment does (R10, R11, R146, R147). -/
theorem State.loseAlignment_spec (s : State) :
    ∃ (stops halts : StreamId → List Record) (raised : List Record),
      (∀ i, s.Lost i (s.loseAlignment.stream i) (stops i) (halts i))
      ∧ s.LossRaised stops halts raised
      ∧ s.loseAlignment.cq = s.cq.raiseAll raised
      ∧ s.loseAlignment.free + s.loseAlignment.queued = s.free + s.queued
      ∧ s.loseAlignment = { s with
          line := { s.line with
            state := .hunt, miss := 0, bitPos := 0, nextSlot := 0, txStream := none, txBits := [], rxBits := [] }
          map := if s.map.swapPending then { s.map with active := s.map.active.other, swapPending := false } else s.map
          streams := s.loseAlignment.streams, free := s.loseAlignment.free
          cq := s.loseAlignment.cq, freeIdx := s.loseAlignment.freeIdx } := by
  obtain ⟨st, al, ca, swap, raised, hst, hal, hca, hswap, hperm, hsub, hstr, hcq, hfree, hframe⟩ :=
    s.loseAlignment_stages
  have kst := fun i => (s.stream i).stopAtLoss_spec i s.line.frame (s.headInFlight i)
  have kal := fun i => (st i).1.haltAtLoss_spec i s.line.frame .align (s.stream i).haltsOnLoss
  simp only [← hst, ← hal] at kst kal
  obtain ⟨go, hgo⟩ : ∃ go : StreamId → Bool, ∀ i, go i = ((al i).1.working
      && (al i).1.group?.any fun g => (s.members g).any fun j => (s.stream j).haltsOnLoss) := ⟨_, fun _ => rfl⟩
  have hca' : ∀ i, ca i = if go i then (al i).1.haltRaised i s.line.frame .group else ((al i).1, []) := by
    intro i; simp only [hca, hgo, Bool.and_eq_true]
  have kca := fun i => (al i).1.haltAtLoss_spec i s.line.frame .group (go i)
  simp only [← hca'] at kca
  have hgrp1 : ∀ i, (st i).1.group? = (s.stream i).group? := fun i => StreamCtx.group?_congr (kst i).2.1
  have hgrp2 : ∀ i, (al i).1.group? = (s.stream i).group? := by
    intro i
    rw [(kal i).1]
    split
    · exact (StreamCtx.group?_congr rfl).trans (hgrp1 i)
    · exact hgrp1 i
  have hhit : ∀ i, (al i).1.group?.any (fun g => (s.members g).any fun j => (s.stream j).haltsOnLoss) = true
      ↔ s.groupHit i := by
    intro i
    rw [hgrp2]
    simp only [State.groupHit, Option.any_eq_true, List.any_eq_true, mem_members, StreamCtx.haltsOnLoss_iff]
  have hexcl : ∀ i, (s.stream i).haltsOnLoss = true → go i = false := by
    intro i h
    rw [hgo, (kal i).1, h]; simp [StreamCtx.working]
  have hrec : ∀ i, (al i).2.map Prod.snd ++ (ca i).2.map Prod.snd
      = (if (s.stream i).haltsOnLoss then [Record.streamHalted i s.line.frame .align] else [])
        ++ if go i then [Record.streamHalted i s.line.frame .group] else [] := by
    intro i; rw [(kal i).2.1, (kca i).2.1]
  refine ⟨fun i => (st i).2.map Prod.snd, fun i => (al i).2.map Prod.snd ++ (ca i).2.map Prod.snd, raised,
    ?_, ⟨?_, ?_, ?_⟩, hcq, hfree, hframe⟩
  · intro i
    simp only [hrec, hstr, (kca i).1, (kal i).1]
    refine ⟨(st i).1, (kst i).1, ?_, ?_, ?_⟩
    · intro h
      have h1 := (StreamCtx.haltsOnLoss_iff _).2 h
      simp [h1, hexcl i h1]
    · intro h hg hw
      have h1 : (s.stream i).haltsOnLoss = false :=
        Bool.eq_false_iff.2 fun k => h ((StreamCtx.haltsOnLoss_iff _).1 k)
      have h2 : go i = true := by
        rw [hgo, (hhit i).2 hg, (kal i).1, h1]; simpa using hw
      simp [h1, h2]
    · intro h hg
      have h1 : (s.stream i).haltsOnLoss = false :=
        Bool.eq_false_iff.2 fun k => h ((StreamCtx.haltsOnLoss_iff _).1 k)
      have h2 : go i = false := by
        rw [hgo, Bool.and_eq_false_iff]
        rcases hg with hg | hg
        · exact Or.inr (Bool.eq_false_iff.2 fun k => hg ((hhit i).1 k))
        · left; rw [(kal i).1, h1]; simpa using hg
      simp [h1, h2]
  · refine hperm.trans ?_
    simp only [List.map_append, List.map_cons, List.map_nil, hswap, List.map_flatMap, List.append_assoc]
    refine List.Perm.append_left _ (List.Perm.append_left _ ?_)
    rw [← List.append_assoc]
    exact (List.flatMap_append_perm _ _ _).append_right _
  · intro i
    have hi : [i].Sublist allStreams := List.singleton_sublist.2 (mem_allStreams i)
    have hone : ∀ g : StreamId → StreamCtx × List Raised, (g i).2.Sublist (allStreams.flatMap fun j => (g j).2) :=
      fun g => by simpa using flatMap_sublist_flatMap (fun j => (g j).2) hi
    have h := two_records_sublist _ (st i).2 ((al i).2 ++ (ca i).2) raised (.stream i) ?_ ?_ (hsub _)
    · simpa only [List.map_append] using h
    · rw [← List.append_assoc]
      exact (((((hone st).trans (List.sublist_append_right _ _)).append (hone al)).append (hone ca)).trans
        (List.sublist_append_left _ _))
    · intro r hr
      simp only [List.mem_append] at hr
      rcases hr with hr | hr | hr
      · exact (kst i).2.2.2.1 r hr
      · exact (kal i).2.2.1 r hr
      · exact (kca i).2.2.1 r hr
  · intro g
    have hm : (s.members g).Sublist allStreams := List.filter_sublist
    have hg := fun i (hi : i ∈ s.members g) => (mem_members s g i).1 hi
    have hall := fun f : StreamId → StreamCtx × List Raised =>
      flatMap_sublist_flatMap (fun j => (f j).2) hm
    refine ⟨?_, ?_⟩
    · have h := two_records_sublist _ ((s.members g).flatMap fun i => (st i).2) [] raised (.groupStop g) ?_ ?_
        (hsub _)
      · simpa only [List.map_nil, List.append_nil, List.map_flatMap] using h
      · rw [List.append_nil]
        exact ((hall st).trans (List.sublist_append_right _ _)).trans
          (((List.sublist_append_left _ _).trans (List.sublist_append_left _ _)).trans (List.sublist_append_left _ _))
      · intro r hr
        rw [List.append_nil] at hr
        obtain ⟨i, hi, hr⟩ := List.mem_flatMap.1 hr
        exact (kst i).2.2.2.2 g (hg i hi) r hr
    · have hf := fun i => filter_haltedBy s.line.frame i (s.stream i).haltsOnLoss (go i) (hexcl i)
      have h := two_records_sublist _ ((s.members g).flatMap fun i => (al i).2)
        ((s.members g).flatMap fun i => (ca i).2) raised (.groupHalt g) ?_ ?_ (hsub _)
      · simp only [List.filter_flatMap, hrec, (hf _).1, (hf _).2]
        simpa only [List.map_flatMap, (kal _).2.1, (kca _).2.1] using h
      · exact (((hall al).trans (List.sublist_append_right _ _)).append (hall ca)).trans
          (List.sublist_append_left _ _)
      · intro r hr
        rcases List.mem_append.1 hr with hr | hr
        · obtain ⟨i, hi, hr⟩ := List.mem_flatMap.1 hr
          exact (kal i).2.2.2 g ((hgrp1 i).trans (hg i hi)) r hr
        · obtain ⟨i, hi, hr⟩ := List.mem_flatMap.1 hr
          exact (kca i).2.2.2 g ((hgrp2 i).trans (hg i hi)) r hr

end Sys2Proof.Machine
end

