-- ==== Sys2Proof/WellFormed.lean ====
section
/-! DEFINITION. Which commands and events can be given at all: the ranges of the operands the types leave wide. -/

namespace Sys2Proof

/-- A slot number is one of 0..31 (chapter 2). A frame has at most 32·32 bit periods (section 1.1), so a line
waits for a sync at bit period 1024 at the latest (R7, R8). Every other operand is kept in range by its type. -/
def Instr.wellFormed : Instr → Bool
  | .transmitSlot slot => decide (slot < 32)
  | .receiveSlot slot _ => decide (slot < 32)
  | .syncArrival bit => decide (bit ≤ 1024)
  | .configure _ | .deconfigure _ | .post _ | .start _ | .stop _ | .abort _ | .clear _
  | .gstart _ | .gstop _ | .gabort _ | .mapswap _ | .mapcopy _ | .cqpop _ | .cqflush _
  | .lineSet _ | .lineUp _ | .lineDown _ | .unknownOpcode _ _ | .mapDataWrite _ | .statusWrite _
  | .readOnlyWrite _ _ | .intCtrlWrite _ | .controlWordWrite _ _ | .samplesServedLowRead
  | .registerWrite _ _ | .pinReset | .resetRelease | .trialTimeout | .missedSync | .frameEnd
  | .busGrant | .busGrantLow | .busGrantWithdrawn | .busYield _ | .wordTransferComplete _
  | .busFault | .holdoffExpiry | .fsyncLowSample => true

end Sys2Proof
end

