-- ==== Sys2Proof/Tests/Slice0.lean ====
section
/-! SUPPORT. The model's own tests: ill-formed terms, one step of each command and event on small states taken from the worked examples, and for every statement a state that meets its hypotheses. -/

set_option Elab.async false

namespace Sys2Proof.Machine.Check

/-! ### Small states -/

/-- The next state of a command, or the state itself where there is none. -/
def after (c : Instr) (s : State) : State :=
  match exec c s with
  | .next t => t
  | .fault _ | .refused _ => s

/-- The result code and the detail a command leaves. -/
def answer (c : Instr) (s : State) : ResultCode × Nat :=
  ((after c s).win.resultCode, (after c s).win.detail.toNat)

/-- The six staging words written. -/
def staged (w0 w1 w2 w3 w4 w5 : Word) (s : State) : State :=
  { s with win := { s.win with stage := #v[w0, w1, w2, w3, w4, w5] } }

/-- W = 16, WORD, REPEAT, watermark 4 (stream 0 of section 11.1). -/
def txCfg : StreamConfig :=
  { direction := .tx, width := 16, packing := .word, extension := .none, underrun := .repeat, fill := 0
    overrun := .none, watermark := 4, haltOnLoss := false, group := none }

/-- W = 16, WORD, extension ZERO, DROP, watermark 4 (stream 1 of section 11.1). -/
def rxCfg : StreamConfig :=
  { direction := .rx, width := 16, packing := .word, extension := .zero, underrun := .none, fill := 0
    overrun := .drop, watermark := 4, haltOnLoss := false, group := none }

/-- A buffer at 2000H with NOTIFY and tag 1. -/
def buffer (posting length : Nat) : Descriptor :=
  { address := 0x2000, length := length, endFlag := false, notify := true, tag := 1, posting := posting }

/-- A transmit stream with two samples and a buffer of 16 half done. -/
def txStream : StreamCtx :=
  { StreamCtx.reset with
    cfg := some txCfg, state := .running, fifo := [0x1234, 0x5678], samplesDone := 8, wordsDone := 8
    lastSample := some 0x0F0F, postedTotal := 1, queue := [buffer 0 16] }

/-- A receive stream with one sample and a buffer of 16. -/
def rxStream : StreamCtx :=
  { StreamCtx.reset with
    cfg := some rxCfg, state := .running, fifo := [0x0AAA], postedTotal := 1, queue := [buffer 1 16] }

/-- A follower line in frame 5: stream 0 transmits in slot 0, stream 1 receives in slot 1, both RUNNING. -/
def playing : State :=
  { State.reset with
    line := { LinePort.reset with
      state := .aligned, frame := 5, frameWidths := (LinePort.reset.frameWidths.set 0 (some 16)).set 1 (some 16) }
    map := { SlotMap.reset with
      bank0 := (SlotMap.reset.bank0.set 0 (some (0, .tx))).set 1 (some (1, .rx)) }
    streams := (State.reset.streams.set 0 txStream).set 1 rxStream
    free := 62, nextPosting := 2 }

/-- `playing` with stream 0 or another context in stream 0's place. -/
def with0 (c : StreamCtx) : State := playing.withStream 0 c

/-- `playing` with another context in stream 1's place. -/
def with1 (c : StreamCtx) : State := playing.withStream 1 c

/-- A tenure on `s` with a word of this direction in flight for a stream and posting. -/
def held (s : State) (i : StreamId) (d : Direction) (posting uncounted : Nat) : State :=
  { s with mover := { s.mover with
      bus := .holding, wordCount := 0, limit := some 8, bgnt := true, pointer := i
      move := some { stream := i, dir := d, posting := posting, nextAddr := 0x2012, wordsLeft := 7 }
      inFlight := some { addr := 0x2010, dir := d, word := 0xBEEF, timer := 16, uncounted := uncounted } } }

/-- Group 1 of section 11.4: streams 2, 4 and 10 HALTED with 1, 2 and 3 descriptors, stream 7 OFF. -/
def faulted : State :=
  let m := fun c (n : Nat) => { StreamCtx.reset with
    cfg := some { txCfg with group := some 1 }, state := .halted c, queue := (List.range n).map fun k => buffer k 8 }
  { State.reset with
    line := { LinePort.reset with state := .aligned, frame := 3050 }
    streams := (((State.reset.streams.set 2 { m .group 1 with fifo := [1, 2, 3] }).set 4
      { m .group 2 with fifo := [1, 2, 3, 4, 5] }).set 10 { m .busFault 3 with fifo := [1, 2, 3, 4, 5, 6] }).set 7
      { StreamCtx.reset with cfg := some { rxCfg with group := some 1 } }
    free := 58 }

/-- A record. -/
def someRecord : Record := .bufferDone 9 2041 21 .ok 10

/-- A completion queue of `n` records. -/
def queueOf (n : Nat) : CompletionQueue :=
  { CompletionQueue.reset with records := List.replicate n someRecord, timer := .counting 1 }

/-! ### Ill-formed terms, which the check refuses -/

theorem test_illformed_transmit_slot : (Instr.transmitSlot 32).wellFormed = false := by decide
theorem test_illformed_receive_slot : (Instr.receiveSlot 32 0).wellFormed = false := by decide
theorem test_illformed_sync_arrival : (Instr.syncArrival 1025).wellFormed = false := by decide
theorem test_wellformed_ends :
    (Instr.transmitSlot 31).wellFormed = true ∧ (Instr.receiveSlot 31 0).wellFormed = true
    ∧ (Instr.syncArrival 1024).wellFormed = true := by decide

/-! ### Stream commands -/

/-- The example of section 10.7: 0C01H, C410H. -/
theorem test_configure_example :
    ((after (.configure 9) (staged 0x0C01 0xC410 0 0 0 0 State.reset)).stream 9).cfg
      = some { direction := .rx, width := 12, packing := .packed, extension := .none, underrun := .none, fill := 0
               overrun := .drop, watermark := 4, haltOnLoss := true, group := none } := by decide +kernel

theorem test_configure_refusals :
    answer (.configure 0) playing = (.state, 1)
    ∧ answer (.configure 3) (staged 0x1100 0x0401 0 0 0 0 State.reset) = (.badParam, 2)
    ∧ answer (.configure 3) (staged 0x1000 0x4401 0 0 0 0
        { State.reset with map := { SlotMap.reset with swapPending := true } }) = (.busy, 0)
    ∧ answer (.configure 3) (staged 0x1000 0x4401 0 0 0 0 { State.reset with
        map := { SlotMap.reset with bank0 := SlotMap.reset.bank0.set 31 (some (3, .rx)) } }) = (.conflict, 31) := by
  decide +kernel

theorem test_deconfigure :
    answer (.deconfigure 0) playing = (.state, 1)
    ∧ (after (.deconfigure 0) (with0 { StreamCtx.reset with cfg := some txCfg })).stream 0 = StreamCtx.reset := by
  decide +kernel

/-- R39: last sample sent goes when a transmit stream is made unconfigured or a receive stream, and only then. -/
theorem test_last_sample_is_a_transmit_streams :
    let sent := { with0 { StreamCtx.reset with cfg := some txCfg, lastSample := some 0x0F0F } with
      map := SlotMap.reset }
    ((after (.deconfigure 0) sent).stream 0).lastSample = none
    ∧ ((after (.configure 0) (staged 0x0C01 0xC410 0 0 0 0 sent)).stream 0).lastSample = none
    ∧ ((after (.configure 0) (staged 0x1000 0x4401 0 0 0 0 sent)).stream 0).lastSample = some 0x0F0F := by
  decide +kernel

/-- The example of R89: FFFFF0H passes and FFFFF2H does not. -/
theorem test_post_address :
    let s := with0 { StreamCtx.reset with cfg := some { txCfg with width := 12, packing := .packed } }
    answer (.post 0) (staged 0xFFF0 0x00FF 10 0x4001 0 0 s) = (.ok, 1)
    ∧ answer (.post 0) (staged 0xFFF2 0x00FF 10 0x4001 0 0 s) = (.badAddress, 2)
    ∧ answer (.post 0) (staged 0xFFF1 0x00FF 10 0x4001 0 0 s) = (.badAddress, 1) := by decide +kernel

/-- Step 6 of section 11.2: a POST to a RUNNING stream. -/
theorem test_post_running :
    let t := after (.post 0) (staged 0x3000 0x0001 16 0x400A 0 0 playing)
    (t.win.detail, t.free, (t.stream 0).queue.length, (t.stream 0).postedTotal, t.nextPosting) = (2, 61, 2, 2, 3) := by
  decide +kernel

theorem test_start :
    let s := with0 { txStream with state := .off, fifo := [], samplesDone := 0, wordsDone := 0 }
    answer (.start 0) (staged 0 0 0 0 1 5 s) = (.late, 5)
    ∧ answer (.start 0) (staged 0 0 0 0 1 32773 s) = (.late, 5)
    ∧ ((after (.start 0) (staged 0 0 0 0 1 32772 s)).stream 0).state = .armed (.at 32772) false
    ∧ (after (.start 0) { s with mover := { s.mover with bus := .idle } }).mover.bus = .requesting := by
  decide +kernel

theorem test_stop :
    ((after (.stop 0) playing).stream 0).state = .stopping
    ∧ (after (.stop 0) { playing with line := { playing.line with state := .hunt } }).cq.records
      = [.bufferDone 0 5 1 .short 8, .streamStopped 0 5 .stop 2] := by decide +kernel

theorem test_abort :
    let t := after (.abort 0) playing
    t.cq.records = [.bufferDone 0 5 1 .aborted 0, .streamStopped 0 5 .abort 2]
    ∧ t.free = 63 ∧ (t.stream 0).lastSample = none ∧ (t.stream 0).state = .off := by decide +kernel

theorem test_clear :
    answer (.clear 0) playing = (.state, 0)
    ∧ (after (.clear 10) faulted).cq.records = List.replicate 3 (.bufferDone 10 3050 1 .aborted 0) := by
  decide +kernel

/-! ### Group commands -/

/-- Steps 3 and 4 of section 11.4 without the POST to stream 7. -/
theorem test_gstart_not_ready :
    let off := fun (s : State) (i : StreamId) => s.withStream i { s.stream i with state := .off, fifo := [] }
    answer (.gstart 1) (off (off (off faulted 2) 4) 10) = (.groupNotReady, 7) := by decide +kernel

theorem test_gstart :
    let s := with0 { txStream with
      cfg := some { txCfg with group := some 0 }, state := .off, fifo := [], samplesDone := 0, wordsDone := 0 }
    answer (.gstart 0) s = (.ok, 1) ∧ (after (.gstart 0) s).groups[0] = .start .next := by decide +kernel

theorem test_gstop :
    let s := with0 { txStream with cfg := some { txCfg with group := some 3 } }
    answer (.gstop 3) s = (.ok, 0) ∧ (after (.gstop 3) s).groups[3] = .stop
    ∧ answer (.gstop 1) faulted = (.state, 0) := by decide +kernel

/-- Step 2 of section 11.4. -/
theorem test_gabort :
    let t := after (.gabort 1) faulted
    answer (.gabort 1) faulted = (.ok, 3) ∧ t.free = 64
    ∧ t.cq.records = [.bufferDone 2 3050 1 .aborted 0, .streamStopped 2 3050 .abort 3]
      ++ List.replicate 2 (.bufferDone 4 3050 1 .aborted 0) ++ [.streamStopped 4 3050 .abort 5]
      ++ List.replicate 3 (.bufferDone 10 3050 1 .aborted 0) ++ [.streamStopped 10 3050 .abort 6] := by
  decide +kernel

/-! ### The slot map -/

/-- Step 4 of section 11.1. -/
theorem test_mapswap_down :
    let t := after (.mapswap 0) State.reset
    t.cq.records = [.mapSwapped 0 .b1] ∧ t.win.detail = 1 ∧ t.map.active = .b1 := by decide +kernel

/-- Steps 5 to 8 of section 2.7: entry 4 offends on both counts. -/
theorem test_mapswap_conflict :
    let s := with1 { rxStream with state := .off, queue := [] }
    let shadow := playing.map.bank0
    let at4 := fun e => { s with map := { s.map with bank1 := shadow.set 4 e } }
    answer (.mapswap 0) (at4 (some (1, .tx))) = (.conflict, 4)
    ∧ answer (.mapswap 0) (at4 none) = (.ok, 0) := by decide +kernel

theorem test_mapcopy : (after (.mapcopy 0) playing).map.bank1 = playing.map.bank0 := by decide +kernel

/-- R164: 8003H assigns stream 3 TX; the active bank is not written. -/
theorem test_map_data_write :
    let s := { playing with win := { playing.win with mapBank := .b1, mapEntry := 31 } }
    (after (.mapDataWrite 0xFE03) s).map.bank1[31] = some (3, .tx)
    ∧ (after (.mapDataWrite 0xFE03) s).readWord 8 = 0x8003
    ∧ (after (.mapDataWrite 0x8109) playing).win.accessErr = true := by decide +kernel

/-! ### The completion queue -/

theorem test_cqpop :
    answer (.cqpop 0) State.reset = (.empty, 0)
    ∧ (after (.cqpop 0) { State.reset with cq := queueOf 1 }).cq.timer = .stopped
    ∧ answer (.cqpop 0) { State.reset with cq := queueOf 31 } = (.ok, 30) := by decide +kernel

theorem test_cqflush :
    answer (.cqflush 0) { State.reset with cq := { queueOf 31 with overflow := some 65535 } } = (.ok, 32) := by
  decide +kernel

/-- The two examples under R170. -/
theorem test_head_words :
    someRecord.words = #v[0x1009, 0x07F9, 0x0000, 0x0015, 0x000A]
    ∧ (Record.busFault 12 4400 0x03A028).words = #v[0xB00C, 0x1130, 0x0000, 0x0003, 0xA028] := by decide +kernel

theorem test_raise_at_the_end :
    ((queueOf 31).raise someRecord).overflow = some 1
    ∧ (({ queueOf 31 with overflow := some 65535 } : CompletionQueue).raise someRecord).overflow = some 65535
    ∧ (CompletionQueue.raise { CompletionQueue.reset with holdoff := 5 } someRecord).timer = .counting 5
    ∧ (CompletionQueue.reset.raise someRecord).timer = .expired := by decide +kernel

theorem test_holdoff_expiry :
    (after .holdoffExpiry { State.reset with cq := queueOf 2 }).cq.timer = .expired := by decide +kernel

/-! ### The slot line -/

/-- Section 11.1: N = 8, S = 16 (code 2), FOLLOWER, F = 3, timebase divider 15; and the ends of the ranges. -/
theorem test_line_set :
    (after (.lineSet 0) (staged 0x0208 0x0303 0x000F 0 0 0 State.reset)).line.fmt = LineFormat.reset
    ∧ answer (.lineSet 0) (staged 0x2620 0x0F00 63 0 0 0 State.reset) = (.ok, 0)
    ∧ answer (.lineSet 0) (staged 0x0201 0x0303 0x000F 0 0 0 State.reset) = (.badParam, 0xFFFF)
    ∧ answer (.lineSet 0) (staged 0x0208 0x0303 0x000F 0 0 0 playing) = (.lineUpErr, 0) := by decide +kernel

/-- R1: a configured stream wider than the new S, named by its number. -/
theorem test_line_set_width :
    answer (.lineSet 0) (staged 0x0108 0x0303 0x000F 0 0 0
      { playing with line := LinePort.reset }) = (.badParam, 0) := by decide +kernel

theorem test_line_up :
    (after (.lineUp 0) State.reset).line.state = .hunt
    ∧ (let s := { State.reset with
          line := { LinePort.reset with fmt := { LineFormat.reset with mode := .master } } }
      ((after (.lineUp 0) s).line.state, (after (.lineUp 0) s).line.frame) = (.aligned, 1)) := by decide +kernel

theorem test_line_down :
    let t := after (.lineDown 0) (with1 StreamCtx.reset)
    (t.stream 0).state = .halted .line ∧ t.cq.records = [.streamHalted 0 5 .line]
    ∧ t.line.state = .disabled := by decide +kernel

theorem test_unknown_opcode :
    answer (.unknownOpcode ⟨0x08, by decide⟩ 3) playing = (.badOp, 0)
    ∧ (after (.unknownOpcode ⟨0x08, by decide⟩ 3) playing).readWord 0x12 = 0x0803
    ∧ (after (.unknownOpcode ⟨0x08, by decide⟩ 3) playing).readWord 0x13 = 0x0801 := by decide +kernel

/-- A follower line with FSYNC low seen, in this state and bit position. -/
def synced (st : LineState) (bitPos : Nat) : State :=
  { playing with line := { playing.line with state := st, bitPos := bitPos, lowSeen := true } }

/-- R6 to R9: the start of a trial, its confirmation 128 bit periods later, a slip; a high sample alone is none. -/
theorem test_sync_arrival :
    (after (.syncArrival 0) (synced .hunt 0)).line.state = .confirm
    ∧ (after (.syncArrival 128) (synced .confirm 0)).cq.records = [.alignGained 6]
    ∧ (after (.syncArrival 127) (synced .aligned 0)).cq.records = [.frameSlip 6]
    ∧ after (.syncArrival 128) playing = playing := by decide +kernel

theorem test_fsync_low : (after .fsyncLowSample playing).line.lowSeen = true := by decide +kernel

theorem test_trial_timeout : (after .trialTimeout (synced .confirm 128)).line.state = .hunt := by decide +kernel

/-- F = 3: the third miss in a row loses alignment. -/
theorem test_missed_sync :
    let s := fun n : Nat => { playing with line := { playing.line with state := .flywheel, miss := n } }
    ((after .missedSync (s 1)).line.miss, (after .missedSync (s 1)).line.frame) = (2, 6)
    ∧ (after .missedSync (s 2)).line.state = .hunt
    ∧ (after .missedSync (s 2)).cq.records = [.alignLost 5] := by decide +kernel

/-- Step 7 of section 8.6 in small: the stream starts at its boundary. -/
theorem test_frame_end_starts :
    let s := with0 { txStream with state := .armed (.at 6) false }
    let t := after .frameEnd { s with line := { s.line with fmt := { s.line.fmt with mode := .master } } }
    (t.stream 0).state = .running ∧ t.cq.records = [.streamStarted 0 6] ∧ t.line.frame = 6 := by decide +kernel

/-! ### Slot events -/

theorem test_transmit_slot :
    let t := after (.transmitSlot 0) playing
    (t.stream 0).fifo = [0x5678] ∧ (t.stream 0).lastSample = some 0x1234
    ∧ t.line.txBits = bitsOf 16 0x1234 ∧ t.txdPin = some false := by decide +kernel

/-- R70, R71: an underrun under REPEAT. -/
theorem test_transmit_slot_underrun :
    let t := after (.transmitSlot 0) (with0 { txStream with fifo := [] })
    t.line.txBits = bitsOf 16 0x0F0F ∧ (t.stream 0).underrunSlots = 1 ∧ t.cq.records = [.underrun 0 5] := by
  decide +kernel

theorem test_receive_slot :
    ((after (.receiveSlot 1 0xC0DE) playing).stream 1).fifo = [0x0AAA, 0xC0DE] := by decide +kernel

theorem test_receive_slot_overrun :
    let t := after (.receiveSlot 1 0xC0DE) (with1 { rxStream with fifo := List.replicate 8 7 })
    (t.stream 1).fifo.length = 8 ∧ (t.stream 1).overrunSamples = 1 ∧ t.cq.records = [.overrun 1 5] := by
  decide +kernel

/-! ### The Memory Mover -/

/-- R120, R126: the grant drives the first word of the chosen stream. -/
theorem test_bus_grant :
    let t := after .busGrant { playing with mover := { Mover.reset with bus := .requesting } }
    t.mover.bus = .holding ∧ t.busAddress = some 0x2010 ∧ t.mover.pointer = 0
    ∧ t.mover.move = some { stream := 0, dir := .tx, posting := 0, nextAddr := 0x2012, wordsLeft := 7 } := by
  decide +kernel

theorem test_bus_grant_low :
    (after .busGrantLow playing).mover.bus = .requesting
    ∧ (after .busGrantLow State.reset).mover.bus = .idle := by decide +kernel

theorem test_bus_grant_withdrawn :
    (after .busGrantWithdrawn (held playing 0 .tx 0 0)).mover.yielded = true := by decide +kernel

theorem test_bus_yield :
    (after (.busYield true) (held playing 0 .tx 0 0)).mover.yielded = true
    ∧ (after (.busYield true) playing).mover = { playing.mover with byld := true } := by decide +kernel

/-- A word the host wrote is fetched, and one of a returned posting, which is discarded (R134). -/
theorem test_word_fetched :
    ((after (.wordTransferComplete (some 0x9ABC)) (held playing 0 .tx 0 0)).stream 0).fifo = [0x1234, 0x5678, 0x9ABC]
    ∧ ((after (.wordTransferComplete (some 0x9ABC)) (held playing 0 .tx 77 0)).stream 0).fifo = [0x1234, 0x5678] := by
  decide +kernel

theorem test_word_stored :
    let t := after (.wordTransferComplete none) (held playing 1 .rx 1 1)
    t.mem = [(0x2010, 0xBEEF)] ∧ (t.stream 1).wordsDone = 1 ∧ (t.stream 1).samplesDone = 1 := by decide +kernel

/-- R172: a word a receive stream stored is what a later fetch from its address finds. -/
theorem test_stored_word_is_fetched :
    let s := { held playing 0 .tx 0 0 with mem := (after (.wordTransferComplete none) (held playing 1 .rx 1 1)).mem }
    ((after (.wordTransferComplete none) s).stream 0).fifo = [0x1234, 0x5678, 0xBEEF]
    ∧ (after (.wordTransferComplete (some 7)) s).mem = [(0x2010, 7)] := by decide +kernel

/-- R132. -/
theorem test_bus_fault :
    let t := after .busFault (held playing 0 .tx 0 0)
    t.cq.records = [.busFault 0 5 0x2010, .streamHalted 0 5 .busFault] ∧ t.mover.bus = .waitLow := by
  decide +kernel

/-- The tables of chapter 6: four 12-bit samples fetched from three words, and stored in them. -/
theorem test_unpack_packed :
    let c := { txCfg with width := 12, packing := .packed }
    c.unpack [] 0 4 0x1234 = ([0x123], bitsOf 4 4)
    ∧ c.unpack (bitsOf 4 4) 1 3 0x5678 = ([0x456], bitsOf 8 0x78)
    ∧ c.unpack (bitsOf 8 0x78) 2 2 0x9ABC = ([0x789, 0xABC], []) := by decide +kernel

theorem test_pack_packed :
    let cfg := { rxCfg with width := 12, packing := .packed, extension := .none }
    let d := buffer 0 4
    let c0 := { rxStream with cfg := some cfg, fifo := [0x123, 0x456, 0x789, 0xABC], queue := [d] }
    let c1 := { c0 with fifo := [0x789, 0xABC], residual := bitsOf 8 0x56, samplesDone := 1 }
    c0.prepare cfg d = some (c1, 0x1234, 1)
    ∧ { c1 with samplesDone := 2, wordsDone := 1 }.prepare cfg d
      = some ({ c1 with fifo := [0xABC], residual := bitsOf 4 9, samplesDone := 2, wordsDone := 1 }, 0x5678, 1) := by
  decide +kernel

/-- Sign extension in PAIR packing: 80001H of 20 bits becomes FFF8H, 0001H. -/
theorem test_pair_sign :
    let cfg := { rxCfg with width := 20, packing := .pair, extension := .sign }
    natOf (cfg.sampleBits 0x80001) = 0xFFF80001 ∧ natOf (cfg.sampleBits 0x7FFFF) = 0x0007FFFF := by decide +kernel

/-! ### The register window and the RESET pin -/

theorem test_status_write :
    let s := { playing with win := { playing.win with accessErr := true } }
    (after (.statusWrite 0x8000) s).win.accessErr = false ∧ (after (.statusWrite 0x7FFF) s).win.accessErr = true := by
  decide +kernel

theorem test_read_only_write : (after (.readOnlyWrite .frame 1) playing).win.accessErr = true := by decide +kernel

theorem test_int_ctrl_write :
    (after (.intCtrlWrite 0xFFE0) playing).readWord 3 = 0x8020
    ∧ (after (.intCtrlWrite 0x8021) playing).win.accessErr = true := by decide +kernel

/-- Section 10.3: the control words read their pin-reset values. -/
theorem test_control_words_at_reset :
    ((after .pinReset playing).readWord 3, (after .pinReset playing).readWord 4) = (0x0001, 0x0000)
    ∧ ((after .pinReset playing).readWord 5, (after .pinReset playing).readWord 6) = (0x0008, 0x0010) := by
  decide +kernel

theorem test_control_word_write :
    (after (.controlWordWrite .busCtrl 0xFF01) playing).readWord 5 = 1
    ∧ (after (.controlWordWrite .readyTimeout 0xFF00) playing).win.accessErr = true
    ∧ (after (.controlWordWrite .holdoff 0) playing).win.accessErr = false := by decide +kernel

theorem test_samples_served_read :
    let s := { with0 { txStream with samplesServed := 0x12345678 } with
      win := { playing.win with fieldSel := 0x0A } }
    s.readWord 0x0B = 0x5678 ∧ (after .samplesServedLowRead s).win.captured = 0x1234 := by decide +kernel

theorem test_register_write :
    (after (.registerWrite .mapIndex 0xFFFF) playing).readWord 7 = 0x011F
    ∧ after (.registerWrite (.reserved 5) 0xFFFF) playing = playing := by decide +kernel

theorem test_pin_reset : after .pinReset playing = { State.reset with resetLow := true, nextPosting := 2 } := by
  decide +kernel

/-- R118: a BGNT already low when RESET is released is the first sample taken. -/
theorem test_reset_release :
    let low := { State.reset with resetLow := true }
    let high := { low with mover := { low.mover with bgnt := true } }
    (after .resetRelease low).mover.bus = .idle
    ∧ after .resetRelease high = { State.reset with mover := { State.reset.mover with bgnt := true } } := by
  decide +kernel

/-- R118: in WAIT_LOW a low BGNT is sampled in every period of REFCLK (log 25). -/
theorem test_time_samples_bgnt :
    State.reset.idle.mover.bus = .idle ∧ playing.sampleGrant.mover.bus = .requesting := by decide +kernel

/-- R171: no read is answered while RESET is low, and the outputs of the bus are released. -/
theorem test_reset_low_pins :
    (after .pinReset playing).slaveRead 2 = none ∧ playing.slaveRead 2 = some 5
    ∧ (held playing 0 .tx 0 0).wrPin = some true ∧ (held playing 0 .tx 0 0).rdPin = some false
    ∧ (held playing 0 .tx 0 0).upperAddress = some 0
    ∧ (after .pinReset (held playing 0 .tx 0 0)).wrPin = none := by decide +kernel

/-- R34, R45: a stream configured, or taken away, in a frame gets no slot, or keeps its slots, until the boundary. -/
theorem test_slots_change_at_the_boundary :
    let off := with1 StreamCtx.reset
    let s := { off with line := { off.line with frameWidths := LinePort.reset.frameWidths } }
    let t := after (.configure 1) (staged 0x5011 0x4410 0 0 0 0 s)
    t.win.resultCode = .ok ∧ t.slotOwner 1 .rx = none
    ∧ (after .missedSync t).slotOwner 1 .rx = some (1, 16)
    ∧ (let idle := with1 { StreamCtx.reset with cfg := some rxCfg }
      (after (.deconfigure 1) idle).slotOwner 1 .rx = some (1, 16)
      ∧ (after .missedSync (after (.deconfigure 1) idle)).slotOwner 1 .rx = none) := by decide +kernel

/-- Section 10.6: a word in front of the queue is read as a COMMAND word (log 29). -/
theorem test_command_word :
    decodeTableWord 16 0x0409 = some (.start 9) ∧ decodeTableWord 8 4 = none
    ∧ (State.reset.withFetchWord 16 0x4200).pending = [.lineDown 0] := by decide +kernel

/-- Section 10.1: which row a slave write is. -/
theorem test_writes_are_rows :
    Instr.ofWrite 0x12 0x0709 = .clear 9 ∧ Instr.ofWrite 0x12 0x4200 = .lineDown 0
    ∧ Instr.ofWrite 0x08 0x8109 = .mapDataWrite 0x8109 ∧ Instr.ofWrite 0x19 0 = .readOnlyWrite .cqHead4 0 := by
  decide +kernel

end Sys2Proof.Machine.Check
end

