-- ==== Sys2Proof/Tests/Witnesses.lean ====
section
/-! SUPPORT. For every statement that has hypotheses: concrete states and operands that meet them, for each clause, at the ends of its range. -/

set_option Elab.async false

namespace Sys2Proof.Machine.Check

/-! ### The step -/

theorem witness_EveryCommandCompletes : (after .pinReset playing).resetLow = true := by decide +kernel

/-- A tenure with the timer at `n` ticks and the timebase at `k` periods. -/
def ticking (n k : Nat) : State :=
  let s := held playing 0 .tx 0 0
  { s with
    line := { s.line with tbLeft := k }
    mover := { s.mover with inFlight := s.mover.inFlight.map fun w => { w with timer := n } } }

theorem witness_TimePassesOnAnEmptyQueue :
    ((after .pinReset playing).pending = [] ∧ (after .pinReset playing).resetLow = true)
    ∧ ((ticking 2 1).pending = [] ∧ (ticking 2 1).resetLow = false
      ∧ ∀ w, (ticking 2 1).mover.inFlight = some w → 1 < w.timer ∨ 1 < (ticking 2 1).line.tbLeft)
    ∧ ∀ w, (ticking 1 2).mover.inFlight = some w → 1 < w.timer ∨ 1 < (ticking 1 2).line.tbLeft := by
  refine ⟨by decide +kernel, ⟨by decide, by decide, ?_⟩, ?_⟩
  · intro w h; cases h; left; decide
  · intro w h; right; decide

/-- A line up in this mode, with `bit` periods of REFCLK left of the bit clock, in WAIT_LOW with BGNT low. -/
def clocked (m : LineMode) (bit : Nat) : State :=
  { playing with line := { playing.line with
      fmt := { LineFormat.reset with mode := m }, bitLeft := bit, bitPos := 1, nextSlot := 1
      txStream := some 0, txBits := [true, false] } }

/-- A bit period passes, one is held off by the slot that is due, one is still running; BGNT low is sampled. -/
theorem witness_TimePasses_bit_clock :
    ((clocked .master 1).line.state ≠ .disabled ∧ (clocked .master 1).line.fmt.mode ≠ .follower
      ∧ (clocked .master 1).line.bitLeft ≤ 1 ∧ (clocked .master 1).lineDue = false
      ∧ (clocked .master 1).idle.line.driven = [true] ∧ (clocked .master 1).idle.line.bitPos = 2)
    ∧ (playing.lineDue = true ∧ 1 < (clocked .loopback 2).line.bitLeft ∧ State.reset.line.state = .disabled)
    ∧ ((clocked .follower 1).line.fmt.mode = .follower ∧ (clocked .follower 1).lineDue = false)
    ∧ playing.mover.bus = .waitLow ∧ playing.mover.bgnt = false ∧ (clocked .master 1).idle.mover.bus = .requesting
    ∧ State.reset.idle.mover.bus = .idle := by decide +kernel

/-- `playing` with stream 0's sample being shifted. -/
def shifting (c : StreamCtx) : State :=
  { with0 c with line := { playing.line with txStream := some 0, txBits := bitsOf 16 0x1234 } }

/-- `playing` with an idle Mover and these pin levels. -/
def idling (bgnt byld : Bool) : State :=
  { playing with mover := { Mover.reset with bus := .idle, bgnt := bgnt, byld := byld } }

theorem witness_SettleFollowsAStreamChange :
    (∀ i, (shifting txStream).line.txStream = some i → ((shifting txStream).stream i).driving = true)
    ∧ ((shifting StreamCtx.reset).line.txStream = some 0
      ∧ ((shifting StreamCtx.reset).stream 0).driving = false)
    ∧ playing.mover.bus ≠ .idle ∧ (∀ i, State.reset.request i = none)
    ∧ ((idling false false).mover.bus = .idle ∧ (∃ i, (idling false false).request i ≠ none)
      ∧ (idling false false).mover.bgnt = false)
    ∧ ((idling true true).mover.bus = .idle ∧ (∃ i, (idling true true).request i ≠ none)
      ∧ (idling true true).mover.bgnt = true ∧ (idling true true).mover.byld = true)
    ∧ ((idling true false).mover.bus = .idle ∧ (∃ i, (idling true false).request i ≠ none)
      ∧ (idling true false).mover.bgnt = true ∧ (idling true false).mover.byld = false
      ∧ (idling true false).choice = some 0 ∧ (idling true false).settle.mover.bus = .holding) := by
  refine ⟨?_, by decide +kernel, by decide, by decide +kernel, ⟨rfl, ⟨0, ?_⟩, rfl⟩, ⟨rfl, ⟨0, ?_⟩, rfl, rfl⟩,
    rfl, ⟨0, ?_⟩, rfl, rfl, ?_, ?_⟩
  · intro i h; cases h; decide
  all_goals decide +kernel

/-! ### Stream commands -/

theorem witness_BadOpcodeOrNumberIsRefused :
    playing.resetLow = false ∧ 16 ≤ (16 : Byte).toNat ∧ 16 ≤ (255 : Byte).toNat ∧ 4 ≤ (4 : Byte).toNat
    ∧ (0x43 : Byte) ∉ definedOpcodes := by decide

/-- An RX configuration of stream 3 staged in an OFF stream, with entry 31 of the active bank this. -/
def configuring (e : Entry) (pending : Bool) : State :=
  staged 0x1000 0x4401 0 0 0 0 { State.reset with
    map := { SlotMap.reset with bank0 := SlotMap.reset.bank0.set 31 e, swapPending := pending } }

/-- Every clause of CONFIGURE is reached: STATE, BAD_PARAM, BUSY, CONFLICT at entry 31, OK. -/
theorem witness_ConfigureOutcome :
    (3 : Byte).toNat = (3 : StreamId).val
    ∧ answer (.configure 0) (with0 { StreamCtx.reset with queue := [buffer 0 1] }) = (.state, 1)
    ∧ answer (.configure 15) State.reset = (.badParam, 2)
    ∧ ((configuring none true).stream 3 = StreamCtx.reset ∧ answer (.configure 3) (configuring none true) = (.busy, 0))
    ∧ ((configuring (some (3, .rx)) false).map.activeBank[31] = some (3, .rx)
      ∧ (∀ j : Fin 32, j < 31 → (configuring (some (3, .rx)) false).map.activeBank[j] = none)
      ∧ answer (.configure 3) (configuring (some (3, .rx)) false) = (.conflict, 31))
    ∧ answer (.configure 3) (configuring (some (3, .tx)) false) = (.ok, 0) := by decide +kernel

/-- The boundary clauses of CONFIGURE and DECONFIGURE: the boundary after them is one, of a served line. -/
theorem witness_boundary_after_configure :
    let t := { (after (.configure 3) (configuring (some (3, .tx)) false)) with
      line := { LinePort.reset with state := .aligned, fmt := { LineFormat.reset with slots := 32 } } }
    BoundaryTo t (t.boundary fun _ => []) [] ∧ (t.boundary fun _ => []).line.served = true
    ∧ (31 : Fin 32).val < (t.boundary fun _ => []).line.fmt.slots
    ∧ (t.boundary fun _ => []).map.activeBank[(31 : Fin 32)] = some (3, .tx)
    ∧ (t.boundary fun _ => []).slotOwner 31 .tx = some (3, 16) := by
  intro t
  exact ⟨State.boundary_spec t fun _ => [], by decide +kernel, by decide +kernel, by decide +kernel, by decide +kernel⟩

/-- For each number the first failing field, the fields before it in order; then every field in order. -/
theorem witness_ConfigureChecksFieldsInOrder :
    StreamConfig.parse 32 0x0002 0 0 0 = .error 1
    ∧ StreamConfig.parse 32 0x0300 0 0 0 = .error 2 ∧ StreamConfig.parse 32 0x1900 0 0 0 = .error 2
    ∧ StreamConfig.parse 8 0x0900 0 0 0 = .error 2
    ∧ StreamConfig.parse 32 0xD000 0 0 0 = .error 3 ∧ StreamConfig.parse 32 0x5100 0 0 0 = .error 3
    ∧ StreamConfig.parse 32 0x5031 0 0 0 = .error 4 ∧ StreamConfig.parse 32 0x5010 0 0 0 = .error 4
    ∧ StreamConfig.parse 32 0x5000 0x0005 0 0 = .error 5 ∧ StreamConfig.parse 32 0x1001 0x0001 0 0 = .error 5
    ∧ StreamConfig.parse 32 0x1001 0x0030 0 0 = .error 6 ∧ StreamConfig.parse 32 0x5000 0x0011 0 0 = .error 6
    ∧ StreamConfig.parse 32 0x5000 0x0001 0 0 = .error 7 ∧ StreamConfig.parse 32 0x5000 0x0801 0 0 = .error 7
    ∧ StreamConfig.parse 32 0x5000 0x5701 0 0 = .error 8
    ∧ StreamConfig.parse 4 0x0400 0x4101 0 0
      = .ok { txCfg with width := 4, packing := .packed, watermark := 1 }
    ∧ StreamConfig.parse 24 0x98A1 0 0 0 = .error 6
    ∧ StreamConfig.parse 24 0x98A1 0xB720 0 0
      = .ok { rxCfg with width := 24, packing := .pair, extension := .sign, overrun := .halt, watermark := 7
                         haltOnLoss := true, group := some 3 } := by decide +kernel

theorem witness_DeconfigureOutcome :
    let idle := with0 { StreamCtx.reset with cfg := some txCfg }
    (0 : Byte).toNat = (0 : StreamId).val ∧ playing.resetLow = false ∧ (playing.stream 0).state ≠ .off
    ∧ (idle.stream 0).state = .off ∧ (idle.stream 0).queue = [] ∧ (State.reset.stream 15).cfg = none := by
  decide +kernel

/-- A stream with `n` queued buffers, the pool with `free` records, a staged length and address. -/
def posting (n free : Nat) (lo hi len : Word) : State :=
  { staged lo hi len 0x4001 0 0 (with0 { StreamCtx.reset with
      cfg := some txCfg, queue := (List.range n).map fun k => buffer k 16 }) with free := free }

/-- Every clause of POST is reached, at both ends of the length and at the last word of the space. -/
theorem witness_PostOutcome :
    answer (.post 15) State.reset = (.unconfigured, 0)
    ∧ answer (.post 0) (with0 { txStream with state := .stopping }) = (.state, 0)
    ∧ answer (.post 0) (with0 { txStream with queue := [{ buffer 0 16 with endFlag := true }] }) = (.state, 0)
    ∧ answer (.post 0) (posting 0 64 0 0 0) = (.badLength, 0)
    ∧ answer (.post 0) (posting 0 64 0 0 4097) = (.badLength, 0)
    ∧ answer (.post 0) (posting 0 64 1 0 4096) = (.badAddress, 1)
    ∧ answer (.post 0) (posting 0 64 0xFFFF 0xFF 2) = (.badAddress, 1)
    ∧ answer (.post 0) (posting 0 64 0xFFFE 0xFF 2) = (.badAddress, 2)
    ∧ answer (.post 0) (posting 0 64 0xFFFE 0xFF 1) = (.ok, 1)
    ∧ answer (.post 0) (posting 8 0 0 0 4096) = (.queueFull, 8)
    ∧ answer (.post 0) (posting 7 0 0 0 4096) = (.poolEmpty, 0)
    ∧ answer (.post 0) (posting 7 1 0 0 4096) = (.ok, 8) := by decide +kernel

/-- A receive stream whose one sample and none counted cover a last buffer of 1 drains at its POST (R59). -/
theorem witness_PostOutcome_covered :
    let s := staged 0x4000 0 1 0x8001 0 0 (with1 { rxStream with queue := [] })
    (s.stream 1).state = .running ∧ ((after (.post 1) s).stream 1).state = .draining .ended false := by
  decide +kernel

/-- A configured stream that is OFF with one buffer. -/
def loaded (group : Option GroupId) : StreamCtx :=
  { StreamCtx.reset with cfg := some { txCfg with group := group }, queue := [buffer 0 16] }

theorem witness_StartOutcome :
    answer (.start 3) playing = (.unconfigured, 0)
    ∧ answer (.start 0) (with0 (loaded (some 3))) = (.grouped, 3)
    ∧ answer (.start 0) playing = (.state, 0)
    ∧ answer (.start 0) (staged 0 0 0 0 2 0 (with0 (loaded none))) = (.badParam, 0)
    ∧ answer (.start 0) (with0 { loaded none with queue := [] }) = (.empty, 0)
    ∧ answer (.start 0) (staged 0 0 0 0 1 5 (with0 (loaded none))) = (.late, 5)
    ∧ answer (.start 0) (staged 0 0 0 0 1 6 (with0 (loaded none))) = (.ok, 0)
    ∧ answer (.start 0) (with0 (loaded none)) = (.ok, 0) := by decide +kernel

/-- STOP in every state, for a grouped stream, and on a line without boundaries, where a receive stream flushes. -/
theorem witness_StopOutcome :
    answer (.stop 0) (with0 { loaded (some 2) with state := .running }) = (.grouped, 2)
    ∧ answer (.stop 15) State.reset = (.state, 0)
    ∧ answer (.stop 0) (with0 { loaded none with state := .halted .line }) = (.state, 0)
    ∧ answer (.stop 0) (with0 { loaded none with state := .draining .ended false }) = (.state, 0)
    ∧ answer (.stop 0) (with0 { loaded none with state := .stopping }) = (.state, 0)
    ∧ answer (.stop 0) (with0 { loaded none with state := .armed .next true }) = (.ok, 1)
    ∧ playing.line.served = true ∧ answer (.stop 0) playing = (.ok, 0)
    ∧ (let s := { playing with line := { playing.line with state := .confirm } }
      s.line.served = false ∧ answer (.stop 1) s = (.ok, 1)
      ∧ ((after (.stop 1) s).stream 1).state = .draining .stop false) := by decide +kernel

theorem witness_AbortAndClearOutcome :
    (State.reset.stream 15).state = .off ∧ (playing.stream 0).state = .running
    ∧ (faulted.stream 10).state = .halted .busFault
    ∧ answer (.abort 0) (with0 (loaded none)) = (.ok, 1) := by decide +kernel

/-! ### Group commands -/

theorem witness_GroupStartOutcome :
    let two := (with0 (loaded (some 0))).withStream 1 (loaded (some 0))
    answer (.gstart 0) (staged 0 0 0 0 2 0 two) = (.badParam, 1)
    ∧ answer (.gstart 3) two = (.groupNotReady, 0xFFFF)
    ∧ answer (.gstart 0) (two.withStream 1 { loaded (some 0) with queue := [] }) = (.groupNotReady, 1)
    ∧ answer (.gstart 0) (staged 0 0 0 0 1 32773 two) = (.late, 5)
    ∧ answer (.gstart 0) (staged 0 0 0 0 1 32772 two) = (.ok, 2) := by decide +kernel

theorem witness_GroupStopOutcome :
    let s := (with0 { loaded (some 0) with state := .armed .next false }).withStream 1
      { rxStream with cfg := some { rxCfg with group := some 0 } }
    answer (.gstop 1) s = (.state, 0) ∧ answer (.gstop 0) s = (.ok, 0)
    ∧ answer (.gstop 0) (s.withStream 1 rxStream) = (.ok, 1)
    ∧ answer (.gstop 0) { s with line := { s.line with state := .hunt } } = (.ok, 1) := by decide +kernel

theorem witness_GroupAbortOutcome :
    (1 : Byte).toNat = (1 : GroupId).val ∧ (faulted.stream 2).group? = some 1 ∧ (faulted.stream 7).state = .off := by
  decide +kernel

/-! ### The slot map and the completion queue -/

/-- A shadow bank with this entry 31 after a TX of stream 0 in entry 30. -/
def shadowed (e : Entry) (pending : Bool) (st : LineState) : State :=
  { playing with
    line := { playing.line with state := st }
    map := { playing.map with
      bank1 := (SlotMap.reset.bank1.set 30 (some (0, .tx))).set 31 e, swapPending := pending } }

theorem witness_MapSwapOutcome :
    answer (.mapswap 0) (shadowed none true .aligned) = (.busy, 0)
    ∧ answer (.mapswap 0) (shadowed (some (0, .rx)) false .aligned) = (.conflict, 31)
    ∧ answer (.mapswap 0) (shadowed (some (1, .tx)) false .aligned) = (.conflict, 31)
    ∧ answer (.mapswap 0) (shadowed (some (15, .rx)) false .flywheel) = (.ok, 0)
    ∧ answer (.mapswap 0) (shadowed (some (1, .rx)) false .hunt) = (.ok, 1) := by decide +kernel

theorem witness_MapCopyOutcome :
    answer (.mapcopy 0) (shadowed none true .aligned) = (.busy, 0)
    ∧ answer (.mapcopy 0) (shadowed none false .aligned) = (.ok, 0) := by decide +kernel

theorem witness_MapDataWriteOutcome :
    let s := { playing with win := { playing.win with mapBank := .b1, mapEntry := 31 } }
    s.win.mapBank = s.map.active.other ∧ s.map.swapPending = false
    ∧ playing.win.mapBank = playing.map.active ∧ (shadowed none true .aligned).map.swapPending = true := by
  decide +kernel

theorem witness_CqPopOutcome :
    State.reset.cq.records = [] ∧ State.reset.cq.overflow = none
    ∧ (queueOf 2).records = someRecord :: [someRecord]
    ∧ ({ queueOf 1 with overflow := some 1 } : CompletionQueue).overflow ≠ none
    ∧ ((queueOf 1).records = [someRecord] ∧ (queueOf 1).overflow = none)
    ∧ answer (.cqpop 0) { State.reset with cq := { queueOf 0 with overflow := some 7 } } = (.ok, 0)
    ∧ answer (.cqpop 0) { State.reset with cq := { queueOf 31 with overflow := some 7 } } = (.ok, 31) := by
  decide +kernel

theorem witness_CqFlushOutcome : State.reset.cq.Law ∧ State.reset.cq.count = 0 := by
  refine ⟨⟨by decide, ?_, by decide, ?_, by decide, by decide⟩, by decide⟩
  · intro n h; cases h
  · intro n h; cases h

theorem witness_RecordsTimerAndInterrupt :
    ({ queueOf 31 with overflow := some 65535 } : CompletionQueue).overflow = some 65535
    ∧ (queueOf 31).overflow = none ∧ (queueOf 30).records.length < 31 ∧ 31 ≤ (queueOf 31).records.length
    ∧ (queueOf 0).records.length < 31 ∧ (queueOf 1).timer = .counting 1
    ∧ (∀ n, State.reset.cq.timer ≠ .counting n) := by
  refine ⟨rfl, rfl, by decide, by decide, by decide, rfl, ?_⟩
  intro n h; cases h

/-! ### The slot line -/

/-- A line that is DISABLED under `playing`'s streams, with N, S, mode, D, F and timebase staged. -/
def setting (w0 w1 : Word) : State := staged w0 w1 63 0 0 0 { playing with line := LinePort.reset }

theorem witness_LineSetOutcome :
    playing.line.state ≠ .disabled ∧ (setting 0 0).line.state = .disabled
    ∧ answer (.lineSet 0) (setting 0x0201 0x0100) = (.badParam, 0xFFFF)
    ∧ answer (.lineSet 0) (setting 0x0221 0x0100) = (.badParam, 0xFFFF)
    ∧ answer (.lineSet 0) (setting 0x0702 0x0100) = (.badParam, 0xFFFF)
    ∧ answer (.lineSet 0) (setting 0x3202 0x0100) = (.badParam, 0xFFFF)
    ∧ answer (.lineSet 0) (setting 0x0202 0x00FF) = (.badParam, 0xFFFF)
    ∧ answer (.lineSet 0) (setting 0x0102 0x0100) = (.badParam, 0)
    ∧ answer (.lineSet 0) (setting 0x0202 0x0100) = (.ok, 0)
    ∧ answer (.lineSet 0) (setting 0x2620 0x0FFF) = (.ok, 0) := by decide +kernel

/-- `playing` on a line of this mode and state. -/
def onLine (m : LineMode) (st : LineState) : State :=
  { playing with line := { playing.line with fmt := { LineFormat.reset with mode := m }, state := st } }

theorem witness_LineUpOutcome :
    playing.line.state ≠ .disabled
    ∧ ((onLine .follower .disabled).line.state = .disabled ∧ (onLine .follower .disabled).line.fmt.mode = .follower)
    ∧ (onLine .master .disabled).line.fmt.mode ≠ .follower
    ∧ (onLine .loopback .disabled).line.fmt.mode ≠ .follower
    ∧ answer (.lineUp 255) (onLine .loopback .disabled) = (.ok, 0) := by decide +kernel

theorem witness_LineDownOutcome :
    State.reset.line.state = .disabled ∧ (onLine .follower .hunt).line.state ≠ .disabled := by decide

theorem witness_FollowerHuntsAndTries :
    (playing.line.fmt.mode = .follower ∧ playing.line.state ≠ .disabled)
    ∧ ¬ ((onLine .master .aligned).line.fmt.mode = .follower ∧ (onLine .master .aligned).line.state ≠ .disabled)
    ∧ playing.line.lowSeen = false
    ∧ ((synced .hunt 0).line.lowSeen = true ∧ (synced .hunt 0).line.state = .hunt)
    ∧ ((synced .confirm 127).line.state = .confirm ∧ max 127 (synced .confirm 127).line.bitPos < 8 * 16)
    ∧ playing.line.state ≠ .confirm := by decide

theorem witness_EveryFrameBoundary :
    (synced .confirm 128).line.fmt.mode = .follower ∧ (synced .confirm 128).line.lowSeen = true
    ∧ max 128 (synced .confirm 128).line.bitPos = 8 * 16
    ∧ ((synced .flywheel 127).line.served = true ∧ max 128 (synced .flywheel 127).line.bitPos = 8 * 16)
    ∧ ((synced .aligned 0).line.served = true ∧ max 0 (synced .aligned 0).line.bitPos < 8 * 16)
    ∧ playing.line.miss + 1 < playing.line.fmt.flywheel
    ∧ ((onLine .master .aligned).line.fmt.mode ≠ .follower ∧ (onLine .master .aligned).line.state = .aligned) := by
  decide

theorem witness_MissedSyncLosesAlignment :
    let s := { playing with line := { playing.line with state := .flywheel, miss := 2 } }
    s.resetLow = false ∧ s.line.fmt.mode = .follower ∧ s.line.served = true
    ∧ s.line.fmt.flywheel ≤ s.line.miss + 1 := by decide

/-- Every act of a loss: a stop, an ALIGN halt, the GROUP halt it brings, a stream left alone, a swap. -/
theorem witness_MissedSync_acts :
    let running := fun g h => { txStream with cfg := some { txCfg with group := g, haltOnLoss := h } }
    let s := { ((with0 { running none false with state := .stopping }).withStream 2
        (running (some 1) false)).withStream 3 (running (some 1) true) with
      line := { playing.line with state := .flywheel, miss := 2 }, map := { playing.map with swapPending := true } }
    let t := after .missedSync s
    ((s.stream 3).haltsOnLoss = true ∧ (s.stream 2).haltsOnLoss = false ∧ (s.stream 0).state = .stopping)
    ∧ (t.stream 0).state = .off ∧ (t.stream 1).state = .running ∧ (t.stream 2).state = .halted .group
    ∧ (t.stream 3).state = .halted .align ∧ t.map.active = .b1 ∧ t.free = 63 := by decide +kernel

theorem witness_FrameCounterChangesOnlyAtBoundaries :
    exec .fsyncLowSample State.reset = .next State.reset := by rfl

/-! ### Slot events -/

theorem witness_TransmitSlotOutcome :
    playing.slotOwner 0 .tx = some (0, 16) ∧ (playing.stream 0).cfg = some txCfg ∧ txCfg.width = 16
    ∧ (playing.stream 0).driving = true
    ∧ (playing.stream 0).fifo = 0x1234 :: [0x5678]
    ∧ (with0 { txStream with state := .draining .ended false, fifo := [] }).slotOwner 0 .tx = some (0, 16)
    ∧ (with0 (loaded none)).slotOwner 0 .tx = some (0, 16) ∧ ((with0 (loaded none)).stream 0).driving = false := by
  decide +kernel

theorem witness_TransmitSlotUnderruns :
    let s := fun u => with0 { txStream with cfg := some { txCfg with underrun := u }, fifo := [] }
    ∀ u ∈ [UnderrunPolicy.repeat, .fill, .release, .halt],
      (s u).slotOwner 0 .tx = some (0, txCfg.width) ∧ ((s u).stream 0).state = .running ∧ ((s u).stream 0).fifo = []
      ∧ ((s u).stream 0).cfg = some { txCfg with underrun := u } := by decide +kernel

theorem witness_ReceiveSlotTakesTheSample :
    let full := with1 { rxStream with
      fifo := List.replicate 7 0, queue := [{ buffer 1 8 with endFlag := true }] }
    playing.slotOwner 1 .rx = some (1, rxCfg.width) ∧ (playing.stream 1).cfg = some rxCfg ∧ rxCfg.direction = .rx
    ∧ (playing.stream 1).state = .running ∧ (playing.stream 1).fifo.length < 8
    ∧ full.slotOwner 1 .rx = some (1, 16) ∧ (full.stream 1).fifo.length = 7
    ∧ ((after (.receiveSlot 1 0) full).stream 1).state = .draining .ended false := by decide +kernel

theorem witness_ReceiveSlotOverrunsOrRefuses :
    let s := fun o st => with1 { rxStream with
      cfg := some { rxCfg with overrun := o }, state := st, fifo := List.replicate 8 0 }
    (s .halt .stopping).slotOwner 1 .rx = some (1, rxCfg.width)
    ∧ (s .drop .running).slotOwner 1 .rx = some (1, rxCfg.width)
    ∧ 8 ≤ ((s .halt .stopping).stream 1).fifo.length
    ∧ (s .drop (.draining .ended false)).slotOwner 1 .rx = some (1, 16)
    ∧ (with1 { rxStream with state := .off }).slotOwner 1 .rx = some (1, 16) := by decide +kernel

/-! ### The Memory Mover -/

/-- `playing` in REQUESTING. -/
def asking (byld : Bool) : State := { playing with mover := { Mover.reset with bus := .requesting, byld := byld } }

theorem witness_ChoiceIsFirstAfterThePointer :
    (asking false).choice = some 0 ∧ (asking false).request 0 = some false := by decide +kernel

/-- Every clause on requests is reached, at the ends of the watermark, of the room and of the word condition. -/
theorem witness_requests :
    let tx := fun st fifo cfg => (with0 { txStream with
      cfg := some cfg, state := st, fifo := List.replicate fifo 0 }).request 0
    let rx := fun st fifo => (with1 { rxStream with state := st, fifo := List.replicate fifo 0 }).request 1
    (tx .running 1 txCfg = some true ∧ tx .running 2 txCfg = some false ∧ tx .running 4 txCfg = some false
      ∧ tx .running 5 txCfg = none ∧ tx .stopping 0 txCfg = some false ∧ tx (.armed .next false) 0 txCfg = some false
      ∧ tx (.armed .next true) 0 txCfg = none ∧ tx .off 0 txCfg = none ∧ tx (.draining .stop false) 0 txCfg = none)
    ∧ (tx .running 4 { txCfg with width := 4, packing := .packed, watermark := 7 } = some false
      ∧ tx .running 5 { txCfg with width := 4, packing := .packed, watermark := 7 } = none)
    ∧ (rx .running 3 = none ∧ rx .running 4 = some false ∧ rx .stopping 6 = some false ∧ rx .running 7 = some true
      ∧ rx (.draining .ended false) 0 = some true ∧ rx (.armed .next false) 8 = none ∧ rx (.halted .xrun) 8 = none)
    ∧ (with1 { rxStream with cfg := some { rxCfg with width := 4, packing := .packed, extension := .none
                                                      watermark := 1 }
                             fifo := [1, 2, 3] }).request 1 = none
    ∧ (with1 { rxStream with queue := [] }).request 1 = none ∧ playing.request 15 = none
    ∧ (with0 { txStream with state := .draining .ended false, queue := [] }).request 0 = none := by decide +kernel

/-- A receive stream alone asks: 4 samples at watermark 4. -/
def storing : State := { with1 { rxStream with fifo := [1, 2, 3, 4] } with
  streams := (playing.streams.set 0 StreamCtx.reset).set 1 { rxStream with fifo := [1, 2, 3, 4] }
  mover := { Mover.reset with bus := .requesting } }

theorem witness_BusGrantBeginsATenure :
    ((asking false).mover.bus = .requesting ∧ (asking false).mover.byld = false ∧ (asking false).choice = some 0
      ∧ ((asking false).stream 0).cfg = some txCfg ∧ ((asking false).stream 0).queue = buffer 0 16 :: []
      ∧ ((asking false).stream 0).wordsDone < txCfg.footprint (buffer 0 16).length)
    ∧ (storing.choice = some 1 ∧ (storing.stream 1).cfg = some rxCfg ∧ (storing.stream 1).queue = buffer 1 16 :: []
      ∧ (storing.stream 1).wordsDone < rxCfg.footprint (buffer 1 16).length
      ∧ (storing.stream 1).prepare rxCfg (buffer 1 16)
        = some ({ rxStream with fifo := [2, 3, 4] }, 1, 1)) := by decide +kernel

theorem witness_BusReleaseAndYield :
    ((asking true).mover.bus = .requesting ∧ (asking true).mover.byld = true)
    ∧ playing.mover.bus = .waitLow ∧ (idling false false).mover.bus = .idle
    ∧ (held playing 0 .tx 0 0).mover.bus = .holding ∧ (held playing 0 .tx 0 0).mover.inFlight.isSome = true
    ∧ ({ (held playing 0 .tx 0 0).mover with inFlight := none } : Mover).inFlight.isSome = false := by decide +kernel

theorem witness_FetchedWordCompletes :
    let s := held playing 0 .tx 0 0
    let last := held (with0 { txStream with samplesDone := 15, wordsDone := 15 }) 0 .tx 0 0
    s.mover.bus = .holding ∧ (s.stream 0).cfg = some txCfg ∧ txCfg.direction = .tx
    ∧ (s.stream 0).queue = buffer 0 16 :: [] ∧ (buffer 0 16).posting = 0
    ∧ (after (.wordTransferComplete (some 7)) last).cq.records = [.bufferDone 0 5 1 .ok 16]
    ∧ (after (.wordTransferComplete (some 7)) last).free = 63
    ∧ loadMem 0x2010 ({ s with mem := [(0x2010, 9)] } : State).mem = some 9 ∧ loadMem 0x2010 s.mem = none := by
  decide +kernel

/-- The last word of a receive buffer in RUNNING, at the end of a drain and of a flush, and the word that empties a
flush. -/
theorem witness_StoredWordCompletes :
    let at15 := fun st fifo done => after (.wordTransferComplete none) (held (with1 { rxStream with
      state := st, fifo := fifo, samplesDone := done, wordsDone := done
      queue := [{ buffer 1 16 with endFlag := true }] }) 1 .rx 1 1)
    ((at15 .running [] 15).cq.records, ((at15 .running [] 15).stream 1).state)
        = ([.bufferDone 1 5 1 .ok 16], .running)
    ∧ (at15 (.draining .ended false) [9] 15).cq.records
        = [.bufferDone 1 5 1 .ok 16, .streamStopped 1 5 .ended 1]
    ∧ (at15 (.draining .stop false) [9] 15).cq.records
        = [.bufferDone 1 5 1 .ok 16, .streamStopped 1 5 .stop 1]
    ∧ (at15 (.draining .stop false) [] 14).cq.records
        = [.bufferDone 1 5 1 .short 15, .streamStopped 1 5 .stop 0]
    ∧ ((at15 .running [9] 14).cq.records, ((at15 .running [9] 14).stream 1).wordsDone) = ([], 15)
    ∧ playing.MemoryLaw := by
  refine ⟨?_, ?_, ?_, ?_, ?_, rfl⟩ <;> decide +kernel

theorem witness_ReturnedPostingDiscardsTheWord :
    let s := held playing 0 .tx 77 0
    s.mover.bus = .holding ∧ s.mover.move.isSome = true ∧ s.mover.inFlight.isSome = true
    ∧ s.servesHead 0 = false := by decide +kernel

/-- A word of stream 0 or 1 in flight, the `n`-th of a tenure of 8. -/
def nth (s : State) (n : Nat) (i : StreamId) (d : Direction) (posting uncounted : Nat) : State :=
  let t := held s i d posting uncounted
  { t with mover := { t.mover with wordCount := n } }

/-- The limit is reached; a yield; the move goes on with a fetch, and with a store; it ends for a new choice, and with
no request left. The first word of the new choice has its own preparation. -/
theorem witness_TenureEndsAtItsLimitOrYield :
    let move : Move := { stream := 0, dir := .tx, posting := 0, nextAddr := 0x2012, wordsLeft := 7 }
    let go := after (.wordTransferComplete (some 7))
    let alone := (with1 StreamCtx.reset).withStream 0 { txStream with state := .stopping, queue := [buffer 0 9] }
    let filled := with1 { rxStream with fifo := [1, 2] }
    ((nth playing 7 0 .tx 0 0).mover.move = some move ∧ (nth playing 7 0 .tx 0 0).mover.limit = some 8
      ∧ (nth playing 7 0 .tx 0 0).mover.bus = .holding ∧ (go (nth playing 7 0 .tx 0 0)).mover.bus = .waitLow)
    ∧ (go { nth playing 0 0 .tx 0 0 with mover := { (nth playing 0 0 .tx 0 0).mover with yielded := true } }).mover.bus
      = .waitLow
    ∧ (go (nth playing 6 0 .tx 0 0)).mover.move = some { move with nextAddr := 0x2014, wordsLeft := 6 }
    ∧ ((go (nth filled 6 1 .rx 1 1)).busData = some 1 ∧ ((go (nth filled 6 1 .rx 1 1)).stream 1).fifo = [2])
    ∧ ((nth playing 0 0 .tx 77 0).choice = some 0 ∧ (go (nth playing 0 0 .tx 77 0)).busAddress = some 0x2010)
    ∧ ((nth storing 0 0 .tx 77 0).choice = some 1 ∧ (go (nth storing 0 0 .tx 77 0)).busData = some 1)
    ∧ ((go (nth alone 0 0 .tx 0 0)).mover.bus = .waitLow ∧ (go (nth alone 0 0 .tx 0 0)).mover.wordCount = 1) := by
  decide +kernel

theorem witness_BusFaultOutcome :
    let s := ticking 1 1
    s.mover.move.isSome = true ∧ s.mover.inFlight.any (fun w => decide (w.timer ≤ 1)) = true ∧ s.pending = []
    ∧ s.line.tbLeft ≤ 1 ∧ (s.stream 0).working = true
    ∧ ((with0 StreamCtx.reset).stream 0).working = false ∧ playing.mover.inFlight = none := by decide +kernel

/-! ### The register window and reset -/

theorem witness_ControlAndStatusWrites :
    playing.resetLow = false
    ∧ ((1 : Word).toNat % 64 = 1 ∧ (0xFFE0 : Word).toNat % 64 = 32)
    ∧ ((0 : Word).toNat % 64 = 0 ∧ 32 < (33 : Word).toNat % 64)
    ∧ 1 ≤ (0xFFFF : Word).toNat % 256 ∧ (0xFF00 : Word).toNat % 256 = 0 := by decide

/-- STAGE3 and STAGE4 read back 0 outside their fields; a STOP is no write to a plain word. -/
theorem witness_PlainWordsReadBackTheirFields :
    playing.resetLow = false
    ∧ (after (.registerWrite (.stage 3) 0xFFFF) playing).readWord 0x0F = 0xC0FF
    ∧ (after (.registerWrite (.stage 4) 0xFFFF) playing).readWord 0x10 = 0x0003
    ∧ (after (.registerWrite (.stage 0) 0xFFFF) playing).readWord 0x0C = 0xFFFF
    ∧ (exec (.stop 0) playing = .next (after (.stop 0) playing) ∧ Instr.stop 0 ≠ .pinReset)
    ∧ ∀ p x, Instr.stop 0 ≠ .registerWrite p x := by
  refine ⟨by decide, by decide +kernel, by decide +kernel, by decide +kernel, ⟨rfl, by decide⟩, ?_⟩
  intro p x h
  cases h

theorem witness_AccessErrFlag :
    playing.resetLow = false
    ∧ exec (.readOnlyWrite .id 0) playing = .next { playing with win := { playing.win with accessErr := true } }
    ∧ playing.win.accessErr = false := ⟨rfl, rfl, rfl⟩

theorem witness_CapturedHighHalf :
    let s := fun k => { playing with win := { playing.win with fieldSel := k } }
    (s 0x0A).win.fieldSel = 0x0A#5 ∧ (s 0x0B).win.fieldSel = 0x0B#5 ∧ (s 0x0B).win.fieldSel ≠ 0x0A#5 := by decide

theorem witness_StatusAndHeadWords :
    State.reset.cq.Law ∧ (queueOf 31).Law ∧ ({ queueOf 31 with overflow := some 65535 } : CompletionQueue).Law := by
  refine ⟨witness_CqFlushOutcome.1, ⟨by decide, ?_, ?_, ?_, by decide, by decide⟩,
    ⟨by decide, ?_, ?_, ?_, by decide, by decide⟩⟩
  · intro n h; cases h
  · simp [queueOf, List.replicate]
  · intro n h; simp [queueOf] at h; omega
  · intro n h; simp at h; omega
  · simp [queueOf, List.replicate]
  · intro n h; simp [queueOf] at h; omega

/-- The clauses on a configuration, on a head record of each kind, on the pins and on the counters of a stream. -/
theorem witness_StatusAndHeadWords_clauses :
    (playing.stream playing.win.streamSel).cfg = some txCfg
    ∧ (State.reset.stream State.reset.win.streamSel).cfg = none
    ∧ (playing.stream 0).residual.length < 32 ∧ (playing.stream 0).fifo.length ≤ 8
    ∧ (queueOf 1).records = someRecord :: [] ∧ State.reset.cq.records = [] ∧ State.reset.cq.overflow = none
    ∧ (Instr.cqpop 3).opcode? = some 0x30 ∧ (Instr.cqpop 3).operand? = some 3 ∧ Instr.busGrant.opcode? = none
    ∧ playing.line.state ≠ .disabled ∧ playing.line.fmt.mode ≠ .loopback
    ∧ playing.mover.bus ≠ .holding ∧ (held playing 0 .tx 0 0).mover.bus = .holding
    ∧ (held playing 0 .tx 0 0).mover.inFlight.isSome = true := by decide +kernel

theorem witness_StatusAndHeadWords_agrees : txCfg.Agrees 16 := by simp [StreamConfig.Agrees, txCfg]

/-- Both levels of BGNT at the release, with and without a request. -/
theorem witness_PinResetAndRelease :
    let low := fun s : State => { s with resetLow := true }
    (after .pinReset playing).resetLow = true ∧ playing.resetLow = false
    ∧ ((low (asking false)).mover.bus ≠ .waitLow ∧ (low (asking false)).resetLow = true)
    ∧ ((low State.reset).mover.bus = .waitLow ∧ (low State.reset).mover.bgnt = false
      ∧ ∀ i, (low State.reset).request i = none)
    ∧ ((low playing).mover.bus = .waitLow ∧ (low playing).mover.bgnt = false ∧ (low playing).request 0 ≠ none) := by
  decide +kernel

/-! ### Encodings and layouts -/

theorem witness_WordsDecodeToWhatTheyEncode :
    txCfg.Agrees 16 ∧ ({ rxCfg with packing := .pair, width := 24 } : StreamConfig).Agrees 24
    ∧ (Instr.configure 15).opcode? = some 0x01 ∧ (Instr.configure 15).operand? = some 15 := by
  refine ⟨?_, ?_, rfl, rfl⟩ <;> simp [StreamConfig.Agrees, txCfg, rxCfg]

theorem witness_PackedSamplesRoundTrip :
    1 ≤ 12 ∧ 12 ≤ 24 ∧ (0xFFF : Sample).toNat < 2 ^ 12 ∧ (0 : Sample).toNat < 2 ^ 12 := by decide

theorem witness_ExtensionGivesTheValue :
    1 ≤ rxCfg.width ∧ rxCfg.width ≤ 24 ∧ (0x8000 : Sample).toNat < 2 ^ rxCfg.width
    ∧ rxCfg.packing = .word ∧ rxCfg.width ≤ 16 := by decide

/-- The clauses on the unpacker: no sample of 24 bits in the first word, the cap at the samples left, the two halves of
a pair at both ends of the width. -/
theorem witness_unpacker :
    let packed := fun w => { txCfg with width := w, packing := .packed }
    let pair := fun w => { txCfg with width := w, packing := .pair }
    ((packed 24).packing = .packed ∧ (packed 24).unpack [] 0 4 0xABCD = ([], bitsOf 16 0xABCD)
      ∧ (packed 4).unpack [] 0 4 0xABCD = ([0xA, 0xB, 0xC, 0xD], [])
      ∧ (packed 4).unpack [] 0 3 0xABCD = ([0xA, 0xB, 0xC], bitsOf 4 0xD))
    ∧ ((pair 24).packing = .pair ∧ (pair 24).width ≤ 24 ∧ (pair 24).unpack [] 0 4 0xFFAB = ([], bitsOf 8 0xAB)
      ∧ (pair 24).unpack (bitsOf 8 0xAB) 1 4 0xCDEF = ([0xABCDEF], [])
      ∧ (pair 4).unpack [] 8191 4 0xCDEF = ([0xF], []) ∧ (pair 4).unpack [] 0 4 0xFFFF = ([], [])) := by
  decide +kernel

/-- The clauses on the packer: too few samples, a whole word with one uncounted sample or with none, the last word of
a buffer and of a flush, filled up with zeros, and no word with samples short of it. -/
theorem witness_packer :
    let cfg := { rxCfg with width := 12, packing := .packed, extension := .none }
    let c := fun (st : RunState) (fifo : List Sample) (held done : Nat) => { rxStream with
      cfg := some cfg, state := st, fifo := fifo, residual := bitsOf held 0, samplesDone := done }
    (c .running [1] 0 0).prepare cfg (buffer 1 4) = none
    ∧ (c .running [1, 2] 0 0).prepare cfg (buffer 1 4)
      = some ({ c .running [] 0 1 with residual := bitsOf 8 2 }, 0x0010, 1)
    ∧ (c .running [] 16 0).prepare cfg (buffer 1 4) = some (c .running [] 0 0, 0, 0)
    ∧ (c .running [3] 0 3).prepare cfg (buffer 1 4) = some (c .running [] 0 4, 0x0030, 0)
    ∧ (c (.draining .stop false) [3] 0 0).prepare cfg (buffer 1 4) = some (c (.draining .stop false) [] 0 1, 0x0030, 0)
    ∧ (c (.draining .stop false) [] 0 0).prepare cfg (buffer 1 4) = none := by decide +kernel

theorem witness_LoopbackDelaysOneSlot :
    let l : LinePort := { LinePort.reset with
      fmt := { LineFormat.reset with mode := .loopback }, txBits := bitsOf 12 0xABC }
    (l.fmt.mode = .loopback ∧ l.txBits = bitsOf 12 (0xABC : Sample).toNat ∧ 12 ≤ 16 ∧ 16 ≤ l.fmt.slotLen)
    ∧ (4 ≤ 12 ∧ ((l.pass 16).pass 4).received 4 0 = bitsOf 4 0xA)
    ∧ (let s := onLine .loopback .disabled
      s.resetLow = false ∧ s.line.state = .disabled ∧ s.line.fmt.mode = .loopback
      ∧ ((after (.lineUp 0) s).line.pass 16).received 16 0 = List.replicate 16 true) := by
  decide +kernel

/-! ### Laws every step keeps: the laws hold at reset (a statement of its own), and a step is there -/

/-- A tenure that goes on, with BGNT asserted and BYLD not. -/
theorem witness_tenure_goes_on :
    (held playing 0 .tx 0 0).TenureLaw ∧ (held playing 0 .tx 0 0).mover.bus = .holding
    ∧ (held playing 0 .tx 0 0).mover.yielded = false := by
  refine ⟨⟨?_, ?_⟩, by decide, by decide⟩ <;> decide +kernel

/-- A transmit head half fetched, and a receive head with its first word in flight, whose sample is not counted. -/
theorem witness_head_law :
    txStream.HeadLaw none ∧ (held playing 1 .rx 1 1).headWord 1 = some 1
    ∧ ({ rxStream with fifo := [] } : StreamCtx).HeadLaw (some 1) := by
  have htx : txStream.FetchProgress txCfg (buffer 0 16) := ⟨by decide, by decide, by decide, rfl, rfl⟩
  have hrx : ({ rxStream with fifo := [] } : StreamCtx).StoreProgress rxCfg (buffer 1 16) (some 1) :=
    ⟨by decide, by decide, by decide, by decide, by decide, Or.inr ⟨by decide, Or.inl rfl⟩⟩
  refine ⟨⟨by decide, by decide, ?_⟩, by decide +kernel, by decide, by decide, ?_⟩
  · intro cfg d rest hc hq
    cases hc; cases hq
    exact ⟨fun _ => htx, fun h => (nomatch h)⟩
  · intro cfg d rest hc hq
    cases hc; cases hq
    exact ⟨fun h => (nomatch h), fun _ => hrx⟩

theorem witness_laws_step : State.reset.pending = [] ∧ State.reset.idle.line.tbLeft = 15 := by decide +kernel

end Sys2Proof.Machine.Check
end

section
/-! PROOFS. What most rows leave alone of the slot line: settings, line state, miss count, frame counter and frame
widths, every configuration, and no stream begins to drive its slots. -/

namespace Sys2Proof.Machine

/-! ### One stream -/

/-- The configuration stays, and the stream drives its slots only if it did before (R16). -/
def StreamCtx.DrivesNoMore (c c' : StreamCtx) : Prop :=
  c'.cfg = c.cfg ∧ (c'.driving = true → c.driving = true)

theorem StreamCtx.DrivesNoMore.refl (c : StreamCtx) : c.DrivesNoMore c := ⟨rfl, id⟩

theorem StreamCtx.DrivesNoMore.trans {a b c : StreamCtx} (h : a.DrivesNoMore b) (k : b.DrivesNoMore c) :
    a.DrivesNoMore c := ⟨k.1.trans h.1, h.2 ∘ k.2⟩

theorem StreamCtx.DrivesNoMore.of_state {c c' : StreamCtx} (hcfg : c'.cfg = c.cfg) (hst : c'.state = c.state) :
    c.DrivesNoMore c' := ⟨hcfg, by simp only [StreamCtx.driving, hst]; exact id⟩

theorem StreamCtx.DrivesNoMore.of_driving {c c' : StreamCtx} (hcfg : c'.cfg = c.cfg) (hd : c.driving = true) :
    c.DrivesNoMore c' := ⟨hcfg, fun _ => hd⟩

theorem StreamCtx.DrivesNoMore.of_silent {c c' : StreamCtx} (hcfg : c'.cfg = c.cfg) (hd : c'.driving = false) :
    c.DrivesNoMore c' := ⟨hcfg, fun h => by rw [hd] at h; exact absurd h (by decide)⟩

theorem StreamCtx.driving_of_running_or_stopping {c : StreamCtx} (h : c.state = .running ∨ c.state = .stopping) :
    c.driving = true := by
  rcases h with h | h <;> simp [StreamCtx.driving, h]

theorem StreamCtx.sameButTaken.drivesNoMore {c c' : StreamCtx} (h : c.sameButTaken c') : c.DrivesNoMore c' :=
  .of_state (StreamCtx.sameButTaken_fields h).1 (StreamCtx.sameButTaken_fields h).2.1

theorem StreamCtx.returnHead_drivesNoMore (c : StreamCtx) (i : StreamId) (frame : BitVec 16) (st : Status)
    (n : Nat) : c.DrivesNoMore (c.returnHead i frame st n).1 := by
  simp only [StreamCtx.returnHead]
  split
  · exact .refl c
  · exact .of_state rfl rfl

/-- RUNNING goes DRAINING, and no other state changes its kind (R50, R53, R57). -/
theorem StreamCtx.endReached_drivesNoMore (c : StreamCtx) : c.DrivesNoMore c.endReached := by
  simp only [StreamCtx.endReached]
  split
  case h_1 hr => exact .of_driving rfl (StreamCtx.driving_of_running_or_stopping (.inl hr))
  case h_2 => exact .of_silent rfl rfl
  all_goals exact .refl c

theorem StreamCtx.fetchWord_drivesNoMore (c : StreamCtx) (i : StreamId) (frame : BitVec 16) (w : Word) :
    c.DrivesNoMore (c.fetchWord i frame w).1 := by
  have hfed : ∀ {xs bs n k}, c.DrivesNoMore { c with
      fifo := xs, residual := bs, samplesDone := n, wordsDone := k } := .of_state rfl rfl
  simp only [StreamCtx.fetchWord]
  split
  · split
    · split
      · exact (hfed.trans (StreamCtx.returnHead_drivesNoMore _ i frame _ _)).trans
          (StreamCtx.endReached_drivesNoMore _)
      · exact hfed.trans (StreamCtx.returnHead_drivesNoMore _ i frame _ _)
    · exact hfed
  · exact .refl c

theorem StreamCtx.drained_drivesNoMore {c : StreamCtx} {r : StreamCtx × List Record} (h : c.DrivesNoMore r.1)
    (i : StreamId) (frame : BitVec 16) (cause : StopCause) :
    c.DrivesNoMore (StreamCtx.drained r i frame cause).1 := .of_silent h.1 rfl

theorem StreamCtx.storeWord_drivesNoMore (c : StreamCtx) (i : StreamId) (frame : BitVec 16) (n : Nat) :
    c.DrivesNoMore (c.storeWord i frame n).1 := by
  have hret : ∀ (st : Status) (k : Nat), c.DrivesNoMore (StreamCtx.returnHead
      { c with samplesDone := c.samplesDone + n, wordsDone := c.wordsDone + 1 } i frame st k).1 :=
    fun st k => (StreamCtx.DrivesNoMore.of_state rfl rfl).trans (StreamCtx.returnHead_drivesNoMore _ i frame st k)
  simp only [StreamCtx.storeWord]
  split
  · split
    · split
      · exact StreamCtx.drained_drivesNoMore (hret _ _) i frame _
      · split
        · exact StreamCtx.drained_drivesNoMore (hret _ _) i frame _
        · exact hret _ _
      all_goals exact hret _ _
    · split
      · exact StreamCtx.drained_drivesNoMore (hret _ _) i frame _
      · exact .of_state rfl rfl
  · exact .refl c

/-- R59: the END test takes a stream that takes samples to DRAINING. -/
theorem StreamCtx.testEnd_drivesNoMore (c : StreamCtx) (n : Nat) : c.DrivesNoMore (c.testEnd n) := by
  simp only [StreamCtx.testEnd]
  split
  · exact .refl c
  · split
    · rename_i h
      exact .of_driving rfl (StreamCtx.driving_of_running_or_stopping h.2.1)
    · exact .refl c

theorem StreamCtx.enqueue_drivesNoMore (c : StreamCtx) (d : Descriptor) (n : Nat) :
    c.DrivesNoMore (c.enqueue d n) := by
  simp only [StreamCtx.enqueue]
  split
  · exact (StreamCtx.DrivesNoMore.of_state rfl rfl).trans (StreamCtx.testEnd_drivesNoMore _ n)
  · exact .of_state rfl rfl

/-- The stop of a driving stream: a flush goes on driving, every other stop ends in OFF. -/
theorem StreamCtx.stopNow_drivesNoMore (c : StreamCtx) (i : StreamId) (frame : BitVec 16) (b : Bool)
    (hd : c.driving = true) : c.DrivesNoMore (c.stopNow i frame b).1 :=
  .of_driving (c.stopNow_spec i frame b).cfg hd

theorem StreamCtx.stopArmed_drivesNoMore (c : StreamCtx) (i : StreamId) (frame : BitVec 16) :
    c.DrivesNoMore (c.stopArmed i frame).1 := .of_silent rfl rfl

theorem StreamCtx.abortNow_drivesNoMore (c : StreamCtx) (i : StreamId) (frame : BitVec 16) (report : Bool) :
    c.DrivesNoMore (c.abortNow i frame report).1 := .of_silent rfl rfl

theorem StreamCtx.abortOff_drivesNoMore (c : StreamCtx) (i : StreamId) (frame : BitVec 16) :
    c.DrivesNoMore (c.abortOff i frame).1 := .of_state rfl rfl

/-! ### The whole block -/

/-- Settings, line state, frame counter, miss count, frame widths and configurations stay, and no stream begins to
drive its slots. -/
structure State.KeepsLine (s t : State) : Prop where
  fmt : t.line.fmt = s.line.fmt
  state : t.line.state = s.line.state
  frame : t.line.frame = s.line.frame
  miss : t.line.miss = s.line.miss
  widths : t.line.frameWidths = s.line.frameWidths
  streams : ∀ i, (s.stream i).DrivesNoMore (t.stream i)

theorem State.KeepsLine.refl (s : State) : s.KeepsLine s := ⟨rfl, rfl, rfl, rfl, rfl, fun _ => .refl _⟩

theorem State.KeepsLine.trans {s t u : State} (h : s.KeepsLine t) (k : t.KeepsLine u) : s.KeepsLine u :=
  ⟨k.fmt.trans h.fmt, k.state.trans h.state, k.frame.trans h.frame, k.miss.trans h.miss, k.widths.trans h.widths,
    fun i => (h.streams i).trans (k.streams i)⟩

theorem State.KeepsLine.of_line {s t : State} (hl : t.line = s.line)
    (hs : ∀ i, (s.stream i).DrivesNoMore (t.stream i)) : s.KeepsLine t := by
  constructor <;> first | exact hs | rw [hl]

/-- An update of the other units. -/
theorem State.KeepsLine.of_eq {s t : State} (hl : t.line = s.line) (hs : t.streams = s.streams) : s.KeepsLine t :=
  .of_line hl fun _ => by rw [State.stream_congr hs]; exact .refl _

theorem State.KeepsLine.foldl {α : Type} {f : State → α → State} (h : ∀ (a : State) (x : α), a.KeepsLine (f a x))
    (l : List α)
    (s : State) : s.KeepsLine (l.foldl f s) := by
  induction l generalizing s with
  | nil => exact .refl s
  | cons x l ih => exact (h s x).trans (ih (f s x))

theorem State.putStream_keepsLine {s : State} {i : StreamId} {c : StreamCtx} (h : (s.stream i).DrivesNoMore c) :
    s.KeepsLine (s.putStream i c) :=
  .of_line rfl fun j => by
    rw [State.stream_putStream]
    split
    · rename_i hj; subst hj; exact h
    · exact .refl _

theorem State.apply_keepsLine {s : State} {i : StreamId} {r : StreamCtx × List Record}
    (h : (s.stream i).DrivesNoMore r.1) : s.KeepsLine (s.apply i r) :=
  (State.putStream_keepsLine h).trans (.of_eq rfl rfl)

theorem State.MoverAct.keepsLine {s t : State} (h : s.MoverAct t) : s.KeepsLine t :=
  .of_line h.fields.1 fun i => (h.2 i).drivesNoMore

/-- An act after another, the last one first. -/
theorem State.KeepsLine.after {s t u : State} (k : t.KeepsLine u) (h : s.KeepsLine t) : s.KeepsLine u := h.trans k

/-- An update of the other units after an act. -/
theorem State.KeepsLine.then_eq {s t u : State} (h : s.KeepsLine t) (hl : u.line = t.line)
    (hs : u.streams = t.streams) : s.KeepsLine u := h.trans (.of_eq hl hs)

/-- An update of the positions, the shift registers and the dividers of the line port. -/
theorem State.KeepsLine.withLine (s : State) {l : LinePort} (hf : l.fmt = s.line.fmt) (hst : l.state = s.line.state)
    (hfr : l.frame = s.line.frame) (hm : l.miss = s.line.miss) (hw : l.frameWidths = s.line.frameWidths) :
    s.KeepsLine { s with line := l } := ⟨hf, hst, hfr, hm, hw, fun _ => .refl _⟩

theorem State.cutShift_keepsLine (s : State) : s.KeepsLine s.cutShift := by
  simp only [State.cutShift]
  split
  · exact .refl s
  · split
    · exact .refl s
    · exact .withLine s rfl rfl rfl rfl rfl

theorem State.settle_keepsLine (s : State) : s.KeepsLine s.settle :=
  State.KeepsLine.trans (t := s.cutShift.clearGroups) (s.cutShift_keepsLine.then_eq rfl rfl)
    (State.pollMover_act s.cutShift.clearGroups).keepsLine

/-- An act that keeps the line, with what follows it. -/
theorem State.KeepsLine.settle {s t : State} (h : s.KeepsLine t) : s.KeepsLine t.settle :=
  h.trans t.settle_keepsLine

theorem State.haltOne_keepsLine (s : State) (i : StreamId) (cause : HaltCause) :
    s.KeepsLine (s.haltOne i cause) := by
  simp only [State.haltOne]
  split
  · exact State.apply_keepsLine (.of_silent rfl rfl)
  · exact .refl s

theorem State.haltCascade_keepsLine (s : State) (i : StreamId) (cause : HaltCause) :
    s.KeepsLine (s.haltCascade i cause) := by
  simp only [State.haltCascade]
  split
  · exact s.haltOne_keepsLine i cause
  · exact (s.haltOne_keepsLine i cause).trans (.foldl (fun a j => a.haltOne_keepsLine j .group) _ _)

/-! ### The commands -/

theorem State.runCommand_keepsLine {s : State} (op arg : Byte) {run : State → Answer}
    (h : s.KeepsLine (run s).1) : s.KeepsLine (s.runCommand op arg run) := by
  simp only [State.runCommand]
  split
  · exact .refl s
  · exact h.trans (.of_eq rfl rfl)

theorem State.forStream_keepsLine {s : State} (arg : Byte) {run : StreamId → Answer}
    (h : ∀ i, s.KeepsLine (run i).1) : s.KeepsLine (s.forStream arg run).1 := by
  simp only [State.forStream]
  split
  · exact .refl s
  · exact h _

theorem State.forGroup_keepsLine {s : State} (arg : Byte) {run : GroupId → Answer}
    (h : ∀ g, s.KeepsLine (run g).1) : s.KeepsLine (s.forGroup arg run).1 := by
  simp only [State.forGroup]
  split
  · exact .refl s
  · exact h _

theorem State.event_keepsLine {s : State} {run : State → State} (h : s.KeepsLine (run s)) :
    s.KeepsLine (s.event run) := by
  simp only [State.event]
  split
  · exact .refl s
  · exact h

theorem State.hostWrite_keepsLine (s : State) (run : Window → Window) : s.KeepsLine (s.hostWrite run) := by
  simp only [State.hostWrite]
  split
  · exact .refl s
  · exact .of_eq rfl rfl

theorem State.post_keepsLine (s : State) (i : StreamId) : s.KeepsLine (s.post i).1 := by
  have hpost : ∀ d n p, s.KeepsLine
      (State.settle { s.putStream i ((s.stream i).enqueue d n) with nextPosting := p }) := fun d n p =>
    .settle (.then_eq (State.putStream_keepsLine (StreamCtx.enqueue_drivesNoMore (s.stream i) d n)) rfl rfl)
  simp only [State.post]
  repeat' split
  all_goals try exact .refl s
  exact hpost _ _ _

theorem State.startStream_keepsLine (s : State) (i : StreamId) : s.KeepsLine (s.startStream i).1 := by
  have harm : ∀ m, s.KeepsLine (s.putStream i ((s.stream i).arm m)).settle := fun m =>
    (State.putStream_keepsLine (c := (s.stream i).arm m) (.of_silent rfl rfl)).settle
  simp only [State.startStream]
  repeat' split
  all_goals try exact .refl s
  exact harm _

theorem State.stopStream_keepsLine (s : State) (i : StreamId) : s.KeepsLine (s.stopStream i).1 := by
  simp only [State.stopStream]
  split
  · exact .refl s
  · split
    case h_1 => exact (State.apply_keepsLine (StreamCtx.stopArmed_drivesNoMore _ _ _)).settle
    case h_2 hr =>
      have hd := StreamCtx.driving_of_running_or_stopping (.inl hr)
      split
      · exact .settle (State.putStream_keepsLine (.of_driving rfl hd))
      · exact (State.apply_keepsLine (StreamCtx.stopNow_drivesNoMore _ _ _ _ hd)).settle
    all_goals exact .refl s

theorem State.abortOne_keepsLine (s : State) (i : StreamId) : s.KeepsLine (s.abortOne i) := by
  simp only [State.abortOne]
  split
  · exact State.apply_keepsLine (StreamCtx.abortOff_drivesNoMore _ _ _)
  · exact State.apply_keepsLine (StreamCtx.abortNow_drivesNoMore _ _ _ _)

theorem State.clearStream_keepsLine (s : State) (i : StreamId) : s.KeepsLine (s.clearStream i).1 := by
  simp only [State.clearStream]
  split
  · exact (State.apply_keepsLine (StreamCtx.abortNow_drivesNoMore _ _ _ _)).settle
  all_goals exact .refl s

theorem State.gstart_keepsLine (s : State) (g : GroupId) : s.KeepsLine (s.gstart g).1 := by
  have harm : ∀ m, s.KeepsLine ((s.armMembers g m).setGroup g (.start m)).settle := fun m =>
    .settle (.then_eq (.foldl (fun a i => State.putStream_keepsLine (c := (a.stream i).arm m)
      (.of_silent rfl rfl)) (s.members g) s) rfl rfl)
  simp only [State.gstart]
  repeat' split
  all_goals try exact .refl s
  exact harm _

theorem State.gstopMember_keepsLine (s : State) (i : StreamId) : s.KeepsLine (s.gstopMember i) := by
  simp only [State.gstopMember]
  split
  case h_1 => exact State.apply_keepsLine (StreamCtx.stopArmed_drivesNoMore _ _ _)
  case h_2 hr =>
    have hd := StreamCtx.driving_of_running_or_stopping (.inl hr)
    split
    · exact State.putStream_keepsLine (.of_driving rfl hd)
    · exact State.apply_keepsLine (StreamCtx.stopNow_drivesNoMore _ _ _ _ hd)
  all_goals exact .refl s

theorem State.gstop_keepsLine (s : State) (g : GroupId) : s.KeepsLine (s.gstop g).1 := by
  have hall := State.KeepsLine.foldl State.gstopMember_keepsLine (s.members g) s
  simp only [State.gstop]
  split
  · split
    · exact .settle (hall.then_eq rfl rfl)
    · exact hall.settle
  · exact .refl s

theorem State.gabort_keepsLine (s : State) (g : GroupId) : s.KeepsLine (s.gabort g).1 :=
  .settle (.then_eq (.foldl State.abortOne_keepsLine (s.abortable g) s) rfl rfl)

theorem State.mapswap_keepsLine (s : State) : s.KeepsLine s.mapswap.1 := by
  simp only [State.mapswap]
  repeat' split
  all_goals exact .of_eq rfl rfl

theorem State.mapcopy_keepsLine (s : State) : s.KeepsLine s.mapcopy.1 := by
  simp only [State.mapcopy]
  split <;> exact .of_eq rfl rfl

theorem State.cqpop_keepsLine (s : State) : s.KeepsLine s.cqpop.1 := by
  simp only [State.cqpop]
  split <;> exact .of_eq rfl rfl

/-! ### The window's writes and the bus -/

theorem State.writeMapData_keepsLine (s : State) (v : Word) : s.KeepsLine (s.writeMapData v) := by
  simp only [State.writeMapData]
  split <;> exact .of_eq rfl rfl

theorem State.writeIntCtrl_keepsLine (s : State) (v : Word) : s.KeepsLine (s.writeIntCtrl v) := by
  simp only [State.writeIntCtrl]
  split <;> exact .of_eq rfl rfl

theorem State.writeControl_keepsLine (s : State) (cw : ControlWord) (v : Word) :
    s.KeepsLine (s.writeControl cw v) := by
  cases cw with
  | holdoff => exact .of_eq rfl rfl
  | busCtrl => simp only [State.writeControl]; split <;> exact .of_eq rfl rfl
  | readyTimeout => simp only [State.writeControl]; split <;> exact .of_eq rfl rfl

theorem State.takeWord_keepsLine (s : State) (m : Move) (w : InFlight) (data : Word) :
    s.KeepsLine (s.takeWord m w data) := by
  simp only [State.takeWord]
  split
  · split
    · exact State.apply_keepsLine (StreamCtx.fetchWord_drivesNoMore _ _ _ _)
    · exact State.apply_keepsLine (StreamCtx.storeWord_drivesNoMore _ _ _ _)
  · exact .refl s

theorem State.completeWord_keepsLine (s : State) (x : Option Word) : s.KeepsLine (s.completeWord x) := by
  simp only [State.completeWord]
  split
  · exact .after (State.goOn_act _ _).keepsLine (.then_eq (s.takeWord_keepsLine _ _ _) rfl rfl)
  · exact .refl s

theorem State.faultWord_keepsLine (s : State) : s.KeepsLine s.faultWord := by
  simp only [State.faultWord]
  split
  · refine State.KeepsLine.trans ?_ (State.endTenure_act _).keepsLine
    split
    · exact .after (State.haltCascade_keepsLine _ _ _) (.of_eq rfl rfl)
    · exact .of_eq rfl rfl
  · exact .refl s

theorem State.sampleGrant_keepsLine (s : State) : s.KeepsLine s.sampleGrant := by
  simp only [State.sampleGrant]
  split
  · exact s.grantLow_act.keepsLine.trans s.grantLow.pollMover_act.keepsLine
  · exact .refl s

/-! ### Slots and time -/

theorem State.serveTx_keepsLine (s : State) (i : StreamId) (width : Nat) : s.KeepsLine (s.serveTx i width) := by
  have hsend : ∀ (t : State) (x : Option Sample), s.KeepsLine t →
      s.KeepsLine { t with line := t.line.drive i width x } := fun t x h =>
    h.trans (by cases x <;> exact .withLine t rfl rfl rfl rfl rfl)
  have hput : ∀ c, c.cfg = (s.stream i).cfg → c.state = (s.stream i).state → s.KeepsLine (s.putStream i c) :=
    fun c h k => State.putStream_keepsLine (.of_state h k)
  have hsample : ∀ x rest, s.KeepsLine
      { s.putStream i ((s.stream i).takeSample x rest) with
        line := s.line.drive i width (some x) } :=
    fun x rest => hsend (s.putStream i ((s.stream i).takeSample x rest)) (some x) (hput _ rfl rfl)
  have hunder := hput (s.stream i).underrunNow rfl rfl
  simp only [State.serveTx]
  split
  · exact hsend s none (.refl s)
  · split
    case h_6 hst =>
      split
      · exact hsample _ _
      · exact hsend (s.putStream i _) none
          (State.putStream_keepsLine (.of_driving rfl (by simp only [StreamCtx.driving, hst])))
    case h_4 | h_5 =>
      split
      · exact hsample _ _
      · split
        · exact hsend _ _ (hunder.trans (State.haltCascade_keepsLine _ _ _))
        · refine hsend _ _ ?_
          split
          · exact hunder
          · exact hunder.then_eq rfl rfl
    all_goals exact hsend s none (.refl s)

theorem State.startTxSlot_keepsLine (s : State) (slot : Nat) : s.KeepsLine (s.startTxSlot slot) := by
  simp only [State.startTxSlot]
  split
  · exact .refl s
  · exact .settle (.after (State.serveTx_keepsLine _ _ _) (.withLine s rfl rfl rfl rfl rfl))

theorem State.offerRx_keepsLine (s : State) (i : StreamId) (x : Sample) : s.KeepsLine (s.offerRx i x) := by
  have hput : ∀ c, c.cfg = (s.stream i).cfg → c.state = (s.stream i).state → s.KeepsLine (s.putStream i c) :=
    fun c h k => State.putStream_keepsLine (.of_state h k)
  have henter : (s.stream i).DrivesNoMore (((s.stream i).enter x).testEnd (s.uncounted i)) :=
    .trans (.of_state rfl rfl) (StreamCtx.testEnd_drivesNoMore _ _)
  have hdrop : ∀ n, s.KeepsLine (s.putStream i { s.stream i with overrunSamples := n, overrunEp := true }) :=
    fun n => hput _ rfl rfl
  simp only [State.offerRx]
  split
  · exact .refl s
  · split
    case h_5 | h_6 =>
      split
      · exact State.putStream_keepsLine henter
      · split
        · exact .after (State.haltCascade_keepsLine _ _ _) (hput _ rfl rfl)
        · split
          · exact hdrop _
          · exact (hdrop _).then_eq rfl rfl
    all_goals exact .refl s

theorem State.endRxSlot_keepsLine (s : State) (slot : Nat) (rxd : Sample) : s.KeepsLine (s.endRxSlot slot rxd) := by
  simp only [State.endRxSlot]
  split
  · exact .refl s
  · exact .settle (.after (State.offerRx_keepsLine _ _ _) (.withLine s rfl rfl rfl rfl rfl))

theorem State.readyTick_keepsLine (s : State) : s.KeepsLine s.readyTick := by
  simp only [State.readyTick]
  split
  · exact .refl s
  · split
    · exact s.faultWord_keepsLine.settle
    · exact .of_eq rfl rfl

theorem State.timebase_keepsLine (s : State) : s.KeepsLine s.timebase := by
  simp only [State.timebase, State.tick]
  split
  · exact .after (State.readyTick_keepsLine _) ⟨rfl, rfl, rfl, rfl, rfl, fun _ => .refl _⟩
  · exact .withLine s rfl rfl rfl rfl rfl

theorem State.bitPeriod_keepsLine (s : State) : s.KeepsLine s.bitPeriod := by
  simp only [State.bitPeriod]
  split
  · exact .withLine s rfl rfl rfl rfl rfl
  · exact .refl s

theorem State.bitClock_keepsLine (s : State) : s.KeepsLine s.bitClock := by
  have hdiv : ∀ n, s.KeepsLine (State.bitPeriod { s with line := { s.line with bitLeft := n } }) := fun n =>
    .after (State.bitPeriod_keepsLine _) (.withLine s rfl rfl rfl rfl rfl)
  simp only [State.bitClock]
  split
  · exact .refl s
  · split
    · split
      · exact .after (State.bitPeriod_keepsLine _) (.of_eq rfl rfl)
      · exact .of_eq rfl rfl
    all_goals
      split
      · exact hdiv _
      · exact .withLine s rfl rfl rfl rfl rfl

theorem State.idle_keepsLine (s : State) : s.KeepsLine s.idle := by
  simp only [State.idle]
  split
  · exact .refl s
  · exact s.sampleGrant_keepsLine.trans ((State.timebase_keepsLine _).trans (State.bitClock_keepsLine _))

theorem State.releaseReset_keepsLine (s : State) : s.KeepsLine s.releaseReset := by
  simp only [State.releaseReset]
  split
  · exact .after (State.sampleGrant_keepsLine _) ⟨rfl, rfl, rfl, rfl, rfl, fun _ => .refl _⟩
  · exact .refl s

theorem State.sampleLow_keepsLine (s : State) : s.KeepsLine s.sampleLow := by
  simp only [State.sampleLow]
  split
  · exact .withLine s rfl rfl rfl rfl rfl
  · exact .refl s

/-! ### Every row but those of the line and of the configurations -/

/-- The rows that change the line's settings, state, counter or frame widths, or a configuration. -/
def movesLine : Instr → Bool
  | .configure _ | .deconfigure _ | .lineSet _ | .lineUp _ | .lineDown _ | .pinReset | .syncArrival _
  | .trialTimeout | .missedSync | .frameEnd => true
  | _ => false

/-- Every other row keeps the line. -/
theorem exec_keepsLine {c : Instr} {s t : State} (hc : movesLine c = false) (h : exec c s = .next t) :
    s.KeepsLine t := by
  have hcmd : ∀ {op arg} {run : State → Answer}, Host.Outcome.next (s.runCommand op arg run) = (.next t : Outcome) →
      s.KeepsLine (run s).1 → s.KeepsLine t := fun h k => by
    cases h; exact State.runCommand_keepsLine _ _ k
  have hev : ∀ {run : State → State}, Host.Outcome.next (s.event run) = (.next t : Outcome) →
      s.KeepsLine (run s) → s.KeepsLine t := fun h k => by
    cases h; exact State.event_keepsLine k
  have hwin : ∀ {run : Window → Window}, Host.Outcome.next (s.hostWrite run) = (.next t : Outcome) →
      s.KeepsLine t := fun h => by
    cases h; exact State.hostWrite_keepsLine s _
  have hpin : ∀ {m : Mover} {u : State}, s.KeepsLine u →
      Host.Outcome.next (if s.resetLow then { s with mover := m } else u) = (.next t : Outcome) →
      s.KeepsLine t := fun k h => by
    cases h
    split
    · exact .of_eq rfl rfl
    · exact k
  cases c with
  | post a => exact hcmd h (State.forStream_keepsLine a s.post_keepsLine)
  | start a => exact hcmd h (State.forStream_keepsLine a s.startStream_keepsLine)
  | stop a => exact hcmd h (State.forStream_keepsLine a s.stopStream_keepsLine)
  | abort a => exact hcmd h (State.forStream_keepsLine a fun i => (s.abortOne_keepsLine i).settle)
  | clear a => exact hcmd h (State.forStream_keepsLine a s.clearStream_keepsLine)
  | gstart a => exact hcmd h (State.forGroup_keepsLine a s.gstart_keepsLine)
  | gstop a => exact hcmd h (State.forGroup_keepsLine a s.gstop_keepsLine)
  | gabort a => exact hcmd h (State.forGroup_keepsLine a s.gabort_keepsLine)
  | mapswap a => exact hcmd h s.mapswap_keepsLine
  | mapcopy a => exact hcmd h s.mapcopy_keepsLine
  | cqpop a => exact hcmd h s.cqpop_keepsLine
  | cqflush a => exact hcmd h (.of_eq rfl rfl)
  | unknownOpcode op a => exact hcmd h (.refl s)
  | mapDataWrite v => exact hev h (s.writeMapData_keepsLine v)
  | intCtrlWrite v => exact hev h (s.writeIntCtrl_keepsLine v)
  | controlWordWrite cw v => exact hev h (s.writeControl_keepsLine cw v)
  | statusWrite v => exact hwin h
  | readOnlyWrite w v => exact hwin h
  | samplesServedLowRead => exact hwin h
  | registerWrite p v => exact hwin h
  | resetRelease => cases h; exact s.releaseReset_keepsLine
  | transmitSlot k => exact hev h (s.startTxSlot_keepsLine k)
  | receiveSlot k x => exact hev h (s.endRxSlot_keepsLine k x)
  | busGrant => exact hpin s.grant_act.keepsLine.settle h
  | busGrantLow => exact hpin s.grantLow_act.keepsLine.settle h
  | busGrantWithdrawn => exact hpin s.grantLow_act.keepsLine.settle h
  | busYield b =>
    cases h
    split
    · exact .settle (.after (State.yieldBus_act _).keepsLine (.of_eq rfl rfl))
    · exact .of_eq rfl rfl
  | wordTransferComplete x => exact hev h (s.completeWord_keepsLine x).settle
  | busFault => exact hev h s.faultWord_keepsLine.settle
  | holdoffExpiry => exact hev h (.of_eq rfl rfl)
  | fsyncLowSample => exact hev h s.sampleLow_keepsLine
  | configure | deconfigure | lineSet | lineUp | lineDown | pinReset | syncArrival | trialTimeout | missedSync
  | frameEnd => exact absurd hc (by simp [movesLine])

end Sys2Proof.Machine
end

section
/-! PROOFS. The line law (R1, R6, R10, R15, R38, R44, R45): what installs settings, configurations and frame widths,
and that every step keeps it. -/

namespace Sys2Proof.Machine

/-! ### The staged words -/

theorem field_lt (w : Word) (hi lo : Nat) : field w hi lo < 2 ^ (hi - lo + 1) :=
  Nat.mod_lt _ (Nat.two_pow_pos _)

/-- Field 4 of R44, as the law of a configuration has it. -/
theorem extensionFits_iff (d : Direction) (p : Packing) (e : Extension) :
    extensionFits d p e = true ↔ (e ≠ .none ↔ d = .rx ∧ p ≠ .packed) := by
  cases d <;> cases p <;> simp [extensionFits]

theorem underrunFits_iff (d : Direction) (u : UnderrunPolicy) :
    underrunFits d u = true ↔ (u ≠ .none ↔ d = .tx) := by
  cases d <;> simp [underrunFits]

theorem overrunFits_iff (d : Direction) (o : OverrunPolicy) :
    overrunFits d o = true ↔ (o ≠ .none ↔ d = .rx) := by
  cases d <;> simp [overrunFits]

/-- A staged configuration that passes the checks of R44 agrees with itself and with the slot length. -/
theorem StreamConfig.parse_agrees {slotLen : Nat} {w0 w1 w2 w3 : Word} {cfg : StreamConfig}
    (h : StreamConfig.parse slotLen w0 w1 w2 w3 = .ok cfg) : cfg.Agrees slotLen := by
  simp only [StreamConfig.parse] at h
  repeat' split at h
  all_goals cases h
  rename_i hwidth _ _ _ hword _ _ _ hext _ _ _ hund _ _ _ hovr hmark _ _ _
  simp only [Bool.not_eq_false, extensionFits_iff, underrunFits_iff, overrunFits_iff] at hext hund hovr
  obtain ⟨h4, h24, hlen⟩ : 4 ≤ field w0 12 8 ∧ field w0 12 8 ≤ 24 ∧ field w0 12 8 ≤ slotLen := by omega
  obtain ⟨h1, h7⟩ : 1 ≤ field w1 11 8 ∧ field w1 11 8 ≤ 7 := by omega
  refine ⟨h4, h24, hlen, fun hp => Nat.not_lt.1 fun hlt => hword ⟨hp, hlt⟩, hext, hund, hovr, h1, h7, ?_⟩
  rw [BitVec.toNat_ofNat]
  exact Nat.lt_of_le_of_lt (Nat.mod_le _ _) (Nat.mod_lt _ (Nat.two_pow_pos _))

/-- Staged line settings that pass the check of R1 lie in their ranges. -/
theorem LineFormat.parse_legal {w0 w1 w2 : Word} {f : LineFormat} (h : LineFormat.parse w0 w1 w2 = some f) :
    f.Legal := by
  have hD := field_lt w1 7 0
  have hF := field_lt w1 11 8
  have hT := field_lt w2 5 0
  simp only [LineFormat.parse] at h
  repeat' split at h
  all_goals cases h
  rename_i hrange
  obtain ⟨h2, h32, hcode, hfly⟩ : 2 ≤ field w0 5 0 ∧ field w0 5 0 ≤ 32 ∧ field w0 11 8 ≤ 6 ∧ field w1 11 8 ≠ 0 := by
    omega
  refine ⟨h2, h32, ?_, by simp only; omega, by simp only; omega, by simp only; omega, by simp only; omega⟩
  simp only
  interval_cases field w0 11 8 <;> simp

/-! ### The law in two parts -/

/-- The part of the line law that every line state has: settings, mode, miss count, configurations. -/
def State.SettingsLaw (s : State) : Prop :=
  s.line.fmt.Legal
  ∧ (s.line.fmt.mode ≠ .follower → s.line.state = .disabled ∨ s.line.state = .aligned)
  ∧ (s.line.state = .flywheel → 1 ≤ s.line.miss ∧ s.line.miss < s.line.fmt.flywheel)
  ∧ (s.line.state ≠ .flywheel → s.line.miss = 0)
  ∧ ∀ i cfg, (s.stream i).cfg = some cfg → cfg.Agrees s.line.fmt.slotLen

/-- The part a served frame has: the widths it was opened with. -/
def State.WidthsLaw (s : State) : Prop :=
  ∀ i : StreamId,
    (∀ w, s.line.frameWidths[i] = some w → 4 ≤ w ∧ w ≤ s.line.fmt.slotLen)
    ∧ ((s.stream i).driving = true → s.line.frameWidths[i] = (s.stream i).cfg.map StreamConfig.width)

theorem State.lineLaw_iff (s : State) : s.LineLaw ↔ s.SettingsLaw ∧ (s.line.served = true → s.WidthsLaw) := by
  simp only [State.LineLaw, State.SettingsLaw, State.WidthsLaw, and_assoc]

theorem LinePort.served_iff (l : LinePort) : l.served = true ↔ l.state = .aligned ∨ l.state = .flywheel := by
  simp [LinePort.served]

theorem LinePort.up_iff (l : LinePort) : l.up = true ↔ l.state ≠ .disabled := by
  simp [LinePort.up]

theorem State.following_iff (s : State) :
    s.following = true ↔ s.line.fmt.mode = .follower ∧ s.line.state ≠ .disabled := by
  simp [State.following, LinePort.up]

/-- The first part depends on the settings, the line state, the miss count and the configurations. -/
theorem State.SettingsLaw.congr {s t : State} (h : s.SettingsLaw) (hf : t.line.fmt = s.line.fmt)
    (hst : t.line.state = s.line.state) (hm : t.line.miss = s.line.miss)
    (hc : ∀ i, (t.stream i).cfg = (s.stream i).cfg) : t.SettingsLaw := by
  simpa only [State.SettingsLaw, hf, hst, hm, hc] using h

/-- The law after an act that keeps the line. -/
theorem State.LineLaw.keepsLine {s t : State} (h : s.LineLaw) (k : s.KeepsLine t) : t.LineLaw := by
  obtain ⟨hset, hwid⟩ := s.lineLaw_iff.1 h
  refine t.lineLaw_iff.2 ⟨hset.congr k.fmt k.state k.miss fun i => (k.streams i).1, fun hs i => ?_⟩
  have hs' : s.line.served = true := by
    rw [LinePort.served_iff] at hs ⊢
    rwa [k.state] at hs
  obtain ⟨hw, hd⟩ := hwid hs' i
  refine ⟨by simpa only [k.widths, k.fmt] using hw, fun hdr => ?_⟩
  rw [k.widths, (k.streams i).1]
  exact hd ((k.streams i).2 hdr)

/-- What follows an act keeps the law. -/
theorem State.LineLaw.settle {s : State} (h : s.LineLaw) : s.settle.LineLaw := h.keepsLine s.settle_keepsLine

/-- A line that is not served has only the first part to meet. -/
theorem State.LineLaw.of_settings {s : State} (h : s.SettingsLaw)
    (hs : s.line.state ≠ .aligned ∧ s.line.state ≠ .flywheel) : s.LineLaw :=
  s.lineLaw_iff.2 ⟨h, fun k => by rw [LinePort.served_iff] at k; exact absurd k (by simp [hs])⟩

/-! ### The frame boundary -/

theorem StreamCtx.Crossed.cfg {c c' : StreamCtx} {i : StreamId} {frame : BitVec 16} {b : Bool} {rs : List Record}
    (h : c.Crossed i frame b c' rs) : c'.cfg = c.cfg := by
  simp only [StreamCtx.Crossed] at h
  split at h
  · split at h <;> rw [h.1]
  · exact StreamCtx.Stopped.cfg h
  all_goals rw [h.1]

/-- A boundary gives every stream the width it is configured with now, so the law holds after it (R15, R45). -/
theorem BoundaryTo.lineLaw {s u : State} {own : List Record} (h : BoundaryTo s u own) (hs : s.SettingsLaw) :
    u.LineLaw := by
  obtain ⟨hline, -, -, ⟨_, _, hcross, -⟩, -⟩ := h
  have hcfg : ∀ i, (u.stream i).cfg = (s.stream i).cfg := fun i => (hcross i).cfg
  refine u.lineLaw_iff.2 ⟨hs.congr (by rw [hline]) (by rw [hline]) (by rw [hline]) hcfg, fun _ i => ?_⟩
  have hw : u.line.frameWidths[i] = (s.stream i).cfg.map StreamConfig.width := by
    rw [hline]; simp [State.stream]
  refine ⟨fun w hsome => ?_, fun _ => by rw [hw, hcfg]⟩
  rw [hw] at hsome
  obtain ⟨cfg, hc, rfl⟩ := Option.map_eq_some_iff.1 hsome
  obtain ⟨-, -, -, -, hagree⟩ := hs
  obtain ⟨h4, -, hlen, -⟩ := hagree i cfg hc
  rw [hline]
  exact ⟨h4, hlen⟩

/-- A boundary with what follows it, from a state whose line port was moved on. -/
theorem State.boundary_lineLaw {s : State} {l : LinePort} (lp : BitVec 16 → List Record)
    (h : State.SettingsLaw { s with line := l }) : (State.boundary { s with line := l } lp).settle.LineLaw :=
  ((State.boundary_spec _ lp).lineLaw h).settle

/-- The first part of the law for a line port that goes to another line state. -/
theorem State.SettingsLaw.toState {s : State} {l : LinePort} (h : s.SettingsLaw) (hf : l.fmt = s.line.fmt)
    (hmode : s.line.fmt.mode ≠ .follower → l.state = .disabled ∨ l.state = .aligned)
    (hfly : l.state = .flywheel → 1 ≤ l.miss ∧ l.miss < s.line.fmt.flywheel)
    (hmiss : l.state ≠ .flywheel → l.miss = 0) : State.SettingsLaw { s with line := l } := by
  obtain ⟨hlegal, -, -, -, hagree⟩ := h
  simp only [State.SettingsLaw, hf]
  exact ⟨hlegal, hmode, hfly, hmiss, hagree⟩

/-! ### The rows of the line and of the configurations -/

theorem State.takeSync_lineLaw {s : State} (h : s.LineLaw) (hm : s.line.fmt.mode = .follower) (pos : Nat) :
    (s.takeSync pos).LineLaw := by
  have hset := (s.lineLaw_iff.1 h).1
  have hto : ∀ l : LinePort, l.fmt = s.line.fmt → l.state ≠ .flywheel → l.miss = 0 →
      State.SettingsLaw { s with line := l } := fun l hf hs h0 =>
    hset.toState hf (fun hn => absurd hm hn) (fun hfl => absurd hfl hs) fun _ => h0
  have hquiet : s.line.state ≠ .flywheel → s.line.miss = 0 := hset.2.2.2.1
  simp only [State.takeSync]
  split
  · exact h
  · rename_i hst
    exact .of_settings (hto _ rfl (by simp) (hquiet (by simp [hst]))) (by simp)
  · rename_i hst
    split
    · exact .of_settings (hto _ rfl (by simp [LinePort.newFrame, hst]) (hquiet (by simp [hst])))
        (by simp [LinePort.newFrame, hst])
    · split
      · exact State.boundary_lineLaw _ (hto _ rfl (by simp) rfl)
      · exact h
  all_goals
    split
    · exact State.boundary_lineLaw _ (hto _ rfl (by simp) rfl)
    · split
      · exact State.boundary_lineLaw _ (hto _ rfl (by simp) rfl)
      · exact h

theorem State.sampleHigh_lineLaw {s : State} (h : s.LineLaw) (bit : Nat) : (s.sampleHigh bit).LineLaw := by
  simp only [State.sampleHigh]
  split
  · rename_i hf
    exact State.takeSync_lineLaw h ((State.following_iff s).1 hf.1).1 _
  · exact h

theorem State.endTrial_lineLaw {s : State} (h : s.LineLaw) : s.endTrial.LineLaw := by
  obtain ⟨hset, -⟩ := s.lineLaw_iff.1 h
  obtain ⟨-, -, -, hmiss, -⟩ := hset
  simp only [State.endTrial]
  split
  · rename_i hf
    obtain ⟨hmode, -⟩ := (State.following_iff s).1 hf.1
    exact .of_settings ((s.lineLaw_iff.1 h).1.toState rfl (fun hn => absurd hmode hn) (by simp)
      fun _ => hmiss (by simp [hf.2])) (by simp)
  · exact h

/-- The loss of alignment keeps every configuration (R11). -/
theorem State.Lost.cfg {s : State} {i : StreamId} {c' : StreamCtx} {stops halts : List Record}
    (h : s.Lost i c' stops halts) : c'.cfg = (s.stream i).cfg := by
  obtain ⟨c1, hstop, halign, hgroup, hrest⟩ := h
  have h1 : c1.cfg = (s.stream i).cfg := by
    split at hstop
    · exact StreamCtx.Stopped.cfg hstop
    · rw [hstop.1]
  by_cases ha : (s.stream i).alignHalts
  · rw [(halign ha).1]; exact h1
  · by_cases hg : s.groupHit i ∧ c1.working = true
    · rw [(hgroup ha hg.1 hg.2).1]; exact h1
    · rw [(hrest ha (by rw [not_and_or, Bool.not_eq_true] at hg; exact hg)).1]; exact h1

theorem State.loseAlignment_lineLaw {s : State} (h : s.SettingsLaw) (hm : s.line.fmt.mode = .follower) :
    s.loseAlignment.LineLaw := by
  obtain ⟨_, _, _, hlost, -, -, -, hframe⟩ := s.loseAlignment_spec
  generalize s.loseAlignment = u at hlost hframe ⊢
  have hline := congrArg State.line hframe
  have hset : State.SettingsLaw { s with line := u.line } :=
    h.toState (by rw [hline]) (fun hn => absurd hm hn) (by rw [hline]; simp) (by rw [hline]; simp)
  exact .of_settings (hset.congr rfl rfl rfl fun i => (hlost i).cfg) (by rw [hline]; simp)

theorem State.missSync_lineLaw {s : State} (h : s.LineLaw) : s.missSync.LineLaw := by
  have hset := (s.lineLaw_iff.1 h).1
  simp only [State.missSync]
  split
  · rename_i hf
    obtain ⟨hmode, -⟩ := (State.following_iff s).1 hf.1
    split
    · rename_i hlt
      exact State.boundary_lineLaw _ (hset.toState rfl (fun hn => absurd hmode hn)
        (fun _ => ⟨Nat.le_add_left 1 _, hlt⟩) (by simp))
    · refine .settle (State.loseAlignment_lineLaw ?_ hmode)
      exact hset.congr rfl rfl rfl fun _ => rfl
  · exact h

theorem State.endFrame_lineLaw {s : State} (h : s.LineLaw) : s.endFrame.LineLaw := by
  simp only [State.endFrame]
  split
  · exact State.boundary_lineLaw _ ((s.lineLaw_iff.1 h).1.congr rfl rfl rfl fun _ => rfl)
  · exact h

/-- LINE_DOWN leaves a line that is down, with the configurations as they were (R19, R20). -/
theorem State.takeLineDown_lineLaw {s : State} (h : s.SettingsLaw) : s.takeLineDown.LineLaw := by
  obtain ⟨_, hline, hstr, -⟩ := s.takeLineDown_spec
  generalize s.takeLineDown = u at hline hstr ⊢
  have hset : State.SettingsLaw { s with line := u.line } :=
    h.toState (by rw [hline]) (fun _ => .inl (by rw [hline])) (by rw [hline]; simp) (by rw [hline]; simp)
  refine .of_settings (hset.congr rfl rfl rfl fun i => ?_) (by rw [hline]; simp)
  rw [hstr]
  split <;> rfl

theorem State.lineDown_lineLaw {s : State} (h : s.LineLaw) : s.lineDown.1.LineLaw := by
  simp only [State.lineDown]
  split
  · exact .settle (State.takeLineDown_lineLaw (s.lineLaw_iff.1 h).1)
  · exact h

theorem State.lineUp_lineLaw {s : State} (h : s.LineLaw) : s.lineUp.1.LineLaw := by
  have hset := (s.lineLaw_iff.1 h).1
  simp only [State.lineUp]
  split
  · exact h
  · split
    · rename_i hmode
      exact .of_settings (hset.toState rfl (fun hn => absurd hmode hn) (by simp) (by simp))
        (by simp [State.accept])
    all_goals exact State.boundary_lineLaw _ (hset.toState rfl (by simp) (by simp) (by simp))

/-- A stream that is not wider than the slot (R1). -/
theorem StreamCtx.widerThan_false {c : StreamCtx} {n : Nat} :
    c.widerThan n = false ↔ ∀ cfg, c.cfg = some cfg → cfg.width ≤ n := by
  cases hc : c.cfg <;> simp [StreamCtx.widerThan, hc]

theorem State.lineSet_lineLaw {s : State} (h : s.LineLaw) : s.lineSet.1.LineLaw := by
  obtain ⟨-, -, -, hmiss, hagree⟩ := (s.lineLaw_iff.1 h).1
  simp only [State.lineSet]
  split
  · exact h
  · rename_i hup
    have hdis : s.line.state = .disabled := by simpa [LinePort.up_iff] using hup
    split
    · exact h
    · rename_i fmt hparse
      split
      · exact h
      · rename_i hfind
        refine .of_settings ⟨LineFormat.parse_legal hparse, fun _ => .inl hdis, ?_, hmiss, fun i cfg hc => ?_⟩ ?_
        · intro hfly
          simp [State.accept, hdis] at hfly
        · have hnot : (s.stream i).widerThan fmt.slotLen = false := by
            simpa using List.find?_eq_none.1 hfind i (mem_allStreams i)
          obtain ⟨h4, h24, -, hrest⟩ := hagree i cfg hc
          exact ⟨h4, h24, StreamCtx.widerThan_false.1 hnot cfg hc, hrest⟩
        · simp [State.accept, hdis]

/-- The law after a stream in OFF takes a configuration that agrees with the slot length, or none, whatever the width
its slots of the frame keep. -/
theorem State.LineLaw.reconfigure {s t : State} {i : StreamId} (h : s.LineLaw)
    (hline : t.line = { s.line with frameWidths := t.line.frameWidths })
    (hwidth : ∀ (j : StreamId) (w : Nat), t.line.frameWidths[j] = some w → s.line.frameWidths[j] = some w)
    (hother : ∀ j, j ≠ i → t.stream j = s.stream j ∧ t.line.frameWidths[j] = s.line.frameWidths[j])
    (hoff : (t.stream i).driving = false)
    (hagree : ∀ cfg, (t.stream i).cfg = some cfg → cfg.Agrees s.line.fmt.slotLen) : t.LineLaw := by
  obtain ⟨⟨hlegal, hmode, hfly, hmiss, hcfgs⟩, hwid⟩ := s.lineLaw_iff.1 h
  have hfmt : t.line.fmt = s.line.fmt := by rw [hline]
  have hstate : t.line.state = s.line.state := by rw [hline]
  have hm : t.line.miss = s.line.miss := by rw [hline]
  refine t.lineLaw_iff.2 ⟨?_, fun hserved j => ?_⟩
  · simp only [State.SettingsLaw, hfmt, hstate, hm]
    refine ⟨hlegal, hmode, hfly, hmiss, fun j cfg hc => ?_⟩
    by_cases hj : j = i
    · subst hj; exact hagree cfg hc
    · rw [(hother j hj).1] at hc
      exact hcfgs j cfg hc
  · obtain ⟨hw, hd⟩ := hwid (by rw [LinePort.served_iff] at hserved ⊢; rwa [hstate] at hserved) j
    refine ⟨fun w hs => by rw [hfmt]; exact hw w (hwidth j w hs), fun hdr => ?_⟩
    by_cases hj : j = i
    · subst hj
      rw [hoff] at hdr
      exact absurd hdr (by decide)
    · obtain ⟨hstr, hfw⟩ := hother j hj
      rw [hfw, hstr]
      exact hd (by rwa [hstr] at hdr)

/-- A configuration taken leaves the stream in its state. -/
theorem StreamCtx.reconfigure_driving (c : StreamCtx) (cfg : Option StreamConfig) :
    (c.reconfigure cfg).driving = c.driving := rfl

theorem StreamCtx.driving_of_off {c : StreamCtx} (h : c.state = .off) : c.driving = false := by
  simp [StreamCtx.driving, h]

/-- The frame widths once a stream has left the frame (R45). -/
theorem State.leaveFrame_widths (s : State) (i j : StreamId) :
    (s.leaveFrame i).line.frameWidths[j] = if j = i then none else s.line.frameWidths[j] := by
  by_cases hj : j = i
  · subst hj; simp [State.leaveFrame]
  · have hv : i.val ≠ j.val := fun e => hj (Fin.ext e.symm)
    simp [State.leaveFrame, hj, hv]

theorem State.configure_lineLaw {s : State} (h : s.LineLaw) (i : StreamId) : (s.configure i).1.LineLaw := by
  simp only [State.configure]
  repeat' split
  all_goals try exact h
  rename_i hoff _ cfg hparse _ _ _
  have hst : (s.stream i).state = .off := by
    by_contra hne
    exact hoff (.inl hne)
  have hput : ∀ j, State.stream (State.leaveFrame (s.putStream i ((s.stream i).reconfigure (some cfg))) i) j
      = if j = i then (s.stream i).reconfigure (some cfg) else s.stream j := fun j => s.stream_putStream i j _
  have hfw := State.leaveFrame_widths (s.putStream i ((s.stream i).reconfigure (some cfg))) i
  refine h.reconfigure (i := i) rfl (fun j w hw => ?_) (fun j hj => ?_) ?_ fun c hc => ?_
  · simp only [State.accept, hfw] at hw
    split at hw
    · exact absurd hw (by simp)
    · exact hw
  · simp only [State.accept, hput, hfw, if_neg hj]
    exact ⟨trivial, rfl⟩
  · simp only [State.accept, hput, if_pos]
    exact StreamCtx.driving_of_off hst
  · simp only [State.accept, hput, if_pos] at hc
    cases hc
    exact StreamConfig.parse_agrees hparse

theorem State.deconfigure_lineLaw {s : State} (h : s.LineLaw) (i : StreamId) : (s.deconfigure i).1.LineLaw := by
  simp only [State.deconfigure]
  split
  · exact h
  · rename_i hoff
    have hst : (s.stream i).state = .off := by
      by_contra hne
      exact hoff (.inl hne)
    refine h.reconfigure (i := i) rfl (fun _ _ hw => hw) (fun j hj => ⟨?_, rfl⟩) ?_ fun c hc => ?_
    · exact State.stream_putStream_other s _ hj
    · simp only [State.accept, State.stream_putStream_same]
      exact StreamCtx.driving_of_off hst
    · simp only [State.accept, State.stream_putStream_same] at hc
      cases hc

/-- Every block right after pin reset, and while RESET is low (R21, R41). -/
theorem State.lineLaw_of_reset {s : State} (hl : s.line = .reset) (hs : s.streams = .replicate 16 .reset) :
    s.LineLaw := by
  have hstr : ∀ i, s.stream i = .reset := fun i => by simp [State.stream, hs]
  refine .of_settings ?_ (by rw [hl]; decide)
  simp only [State.SettingsLaw, hstr, hl]
  exact ⟨by simp [LineFormat.Legal, LinePort.reset, LineFormat.reset], by decide, by decide, by decide,
    fun _ _ hc => by cases hc⟩

/-! ### Every step -/

theorem State.runCommand_lineLaw {s : State} (op arg : Byte) {run : State → Answer} (h : s.LineLaw)
    (hr : (run s).1.LineLaw) : (s.runCommand op arg run).LineLaw := by
  simp only [State.runCommand]
  split
  · exact h
  · exact hr.keepsLine (.of_eq rfl rfl)

theorem State.event_lineLaw {s : State} {run : State → State} (h : s.LineLaw) (hr : (run s).LineLaw) :
    (s.event run).LineLaw := by
  simp only [State.event]
  split
  · exact h
  · exact hr

theorem State.forStream_lineLaw {s : State} (arg : Byte) {run : StreamId → Answer} (h : s.LineLaw)
    (hr : ∀ i, (run i).1.LineLaw) : (s.forStream arg run).1.LineLaw := by
  simp only [State.forStream]
  split
  · exact h
  · exact hr _

theorem exec_lineLaw {c : Instr} {s t : State} (h : s.LineLaw) (hstep : exec c s = .next t) : t.LineLaw := by
  by_cases hc : movesLine c = false
  · exact h.keepsLine (exec_keepsLine hc hstep)
  · cases c with
    | configure a =>
      cases hstep
      exact State.runCommand_lineLaw _ a h (State.forStream_lineLaw a h (State.configure_lineLaw h))
    | deconfigure a =>
      cases hstep
      exact State.runCommand_lineLaw _ a h (State.forStream_lineLaw a h (State.deconfigure_lineLaw h))
    | lineSet a => cases hstep; exact State.runCommand_lineLaw _ a h (State.lineSet_lineLaw h)
    | lineUp a => cases hstep; exact State.runCommand_lineLaw _ a h (State.lineUp_lineLaw h)
    | lineDown a => cases hstep; exact State.runCommand_lineLaw _ a h (State.lineDown_lineLaw h)
    | pinReset => cases hstep; exact State.lineLaw_of_reset rfl rfl
    | syncArrival bit => cases hstep; exact State.event_lineLaw h (State.sampleHigh_lineLaw h bit)
    | trialTimeout => cases hstep; exact State.event_lineLaw h (State.endTrial_lineLaw h)
    | missedSync => cases hstep; exact State.event_lineLaw h (State.missSync_lineLaw h)
    | frameEnd => cases hstep; exact State.event_lineLaw h (State.endFrame_lineLaw h)
    | _ => exact absurd rfl hc

/-- Settles O52: a step is a row, or one period of REFCLK, which keeps the line. -/
theorem everyStepKeepsLineAndConfigurations : Obligations.EveryStepKeepsLineAndConfigurations := by
  unfold Obligations.EveryStepKeepsLineAndConfigurations
  intro s t h hstep
  simp only [step] at hstep
  split at hstep
  · cases hstep
    exact h.keepsLine s.idle_keepsLine
  · rename_i c rest hp
    exact exec_lineLaw (s := { s with pending := rest }) (h.keepsLine (.of_eq rfl rfl)) hstep

end Sys2Proof.Machine
end

section
/-! PROOFS. The slot line, chapter 1: reset, the frame counter, LINE_SET, LINE_UP, LINE_DOWN, the follower's trial,
the frame boundaries and the loss of alignment. -/

namespace Sys2Proof.Machine

/-! ### Rows with RESET high -/

/-- An accepted or refused command, with its words (R167, R168). -/
theorem State.runCommand_answer {s u : State} {op arg : Byte} {run : State → Answer} {code : ResultCode} {n : Nat}
    (h : s.resetLow = false) (hr : run s = (u, code, word n)) :
    s.runCommand op arg run = u.withResult op arg code n := by
  simp only [State.runCommand, h, hr, State.withResult]
  rfl

theorem State.event_run {s : State} (h : s.resetLow = false) (run : State → State) : s.event run = run s := by
  simp [State.event, h]

/-! ### Reset (R21, R22, R41, R86, R118, R139, R156) -/

@[simp] theorem State.stream_reset (i : StreamId) : State.reset.stream i = .reset := by
  simp [State.reset, State.stream]

@[simp] theorem State.members_reset (g : GroupId) : State.reset.members g = [] := by
  simp [State.members, StreamCtx.group?, StreamCtx.reset]

theorem State.bankAgrees_reset (b : BankId) : State.reset.BankAgrees (State.reset.map.bank b) := by
  intro k i d hk
  cases b <;> simp [State.reset, SlotMap.reset, SlotMap.bank] at hk

theorem State.groupLaw_reset : State.reset.GroupLaw := by
  intro g
  have hg : State.reset.groups[g] = .none := by simp [State.reset]
  simp [hg, StreamCtx.reset]

theorem State.streamLaw_reset : State.reset.StreamLaw := by
  refine ⟨⟨State.bankAgrees_reset .b0, by simp [State.reset, SlotMap.reset]⟩, ⟨by simp [StreamCtx.reset], ?_⟩, ?_⟩
  · simp [State.reset, Mover.reset]
  · simp [StreamCtx.OffLaw, StreamCtx.QueueLaw, StreamCtx.reset]

theorem State.headLaw_reset : State.reset.HeadLaw := by
  refine ⟨by simp [State.reset, Mover.reset], ?_⟩
  simp [StreamCtx.HeadLaw, StreamCtx.reset]

/-- Settles O48. -/
theorem lawsHoldAtReset : Obligations.LawsHoldAtReset := by
  unfold Obligations.LawsHoldAtReset
  refine ⟨⟨by decide, by simp [StreamCtx.reset]⟩, by simp [State.CounterLaw, StreamCtx.reset], ?_,
    State.streamLaw_reset.1, State.lineLaw_of_reset rfl rfl, ?_, ?_, State.groupLaw_reset, State.streamLaw_reset,
    State.reset_mem_wf, ?_, State.headLaw_reset⟩
  · simp [CompletionQueue.Law, State.reset, CompletionQueue.reset]
  · simp [Mover.Law, State.reset, Mover.reset]
  · simp [State.IdleLaw, State.reset, Mover.reset]
  · simp [State.TenureLaw, State.reset, Mover.reset]

/-! ### The frame counter (R14) -/

theorem State.settle_frame (s : State) : s.settle.line.frame = s.line.frame := s.settle_keepsLine.frame

theorem State.boundary_frame (s : State) (lp : BitVec 16 → List Record) :
    (s.boundary lp).line.frame = s.line.frame + 1 := by
  obtain ⟨hline, -⟩ := s.boundary_spec lp
  rw [hline]

theorem State.loseAlignment_frame (s : State) : s.loseAlignment.line.frame = s.line.frame := by
  obtain ⟨_, _, _, -, -, -, -, hframe⟩ := s.loseAlignment_spec
  generalize s.loseAlignment = u at hframe ⊢
  rw [hframe]

theorem State.takeLineDown_frame (s : State) : s.takeLineDown.line.frame = s.line.frame := by
  obtain ⟨_, hline, -⟩ := s.takeLineDown_spec
  rw [hline]

theorem State.lineUp_frame (s : State) :
    s.lineUp.1.line.frame = s.line.frame ∨ s.lineUp.1.line.frame = 0 ∨ s.lineUp.1.line.frame = 1 := by
  simp only [State.lineUp]
  split
  · exact .inl rfl
  · split
    · exact .inr (.inl rfl)
    all_goals exact .inr (.inr (by simp only [State.accept, State.settle_frame, State.boundary_frame]; rfl))

/-- A boundary of a line port that stands at the counter of `s`, with what follows it. -/
theorem State.boundary_settle_frame (s : State) (l : LinePort) (lp : BitVec 16 → List Record)
    (hl : l.frame = s.line.frame) :
    (State.boundary { s with line := l } lp).settle.line.frame = s.line.frame + 1 := by
  rw [State.settle_frame, State.boundary_frame, hl]

theorem State.takeSync_frame (s : State) (pos : Nat) :
    (s.takeSync pos).line.frame = s.line.frame ∨ (s.takeSync pos).line.frame = s.line.frame + 1 := by
  simp only [State.takeSync]
  split
  · exact .inl rfl
  · exact .inl rfl
  · split
    · exact .inl rfl
    · split
      · exact .inr (s.boundary_settle_frame _ _ rfl)
      · exact .inl rfl
  all_goals
    split
    · exact .inr (s.boundary_settle_frame _ _ rfl)
    · split
      · exact .inr (s.boundary_settle_frame _ _ rfl)
      · exact .inl rfl

theorem State.sampleHigh_frame (s : State) (bit : Nat) :
    (s.sampleHigh bit).line.frame = s.line.frame ∨ (s.sampleHigh bit).line.frame = s.line.frame + 1 := by
  simp only [State.sampleHigh]
  split
  · exact s.takeSync_frame _
  · exact .inl rfl

theorem State.missSync_frame (s : State) :
    s.missSync.line.frame = s.line.frame ∨ s.missSync.line.frame = s.line.frame + 1 := by
  simp only [State.missSync]
  split
  · split
    · exact .inr (s.boundary_settle_frame _ _ rfl)
    · left
      rw [State.settle_frame, State.loseAlignment_frame]
      rfl
  · exact .inl rfl

theorem State.endFrame_frame (s : State) :
    s.endFrame.line.frame = s.line.frame ∨ s.endFrame.line.frame = s.line.frame + 1 := by
  simp only [State.endFrame]
  split
  · exact .inr (s.boundary_settle_frame _ _ rfl)
  · exact .inl rfl

theorem State.configure_frame (s : State) (i : StreamId) : (s.configure i).1.line.frame = s.line.frame := by
  simp only [State.configure]
  repeat' split
  all_goals rfl

theorem State.deconfigure_frame (s : State) (i : StreamId) : (s.deconfigure i).1.line.frame = s.line.frame := by
  simp only [State.deconfigure]
  split <;> rfl

theorem State.lineSet_frame (s : State) : s.lineSet.1.line.frame = s.line.frame := by
  simp only [State.lineSet]
  repeat' split
  all_goals rfl

theorem State.lineDown_frame (s : State) : s.lineDown.1.line.frame = s.line.frame := by
  simp only [State.lineDown]
  split
  · simp only [State.accept, State.settle_frame, State.takeLineDown_frame]
  · rfl

theorem State.endTrial_frame (s : State) : s.endTrial.line.frame = s.line.frame := by
  simp only [State.endTrial]
  split <;> rfl

/-- What is said of the counter after a command or an event holds while RESET is low, when it holds of no change. -/
theorem State.runCommand_frame {s : State} {p : BitVec 16 → Prop} (op arg : Byte) {run : State → Answer}
    (h0 : p s.line.frame) (h : p (run s).1.line.frame) : p (s.runCommand op arg run).line.frame := by
  simp only [State.runCommand]
  split
  · exact h0
  · exact h

theorem State.event_frame {s : State} {p : BitVec 16 → Prop} {run : State → State}
    (h0 : p s.line.frame) (h : p (run s).line.frame) : p (s.event run).line.frame := by
  simp only [State.event]
  split
  · exact h0
  · exact h

theorem State.forStream_frame {s : State} (arg : Byte) {run : StreamId → Answer}
    (h : ∀ i, (run i).1.line.frame = s.line.frame) : (s.forStream arg run).1.line.frame = s.line.frame := by
  simp only [State.forStream]
  split
  · rfl
  · exact h _

/-- Settles O29. -/
theorem frameCounterChangesOnlyAtBoundaries : Obligations.FrameCounterChangesOnlyAtBoundaries := by
  unfold Obligations.FrameCounterChangesOnlyAtBoundaries
  intro c s t h
  cases c with
  | pinReset => cases h; rfl
  | lineUp a =>
    cases h
    exact State.runCommand_frame (p := fun f => f = s.line.frame ∨ f = 0 ∨ f = 1) _ a (.inl rfl) s.lineUp_frame
  | syncArrival bit =>
    cases h
    exact State.event_frame (p := fun f => f = s.line.frame ∨ f = s.line.frame + 1) (.inl rfl) (s.sampleHigh_frame bit)
  | missedSync =>
    cases h
    exact State.event_frame (p := fun f => f = s.line.frame ∨ f = s.line.frame + 1) (.inl rfl) s.missSync_frame
  | frameEnd =>
    cases h
    exact State.event_frame (p := fun f => f = s.line.frame ∨ f = s.line.frame + 1) (.inl rfl) s.endFrame_frame
  | configure a =>
    cases h
    exact State.runCommand_frame (p := (· = s.line.frame)) _ a rfl (State.forStream_frame a s.configure_frame)
  | deconfigure a =>
    cases h
    exact State.runCommand_frame (p := (· = s.line.frame)) _ a rfl (State.forStream_frame a s.deconfigure_frame)
  | lineSet a => cases h; exact State.runCommand_frame (p := (· = s.line.frame)) _ a rfl s.lineSet_frame
  | lineDown a => cases h; exact State.runCommand_frame (p := (· = s.line.frame)) _ a rfl s.lineDown_frame
  | trialTimeout => cases h; exact State.event_frame (p := (· = s.line.frame)) rfl s.endTrial_frame
  | _ => exact (exec_keepsLine rfl h).frame

/-! ### LINE_SET (R1) -/

theorem LinePort.ne_disabled_of_served {l : LinePort} (h : l.served = true) : l.state ≠ .disabled := by
  rcases (LinePort.served_iff l).1 h with h | h <;> simp [h]

theorem LinePort.up_eq_false_iff (l : LinePort) : l.up = false ↔ l.state = .disabled := by
  simp [LinePort.up]


/-- The six settings as LINE_SET stages them (section 10.7). -/
theorem LineFormat.parse_eq (w0 w1 w2 : Word) :
    LineFormat.parse w0 w1 w2 =
      if 2 ≤ field w0 5 0 ∧ field w0 5 0 ≤ 32 ∧ field w0 11 8 ≤ 6 ∧ field w0 13 12 ≤ 2 ∧ field w1 11 8 ≠ 0 then
        some { slots := field w0 5 0, slotLen := 8 + 4 * field w0 11 8
               mode := if field w0 13 12 = 0 then .follower else if field w0 13 12 = 1 then .master else .loopback
               bclkDiv := field w1 7 0, flywheel := field w1 11 8, tbDiv := field w2 5 0 }
      else none := by
  have hmode : lineModeOf (field w0 13 12) =
      if field w0 13 12 ≤ 2 then some (if field w0 13 12 = 0 then .follower else if field w0 13 12 = 1 then .master
        else .loopback) else none := by
    have hlt := field_lt w0 13 12
    generalize field w0 13 12 = m at hlt ⊢
    interval_cases m <;> rfl
  have hiff : (2 ≤ field w0 5 0 ∧ field w0 5 0 ≤ 32 ∧ field w0 11 8 ≤ 6 ∧ field w0 13 12 ≤ 2 ∧ field w1 11 8 ≠ 0)
      ↔ field w0 13 12 ≤ 2
        ∧ ¬ (field w0 5 0 < 2 ∨ 32 < field w0 5 0 ∨ 6 < field w0 11 8 ∨ field w1 11 8 = 0) := by omega
  simp only [LineFormat.parse, hmode, hiff]
  by_cases hm : field w0 13 12 ≤ 2
  · simp only [hm, if_true, true_and, ite_not]
  · simp only [hm, if_false, false_and]

theorem StreamCtx.widerThan_iff (c : StreamCtx) (n : Nat) :
    c.widerThan n = true ↔ ∃ cfg, c.cfg = some cfg ∧ n < cfg.width := by
  cases hc : c.cfg <;> simp [StreamCtx.widerThan, hc]

theorem lt_allStreams_length (i : StreamId) : i.val < allStreams.length := i.isLt

theorem allStreams_getElem (i : StreamId) : allStreams[i.val]'(lt_allStreams_length i) = i := by
  revert i; decide

/-- The lowest stream of which something holds is the one the search over the streams finds. -/
theorem find?_allStreams_eq_some {p : StreamId → Bool} {i : StreamId} (hp : p i = true)
    (hlow : ∀ j, j < i → p j = false) : allStreams.find? p = some i := by
  rw [List.find?_eq_some_iff_getElem]
  refine ⟨hp, i.val, lt_allStreams_length i, allStreams_getElem i, fun j hj => ?_⟩
  have hget := allStreams_getElem ⟨j, hj.trans i.isLt⟩
  simp only at hget
  rw [hget, hlow _ hj]
  rfl

theorem find?_allStreams_eq_none {p : StreamId → Bool} (h : ∀ i, p i = false) : allStreams.find? p = none :=
  List.find?_eq_none.2 fun i _ => by simp [h i]

/-- Settles O23. -/
theorem lineSetOutcome : Obligations.LineSetOutcome := by
  unfold Obligations.LineSetOutcome
  intro s arg hr
  simp only
  have hexec : ∀ {u code n}, s.lineSet = (u, code, word n) →
      exec (.lineSet arg) s = .next (u.withResult 0x40 arg code n) := fun h =>
    congrArg Host.Outcome.next (State.runCommand_answer hr h)
  refine ⟨fun hup => hexec ?_, fun hdown => ?_⟩
  · simp only [State.lineSet, (LinePort.up_iff s.line).2 hup, if_true]; rfl
  · have hnot : s.line.up = false := (LinePort.up_eq_false_iff s.line).2 hdown
    simp only [State.lineSet, hnot, Bool.false_eq_true, if_false, LineFormat.parse_eq] at hexec
    refine ⟨fun hrange => hexec ?_, fun hrange => ⟨fun i hwide hlow => hexec ?_, fun hnone => hexec ?_⟩⟩
    · simp only [if_neg hrange]; rfl
    · simp only [if_pos hrange]
      rw [find?_allStreams_eq_some ((StreamCtx.widerThan_iff _ _).2 hwide)]
      · rfl
      · exact fun j hj => Bool.eq_false_iff.2 fun hw => hlow j hj ((StreamCtx.widerThan_iff _ _).1 hw)
    · simp only [if_pos hrange]
      rw [find?_allStreams_eq_none]
      · rfl
      · exact fun i => Bool.eq_false_iff.2 fun hw => hnone i ((StreamCtx.widerThan_iff _ _).1 hw)

/-! ### LINE_UP (R5) -/

/-- Settles O24. -/
theorem lineUpOutcome : Obligations.LineUpOutcome := by
  unfold Obligations.LineUpOutcome
  intro s arg hr
  simp only
  have hexec : ∀ {u code n}, s.lineUp = (u, code, word n) →
      exec (.lineUp arg) s = .next (u.withResult 0x41 arg code n) := fun h =>
    congrArg Host.Outcome.next (State.runCommand_answer hr h)
  refine ⟨fun hup => hexec ?_, fun hdown hmode => hexec ?_, fun hdown hmode => ⟨_, State.boundary_spec _ (fun _ => []), ?_, hexec ?_⟩⟩
  · simp only [State.lineUp, (LinePort.up_iff s.line).2 hup, if_true]; rfl
  · have hnot : s.line.up = false := (LinePort.up_eq_false_iff s.line).2 hdown
    simp only [State.lineUp, hnot, Bool.false_eq_true, if_false, hmode]; rfl
  · rw [State.boundary_frame]; rfl
  · have hnot : s.line.up = false := (LinePort.up_eq_false_iff s.line).2 hdown
    simp only [State.lineUp, hnot, Bool.false_eq_true, if_false]
    cases hm : s.line.fmt.mode with
    | follower => exact absurd hm hmode
    | master => rfl
    | loopback => rfl

/-! ### LINE_DOWN (R19, R20) -/

/-- Acts of all streams at one moment touch the streams and the pool only. -/
theorem State.eachStream_frame (s : State) (f : State → StreamId → StreamCtx × List Raised) :
    (s.eachStream f).1 = { s with streams := (s.eachStream f).1.streams, free := (s.eachStream f).1.free } := by
  have key : ∀ (l : List StreamId) (t : State) (acc : List Raised),
      let r := l.foldl (fun a i => let r := f a.1 i; (a.1.putStream i r.1, a.2 ++ r.2)) (t, acc)
      r.1 = { t with streams := r.1.streams, free := r.1.free } := by
    intro l
    induction l with
    | nil => exact fun _ _ => rfl
    | cons k l ih =>
      intro t acc
      simp only [List.foldl_cons]
      rw [ih]
      rfl
  exact key allStreams s []

theorem State.swapIfPending_frame (s : State) (frame : BitVec 16) :
    (s.swapIfPending frame).1 = { s with map := (s.swapIfPending frame).1.map } := by
  simp only [State.swapIfPending]
  split <;> rfl

/-- Acts of all streams, a pending swap and their records touch no other unit. -/
theorem State.actsTogether_units (s : State) (f : State → StreamId → StreamCtx × List Raised) (frame : BitVec 16)
    (batch : List Raised) {u : State} (hu : ((s.eachStream f).1.swapIfPending frame).1.raiseBatch batch = u) :
    u = { s with
      map := u.map, streams := u.streams, free := u.free, cq := u.cq, freeIdx := u.freeIdx } := by
  have h1 := s.eachStream_frame f
  generalize s.eachStream f = e at h1 hu
  obtain ⟨t, es⟩ := e
  have h2 := t.swapIfPending_frame frame
  generalize t.swapIfPending frame = w at h2 hu
  obtain ⟨v, ws⟩ := w
  simp only at h1 h2 hu
  generalize t.streams = str, t.free = free at h1
  generalize v.map = map at h2
  subst h1 h2 hu
  rfl

/-- LINE_DOWN leaves every other unit as it was (R20). -/
theorem State.takeLineDown_units (s : State) :
    s.takeLineDown = { s with
      line := s.takeLineDown.line, map := s.takeLineDown.map, streams := s.takeLineDown.streams
      free := s.takeLineDown.free, cq := s.takeLineDown.cq, freeIdx := s.takeLineDown.freeIdx } := by
  have h := State.actsTogether_units _ _ _ _ (show _ = s.takeLineDown from rfl)
  have hl := congrArg State.line h
  rw [hl]
  exact h

/-- Two states whose queues are equally long hold as many descriptors. -/
theorem State.queued_of_lengths {s t : State}
    (h : ∀ i, (t.stream i).queue.length = (s.stream i).queue.length) : t.queued = s.queued := by
  simp only [State.queued, h]

/-- Settles O25. -/
theorem lineDownOutcome : Obligations.LineDownOutcome := by
  unfold Obligations.LineDownOutcome
  intro s arg hr
  have hexec : ∀ {u code n}, s.lineDown = (u, code, word n) →
      exec (.lineDown arg) s = .next (u.withResult 0x42 arg code n) := fun h =>
    congrArg Host.Outcome.next (State.runCommand_answer hr h)
  refine ⟨fun hdown => hexec ?_, fun hup => ?_⟩
  · have hnot : s.line.up = false := (LinePort.up_eq_false_iff s.line).2 hdown
    simp only [State.lineDown, hnot, Bool.false_eq_true, if_false]; rfl
  · obtain ⟨raised, hline, hstr, hmap, hperm, hcq, hpool⟩ := s.takeLineDown_spec
    have hqueued : s.takeLineDown.queued = s.queued := State.queued_of_lengths fun i => by
      rw [hstr]; split <;> rfl
    have hfree : s.takeLineDown.free = s.free := by omega
    refine ⟨s.takeLineDown, raised, hexec ?_, hline, hstr, hmap, hperm, hcq, ?_⟩
    · simp only [State.lineDown, (LinePort.up_iff s.line).2 hup, if_true]; rfl
    · exact s.takeLineDown_units.trans (by rw [hfree])

/-! ### The follower's trial (R4, R6, R7) -/

/-- Settles O26. -/
theorem followerHuntsAndTries : Obligations.FollowerHuntsAndTries := by
  unfold Obligations.FollowerHuntsAndTries
  intro s hr
  simp only
  have hlow : exec .fsyncLowSample s = .next s.sampleLow := congrArg Host.Outcome.next (State.event_run hr _)
  have hsync : ∀ bit, exec (.syncArrival bit) s = .next (s.sampleHigh bit) := fun bit =>
    congrArg Host.Outcome.next (State.event_run hr _)
  have htrial : exec .trialTimeout s = .next s.endTrial := congrArg Host.Outcome.next (State.event_run hr _)
  simp only [hlow, hsync, htrial, ← s.following_iff, State.sampleLow, State.sampleHigh, State.endTrial]
  refine ⟨fun hf => by rw [if_pos hf], fun hf => by rw [if_neg hf], fun bit hf => ?_, fun bit hf hs hst => ?_,
    fun bit hf hs hst hlt => ?_, fun hf hst => by rw [if_pos ⟨hf, hst⟩]; rfl, fun hf => ?_⟩
  · rw [if_neg]
    rintro ⟨h1, h2⟩
    rcases hf with hf | hf
    · exact hf h1
    · rw [hf] at h2; exact absurd h2 (by decide)
  · rw [if_pos ⟨hf, hs⟩]
    simp only [State.takeSync, hst]
    rfl
  · rw [if_pos ⟨hf, hs⟩]
    have hbits : max bit s.line.bitPos < s.line.fmt.frameBits := hlt
    simp only [State.takeSync, hst, if_pos hbits]
    rfl
  · rw [if_neg]
    rintro ⟨h1, h2⟩
    exact hf.elim (fun k => k h1) (fun k => k h2)

/-! ### The frame boundaries and the loss of alignment (R6 to R11, R13) -/

/-- A sync in a served frame (R8, R9). -/
theorem State.takeSync_served {s : State} (h : s.line.served = true) (pos : Nat) :
    s.takeSync pos =
      let opened := fun own => (State.boundary { s with line := { s.line.passTo pos with
        lowSeen := false, state := .aligned, miss := 0 } } own).settle
      if pos < s.line.fmt.frameBits then opened fun f => [.frameSlip f]
      else if pos = s.line.fmt.frameBits then opened fun _ => []
      else s := by
  rcases (LinePort.served_iff _).1 h with hst | hst <;> simp only [State.takeSync, hst] <;> rfl

/-- Settles O27. -/
theorem everyFrameBoundary : Obligations.EveryFrameBoundary := by
  unfold Obligations.EveryFrameBoundary
  intro s hr
  simp only
  have hopen : ∀ {c : Instr} (l : LinePort) (lp : BitVec 16 → List Record) {own : List Record},
      exec c s = .next (State.boundary { s with line := l } lp).settle → lp (l.frame + 1) = own →
      ∃ u, BoundaryTo { s with line := l } u own ∧ exec c s = .next u.settle := fun l lp _ h ho =>
    ⟨_, ho ▸ State.boundary_spec _ lp, h⟩
  have hbits : s.line.fmt.slots * s.line.fmt.slotLen = s.line.fmt.frameBits := rfl
  refine ⟨fun hm hs bit => ?_, fun hm hs hmiss => hopen _ (fun _ => []) ?_ rfl,
    fun hm hst => hopen _ (fun _ => []) ?_ rfl⟩
  · have hsync : s.line.state ≠ .disabled → exec (.syncArrival bit) s = .next (s.takeSync (max bit s.line.bitPos)) := by
      intro hup
      refine congrArg Host.Outcome.next ((State.event_run hr _).trans ?_)
      simp only [State.sampleHigh, s.following_iff.2 ⟨hm, hup⟩, hs, and_self, if_true]
    refine ⟨fun hst hpos => hopen _ (fun f => [.alignGained f]) ?_ rfl,
      fun hst hpos => hopen _ (fun _ => []) ?_ rfl, fun hst hlt => hopen _ (fun f => [.frameSlip f]) ?_ rfl⟩
    · rw [hsync (by simp [hst]), hpos]
      simp only [State.takeSync, hst, hbits, Nat.lt_irrefl, if_false, if_true]
    · rw [hsync (LinePort.ne_disabled_of_served hst), State.takeSync_served hst, hpos]
      simp only [hbits, Nat.lt_irrefl, if_false, if_true]
    · rw [hsync (LinePort.ne_disabled_of_served hst), State.takeSync_served hst]
      exact congrArg Host.Outcome.next (if_pos hlt)
  · have hup := LinePort.ne_disabled_of_served hs
    refine congrArg Host.Outcome.next ((State.event_run hr _).trans ?_)
    simp only [State.missSync, s.following_iff.2 ⟨hm, hup⟩, hs, and_self, if_true, if_pos hmiss]
    rfl
  · refine congrArg Host.Outcome.next ((State.event_run hr _).trans ?_)
    rw [State.endFrame, if_pos ⟨hm, hst⟩]
    rfl

/-- Settles O28. -/
theorem missedSyncLosesAlignment : Obligations.MissedSyncLosesAlignment := by
  unfold Obligations.MissedSyncLosesAlignment
  intro s hr hm hs hmiss
  obtain ⟨stops, halts, raised, hlost, hraised, hcq, hpool, hframe⟩ :=
    State.loseAlignment_spec { s with line := s.line.passTo s.line.fmt.frameBits }
  have hexec : exec .missedSync s
      = .next (State.loseAlignment { s with line := s.line.passTo s.line.fmt.frameBits }).settle := by
    refine congrArg Host.Outcome.next ((State.event_run hr _).trans ?_)
    simp only [State.missSync, s.following_iff.2 ⟨hm, LinePort.ne_disabled_of_served hs⟩, hs, and_self, if_true,
      if_neg (Nat.not_lt.2 hmiss)]
  generalize State.loseAlignment { s with line := s.line.passTo s.line.fmt.frameBits } = u
    at hlost hraised hcq hpool hframe hexec
  refine ⟨u, stops, halts, raised, hexec, congrArg State.line hframe, hlost, congrArg State.map hframe, hraised,
    hcq, hpool, ?_⟩
  have hl := congrArg State.line hframe
  have hmap := congrArg State.map hframe
  rw [hl, hmap]
  exact hframe

end Sys2Proof.Machine
end

section
/-! PROOFS. Bits and slots: the order of bits, the PACKED bit stream, the loopback path, and what the slot events do
to the stream that owns the slot. -/

namespace Sys2Proof.Machine

/-! ### Bits, most significant first -/

@[simp] theorem length_bitsOf (w n : Nat) : (bitsOf w n).length = w := by
  induction w with
  | zero => rfl
  | succ w ih => simp [bitsOf, ih]

theorem getElem?_bitsOf {w j : Nat} (n : Nat) (h : j < w) : (bitsOf w n)[j]? = some (n.testBit (w - 1 - j)) := by
  induction w generalizing j with
  | zero => exact absurd h (Nat.not_lt_zero j)
  | succ w ih =>
    cases j with
    | zero => simp [bitsOf]
    | succ j =>
      have hj : j < w := Nat.lt_of_succ_lt_succ h
      have hidx : w + 1 - 1 - (j + 1) = w - 1 - j := by omega
      rw [bitsOf, List.getElem?_cons_succ, ih hj, hidx]

/-- Reading bits on after a number: the number moves up by as many places. -/
theorem foldl_bitsOf (w n a : Nat) :
    (bitsOf w n).foldl (fun a b => 2 * a + b.toNat) a = a * 2 ^ w + n % 2 ^ w := by
  induction w generalizing a with
  | zero => simp [bitsOf, Nat.mod_one]
  | succ w ih =>
    rw [bitsOf, List.foldl_cons, ih, Nat.mod_pow_succ, Nat.toNat_testBit, Nat.pow_succ]
    ring

theorem natOf_bitsOf (w n : Nat) : natOf (bitsOf w n) = n % 2 ^ w := by
  rw [natOf, foldl_bitsOf, Nat.zero_mul, Nat.zero_add]

/-- A sample that fits its width is read back from its bits. -/
theorem ofNat_natOf_bitsOf {w : Nat} {x : Sample} (h : x.toNat < 2 ^ w) :
    BitVec.ofNat 24 (natOf (bitsOf w x.toNat)) = x := by
  rw [natOf_bitsOf, Nat.mod_eq_of_lt h, BitVec.ofNat_toNat, BitVec.setWidth_eq]

theorem cutSamples_flatMap (w : Nat) (xs : List Sample) (tail : List Bool) (h : ∀ x ∈ xs, x.toNat < 2 ^ w) :
    cutSamples w xs.length (xs.flatMap (fun x => bitsOf w x.toNat) ++ tail) = (xs, tail) := by
  induction xs with
  | nil => rfl
  | cons x xs ih =>
    have hx : x.toNat < 2 ^ w := h x (by simp)
    have ih' := ih fun y hy => h y (by simp [hy])
    simp only [List.length_cons, List.flatMap_cons, List.append_assoc, cutSamples,
      List.drop_left' (length_bitsOf w x.toNat), List.take_left' (length_bitsOf w x.toNat), ih', ofNat_natOf_bitsOf hx]

/-- Settles O58. -/
theorem packedSamplesRoundTrip : Obligations.PackedSamplesRoundTrip := by
  unfold Obligations.PackedSamplesRoundTrip
  exact ⟨fun w n j h => getElem?_bitsOf n h, natOf_bitsOf, fun w xs tail _ _ h => cutSamples_flatMap w xs tail h⟩

/-! ### The loopback path (R18) -/

/-- What the transmit output gives in `k` bit periods: the bits of the shift register, then ones. -/
def LinePort.given (l : LinePort) (k : Nat) : List Bool :=
  l.txBits.take k ++ List.replicate (k - l.txBits.length) true

theorem LinePort.pass_driven (l : LinePort) (k : Nat) :
    (l.pass k).driven = ((l.given k).reverse ++ l.driven).take (2 * l.fmt.slotLen) := rfl

@[simp] theorem LinePort.pass_fmt (l : LinePort) (k : Nat) : (l.pass k).fmt = l.fmt := rfl

@[simp] theorem LinePort.length_given (l : LinePort) (k : Nat) : (l.given k).length = k := by
  simp only [LinePort.given, List.length_append, List.length_take, List.length_replicate]
  omega

theorem LinePort.take_given (l : LinePort) {j k : Nat} (h : j ≤ k) : (l.given k).take j = l.given j := by
  simp only [LinePort.given, List.take_append, List.take_take, List.length_take, List.take_replicate]
  congr 2 <;> omega

/-- A delay line of two slot lengths `S` that took `S` bits `a` and then at most `S` bits `b`: `S` places back stand the
first bits of `a`, the newest first. -/
theorem take_drop_delayed {S width : Nat} (hw : width ≤ S) {a b c : List Bool} (ha : a.length = S)
    (hb : b.length = width) :
    (((b.reverse ++ (a.reverse ++ c).take (2 * S)).take (2 * S)).drop S).take width = (a.take width).reverse := by
  have hS : 2 * S - S = S := by omega
  have hold : (a.reverse ++ c).take (2 * S) = a.reverse ++ c.take S := by
    rw [List.take_append, List.length_reverse, ha, hS, List.take_of_length_le (by simp [ha]; omega)]
  have hnew : b.reverse.drop S = [] := List.drop_eq_nil_of_le (by simp [hb, hw])
  have hlast : (a.reverse.drop (S - width)).length = width := by
    rw [List.length_drop, List.length_reverse, ha]; omega
  calc
    (((b.reverse ++ (a.reverse ++ c).take (2 * S)).take (2 * S)).drop S).take width
      = ((b.reverse ++ (a.reverse ++ c.take S)).drop S).take width := by
        rw [hold, List.drop_take, hS, List.take_take, Nat.min_eq_left hw]
    _ = ((a.reverse ++ c.take S).drop (S - width)).take width := by
        rw [List.drop_append, hnew, List.nil_append, List.length_reverse, hb]
    _ = a.reverse.drop (S - width) := by
        rw [List.drop_append_of_le_length (by simp [ha]), List.take_left' hlast]
    _ = (a.take width).reverse := by
        rw [List.drop_reverse, ha, Nat.sub_sub_self hw]

/-- One slot length and `width` bit periods later the loopback path shows the first `width` bits given (R18). -/
theorem LinePort.loopback_pass_pass (l : LinePort) {width : Nat} (h : width ≤ l.fmt.slotLen) :
    ((l.pass l.fmt.slotLen).pass width).loopback width = l.given width := by
  generalize hS : l.fmt.slotLen = S at h
  have hd : ((l.pass S).pass width).driven
      = (((l.pass S).given width).reverse ++ ((l.given S).reverse ++ l.driven).take (2 * S)).take (2 * S) := by
    rw [LinePort.pass_driven, LinePort.pass_driven, LinePort.pass_fmt, hS]
  have hshow : (((l.pass S).pass width).driven.drop S).take width = (l.given width).reverse := by
    rw [hd, take_drop_delayed h (l.length_given S) (LinePort.length_given _ width), l.take_given h]
  have hlen : ((l.pass S).pass width).fmt.slotLen = S := hS
  simp only [LinePort.loopback, hlen, hshow, List.length_reverse, LinePort.length_given, Nat.sub_self,
    List.replicate_zero, List.append_nil, List.reverse_reverse]

/-- A delay line of ones shows ones. -/
theorem LinePort.loopback_ones {l : LinePort} (h : ∀ b ∈ l.driven, b = true) (width : Nat) :
    l.loopback width = List.replicate width true := by
  simp only [LinePort.loopback, List.reverse_eq_iff, List.reverse_replicate]
  rw [List.eq_replicate_iff]
  constructor
  · simp only [List.length_append, List.length_replicate, List.length_take]
    omega
  · intro b hb
    rcases List.mem_append.1 hb with hb | hb
    · exact h b (List.mem_of_mem_drop (List.mem_of_mem_take hb))
    · exact (List.mem_replicate.1 hb).2

/-- Nothing driven and nothing to shift out: the delay line takes ones. -/
theorem LinePort.pass_ones {l : LinePort} (ht : l.txBits = []) (hd : l.driven = []) (k : Nat) :
    ∀ b ∈ (l.pass k).driven, b = true := by
  intro b hb
  rw [LinePort.pass_driven, hd, LinePort.given, ht] at hb
  have hb' := List.mem_of_mem_take hb
  simp only [List.take_nil, List.length_nil, Nat.sub_zero, List.nil_append, List.append_nil,
    List.reverse_replicate] at hb'
  exact (List.mem_replicate.1 hb').2

/-- Settles O60. -/
theorem loopbackDelaysOneSlot : Obligations.LoopbackDelaysOneSlot := by
  unfold Obligations.LoopbackDelaysOneSlot
  have hfirst : ∀ (l : LinePort) (width : Nat) (rxd : Sample), l.fmt.mode = .loopback → width ≤ l.fmt.slotLen →
      ((l.pass l.fmt.slotLen).pass width).received width rxd = l.given width := fun l width rxd hm hw => by
    rw [LinePort.received, LinePort.pass_fmt, LinePort.pass_fmt, if_pos hm]
    exact l.loopback_pass_pass hw
  refine ⟨hfirst, fun l w width x rxd hm hx hw => ?_, fun s arg hr hdown hm => ?_⟩
  · rw [hfirst l width rxd hm hw, LinePort.given, hx]
    refine ⟨fun hle => ?_, fun hle => ?_⟩
    · rw [List.take_of_length_le (by simpa using hle), length_bitsOf]
    · simp [Nat.sub_eq_zero_of_le hle]
  · obtain ⟨-, -, hup⟩ := lineUpOutcome s arg hr
    obtain ⟨u, ⟨hline, -⟩, -, hexec⟩ := hup hdown (by simp [hm])
    refine ⟨_, hexec, fun k width rxd => ?_⟩
    have hsettle : u.settle.line = u.line := by
      obtain ⟨-, -, -, -, -, -, -, -, -, hl, -⟩ := u.settle_fields
      rw [hl]
      exact u.settledLine_spec.1 fun i hi => by rw [hline] at hi; exact absurd hi (by simp)
    have hl : (u.settle.withResult 0x41 arg .ok 0).line = u.line := hsettle
    rw [hl, LinePort.received, if_pos (by rw [hline]; exact hm)]
    exact LinePort.loopback_ones (LinePort.pass_ones (by rw [hline]) (by rw [hline]) k) width

end Sys2Proof.Machine
end

section
/-! PROOFS. The slot events: what a transmit slot and a receive slot do to the stream that owns them. -/

namespace Sys2Proof.Machine

/-! ### Transmit slots (R16, R68, R69, R58) -/

/-- A stream that is OFF, ARMED or HALTED, or unconfigured, answers with no sample (R68). -/
theorem State.serveTx_silent {s : State} {i : StreamId} (width : Nat) (h : (s.stream i).driving = false) :
    s.serveTx i width = { s with line := { s.line with txStream := none, txBits := [] } } := by
  simp only [State.serveTx]
  split
  · rfl
  · cases hst : (s.stream i).state with
    | off => rfl
    | armed m e => rfl
    | halted c => rfl
    | running => simp [StreamCtx.driving, hst] at h
    | stopping => simp [StreamCtx.driving, hst] at h
    | draining k r => simp [StreamCtx.driving, hst] at h

/-- A driving stream with a sample sends its oldest one (R69). -/
theorem State.serveTx_sample {s : State} {i : StreamId} {width : Nat} {cfg : StreamConfig} {x : Sample}
    {rest : List Sample} (hc : (s.stream i).cfg = some cfg) (hd : (s.stream i).driving = true)
    (hf : (s.stream i).fifo = x :: rest) :
    s.serveTx i width = { s.withStream i ((s.stream i).takeSample x rest) with
      line := { s.line with txStream := some i, txBits := bitsOf width x.toNat } } := by
  have hput := s.putStream_eq_withStream i ((s.stream i).takeSample x rest) rfl
  cases hst : (s.stream i).state with
  | off => simp [StreamCtx.driving, hst] at hd
  | armed m e => simp [StreamCtx.driving, hst] at hd
  | halted c => simp [StreamCtx.driving, hst] at hd
  | running => simp only [State.serveTx, hc, hst, hf, hput]; rfl
  | stopping => simp only [State.serveTx, hc, hst, hf, hput]; rfl
  | draining k r => simp only [State.serveTx, hc, hst, hf, hput]; rfl

/-- A draining stream with an empty FIFO notes the release (R58). -/
theorem State.serveTx_release {s : State} {i : StreamId} {width : Nat} {cfg : StreamConfig} {k : DrainKind}
    {r : Bool} (hc : (s.stream i).cfg = some cfg) (hst : (s.stream i).state = .draining k r)
    (hf : (s.stream i).fifo = []) :
    s.serveTx i width = { s.withStream i { s.stream i with state := .draining k true } with
      line := { s.line with txStream := none, txBits := [] } } := by
  rw [← s.putStream_eq_withStream i { s.stream i with state := .draining k true } rfl]
  simp only [State.serveTx, hc, hst, hf]
  rfl

/-- The line port at the start of slot `slot`. -/
def LinePort.atSlot (l : LinePort) (pos slot : Nat) : LinePort := { l.passTo pos with nextSlot := slot + 1 }

/-- The row of a transmit slot that a stream owns: the stream's answer, and what follows it (R16, R68). -/
theorem exec_transmitSlot {s u : State} {slot width : Nat} {i : StreamId} (hr : s.resetLow = false)
    (ho : s.slotOwner slot .tx = some (i, width))
    (hu : State.serveTx { s with line := s.line.atSlot (slot * s.line.fmt.slotLen) slot } i width = u) :
    exec (.transmitSlot slot) s = .next u.settle := by
  subst hu
  refine congrArg Host.Outcome.next ((State.event_run hr _).trans ?_)
  simp only [State.startTxSlot, ho]
  rfl

/-- Settles O30. -/
theorem transmitSlotOutcome : Obligations.TransmitSlotOutcome := by
  unfold Obligations.TransmitSlotOutcome
  intro s slot i width hr ho c l
  refine ⟨fun hd => exec_transmitSlot hr ho (State.serveTx_silent width hd), fun cfg hc hw => ⟨fun hd x rest hf => ?_,
    fun k r hst hf => exec_transmitSlot hr ho (State.serveTx_release hc hst hf)⟩⟩
  subst hw
  exact exec_transmitSlot hr ho (State.serveTx_sample hc hd hf)

/-! ### Receive slots (R17, R73 to R76) -/

/-- The line port after receive slot `slot` of a stream of width `width` (R17, R18). -/
def LinePort.afterRxSlot (l : LinePort) (slot width : Nat) (rxd : Sample) : LinePort :=
  { l.atSlot (slot * l.fmt.slotLen + width) slot with
    rxBits := (l.passTo (slot * l.fmt.slotLen + width)).received width rxd }

/-- The row of a receive slot that a stream owns: the sample offered, and what follows it (R17, R73). -/
theorem exec_receiveSlot {s u : State} {slot width : Nat} {i : StreamId} {rxd : Sample} (hr : s.resetLow = false)
    (ho : s.slotOwner slot .rx = some (i, width))
    (hu : State.offerRx { s with line := s.line.afterRxSlot slot width rxd } i
      (BitVec.ofNat 24 (natOf (s.line.afterRxSlot slot width rxd).rxBits)) = u) :
    exec (.receiveSlot slot rxd) s = .next u.settle := by
  subst hu
  refine congrArg Host.Outcome.next ((State.event_run hr _).trans ?_)
  simp only [State.endRxSlot, ho]
  rfl

/-- In any state but RUNNING and STOPPING the sample is not taken (R73). -/
theorem State.offerRx_refused {s : State} {i : StreamId} (x : Sample)
    (h : (s.stream i).state ≠ .running ∧ (s.stream i).state ≠ .stopping) : s.offerRx i x = s := by
  simp only [State.offerRx]
  split
  · rfl
  · split
    case h_5 hst => exact absurd hst h.1
    case h_6 hst => exact absurd hst h.2
    all_goals rfl

/-- What an offered sample does to a stream that takes samples (R74 to R76). -/
theorem State.offerRx_taking {s : State} {i : StreamId} {cfg : StreamConfig} (x : Sample)
    (hc : (s.stream i).cfg = some cfg)
    (hst : (s.stream i).state = .running ∨ (s.stream i).state = .stopping) :
    s.offerRx i x =
      if (s.stream i).fifo.length < 8 then
        s.putStream i (((s.stream i).enter x).testEnd (s.uncounted i))
      else if cfg.overrun = .halt then (s.putStream i { s.stream i with overrunEp := true }).haltCascade i .xrun
      else
        let s1 := s.putStream i { s.stream i with
          overrunSamples := saturate (s.stream i).overrunSamples, overrunEp := true }
        if (s.stream i).overrunEp then s1 else s1.raiseAll [.overrun i s.line.frame] := by
  rcases hst with hst | hst <;> simp only [State.offerRx, hc, hst, Config.fifoDepth]

/-- The END test of a receive stream that takes samples (R59). -/
theorem StreamCtx.testEnd_taking {c : StreamCtx} {cfg : StreamConfig} (n : Nat) (hc : c.cfg = some cfg)
    (hd : cfg.direction = .rx) (hst : c.state = .running ∨ c.state = .stopping) :
    c.testEnd n = if c.endCondition n = true then { c with state := .draining .ended false } else c := by
  simp only [StreamCtx.testEnd, hc, hd, hst, true_and]

theorem StreamCtx.endCondition_iff (c : StreamCtx) (n : Nat) :
    c.endCondition n = true ↔ (∃ d, c.queue.getLast? = some d ∧ d.endFlag = true)
      ∧ (c.queue.map Descriptor.length).sum ≤ c.samplesDone + n + c.fifo.length := by
  cases hq : c.queue.getLast? <;> simp [StreamCtx.endCondition, hq]

theorem StreamCtx.testEnd_queue (c : StreamCtx) (n : Nat) : (c.testEnd n).queue = c.queue := by
  simp only [StreamCtx.testEnd]
  split
  · rfl
  · split <;> rfl

/-- The END test of a stream that has just taken a sample: its queue is covered up to its END descriptor (R59). -/
theorem StreamCtx.enter_endCondition_iff (c : StreamCtx) (x : Sample) (n : Nat) :
    (c.enter x).endCondition n = true ↔ (∃ d, c.queue.getLast? = some d ∧ d.endFlag = true)
      ∧ (c.queue.map Descriptor.length).sum ≤ c.samplesDone + n + (c.fifo.length + 1) := by
  rw [StreamCtx.endCondition_iff]
  simp only [StreamCtx.enter, List.length_append, List.length_singleton]

/-- A sample that finds room enters the FIFO, and the END test follows (R74, R59). -/
theorem State.offerRx_room {s : State} {i : StreamId} {cfg : StreamConfig} {x : Sample} {c' : StreamCtx}
    (hc : (s.stream i).cfg = some cfg) (hd : cfg.direction = .rx)
    (hst : (s.stream i).state = .running ∨ (s.stream i).state = .stopping)
    (hroom : (s.stream i).fifo.length < 8)
    (hc' : (if ((s.stream i).enter x).endCondition (s.uncounted i) = true
      then { (s.stream i).enter x with state := .draining .ended false } else (s.stream i).enter x) = c') :
    s.offerRx i x = s.withStream i c' := by
  have htest := StreamCtx.testEnd_taking (c := (s.stream i).enter x) (s.uncounted i) hc hd hst
  have hqueue := congrArg List.length (((s.stream i).enter x).testEnd_queue (s.uncounted i))
  rw [State.offerRx_taking x hc hst, if_pos hroom, State.putStream_eq_withStream _ _ _ hqueue, htest, hc']

/-- Settles O32. -/
theorem receiveSlotTakesTheSample : Obligations.ReceiveSlotTakesTheSample := by
  unfold Obligations.ReceiveSlotTakesTheSample
  intro s slot rxd i cfg hr ho hc hd hst hroom c l bits covered
  have hcov : (c.enter (BitVec.ofNat 24 (natOf bits))).endCondition (s.uncounted i) = true ↔ covered :=
    c.enter_endCondition_iff _ _
  exact ⟨fun h => exec_receiveSlot hr ho (State.offerRx_room hc hd hst hroom (if_pos (hcov.2 h))),
    fun h => exec_receiveSlot hr ho (State.offerRx_room hc hd hst hroom (if_neg (h ∘ hcov.1)))⟩

theorem saturate_eq (x : BitVec 16) : saturate x = if x = 65535#16 then 65535#16 else x + 1 := by
  have hiff : x.toNat = Config.countMax ↔ x = 65535#16 := by
    rw [← BitVec.toNat_inj]; rfl
  simp only [saturate, hiff]
  split
  · assumption
  · rfl

/-- A halt and its cascade raise the same records when no stream's group, and none's being at work, changes. -/
theorem State.haltRecords_congr {s t : State}
    (h : ∀ j, (t.stream j).group? = (s.stream j).group? ∧ (t.stream j).working = (s.stream j).working)
    (hf : t.line.frame = s.line.frame) (i : StreamId) (cause : HaltCause) : t.haltRecords i cause = s.haltRecords i cause := by
  simp only [State.haltRecords, State.cascade, hf, fun j => (h j).1, fun j => (h j).2]

/-- A sample that finds the FIFO full under DROP (R75). -/
theorem State.offerRx_drop {s : State} {i : StreamId} {cfg : StreamConfig} (x : Sample)
    (hc : (s.stream i).cfg = some cfg) (hst : (s.stream i).state = .running ∨ (s.stream i).state = .stopping)
    (hfull : 8 ≤ (s.stream i).fifo.length) (hdrop : cfg.overrun ≠ .halt) :
    s.offerRx i x =
      { s.withStream i { s.stream i with
          overrunEp := true
          overrunSamples := if (s.stream i).overrunSamples = 65535#16 then 65535#16
            else (s.stream i).overrunSamples + 1 } with
        cq := if (s.stream i).overrunEp then s.cq else s.cq.raise (.overrun i s.line.frame) } := by
  rw [State.offerRx_taking x hc hst, if_neg (Nat.not_lt.2 hfull), if_neg hdrop, saturate_eq,
    State.putStream_eq_withStream _ _ _ (by rfl)]
  cases (s.stream i).overrunEp <;> rfl

/-- A sample that finds the FIFO full under HALT (R76): the stream halts, then its group. -/
theorem State.offerRx_halt {s : State} {i : StreamId} {cfg : StreamConfig} (x : Sample)
    (hc : (s.stream i).cfg = some cfg) (hst : (s.stream i).state = .running ∨ (s.stream i).state = .stopping)
    (hfull : 8 ≤ (s.stream i).fifo.length) (hhalt : cfg.overrun = .halt) :
    (s.withStream i { s.stream i with overrunEp := true }).HaltedBy (s.offerRx i x) i .xrun
    ∧ (s.offerRx i x).cq = s.cq.raiseAll (s.haltRecords i .xrun)
    ∧ s.offerRx i x = { s with streams := (s.offerRx i x).streams, cq := (s.offerRx i x).cq } := by
  rw [State.offerRx_taking x hc hst, if_neg (Nat.not_lt.2 hfull), if_pos hhalt,
    State.putStream_eq_withStream _ _ _ (by rfl)]
  have hsame : ∀ j, ((s.withStream i { s.stream i with overrunEp := true }).stream j).group? = (s.stream j).group?
      ∧ ((s.withStream i { s.stream i with overrunEp := true }).stream j).working = (s.stream j).working := fun j => by
    rw [State.stream_withStream]
    split
    · rename_i hj
      subst hj
      exact ⟨rfl, rfl⟩
    · exact ⟨rfl, rfl⟩
  have hwork : ((s.withStream i { s.stream i with overrunEp := true }).stream i).working = true := by
    rw [(hsame i).2]
    rcases hst with hst | hst <;> simp [StreamCtx.working, hst]
  obtain ⟨hhalted, hcq, hframe⟩ := State.haltCascade_spec _ i .xrun hwork
  exact ⟨hhalted, hcq.trans (congrArg s.cq.raiseAll (State.haltRecords_congr hsame rfl i .xrun)), hframe⟩

/-- Settles O33. -/
theorem receiveSlotOverrunsOrRefuses : Obligations.ReceiveSlotOverrunsOrRefuses := by
  unfold Obligations.ReceiveSlotOverrunsOrRefuses
  intro s slot rxd i width hr ho c passed l
  exact ⟨fun hst => exec_receiveSlot hr ho (State.offerRx_refused _ hst), fun cfg hc _ =>
    ⟨fun hst hfull hdrop => exec_receiveSlot hr ho (State.offerRx_drop _ hc hst hfull hdrop),
      fun hst hfull hhalt => ⟨_, exec_receiveSlot hr ho rfl,
        State.offerRx_halt (s := { s with line := l }) _ hc hst hfull hhalt⟩⟩⟩

end Sys2Proof.Machine
end

section
/-! PROOFS. What follows a change of a stream (R16, R119, R120, R139), and one period of REFCLK on an empty queue. -/

namespace Sys2Proof.Machine

/-! ### Requests and the choice (R78 to R80, R124) -/

theorem State.anyRequest_iff (s : State) : s.anyRequest = true ↔ ∃ i, s.request i ≠ none := by
  simp [State.anyRequest, mem_allStreams, Option.ne_none_iff_isSome]

/-- A chosen stream presents a request (R124). -/
theorem State.request_of_choice {s : State} {i : StreamId} (h : s.choice = some i) : s.request i ≠ none := by
  simp only [State.choice] at h
  split at h
  · rename_i hurgent
    cases h
    have := List.find?_some hurgent
    simp_all
  · have := List.find?_some h
    simp_all

/-- A transmit stream with a request may fetch and has room (R78). -/
theorem StreamCtx.request_tx {c : StreamCtx} {cfg : StreamConfig} {d : Descriptor} {rest : List Descriptor} {n : Nat}
    (hc : c.cfg = some cfg) (hq : c.queue = d :: rest) (hd : cfg.direction = .tx) (h : c.request n ≠ none) :
    c.mayFetch = true ∧ c.roomCheck cfg d = true := by
  simp only [StreamCtx.request, hc, hq, hd, StreamCtx.txRequest] at h
  split at h
  · rename_i hcond
    exact ⟨hcond.1, hcond.2.2⟩
  · exact absurd rfl h

/-- A receive stream with a request may store (R79). -/
theorem StreamCtx.request_rx {c : StreamCtx} {cfg : StreamConfig} {d : Descriptor} {rest : List Descriptor} {n : Nat}
    (hc : c.cfg = some cfg) (hq : c.queue = d :: rest) (hd : cfg.direction = .rx) (h : c.request n ≠ none) :
    c.mayStore = true := by
  simp only [StreamCtx.request, hc, hq, hd, StreamCtx.rxRequest] at h
  cases hst : c.state <;> simp_all [StreamCtx.mayStore]

/-! ### Group actions (R139) -/

theorem State.settledGroups_get (s : State) (g : GroupId) : s.settledGroups[g] = s.groupActionNow g := by
  simp only [State.settledGroups, State.clearGroups, allGroups, List.foldl_cons, List.foldl_nil]
  fin_cases g <;> simp

theorem State.groupActionNow_eq (s : State) (g : GroupId) : s.groupActionNow g =
    match s.groups[g] with
    | .none => .none
    | .start m => if ∃ i ∈ s.members g, (s.stream i).isArmed = true then .start m else .none
    | .stop => if ∃ i ∈ s.members g, (s.stream i).state = .stopping then .stop else .none := by
  have hg : s.groups[g] = s.groups[g.val]'g.isLt := rfl
  rw [hg, State.groupActionNow]
  cases s.groups[g.val]'g.isLt <;> simp only [List.any_eq_true, decide_eq_true_eq]

/-! ### The Mover finds a request (R119, R120) -/

/-- A settle is the Mover's look at the requests, once the sample is cut and the group actions are cleared. -/
theorem State.settle_eq (s : State) :
    s.settle = State.pollMover { s with line := s.settledLine, groups := s.settledGroups } := by
  have hcut : s.cutShift = { s with line := s.settledLine } := by
    simp only [State.settledLine, State.cutShift]
    split
    · rfl
    · split <;> rfl
  show s.cutShift.clearGroups.pollMover = _
  rw [hcut]
  rfl

/-- An IDLE Mover with a request present, BGNT low: it asks for the bus. -/
theorem State.pollMover_asks {s : State} (hb : s.mover.bus = .idle) (hr : ∃ i, s.request i ≠ none)
    (hg : s.mover.bgnt = false) : s.pollMover = { s with mover := { s.mover with bus := .requesting } } := by
  rw [State.pollMover, if_pos ⟨hb, s.anyRequest_iff.2 hr⟩]
  simp [hg]

/-- An IDLE Mover with a request present, BGNT high: a tenure begins at that moment (R119). -/
theorem State.pollMover_begins {s : State} (hb : s.mover.bus = .idle) (hr : ∃ i, s.request i ≠ none)
    (hg : s.mover.bgnt = true) :
    s.pollMover = if s.mover.byld then State.endTenure { s with mover := s.mover.begun }
      else State.chooseMove { s with mover := s.mover.begun } := by
  rw [State.pollMover, if_pos ⟨hb, s.anyRequest_iff.2 hr⟩]
  exact if_pos hg

theorem State.moveFor_eq {s : State} {i : StreamId} {cfg : StreamConfig} {d : Descriptor} {rest : List Descriptor}
    (hc : (s.stream i).cfg = some cfg) (hq : (s.stream i).queue = d :: rest) :
    s.moveFor i = some { stream := i, dir := cfg.direction, posting := d.posting
                         nextAddr := BitVec.ofNat 24 (d.wordAddr (s.stream i).wordsDone)
                         wordsLeft := cfg.footprint d.length - (s.stream i).wordsDone } := by
  simp only [State.moveFor, hc, hq]

/-- The next word of a fetch (R127). -/
theorem State.nextWord_tx {s : State} {m : Move} {cfg : StreamConfig} {d : Descriptor} {rest : List Descriptor}
    (hc : (s.stream m.stream).cfg = some cfg) (hq : (s.stream m.stream).queue = d :: rest)
    (hp : d.posting = m.posting ∧ 0 < m.wordsLeft) (hdir : m.dir = .tx)
    (h : (s.stream m.stream).mayFetch = true ∧ (s.stream m.stream).roomCheck cfg d = true) :
    s.nextWord m = some (s.launch m 0 0) := by
  simp only [State.nextWord, hc, hq, hp, hdir, h, and_self, if_true]

/-- The next word of a store (R128). -/
theorem State.nextWord_rx {s : State} {m : Move} {cfg : StreamConfig} {d : Descriptor} {rest : List Descriptor}
    {c : StreamCtx} {w : Word} {n : Nat}
    (hc : (s.stream m.stream).cfg = some cfg) (hq : (s.stream m.stream).queue = d :: rest)
    (hp : d.posting = m.posting ∧ 0 < m.wordsLeft) (hdir : m.dir = .rx)
    (hmay : (s.stream m.stream).mayStore = true) (hprep : (s.stream m.stream).prepare cfg d = some (c, w, n)) :
    s.nextWord m = some ((s.putStream m.stream c).launch m w n) := by
  simp only [State.nextWord, hc, hq, hp, hdir, hmay, hprep, and_self, if_true]

theorem State.chooseMove_eq {s t : State} {i : StreamId} {m : Move} (hi : s.choice = some i)
    (hm : State.moveFor { s with mover := { s.mover with pointer := i, move := none } } i = some m)
    (ht : State.nextWord { s with mover := { s.mover with pointer := i, move := none } } m = some t) :
    s.chooseMove = t := by
  simp only [State.chooseMove, hi, hm, ht]

/-- The first word of the move for the chosen stream (R124 to R128). -/
theorem State.chooseMove_started (s : State) :
    MoveStarted s s.mover.begun (State.chooseMove { s with mover := s.mover.begun }) := by
  intro i cfg d rest hchoice hc hq hleft
  have hreq := State.request_of_choice hchoice
  have hchoice' : State.choice { s with mover := s.mover.begun } = some i := hchoice
  have hmove := State.moveFor_eq
    (s := { s with mover := { s.mover.begun with pointer := i, move := none } }) hc hq
  have hwords : d.posting = d.posting ∧ 0 < cfg.footprint d.length - (s.stream i).wordsDone :=
    ⟨rfl, Nat.sub_pos_of_lt hleft⟩
  refine ⟨fun hdir => ?_, fun hdir c' w n hprep => ?_⟩
  · rw [State.chooseMove_eq hchoice' hmove
      (State.nextWord_tx hc hq hwords hdir (StreamCtx.request_tx hc hq hdir hreq))]
    exact ⟨rfl, rfl⟩
  · rw [State.chooseMove_eq hchoice' hmove
      (State.nextWord_rx hc hq hwords hdir (StreamCtx.request_rx hc hq hdir hreq) hprep)]
    exact ⟨rfl, rfl⟩

/-- Settles O4. -/
theorem settleFollowsAStreamChange : Obligations.SettleFollowsAStreamChange := by
  unfold Obligations.SettleFollowsAStreamChange
  intro s
  obtain ⟨-, -, -, -, -, -, -, -, -, hline, hgroups⟩ := s.settle_fields
  obtain ⟨hkept, hcut⟩ := s.settledLine_spec
  rw [hline]
  refine ⟨hkept, hcut, fun g => ?_, fun hquiet => ?_, fun hb hr => ⟨fun hg => ?_, fun hg hy => ?_, fun hg hy => ?_⟩, ?_⟩
  · rw [hgroups]
    exact (s.settledGroups_get g).trans (s.groupActionNow_eq g)
  · rw [s.settle_quiet hquiet]
    exact ⟨rfl, rfl⟩
  · rw [s.settle_eq, State.pollMover_asks (by exact hb) (by exact hr) (by exact hg)]
    exact ⟨rfl, rfl⟩
  · rw [s.settle_eq, State.pollMover_begins (by exact hb) (by exact hr) (by exact hg)]
    rw [if_pos (by exact hy)]
    exact ⟨rfl, rfl⟩
  · rw [s.settle_eq, State.pollMover_begins (by exact hb) (by exact hr) (by exact hg)]
    rw [if_neg (by simp [hy])]
    exact ⟨State.chooseMove_started { s with line := s.settledLine, groups := s.settledGroups },
      fun j => State.chooseMove_taken _ j⟩
  · conv => lhs; rw [s.settle_act.1]
    rw [hgroups]

/-! ### One period of REFCLK (log 1) -/

/-- A sample of BGNT: WAIT_LOW goes to IDLE, and on to REQUESTING when a request is present (R118, R119). -/
theorem State.sampleGrant_eq (s : State) : s.sampleGrant = { s with mover := { s.mover with
    bus := if s.mover.bus = .waitLow ∧ s.mover.bgnt = false then
        if ∃ i, s.request i ≠ none then .requesting else .idle
      else s.mover.bus } } := by
  by_cases h : s.mover.bus = .waitLow ∧ s.mover.bgnt = false
  · obtain ⟨hb, hg⟩ := h
    have hlow : s.grantLow = { s with mover := { s.mover with bus := .idle } } := by
      simp only [State.grantLow, hb, ← hg]
    rw [State.sampleGrant, if_pos ⟨hb, hg⟩, if_pos ⟨hb, hg⟩, hlow]
    by_cases hr : ∃ i, s.request i ≠ none
    · rw [if_pos hr]
      exact State.pollMover_asks rfl hr hg
    · rw [State.pollMover, if_neg (fun k => hr ((State.anyRequest_iff _).1 k.2)), if_neg hr]
  · rw [State.sampleGrant, if_neg h, if_neg h]

/-- With time left for the word in flight, a timebase tick counts both timers (R131, R158). -/
theorem State.timebase_eq {s : State} (h : ∀ w, s.mover.inFlight = some w → 1 < w.timer ∨ 1 < s.line.tbLeft) :
    s.timebase = if s.line.tbLeft ≤ 1 then
      { s with
        line := { s.line with tbLeft := s.line.fmt.tbDiv + 1 }
        cq := { s.cq with timer := s.cq.timer.tick }
        mover := { s.mover with inFlight := s.mover.inFlight.map fun w => { w with timer := w.timer - 1 } } }
      else { s with line := { s.line with tbLeft := s.line.tbLeft - 1 } } := by
  simp only [State.timebase]
  split
  · rename_i htick
    cases hw : s.mover.inFlight with
    | none =>
      simp only [State.tick, State.readyTick, hw, Option.map_none]
      rw [← hw]
    | some w =>
      have htimer : ¬ w.timer ≤ 1 := by
        have := h w hw
        omega
      simp only [State.tick, State.readyTick, hw, if_neg htimer, Option.map_some]
  · rfl

/-- One bit period shifts the transmit path by one bit (R16, R18). -/
theorem LinePort.pass_one (l : LinePort) : l.pass 1 = l.passed := by
  cases hb : l.txBits <;> simp [LinePort.pass, LinePort.passed, hb]

/-- Bit periods are counted in a trial and in a served frame. -/
theorem LinePort.counts_iff (l : LinePort) :
    l.counts = true ↔ l.state = .confirm ∨ l.state = .aligned ∨ l.state = .flywheel := by
  simp only [LinePort.counts, LinePort.served, Bool.or_eq_true, decide_eq_true_eq]
  tauto

theorem State.bitPeriod_eq (s : State) : s.bitPeriod = { s with line :=
    if (s.line.state = .confirm ∨ s.line.state = .aligned ∨ s.line.state = .flywheel) ∧ s.lineDue = false then
      s.line.passed else s.line } := by
  simp only [State.bitPeriod, LinePort.counts_iff, LinePort.pass_one]
  split <;> rfl

theorem State.lineDue_congr {s t : State} (hl : t.line = s.line) (hm : t.map = s.map) : t.lineDue = s.lineDue := by
  cases s
  cases t
  cases hl
  cases hm
  rfl

/-- Whether a line event is due does not depend on the dividers. -/
theorem State.lineDue_of_dividers {s t : State} {m n : Nat} (hl : t.line = { s.line with tbLeft := m, bitLeft := n })
    (hm : t.map = s.map) : t.lineDue = s.lineDue :=
  State.lineDue_congr (s := { s with line := { s.line with tbLeft := m, bitLeft := n } }) hl hm

/-- The bit clock, when the line port has moved on in its dividers only (logs 2, 12 and 13). -/
theorem State.bitClock_spec {s t : State} {n : Nat} (hl : t.line = { s.line with tbLeft := n })
    (hm : t.map = s.map) :
    s.BitClockTo t.line t.bitClock.line
    ∧ t.bitClock = { t with line := t.bitClock.line, freeIdx := t.bitClock.freeIdx } := by
  have hstate : t.line.state = s.line.state := by rw [hl]
  have hmode : t.line.fmt = s.line.fmt := by rw [hl]
  by_cases hdown : s.line.state = .disabled
  · have hclock : t.bitClock = t := by
      rw [State.bitClock, if_pos ((LinePort.up_eq_false_iff _).2 (hstate.trans hdown))]
    rw [hclock]
    exact ⟨⟨fun _ => rfl, fun h => absurd hdown h, fun h => absurd hdown h⟩, rfl⟩
  · have hup : ¬ t.line.up = false := fun h => hdown (hstate.symm.trans ((LinePort.up_eq_false_iff _).1 h))
    by_cases hfol : s.line.fmt.mode = .follower
    · have hdue : State.lineDue { t with freeIdx := t.freeIdx + 1 } = s.lineDue :=
        State.lineDue_of_dividers (m := n) (n := s.line.bitLeft) hl hm
      have hclock : t.bitClock = if Config.trunkBit t.freeIdx then
          State.bitPeriod { t with freeIdx := t.freeIdx + 1 } else { t with freeIdx := t.freeIdx + 1 } := by
        simp only [State.bitClock, if_neg hup, hmode, hfol]
      rw [hclock]
      refine ⟨⟨fun h => absurd h hdown, fun _ h => absurd hfol h, fun _ _ => ?_⟩, ?_⟩
      · split
        · rw [State.bitPeriod_eq, hdue]
          simp only [← hstate]
          split
          · rename_i hcounts
            exact .inr ⟨hcounts, rfl⟩
          · exact .inl rfl
        · exact .inl rfl
      · split
        · rw [State.bitPeriod_eq]
        · rfl
    · have hdue : ∀ k, State.lineDue { t with line := { t.line with bitLeft := k } } = s.lineDue := fun k =>
        State.lineDue_of_dividers (m := n) (n := k) (by rw [hl]) hm
      have hclock : t.bitClock = if t.line.bitLeft ≤ 1 then
          State.bitPeriod { t with line := { t.line with bitLeft := 2 * (s.line.fmt.bclkDiv + 1) } }
          else { t with line := { t.line with bitLeft := t.line.bitLeft - 1 } } := by
        cases hmd : s.line.fmt.mode with
        | follower => exact absurd hmd hfol
        | master => simp only [State.bitClock, if_neg hup, hmode, hmd]
        | loopback => simp only [State.bitClock, if_neg hup, hmode, hmd]
      rw [hclock]
      refine ⟨⟨fun h => absurd h hdown, fun _ _ => ⟨fun h => ?_, fun h => ?_⟩, fun _ h => absurd h hfol⟩, ?_⟩
      · rw [if_neg (Nat.not_le.2 h)]
      · rw [if_pos h, State.bitPeriod_eq, hdue]
        simp only [← hstate]
        split <;> rfl
      · split
        · rw [State.bitPeriod_eq]
        · rfl

/-- Settles O3. -/
theorem timePassesOnAnEmptyQueue : Obligations.TimePassesOnAnEmptyQueue := by
  unfold Obligations.TimePassesOnAnEmptyQueue
  intro s hp
  have hstep : step s = .next s.idle := by simp only [step, hp]
  refine ⟨fun hr => by simp only [hstep, State.idle, hr, if_true], fun hr hleft => ?_⟩
  intro tbLeft
  refine ⟨_, hstep, ?_⟩
  have htime : s.sampleGrant.timebase = { s with
      line := { s.line with tbLeft := tbLeft }
      cq := { s.cq with timer := if s.line.tbLeft ≤ 1 then s.cq.timer.tick else s.cq.timer }
      mover := { s.mover with
        bus := if s.mover.bus = .waitLow ∧ s.mover.bgnt = false then
            if ∃ i, s.request i ≠ none then .requesting else .idle
          else s.mover.bus
        inFlight := if s.line.tbLeft ≤ 1 then s.mover.inFlight.map fun w => { w with timer := w.timer - 1 }
          else s.mover.inFlight } } := by
    rw [State.sampleGrant_eq, State.timebase_eq (by exact hleft)]
    simp only [tbLeft]
    split <;> rfl
  have hidle : s.idle = s.sampleGrant.timebase.bitClock := by simp [State.idle, hr]
  obtain ⟨hto, hframe⟩ := State.bitClock_spec (s := s) (t := s.sampleGrant.timebase) (n := tbLeft)
    (by rw [htime]) (by rw [htime])
  rw [hidle]
  rw [htime] at hto hframe ⊢
  have hcq := congrArg State.cq hframe
  have hmover := congrArg State.mover hframe
  generalize State.bitClock _ = t at hto hframe hcq hmover ⊢
  refine ⟨hcq.trans ?_, hmover, hto, ?_⟩
  · cases htimer : s.cq.timer <;> rfl
  · rw [hcq, hmover]
    exact hframe

end Sys2Proof.Machine
end

section
/-! PROOFS. CONFIGURE (R44, R45): its checks in order, the configuration installed, and its slots from the next
boundary. -/

namespace Sys2Proof.Machine

theorem streamOf_eq {arg : Byte} {i : StreamId} (h : arg.toNat = i.val) : streamOf arg = some i := by
  simp [streamOf, h]

/-- A CONFIGURE of stream `i` answers what its checks answer. -/
theorem exec_configure {s u : State} {i : StreamId} {arg : Byte} {code : ResultCode} {n : Nat}
    (hr : s.resetLow = false) (hi : arg.toNat = i.val) (h : s.configure i = (u, code, word n)) :
    exec (.configure arg) s = .next (u.withResult 0x01 arg code n) := by
  refine congrArg Host.Outcome.next (State.runCommand_answer hr ?_)
  rw [State.forStream, streamOf_eq hi]
  exact h

/-! ### The conflict with the active bank (R33) -/

/-- No entry names the stream in the other direction. -/
theorem conflictFrom_eq_none {i : StreamId} {d : Direction} {es : List Entry} (k : Nat)
    (h : ∀ (n : Nat) (x : Direction), es[n]? = some (some (i, x)) → x = d) : conflictFrom i d k es = none := by
  induction es generalizing k with
  | nil => rfl
  | cons e rest ih =>
    have hrest := ih (k + 1) fun n x hn => h (n + 1) x (by simpa using hn)
    cases e with
    | none => exact hrest
    | some p =>
      obtain ⟨j, x⟩ := p
      have hpass : ¬ (j = i ∧ x ≠ d) := fun ⟨hj, hx⟩ => hx (h 0 x (by simp [hj]))
      simp only [conflictFrom, if_neg hpass, hrest]

/-- The lowest entry that names the stream in the other direction. -/
theorem conflictFrom_eq_some {i : StreamId} {d x : Direction} {es : List Entry} {n : Nat} (k : Nat)
    (hn : es[n]? = some (some (i, x))) (hx : x ≠ d)
    (hlow : ∀ (m : Nat) (y : Direction), m < n → es[m]? = some (some (i, y)) → y = d) :
    conflictFrom i d k es = some (k + n) := by
  induction es generalizing k n with
  | nil => simp at hn
  | cons e rest ih =>
    cases n with
    | zero =>
      simp only [List.getElem?_cons_zero, Option.some.injEq] at hn
      subst hn
      simp [conflictFrom, hx]
    | succ n =>
      have hrest := ih (k + 1) (by simpa using hn) fun m y hm hy => hlow (m + 1) y (by omega) (by simpa using hy)
      rw [show k + (n + 1) = k + 1 + n by omega]
      cases e with
      | none => exact hrest
      | some p =>
        obtain ⟨j, y⟩ := p
        have hpass : ¬ (j = i ∧ y ≠ d) := fun ⟨hj, hy⟩ => hy (hlow 0 y (by omega) (by simp [hj]))
        simp only [conflictFrom, if_neg hpass, hrest]

/-- An entry of a bank, read from its list. -/
theorem bank_getElem?_eq_some {bank : Vector Entry 32} {n : Nat} {e : Entry} (h : bank.toList[n]? = some e) :
    ∃ k : Fin 32, k.val = n ∧ bank[k] = e := by
  obtain ⟨hn, he⟩ := List.getElem?_eq_some_iff.1 h
  have hlt : n < 32 := by simpa using hn
  exact ⟨⟨n, hlt⟩, rfl, by simpa using he⟩

theorem bank_getElem? (bank : Vector Entry 32) (k : Fin 32) : bank.toList[k.val]? = some bank[k] := by
  simp

/-! ### The slots of the frame (R15, R34, R45) -/

/-- A stream that was not configured at the boundary of the frame owns no slot of it. -/
theorem State.slotOwner_none {s : State} {i : StreamId} (h : s.line.frameWidths[i] = none) (slot : Nat)
    (d : Direction) (w : Nat) : s.slotOwner slot d ≠ some (i, w) := by
  intro ho
  simp only [State.slotOwner] at ho
  repeat' split at ho
  all_goals try cases ho
  obtain ⟨w', hw, heq⟩ := Option.map_eq_some_iff.1 ho
  cases heq
  rw [Fin.getElem_fin] at h
  rw [h] at hw
  cases hw

/-- The slot an entry of the active bank gives to a stream that the boundary found configured. -/
theorem State.slotOwner_some {s : State} {i : StreamId} {k : Fin 32} {d : Direction} {w : Nat}
    (hs : s.line.served = true) (hk : k.val < s.line.fmt.slots) (hnext : s.line.nextSlot ≤ k.val)
    (he : s.map.activeBank[k] = some (i, d)) (hw : s.line.frameWidths[i] = some w) :
    s.slotOwner k.val d = some (i, w) := by
  have hget : s.map.activeBank[k.val]? = some (some (i, d)) := by
    rw [← he]; simp
  rw [Fin.getElem_fin] at hw
  simp only [State.slotOwner, hs, hk, hnext, hget, hw, and_self, if_true, Option.map_some]

/-! ### The checks in order, and the configuration installed -/

section
variable {s : State} {i : StreamId} (hoff : (s.stream i).state = .off) (hempty : (s.stream i).queue = [])
include hoff hempty

theorem State.configure_badParam {n : Nat}
    (h : StreamConfig.parse s.line.fmt.slotLen (s.stageWord 0) (s.stageWord 1) (s.stageWord 2) (s.stageWord 3)
      = .error n) : s.configure i = s.refuse .badParam n := by
  simp [State.configure, hoff, hempty, h]

variable {cfg : StreamConfig}
  (hcfg : StreamConfig.parse s.line.fmt.slotLen (s.stageWord 0) (s.stageWord 1) (s.stageWord 2) (s.stageWord 3)
    = .ok cfg)
include hcfg

theorem State.configure_busy (h : s.map.swapPending = true) : s.configure i = s.refuse .busy 0 := by
  simp [State.configure, hoff, hempty, hcfg, h]

theorem State.configure_conflict {k : Nat} (h : s.map.swapPending = false)
    (hk : conflictFrom i cfg.direction 0 s.map.activeBank.toList = some k) :
    s.configure i = s.refuse .conflict k := by
  simp [State.configure, hoff, hempty, hcfg, h, hk]

/-- The configuration installed: no slot of the frame in progress is the stream's (R45), and a receive stream has no
last sample sent (R39). -/
theorem State.configure_installed (h : s.map.swapPending = false)
    (hk : conflictFrom i cfg.direction 0 s.map.activeBank.toList = none) :
    s.configure i = State.accept
      { s.withStream i { s.stream i with
          cfg := some cfg, lastSample := if cfg.direction = .tx then (s.stream i).lastSample else none } with
        line := { s.line with frameWidths := s.line.frameWidths.set i.val none } } 0 := by
  have hctx : (s.stream i).reconfigure (some cfg) = { s.stream i with
      cfg := some cfg, lastSample := if cfg.direction = .tx then (s.stream i).lastSample else none } := by
    simp [StreamCtx.reconfigure]
  have hput := s.putStream_eq_withStream i ((s.stream i).reconfigure (some cfg)) rfl
  rw [hctx] at hput
  have hidle : ¬ ((s.stream i).state ≠ .off ∨ (s.stream i).queue ≠ []) := by simp [hoff, hempty]
  simp only [State.configure, if_neg hidle, hcfg, h, hk, hctx, hput, Bool.false_eq_true, if_false]
  rfl

end

/-- A boundary gives a configured stream every slot whose entry in the active bank names it (R15, R23, R45). -/
theorem BoundaryTo.slotOwner {t v : State} {own : List Record} {i : StreamId} {cfg : StreamConfig} {k : Fin 32}
    (hb : BoundaryTo t v own) (hc : (t.stream i).cfg = some cfg) (hs : v.line.served = true)
    (hk : k.val < v.line.fmt.slots) (he : v.map.activeBank[k] = some (i, cfg.direction)) :
    v.slotOwner k.val cfg.direction = some (i, cfg.width) := by
  obtain ⟨hline, -⟩ := hb
  refine State.slotOwner_some hs hk ?_ he ?_
  · rw [hline]
    exact Nat.zero_le _
  · have hctx : (t.streams[i.val]'i.isLt).cfg = some cfg := hc
    rw [hline, Fin.getElem_fin]
    simp [hctx]

/-- Settles O6. -/
theorem configureOutcome : Obligations.ConfigureOutcome := by
  unfold Obligations.ConfigureOutcome
  intro s i arg hr hi c staged answer
  have hexec : ∀ {u code n}, s.configure i = (u, code, word n) →
      exec (.configure arg) s = .next (u.withResult 0x01 arg code n) := exec_configure hr hi
  refine ⟨fun hbusy => hexec (if_pos hbusy), fun hoff hempty => ⟨fun n hn => ?_, fun cfg hcfg => ⟨fun hswap => ?_,
    fun hswap => ⟨fun k d hk hd hlow => ?_, fun hagree => ?_⟩⟩⟩⟩
  · exact hexec (State.configure_badParam hoff hempty hn)
  · exact hexec (State.configure_busy hoff hempty hcfg hswap)
  · refine hexec (State.configure_conflict hoff hempty hcfg hswap ?_)
    rw [conflictFrom_eq_some 0 ((bank_getElem? _ k).trans (congrArg some hk)) hd, Nat.zero_add]
    intro m y hm hy
    obtain ⟨j, rfl, hj⟩ := bank_getElem?_eq_some hy
    exact hlow j y hm hj
  · have hfree : conflictFrom i cfg.direction 0 s.map.activeBank.toList = none := conflictFrom_eq_none 0 fun n x hn => by
      obtain ⟨j, -, hj⟩ := bank_getElem?_eq_some hn
      exact hagree j x hj
    intro configured u t
    refine ⟨hexec (State.configure_installed hoff hempty hcfg hswap hfree), State.slotOwner_none ?_,
      fun v own k hb hs hk he => hb.slotOwner ?_ hs hk he⟩
    · simp [t, u]
    · exact congrArg StreamCtx.cfg (s.stream_withStream_same i configured)

end Sys2Proof.Machine
end

section
/-! PROOFS. What the host reads (sections 10.2, 10.5, 10.8, R160 to R170) and what the output pins show. -/

namespace Sys2Proof.Machine

/-! ### Words laid out in fields -/

theorem toNat_word (n : Nat) : (word n).toNat = n % 65536 := BitVec.toNat_ofNat n 16

theorem toNat_word_of_lt {n : Nat} (h : n < 65536) : (word n).toNat = n := by
  rw [toNat_word, Nat.mod_eq_of_lt h]

/-- A bit of a word, read by its place value. -/
theorem getLsbD_of_div {w : Word} {i : Nat} {b : Bool} (h : w.toNat / 2 ^ i % 2 = b.toNat) : w.getLsbD i = b := by
  rw [BitVec.getLsbD, Nat.testBit_eq_decide_div_mod_eq, h]
  cases b <;> rfl

theorem getLsbD_iff_div (w : Word) (i : Nat) : w.getLsbD i = true ↔ w.toNat / 2 ^ i % 2 = 1 := by
  rw [BitVec.getLsbD, Nat.testBit_eq_decide_div_mod_eq, decide_eq_true_eq]

/-- A word has no bit of a mask when it has none of the mask's bits, one by one. -/
theorem and_eq_zero_of_bits {w m : Word} (h : ∀ i < 16, m.getLsbD i = true → w.toNat / 2 ^ i % 2 = 0) :
    w &&& m = 0 := by
  refine BitVec.eq_of_getLsbD_eq fun i hi => ?_
  cases hm : m.getLsbD i with
  | false => simp [hm]
  | true =>
    have hw : w.getLsbD i = false := getLsbD_of_div (b := false) (h i hi hm)
    simp [hw]

/-! ### STATUS (section 10.2) -/

theorem CompletionQueue.Law.count_le {q : CompletionQueue} (h : q.Law) : q.count ≤ 32 := by
  obtain ⟨hlen, -⟩ := h
  rw [CompletionQueue.count]
  split <;> omega

theorem CompletionQueue.count_eq_zero_iff (q : CompletionQueue) :
    q.count = 0 ↔ q.records = [] ∧ q.overflow = none := by
  rw [CompletionQueue.count]
  cases q.overflow <;> simp

theorem LineState.code_lt (l : LineState) : l.code < 8 := by cases l <;> decide

theorem BankId.code_le (b : BankId) : b.code ≤ 1 := by cases b <;> decide

/-- The STATUS word as a number: its six fields at their places. -/
theorem State.statusWord_toNat {s : State} (h : s.cq.count ≤ 32) :
    s.statusWord.toNat = s.win.accessErr.toNat * 2 ^ 15 + s.breq.toNat * 2 ^ 14 + s.cq.count * 2 ^ 8
      + s.map.active.code * 2 ^ 4 + s.map.swapPending.toNat * 2 ^ 3 + s.line.state.code := by
  have h1 := Bool.toNat_le s.win.accessErr
  have h2 := Bool.toNat_le s.breq
  have h3 := Bool.toNat_le s.map.swapPending
  have h4 := s.line.state.code_lt
  have h5 := s.map.active.code_le
  exact toNat_word_of_lt (by omega)

/-- The fields of STATUS. -/
theorem State.statusWord_fields {s : State} (h : s.cq.count ≤ 32) :
    s.statusWord.getLsbD 15 = s.win.accessErr ∧ s.statusWord.getLsbD 14 = s.breq
    ∧ s.statusWord.toNat / 256 % 64 = s.cq.count ∧ s.statusWord.toNat / 32 % 8 = 0
    ∧ s.statusWord.toNat / 16 % 2 = s.map.active.code ∧ s.statusWord.getLsbD 3 = s.map.swapPending
    ∧ s.statusWord.toNat % 8 = s.line.state.code := by
  have hn := State.statusWord_toNat h
  have h1 := Bool.toNat_le s.win.accessErr
  have h2 := Bool.toNat_le s.breq
  have h3 := Bool.toNat_le s.map.swapPending
  have h4 := s.line.state.code_lt
  have h5 := s.map.active.code_le
  refine ⟨getLsbD_of_div ?_, getLsbD_of_div ?_, ?_, ?_, ?_, getLsbD_of_div ?_, ?_⟩ <;> rw [hn] <;> omega

/-! ### The head words (section 10.8, R170) -/

/-- The kind of a record, as CQ_HEAD0 shows it, is never 0. -/
theorem Record.kind_ne_zero (r : Record) : r.words[0].toNat / 4096 ≠ 0 := by
  have hkind : ∀ k i : Nat, 1 ≤ k → k ≤ 15 → i < 16 → (word (k * 2 ^ 12 + i)).toNat / 4096 ≠ 0 := fun k i h1 h2 h3 => by
    rw [toNat_word_of_lt (by omega)]
    omega
  cases r with
  | mapSwapped f b => exact hkind 7 0 (by decide) (by decide) (by decide)
  | frameSlip f => exact hkind 8 0 (by decide) (by decide) (by decide)
  | alignLost f => exact hkind 9 0 (by decide) (by decide) (by decide)
  | alignGained f => exact hkind 10 0 (by decide) (by decide) (by decide)
  | bufferDone i => exact hkind 1 i (by decide) (by decide) i.isLt
  | underrun i => exact hkind 2 i (by decide) (by decide) i.isLt
  | overrun i => exact hkind 3 i (by decide) (by decide) i.isLt
  | streamStarted i => exact hkind 4 i (by decide) (by decide) i.isLt
  | streamStopped i => exact hkind 5 i (by decide) (by decide) i.isLt
  | streamHalted i => exact hkind 6 i (by decide) (by decide) i.isLt
  | busFault i => exact hkind 11 i (by decide) (by decide) i.isLt

theorem CompletionQueue.headWords_cons {q : CompletionQueue} {r : Record} {rest : List Record}
    (h : q.records = r :: rest) : q.headWords = r.words := by
  simp only [CompletionQueue.headWords, h]

theorem CompletionQueue.headWords_overflow {q : CompletionQueue} {n : Nat} (h : q.records = [])
    (ho : q.overflow = some n) : q.headWords = #v[word (15 * 2 ^ 12), 0, 0, word n, 0] := by
  simp only [CompletionQueue.headWords, h, ho]

theorem CompletionQueue.headWords_none {q : CompletionQueue} (h : q.records = []) (ho : q.overflow = none) :
    q.headWords = #v[0, 0, 0, 0, 0] := by
  simp only [CompletionQueue.headWords, h, ho]

/-- The head word shows kind NONE exactly when the queue counts 0 (R152). -/
theorem CompletionQueue.kind_eq_zero_iff (q : CompletionQueue) : q.headWords[0].toNat / 4096 = 0 ↔ q.count = 0 := by
  rw [q.count_eq_zero_iff]
  cases hr : q.records with
  | cons r rest =>
    rw [CompletionQueue.headWords_cons hr]
    simp [r.kind_ne_zero]
  | nil =>
    cases ho : q.overflow with
    | none => simp [CompletionQueue.headWords_none hr ho]
    | some n => simp [CompletionQueue.headWords_overflow hr ho, toNat_word]

end Sys2Proof.Machine
end

section
/-! PROOFS. The head words of each record, the words of FIELD_DATA, and the output pins. -/

namespace Sys2Proof.Machine

/-- The head words, read through the window. -/
theorem State.head_of_words {s : State} {w : Vector Word 5} {a b c d e : Nat} (h : s.cq.headWords = w)
    (hw : w[0].toNat = a ∧ w[1].toNat = b ∧ w[2].toNat = c ∧ w[3].toNat = d ∧ w[4].toNat = e) :
    (s.readWord 0x15).toNat = a ∧ (s.readWord 0x16).toNat = b ∧ (s.readWord 0x17).toNat = c
    ∧ (s.readWord 0x18).toNat = d ∧ (s.readWord 0x19).toNat = e := by
  subst h
  exact hw

/-- CQ_HEAD0 of a record of kind `k` about stream `i`. -/
theorem toNat_kindWord {k : Nat} (i : StreamId) (h : k < 16) : (word (k * 2 ^ 12 + i.val)).toNat = k * 4096 + i.val :=
  toNat_word_of_lt (by have := i.isLt; omega)

/-! ### The pins -/

theorem State.bclkDriven_iff (s : State) :
    s.bclkDriven = true ↔ s.line.state ≠ .disabled ∧ s.line.fmt.mode = .master := by
  rw [State.bclkDriven, Bool.and_eq_true, LinePort.up_iff, decide_eq_true_eq]

theorem State.txdPin_released {s : State} (h : s.line.state = .disabled ∨ s.line.fmt.mode = .loopback) :
    s.txdPin = none :=
  if_pos (h.imp_left (LinePort.up_eq_false_iff _).2)

theorem State.txdPin_driven {s : State} (hs : s.line.state ≠ .disabled) (hm : s.line.fmt.mode ≠ .loopback) :
    s.txdPin = s.line.txBits.head? :=
  if_neg fun h => h.elim (fun hu => hs ((LinePort.up_eq_false_iff _).1 hu)) hm

theorem State.busMaster_iff (s : State) : s.busMaster = true ↔ s.mover.bus = .holding := decide_eq_true_iff

/-- Outside HOLDING every pin of the bus master is released (R171). -/
theorem State.busPins_released {s : State} (h : s.mover.bus ≠ .holding) :
    s.aleDriven = false ∧ s.rdPin = none ∧ s.wrPin = none ∧ s.upperAddress = none := by
  have hm : s.busMaster = false := decide_eq_false h
  simp [State.aleDriven, State.rdPin, State.wrPin, State.strobe, State.upperAddress, hm]

/-- With a word in flight the bus shows its strobe, its address and, for a store, its data (R130). -/
theorem State.busPins_inFlight {s : State} {w : InFlight} (h : s.mover.bus = .holding) (hw : s.mover.inFlight = some w) :
    s.aleDriven = true ∧ s.rdPin = some (decide (w.dir = .rx)) ∧ s.wrPin = some (decide (w.dir = .tx))
    ∧ s.busAddress = some w.addr ∧ s.upperAddress = some (w.addr.extractLsb' 16 8)
    ∧ s.busData = (if w.dir = .rx then some w.word else none) := by
  have hm : s.busMaster = true := s.busMaster_iff.2 h
  cases hd : w.dir <;>
    simp [State.aleDriven, State.rdPin, State.wrPin, State.strobe, State.upperAddress, State.busAddress,
      State.busData, hm, hw, hd]

end Sys2Proof.Machine
end

section
/-! PROOFS. The words of FIELD_DATA (section 10.5, R165). -/

namespace Sys2Proof.Machine

theorem getLsbD_of_div_zero {w : Word} {i : Nat} (h : w.toNat / 2 ^ i % 2 = 0) : w.getLsbD i = false :=
  getLsbD_of_div (b := false) h

/-! ### FIELD_SEL 00H: what each run state shows -/

/-- The release flag of FIELD_SEL 00H. -/
def RunState.releases : RunState → Bool
  | .draining _ r => r
  | _ => false

/-- The drain kind of FIELD_SEL 00H. -/
def RunState.drainsByStop : RunState → Bool
  | .draining .stop _ => true
  | _ => false

/-- The flag of a start word taken in FIELD_SEL 00H. -/
def RunState.armedFlag : RunState → Bool
  | .armed _ e => e
  | _ => false

/-- The start mode of FIELD_SEL 00H. -/
def RunState.startsAt : RunState → Bool
  | .armed (.at _) _ => true
  | _ => false

/-- The halt cause of FIELD_SEL 00H. -/
def RunState.causeCode : RunState → Nat
  | .halted h => h.code
  | _ => 0

theorem RunState.releases_iff (st : RunState) : st.releases = true ↔ ∃ k, st = .draining k true := by
  cases st <;> simp [RunState.releases]

theorem RunState.drainsByStop_iff (st : RunState) : st.drainsByStop = true ↔ ∃ b, st = .draining .stop b := by
  cases st with
  | draining k b => cases k <;> simp [RunState.drainsByStop]
  | _ => simp [RunState.drainsByStop]

theorem RunState.armedFlag_iff (st : RunState) : st.armedFlag = true ↔ ∃ m, st = .armed m true := by
  cases st <;> simp [RunState.armedFlag]

theorem RunState.startsAt_iff (st : RunState) : st.startsAt = true ↔ ∃ f e, st = .armed (.at f) e := by
  cases st with
  | armed m e => cases m <;> simp [RunState.startsAt]
  | _ => simp [RunState.startsAt]

theorem RunState.causeCode_lt (st : RunState) : st.causeCode < 8 := by
  cases st with
  | halted h => cases h <;> decide
  | _ => exact Nat.zero_lt_succ 7

theorem RunState.code_lt (st : RunState) : st.code < 8 := by cases st <;> simp [RunState.code]

/-- FIELD_SEL 00H as a number: its nine fields at their places. -/
theorem StreamCtx.runWord_toNat (c : StreamCtx) :
    c.runWord.toNat = c.cfg.isSome.toNat * 2 ^ 15 + c.overrunEp.toNat * 2 ^ 13 + c.underrunEp.toNat * 2 ^ 12
      + c.state.releases.toNat * 2 ^ 11 + c.state.drainsByStop.toNat * 2 ^ 10 + c.state.armedFlag.toNat * 2 ^ 9
      + c.state.startsAt.toNat * 2 ^ 8 + c.state.causeCode * 2 ^ 4 + c.state.code := by
  have h1 := Bool.toNat_le c.cfg.isSome
  have h2 := Bool.toNat_le c.overrunEp
  have h3 := Bool.toNat_le c.underrunEp
  have h4 := Bool.toNat_le c.state.releases
  have h5 := Bool.toNat_le c.state.drainsByStop
  have h6 := Bool.toNat_le c.state.armedFlag
  have h7 := Bool.toNat_le c.state.startsAt
  have h8 := c.state.causeCode_lt
  have h9 := c.state.code_lt
  refine Eq.trans ?_ (toNat_word_of_lt (by omega))
  rw [StreamCtx.runWord]
  cases c.state with
  | armed m e => cases m <;> rfl
  | draining k r => cases k <;> rfl
  | _ => rfl

/-- The fields of FIELD_SEL 00H. -/
theorem StreamCtx.runWord_fields (c : StreamCtx) :
    (c.runWord.getLsbD 15 = c.cfg.isSome ∧ c.runWord.getLsbD 14 = false
      ∧ c.runWord.getLsbD 13 = c.overrunEp ∧ c.runWord.getLsbD 12 = c.underrunEp)
    ∧ (c.runWord.getLsbD 11 = c.state.releases ∧ c.runWord.getLsbD 10 = c.state.drainsByStop
      ∧ c.runWord.getLsbD 9 = c.state.armedFlag ∧ c.runWord.getLsbD 8 = c.state.startsAt)
    ∧ c.runWord.toNat / 8 % 2 = 0 ∧ c.runWord.toNat / 128 % 2 = 0
    ∧ c.runWord.toNat / 16 % 8 = c.state.causeCode ∧ c.runWord.toNat % 8 = c.state.code := by
  have hn := c.runWord_toNat
  have h1 := Bool.toNat_le c.cfg.isSome
  have h2 := Bool.toNat_le c.overrunEp
  have h3 := Bool.toNat_le c.underrunEp
  have h4 := Bool.toNat_le c.state.releases
  have h5 := Bool.toNat_le c.state.drainsByStop
  have h6 := Bool.toNat_le c.state.armedFlag
  have h7 := Bool.toNat_le c.state.startsAt
  have h8 := c.state.causeCode_lt
  have h9 := c.state.code_lt
  refine ⟨⟨getLsbD_of_div ?_, getLsbD_of_div_zero ?_, getLsbD_of_div ?_, getLsbD_of_div ?_⟩,
    ⟨getLsbD_of_div ?_, getLsbD_of_div ?_, getLsbD_of_div ?_, getLsbD_of_div ?_⟩, ?_, ?_, ?_, ?_⟩
    <;> rw [hn] <;> omega

/-! ### FIELD_SEL 02H to 05H: the configuration (R165) -/

theorem Packing.code_le (p : Packing) : p.code ≤ 2 := by cases p <;> decide
theorem Extension.code_le (e : Extension) : e.code ≤ 2 := by cases e <;> decide
theorem Direction.code_le (d : Direction) : d.code ≤ 1 := by cases d <;> decide
theorem OverrunPolicy.code_le (o : OverrunPolicy) : o.code ≤ 2 := by cases o <;> decide
theorem UnderrunPolicy.code_le (u : UnderrunPolicy) : u.code ≤ 4 := by cases u <;> decide

theorem groupCode_le (g : Option GroupId) : groupCode g ≤ 4 := by
  cases g with
  | none => decide
  | some g => exact Nat.le_of_lt g.isLt

theorem flag_of_div {w : Word} {i : Nat} {b : Bool} (h : w.toNat / 2 ^ i % 2 = b.toNat) : flag w i = b :=
  getLsbD_of_div h

/-- FIELD_SEL 02H: the format fields, and no other bit. -/
theorem StreamConfig.words_format {cfg : StreamConfig} (hw : cfg.width < 32) :
    field cfg.words.1 15 14 = cfg.packing.code ∧ field cfg.words.1 12 8 = cfg.width
    ∧ field cfg.words.1 5 4 = cfg.extension.code ∧ field cfg.words.1 1 0 = cfg.direction.code
    ∧ cfg.words.1 &&& 0x20CC = 0 := by
  have h1 := cfg.packing.code_le
  have h2 := cfg.extension.code_le
  have h3 := cfg.direction.code_le
  have hn : cfg.words.1.toNat = cfg.packing.code * 2 ^ 14 + cfg.width * 2 ^ 8 + cfg.extension.code * 2 ^ 4
      + cfg.direction.code := toNat_word_of_lt (by omega)
  have hmask : ∀ i < 16, (0x20CC : Word).getLsbD i = true → i = 2 ∨ i = 3 ∨ i = 6 ∨ i = 7 ∨ i = 13 := by decide
  simp only [field, hn]
  refine ⟨by omega, by omega, by omega, by omega, and_eq_zero_of_bits fun i hi hm => ?_⟩
  rw [hn]
  rcases hmask i hi hm with rfl | rfl | rfl | rfl | rfl <;> omega

/-- FIELD_SEL 03H: the policy fields, and no other bit. -/
theorem StreamConfig.words_policy {cfg : StreamConfig} (hm : cfg.watermark < 16) :
    flag cfg.words.2.1 15 = cfg.haltOnLoss ∧ field cfg.words.2.1 14 12 = groupCode cfg.group
    ∧ field cfg.words.2.1 11 8 = cfg.watermark ∧ field cfg.words.2.1 5 4 = cfg.overrun.code
    ∧ field cfg.words.2.1 2 0 = cfg.underrun.code ∧ cfg.words.2.1 &&& 0x00C8 = 0 := by
  have h1 := Bool.toNat_le cfg.haltOnLoss
  have h2 := groupCode_le cfg.group
  have h3 := cfg.overrun.code_le
  have h4 := cfg.underrun.code_le
  have hn : cfg.words.2.1.toNat = cfg.haltOnLoss.toNat * 2 ^ 15 + groupCode cfg.group * 2 ^ 12
      + cfg.watermark * 2 ^ 8 + cfg.overrun.code * 2 ^ 4 + cfg.underrun.code := toNat_word_of_lt (by omega)
  have hmask : ∀ i < 16, (0x00C8 : Word).getLsbD i = true → i = 3 ∨ i = 6 ∨ i = 7 := by decide
  simp only [field, hn]
  refine ⟨flag_of_div ?_, by omega, by omega, by omega, by omega, and_eq_zero_of_bits fun i hi hm => ?_⟩ <;> rw [hn]
  · omega
  · rcases hmask i hi hm with rfl | rfl | rfl <;> omega

/-- FIELD_SEL 04H and 05H hold the two halves of the fill. -/
theorem StreamConfig.words_fill (cfg : StreamConfig) :
    cfg.words.2.2.2.toNat * 65536 + cfg.words.2.2.1.toNat = cfg.fill.toNat := by
  have hf : cfg.fill.toNat < 16777216 := cfg.fill.isLt
  have hl : cfg.words.2.2.1.toNat = cfg.fill.toNat % 2 ^ 16 := toNat_word_of_lt (by omega)
  have hh : cfg.words.2.2.2.toNat = cfg.fill.toNat / 2 ^ 16 := toNat_word_of_lt (by omega)
  omega

/-! ### The other fields -/

theorem StreamCtx.fieldWord_levels {c : StreamCtx} (captured : Word) (hres : c.residual.length < 32)
    (hfifo : c.fifo.length ≤ 8) : (c.fieldWord captured 0x06).toNat = c.residual.length * 256 + c.fifo.length :=
  toNat_word_of_lt (by omega)

theorem StreamCtx.fieldWord_reserved (c : StreamCtx) (captured : Word) {k : Nat} (h : 0x11 ≤ k) :
    c.fieldWord captured k = 0 := by
  obtain ⟨m, rfl⟩ := Nat.exists_eq_add_of_le' h
  rfl

theorem StreamCtx.fieldWord_lastTag (c : StreamCtx) (captured : Word) :
    (c.fieldWord captured 0x10).toNat = (match c.lastTag with
      | some tag => 32768 + tag.toNat
      | none => 0) := by
  have hw : c.fieldWord captured 0x10 = (match c.lastTag with
      | some t => word (2 ^ 15 + t.toNat)
      | none => 0) := rfl
  rw [hw]
  cases c.lastTag with
  | none => rfl
  | some t => exact toNat_word_of_lt (by have := t.isLt; omega)

theorem StreamCtx.configWords_some {c : StreamCtx} {cfg : StreamConfig} (h : c.cfg = some cfg) :
    c.configWords = cfg.words := by
  simp only [StreamCtx.configWords, h]

theorem StreamCtx.configWords_none {c : StreamCtx} (h : c.cfg = none) : c.configWords = (0, 0, 0, 0) := by
  simp only [StreamCtx.configWords, h]

end Sys2Proof.Machine
end

section
/-! PROOFS. Only a COMMAND write and the pin reset write COMMAND, RESULT and RESULT_DETAIL (R167, R168). -/

namespace Sys2Proof.Machine

/-! ### What leaves the window as it is -/

theorem State.MoverAct.win {s t : State} (h : s.MoverAct t) : t.win = s.win := by
  obtain ⟨-, -, -, -, -, -, hwin, -⟩ := h.fields
  exact hwin

@[simp] theorem State.settle_win (s : State) : s.settle.win = s.win := by
  obtain ⟨-, -, -, -, hwin, -⟩ := s.settle_fields
  exact hwin

@[simp] theorem State.haltOne_win (s : State) (i : StreamId) (cause : HaltCause) : (s.haltOne i cause).win = s.win := by
  rw [State.haltOne]
  split <;> rfl

theorem foldl_win {α : Type} {f : State → α → State} (h : ∀ a x, (f a x).win = a.win) (xs : List α) (s : State) :
    (xs.foldl f s).win = s.win := by
  induction xs generalizing s with
  | nil => rfl
  | cons x xs ih => exact (ih (f s x)).trans (h s x)

@[simp] theorem State.haltCascade_win (s : State) (i : StreamId) (cause : HaltCause) :
    (s.haltCascade i cause).win = s.win := by
  simp only [State.haltCascade]
  split
  · exact s.haltOne_win i cause
  · exact (foldl_win (fun a j => a.haltOne_win j .group) _ _).trans (s.haltOne_win i cause)

@[simp] theorem State.boundary_win (s : State) (lp : BitVec 16 → List Record) : (s.boundary lp).win = s.win := by
  obtain ⟨-, -, -, -, hframe⟩ := s.boundary_spec lp
  rw [hframe]

@[simp] theorem State.loseAlignment_win (s : State) : s.loseAlignment.win = s.win := by
  obtain ⟨_, _, _, -, -, -, -, hframe⟩ := s.loseAlignment_spec
  generalize s.loseAlignment = u at hframe ⊢
  rw [hframe]

theorem State.takeWord_win (s : State) (m : Move) (w : InFlight) (data : Word) : (s.takeWord m w data).win = s.win := by
  rw [State.takeWord]
  split
  · split <;> rfl
  · rfl

theorem State.completeWord_win (s : State) (x : Option Word) : (s.completeWord x).win = s.win := by
  simp only [State.completeWord]
  split
  · exact (State.goOn_act _ _).win.trans (s.takeWord_win _ _ _)
  · rfl

theorem State.faultWord_win (s : State) : s.faultWord.win = s.win := by
  simp only [State.faultWord]
  split
  · rw [State.endTenure_win]
    split
    · rw [State.haltCascade_win, State.raiseAll_win]
    · rfl
  · rfl

theorem State.sampleGrant_win (s : State) : s.sampleGrant.win = s.win := by
  rw [State.sampleGrant]
  split
  · exact (State.pollMover_act _).win.trans s.grantLow_act.win
  · rfl

theorem State.releaseReset_win (s : State) : s.releaseReset.win = s.win := by
  rw [State.releaseReset]
  split
  · exact State.sampleGrant_win _
  · rfl

theorem State.sampleLow_win (s : State) : s.sampleLow.win = s.win := by
  rw [State.sampleLow]
  split <;> rfl

theorem State.takeSync_win (s : State) (pos : Nat) : (s.takeSync pos).win = s.win := by
  simp only [State.takeSync]
  split
  · rfl
  · rfl
  · split
    · rfl
    · split
      · rw [State.settle_win, State.boundary_win]
      · rfl
  all_goals
    split
    · rw [State.settle_win, State.boundary_win]
    · split
      · rw [State.settle_win, State.boundary_win]
      · rfl

theorem State.sampleHigh_win (s : State) (bit : Nat) : (s.sampleHigh bit).win = s.win := by
  rw [State.sampleHigh]
  split
  · exact s.takeSync_win _
  · rfl

theorem State.endTrial_win (s : State) : s.endTrial.win = s.win := by
  rw [State.endTrial]
  split <;> rfl

theorem State.missSync_win (s : State) : s.missSync.win = s.win := by
  simp only [State.missSync]
  split
  · split
    · rw [State.settle_win, State.boundary_win]
    · rw [State.settle_win, State.loseAlignment_win]
  · rfl

theorem State.endFrame_win (s : State) : s.endFrame.win = s.win := by
  rw [State.endFrame]
  split
  · rw [State.settle_win, State.boundary_win]
  · rfl

theorem State.serveTx_win (s : State) (i : StreamId) (width : Nat) : (s.serveTx i width).win = s.win := by
  simp only [State.serveTx]
  split
  · rfl
  · split
    case h_4 | h_5 =>
      split
      · rfl
      · split
        · exact State.haltCascade_win _ _ _
        · split <;> rfl
    case h_6 => split <;> rfl
    all_goals rfl

theorem State.startTxSlot_win (s : State) (slot : Nat) : (s.startTxSlot slot).win = s.win := by
  simp only [State.startTxSlot]
  split
  · rfl
  · rw [State.settle_win, State.serveTx_win]

theorem State.offerRx_win (s : State) (i : StreamId) (x : Sample) : (s.offerRx i x).win = s.win := by
  simp only [State.offerRx]
  split
  · rfl
  · split
    case h_5 | h_6 =>
      split
      · rfl
      · split
        · exact State.haltCascade_win _ _ _
        · split <;> rfl
    all_goals rfl

theorem State.endRxSlot_win (s : State) (slot : Nat) (rxd : Sample) : (s.endRxSlot slot rxd).win = s.win := by
  simp only [State.endRxSlot]
  split
  · rfl
  · rw [State.settle_win, State.offerRx_win]

/-! ### Rows that are no COMMAND write -/

/-- COMMAND, RESULT and RESULT_DETAIL stand as they were. -/
def Window.SameResult (w w' : Window) : Prop :=
  w'.command = w.command ∧ w'.resultOp = w.resultOp ∧ w'.resultCode = w.resultCode ∧ w'.detail = w.detail

theorem Window.SameResult.refl (w : Window) : w.SameResult w := ⟨rfl, rfl, rfl, rfl⟩

theorem Window.SameResult.of_eq {w w' : Window} (h : w' = w) : w.SameResult w' := h ▸ .refl w

theorem State.event_win {s : State} {run : State → State} (h : (run s).win = s.win) : (s.event run).win = s.win := by
  rw [State.event]
  split
  · rfl
  · exact h

theorem State.event_sameResult {s : State} {run : State → State} (h : s.win.SameResult (run s).win) :
    s.win.SameResult (s.event run).win := by
  rw [State.event]
  split
  · exact .refl _
  · exact h

theorem State.hostWrite_sameResult {s : State} {run : Window → Window} (h : s.win.SameResult (run s.win)) :
    s.win.SameResult (s.hostWrite run).win := by
  rw [State.hostWrite]
  split
  · exact .refl _
  · exact h

theorem Window.write_sameResult (w : Window) (p : PlainWord) (v : Word) : w.SameResult (w.write p v) := by
  cases p <;> exact ⟨rfl, rfl, rfl, rfl⟩

theorem State.writeMapData_sameResult (s : State) (v : Word) : s.win.SameResult (s.writeMapData v).win := by
  simp only [State.writeMapData]
  split <;> exact ⟨rfl, rfl, rfl, rfl⟩

theorem State.writeIntCtrl_sameResult (s : State) (v : Word) : s.win.SameResult (s.writeIntCtrl v).win := by
  rw [State.writeIntCtrl]
  split <;> exact ⟨rfl, rfl, rfl, rfl⟩

theorem State.writeControl_sameResult (s : State) (cw : ControlWord) (v : Word) :
    s.win.SameResult (s.writeControl cw v).win := by
  cases cw with
  | holdoff => exact .refl _
  | busCtrl => simp only [State.writeControl]; split <;> exact ⟨rfl, rfl, rfl, rfl⟩
  | readyTimeout => simp only [State.writeControl]; split <;> exact ⟨rfl, rfl, rfl, rfl⟩

/-- A row that is neither a COMMAND write nor the pin reset leaves COMMAND, RESULT and RESULT_DETAIL alone. -/
theorem exec_sameResult {c : Instr} {s t : State} (hop : c.opcode? = none) (hc : c ≠ .pinReset)
    (h : exec c s = .next t) : s.win.SameResult t.win := by
  have hpin : ∀ {m : Mover} {u : State}, u.win = s.win →
      s.win.SameResult (if s.resetLow then { s with mover := m } else u).win := fun hu => by
    split
    · exact .refl _
    · exact .of_eq hu
  cases c with
  | mapDataWrite v => cases h; exact State.event_sameResult (s.writeMapData_sameResult v)
  | intCtrlWrite v => cases h; exact State.event_sameResult (s.writeIntCtrl_sameResult v)
  | controlWordWrite cw v => cases h; exact State.event_sameResult (s.writeControl_sameResult cw v)
  | statusWrite v => cases h; exact State.hostWrite_sameResult (by split <;> exact ⟨rfl, rfl, rfl, rfl⟩)
  | readOnlyWrite w v => cases h; exact State.hostWrite_sameResult ⟨rfl, rfl, rfl, rfl⟩
  | samplesServedLowRead => cases h; exact State.hostWrite_sameResult (by split <;> exact ⟨rfl, rfl, rfl, rfl⟩)
  | registerWrite p v => cases h; exact State.hostWrite_sameResult (s.win.write_sameResult p v)
  | resetRelease => cases h; exact .of_eq s.releaseReset_win
  | syncArrival bit => cases h; exact .of_eq (State.event_win (s.sampleHigh_win bit))
  | trialTimeout => cases h; exact .of_eq (State.event_win s.endTrial_win)
  | missedSync => cases h; exact .of_eq (State.event_win s.missSync_win)
  | frameEnd => cases h; exact .of_eq (State.event_win s.endFrame_win)
  | transmitSlot k => cases h; exact .of_eq (State.event_win (s.startTxSlot_win k))
  | receiveSlot k x => cases h; exact .of_eq (State.event_win (s.endRxSlot_win k x))
  | busGrant => cases h; exact hpin (s.grant.settle_win.trans s.grant_act.win)
  | busGrantLow | busGrantWithdrawn => cases h; exact hpin (s.grantLow.settle_win.trans s.grantLow_act.win)
  | busYield b =>
    cases h
    split
    · exact .of_eq ((State.settle_win _).trans (State.yieldBus_act _).win)
    · exact .refl _
  | wordTransferComplete x =>
    cases h; exact .of_eq (State.event_win ((State.settle_win _).trans (s.completeWord_win x)))
  | busFault => cases h; exact .of_eq (State.event_win (s.faultWord.settle_win.trans s.faultWord_win))
  | holdoffExpiry => cases h; exact .of_eq (State.event_win rfl)
  | fsyncLowSample => cases h; exact .of_eq (State.event_win s.sampleLow_win)
  | pinReset => exact absurd rfl hc
  | _ => exact absurd hop (by simp [Instr.opcode?])

theorem State.readWord_of_sameResult {s t : State} (h : s.win.SameResult t.win) :
    ∀ k ∈ [0x12, 0x13, 0x14], t.readWord k = s.readWord k := by
  obtain ⟨hcmd, hop, hcode, hdetail⟩ := h
  have hresult : t.win.resultWord = s.win.resultWord := by rw [Window.resultWord, hop, hcode, Window.resultWord]
  intro k hk
  simp only [List.mem_cons, List.not_mem_nil, or_false] at hk
  rcases hk with rfl | rfl | rfl
  · exact hcmd
  · exact hresult
  · exact hdetail

/-! ### COMMAND writes -/

/-- COMMAND reads back as written, and RESULT names its opcode. -/
theorem exec_result {c : Instr} {s t : State} {op arg : Byte} (hr : s.resetLow = false) (hop : c.opcode? = some op)
    (harg : c.operand? = some arg) (h : exec c s = .next t) :
    t.win.command = op ++ arg ∧ t.win.resultOp = op := by
  have hrun : ∀ {op' arg' : Byte} {run : State → Answer}, some op' = some op → some arg' = some arg →
      Host.Outcome.next (s.runCommand op' arg' run) = (.next t : Outcome) →
      t.win.command = op ++ arg ∧ t.win.resultOp = op := fun ho ha h => by
    cases ho; cases ha; cases h
    rw [State.runCommand, if_neg (by simp [hr])]
    exact ⟨rfl, rfl⟩
  cases c with
  | configure | deconfigure | post | start | stop | abort | clear | gstart | gstop | gabort | mapswap | mapcopy | cqpop
  | cqflush | lineSet | lineUp | lineDown | unknownOpcode => exact hrun hop harg h
  | _ => exact absurd hop (by simp [Instr.opcode?])

theorem ResultCode.code_lt (c : ResultCode) : c.code < 256 := by cases c <;> decide

theorem Window.resultWord_toNat (w : Window) : w.resultWord.toNat = w.resultOp.toNat * 256 + w.resultCode.code := by
  have hop := w.resultOp.isLt
  have hcode := w.resultCode.code_lt
  exact toNat_word_of_lt (by omega)

theorem toNat_append_byte (op arg : Byte) : (op ++ arg).toNat = op.toNat * 256 + arg.toNat := by
  have harg := arg.isLt
  rw [BitVec.toNat_append, ← Nat.shiftLeft_add_eq_or_of_lt harg, Nat.shiftLeft_eq]

end Sys2Proof.Machine
end

section
/-! PROOFS. What the host reads and what the pins show, clause by clause (O46). -/

namespace Sys2Proof.Machine

/-- What FIELD_SEL 00H shows of a run state, as the obligation spells it. -/
theorem RunState.causeCode_eq (st : RunState) : st.causeCode = (match st with
    | .halted .xrun => 1
    | .halted .busFault => 2
    | .halted .align => 3
    | .halted .group => 4
    | .halted .line => 5
    | _ => 0) := by
  cases st with
  | halted h => cases h <;> rfl
  | _ => rfl

/-- FIELD_SEL 01H, as the obligation spells it. -/
theorem StreamCtx.targetWord_eq (c : StreamCtx) : c.targetWord = (match c.state with
    | .armed (.at f) _ => f
    | _ => 0) := by
  rw [StreamCtx.targetWord]
  cases c.state with
  | armed m e => cases m <;> rfl
  | _ => rfl

/-- Settles O46. -/
theorem statusAndHeadWords : Obligations.StatusAndHeadWords := by
  unfold Obligations.StatusAndHeadWords
  refine ⟨fun s hq => ?_, fun s k => rfl, fun s => ⟨fun r rest h => ?_, fun h ho => ?_, fun n h ho => ?_⟩,
    fun s => ?_, rfl, fun c s t hr h => ⟨fun op arg hop harg => ?_, fun hop hc => ?_⟩, fun s => ?_⟩
  -- STATUS (R162)
  case refine_1 =>
    obtain ⟨herr, hbreq, hcount, hzero, hactive, hpending, hstate⟩ := State.statusWord_fields hq.count_le
    refine ⟨herr, hbreq, hcount, hzero, hactive, hpending, hstate, ?_, rfl, rfl⟩
    exact (iff_of_eq (congrArg (· = 0) hcount)).trans s.cq.kind_eq_zero_iff.symm
  -- the head record (R170)
  case refine_2 =>
    have hw := CompletionQueue.headWords_cons h
    cases r with
    | bufferDone i f tag st n =>
      refine State.head_of_words hw ⟨toNat_kindWord i (by decide), rfl, ?_, ?_, toNat_word n⟩
      · cases st <;> rfl
      · exact toNat_word_of_lt (by have := tag.isLt; omega)
    | underrun i f | overrun i f | streamStarted i f =>
      exact State.head_of_words hw ⟨toNat_kindWord i (by decide), rfl, rfl, rfl, rfl⟩
    | streamStopped i f c n =>
      refine State.head_of_words hw ⟨toNat_kindWord i (by decide), rfl, ?_, toNat_word n, rfl⟩
      cases c <;> rfl
    | streamHalted i f c =>
      refine State.head_of_words hw ⟨toNat_kindWord i (by decide), rfl, ?_, rfl, rfl⟩
      cases c <;> rfl
    | mapSwapped f b =>
      refine State.head_of_words hw ⟨rfl, rfl, ?_, rfl, rfl⟩
      cases b <;> rfl
    | frameSlip f | alignLost f | alignGained f => exact State.head_of_words hw ⟨rfl, rfl, rfl, rfl, rfl⟩
    | busFault i f a =>
      have ha : a.toNat < 16777216 := a.isLt
      exact State.head_of_words hw ⟨toNat_kindWord i (by decide), rfl, rfl, toNat_word_of_lt (by omega),
        toNat_word_of_lt (by omega)⟩
  -- an empty queue
  case refine_3 => exact State.head_of_words (CompletionQueue.headWords_none h ho) ⟨rfl, rfl, rfl, rfl, rfl⟩
  -- the OVERFLOW record alone
  case refine_4 =>
    exact State.head_of_words (CompletionQueue.headWords_overflow h ho) ⟨rfl, rfl, rfl, toNat_word n, rfl⟩
  -- FIELD_DATA (R165)
  case refine_5 =>
    intro c shows run
    obtain ⟨⟨h15, h14, h13, h12⟩, ⟨h11, h10, h9, h8⟩, h3, h7, hcause, hcode⟩ := c.runWord_fields
    have hflag : ∀ {b b' : Bool} {p : Prop}, b = b' → (b' = true ↔ p) → (b = true ↔ p) := fun hb hp => hb ▸ hp
    refine ⟨⟨h15, h14, h13, h12, hflag h11 c.state.releases_iff, hflag h10 c.state.drainsByStop_iff,
        hflag h9 c.state.armedFlag_iff, hflag h8 c.state.startsAt_iff, h3, h7, hcause.trans c.state.causeCode_eq, hcode⟩,
      c.targetWord_eq, fun hn => ?_, fun cfg S hcfg hagree => ?_,
      StreamCtx.fieldWord_levels s.win.captured, toNat_word _, toNat_word _, toNat_word _, rfl, rfl, rfl, rfl,
      c.fieldWord_lastTag s.win.captured, fun k hk => c.fieldWord_reserved s.win.captured hk⟩
    · have hwords := StreamCtx.configWords_none hn
      simp only [List.forall_mem_cons]
      exact ⟨congrArg (·.1) hwords, congrArg (·.2.1) hwords, congrArg (·.2.2.1) hwords, congrArg (·.2.2.2) hwords,
        fun k hk => absurd hk List.not_mem_nil⟩
    · have hwords := StreamCtx.configWords_some hcfg
      have h2 : shows 0x02 = cfg.words.1 := congrArg (·.1) hwords
      have h3 : shows 0x03 = cfg.words.2.1 := congrArg (·.2.1) hwords
      have h4 : shows 0x04 = cfg.words.2.2.1 := congrArg (·.2.2.1) hwords
      have h5 : shows 0x05 = cfg.words.2.2.2 := congrArg (·.2.2.2) hwords
      obtain ⟨-, hwidth, -, -, -, -, -, -, hmark, -⟩ := hagree
      obtain ⟨hpacking, hwidth, hext, hdir, hmask⟩ := StreamConfig.words_format (cfg := cfg) (by omega)
      obtain ⟨hhalt, hgroup, hmark, hover, hunder, hmask'⟩ := StreamConfig.words_policy (cfg := cfg) (by omega)
      rw [h2, h3, h4, h5]
      exact ⟨hpacking, hwidth, hext, hdir, hmask, hhalt, hgroup, hmark, hover, hunder, hmask', cfg.words_fill⟩
  -- a COMMAND write
  case refine_6 =>
    obtain ⟨hcmd, hres⟩ := exec_result hr hop harg h
    refine ⟨?_, ?_, rfl⟩
    · exact (congrArg BitVec.toNat hcmd).trans (toNat_append_byte op arg)
    · refine (t.win.resultWord_toNat).trans ?_
      rw [hres]
  -- any other row
  case refine_7 => exact State.readWord_of_sameResult (exec_sameResult hop hc h)
  -- the pins
  case refine_8 =>
    exact ⟨State.txdPin_released, State.txdPin_driven, s.bclkDriven_iff, rfl, State.busPins_released,
      fun h _ hw => State.busPins_inFlight h hw⟩

end Sys2Proof.Machine
end

section
/-! PROOFS. The slot map, chapter 2: the two banks, the validation of R28, MAPSWAP, MAPCOPY and writes to MAP_DATA. -/

namespace Sys2Proof.Machine

/-! ### The two banks (R22) -/

@[simp] theorem SlotMap.bank_putBank_same (m : SlotMap) (b : BankId) (v : Vector Entry 32) :
    (m.putBank b v).bank b = v := by cases b <;> rfl

@[simp] theorem SlotMap.bank_putBank_other (m : SlotMap) (b : BankId) (v : Vector Entry 32) :
    (m.putBank b.other v).bank b = m.bank b := by cases b <;> rfl

@[simp] theorem SlotMap.putBank_active (m : SlotMap) (b : BankId) (v : Vector Entry 32) :
    (m.putBank b v).active = m.active := by cases b <;> rfl

@[simp] theorem SlotMap.putBank_swapPending (m : SlotMap) (b : BankId) (v : Vector Entry 32) :
    (m.putBank b v).swapPending = m.swapPending := by cases b <;> rfl

@[simp] theorem SlotMap.activeBank_putBank_shadow (m : SlotMap) (v : Vector Entry 32) :
    (m.putBank m.active.other v).activeBank = m.activeBank := by
  simp [SlotMap.activeBank]

@[simp] theorem SlotMap.shadowBank_putBank_shadow (m : SlotMap) (v : Vector Entry 32) :
    (m.putBank m.active.other v).shadowBank = v := by
  simp [SlotMap.shadowBank]

/-- The exchange of roles makes the shadow bank the active one (R31). -/
theorem SlotMap.activeBank_swap (m : SlotMap) : m.swap.activeBank = m.shadowBank := by
  cases m with
  | mk b0 b1 active p => cases active <;> rfl

theorem BankId.other_ne (b : BankId) : b ≠ b.other := by cases b <;> decide

/-! ### MAPCOPY (R27) -/

/-- Settles O17. -/
theorem mapCopyOutcome : Obligations.MapCopyOutcome := by
  unfold Obligations.MapCopyOutcome
  intro s arg hr
  refine ⟨fun hp => congrArg Host.Outcome.next (State.runCommand_answer hr (if_pos hp)), fun hp => ?_⟩
  have hcopy : s.mapcopy = State.accept { s with map := s.map.putBank s.map.active.other s.map.activeBank } 0 :=
    if_neg (by simp [hp])
  refine ⟨_, congrArg Host.Outcome.next (State.runCommand_answer hr hcopy), ?_, ?_, ?_, ?_⟩
  · exact s.map.activeBank_putBank_shadow _
  · exact s.map.shadowBank_putBank_shadow _
  · exact s.map.putBank_active _ _
  · exact (s.map.putBank_swapPending _ _).trans hp

/-! ### Words read through their fields (R160, R164) -/

/-- A word is a value under a mask when each of its bits is the value's where the mask has one, and 0 elsewhere. -/
theorem word_eq_and {n : Nat} {v m : Word} (hn : n < 65536)
    (h : ∀ i < 16, n / 2 ^ i % 2 = if m.getLsbD i then v.toNat / 2 ^ i % 2 else 0) : word n = v &&& m := by
  refine BitVec.eq_of_getLsbD_eq fun i hi => getLsbD_of_div ?_
  rw [toNat_word_of_lt hn, h i hi, BitVec.getLsbD_and]
  cases m.getLsbD i with
  | false => simp
  | true =>
    rw [Bool.and_true, BitVec.getLsbD, Nat.testBit_eq_decide_div_mod_eq]
    rcases Nat.mod_two_eq_zero_or_one (v.toNat / 2 ^ i) with h0 | h1
    · simp [h0]
    · simp [h1]

theorem flag_iff_div (w : Word) (i : Nat) : flag w i = true ↔ w.toNat / 2 ^ i % 2 = 1 := getLsbD_iff_div w i

/-- The number a flag of a word stands for. -/
theorem flag_toNat (w : Word) (i : Nat) : (flag w i).toNat = w.toNat / 2 ^ i % 2 := by
  cases hf : flag w i with
  | true => exact ((flag_iff_div w i).1 hf).symm
  | false =>
    have hne := mt (flag_iff_div w i).2 (by simp [hf])
    exact (Nat.mod_two_ne_one.1 hne).symm

/-! ### MAP_DATA (R24, R25, R26, R164) -/

theorem Entry.word_some (i : StreamId) (d : Direction) :
    Entry.word (some (i, d)) = Machine.word (2 ^ 15 + d.code * 2 ^ 8 + i.val) := by cases d <;> rfl

/-- A written entry reads back as its own fields: bit 15, the direction in bit 8, the stream in bits 3 to 0. -/
theorem Entry.word_parse (v : Word) : Entry.word (Entry.parse v) = if v.getLsbD 15 then v &&& 0x810F else 0 := by
  have hflag : flag v 15 = v.getLsbD 15 := rfl
  rw [Entry.parse, hflag]
  cases h15 : v.getLsbD 15 with
  | false => rfl
  | true =>
    have htop := (getLsbD_iff_div v 15).1 h15
    have hdir : (if flag v 8 then Direction.rx else Direction.tx).code = v.toNat / 2 ^ 8 % 2 := by
      rw [← flag_toNat]
      cases flag v 8 <;> rfl
    have hstream : field v 3 0 % 16 = v.toNat % 16 := by simp [field]
    rw [if_pos rfl, if_pos rfl, Entry.word_some, hdir]
    simp only [hstream]
    refine word_eq_and (by omega) fun i hi => ?_
    interval_cases i <;> simp <;> omega

/-- An edit of the shadow bank with no swap pending (R26). -/
theorem State.writeMapData_shadow {s : State} (v : Word) (hb : s.win.mapBank = s.map.active.other)
    (hp : s.map.swapPending = false) :
    s.writeMapData v = { s with
      map := s.map.putBank s.map.active.other (s.map.shadowBank.set s.win.mapEntry.val (Entry.parse v)) } := by
  rw [State.writeMapData, if_pos ⟨hb, hp⟩, hb]
  rfl

/-- Any other write to MAP_DATA is a misuse (R26, R161). -/
theorem State.writeMapData_misuse {s : State} (v : Word)
    (h : s.win.mapBank = s.map.active ∨ s.map.swapPending = true) :
    s.writeMapData v = { s with win := { s.win with accessErr := true } } := by
  refine if_neg fun ⟨hb, hp⟩ => ?_
  rcases h with h | h
  · exact s.map.active.other_ne (h.symm.trans hb)
  · rw [h] at hp
    cases hp

/-- Settles O18. -/
theorem mapDataWriteOutcome : Obligations.MapDataWriteOutcome := by
  unfold Obligations.MapDataWriteOutcome
  intro s v hr
  refine ⟨fun hb hp => ?_, fun h => congrArg Host.Outcome.next ((State.event_run hr _).trans (s.writeMapData_misuse v h))⟩
  refine ⟨_, congrArg Host.Outcome.next ((State.event_run hr _).trans (s.writeMapData_shadow v hb hp)),
    s.map.activeBank_putBank_shadow _, fun k => ?_, ?_, s.map.putBank_active _ _,
    (s.map.putBank_swapPending _ _).trans hp, rfl⟩
  · rw [SlotMap.shadowBank_putBank_shadow, Fin.getElem_fin, Vector.getElem_set]
    simp only [Fin.ext_iff, eq_comm (a := k.val)]
    rfl
  · rw [← Entry.word_parse v]
    refine congrArg Entry.word ?_
    simp only [hb, SlotMap.bank_putBank_same]
    exact Vector.getElem_set_self _

/-! ### The validation of R28 -/

theorem State.disagrees_iff (s : State) (i : StreamId) (d : Direction) :
    s.disagrees i d = true ↔ ∃ cfg, (s.stream i).cfg = some cfg ∧ cfg.direction ≠ d := by
  cases hc : (s.stream i).cfg <;> simp [State.disagrees, hc]

theorem opposes_iff (i : StreamId) (d : Direction) (e : Entry) :
    opposes i d e = true ↔ ∃ d', e = some (i, d') ∧ d' ≠ d := by
  cases e with
  | none => simp [opposes]
  | some p =>
    obtain ⟨j, x⟩ := p
    simp only [opposes, decide_eq_true_eq, Option.some.injEq, Prod.mk.injEq]
    exact ⟨fun ⟨hj, hx⟩ => ⟨x, ⟨hj, rfl⟩, hx⟩, fun ⟨_, ⟨hj, hx⟩, hd⟩ => ⟨hj, hx ▸ hd⟩⟩

/-- Entry `n` of a bank's list offends (R28): an earlier entry gives its stream the other direction, or its stream is
configured in the other direction. -/
def State.OffendsAt (s : State) (es : List Entry) (n : Nat) : Prop :=
  ∃ i d, es[n]? = some (some (i, d))
    ∧ ((∃ e ∈ es.take n, ∃ d', e = some (i, d') ∧ d' ≠ d) ∨ ∃ cfg, (s.stream i).cfg = some cfg ∧ cfg.direction ≠ d)

/-- The test the validation makes of an entry that names stream `i`. -/
theorem State.offendsAt_append (s : State) (pre rest : List Entry) (i : StreamId) (d : Direction) :
    s.OffendsAt (pre ++ some (i, d) :: rest) pre.length
      ↔ pre.reverse.any (opposes i d) = true ∨ s.disagrees i d = true := by
  simp only [State.OffendsAt, List.getElem?_append_right (Nat.le_refl _), Nat.sub_self, List.getElem?_cons_zero,
    List.take_left, Option.some.injEq, Prod.mk.injEq, List.any_reverse, List.any_eq_true, opposes_iff,
    State.disagrees_iff]
  exact ⟨fun ⟨_, _, ⟨hi, hd⟩, h⟩ => hi ▸ hd ▸ h, fun h => ⟨i, d, ⟨rfl, rfl⟩, h⟩⟩

/-- An unassigned entry never offends. -/
theorem State.not_offendsAt_none (s : State) (pre rest : List Entry) :
    ¬ s.OffendsAt (pre ++ none :: rest) pre.length := by
  rintro ⟨i, d, h, -⟩
  simp at h

/-- What the validation answers from the entry after `pre` on: the lowest offending one, or none. -/
theorem State.offending_spec (s : State) (pre rest : List Entry) :
    (∀ n, s.offending pre.length pre.reverse rest = some n →
      s.OffendsAt (pre ++ rest) n ∧ ∀ m, pre.length ≤ m → m < n → ¬ s.OffendsAt (pre ++ rest) m)
    ∧ (s.offending pre.length pre.reverse rest = none → ∀ m, pre.length ≤ m → ¬ s.OffendsAt (pre ++ rest) m) := by
  induction rest generalizing pre with
  | nil =>
    refine ⟨fun n h => absurd h (by simp [State.offending]), fun _ m hm => ?_⟩
    rintro ⟨i, d, h, -⟩
    rw [List.append_nil, List.getElem?_eq_none hm] at h
    cases h
  | cons e rest ih =>
    obtain ⟨hsome, hnone⟩ := ih (pre ++ [e])
    simp only [List.length_append, List.length_singleton, List.reverse_append, List.reverse_singleton,
      List.singleton_append, List.append_assoc] at hsome hnone
    by_cases ho : s.OffendsAt (pre ++ e :: rest) pre.length
    · have hfound : s.offending pre.length pre.reverse (e :: rest) = some pre.length := by
        cases e with
        | none => exact absurd ho (s.not_offendsAt_none pre rest)
        | some p => exact if_pos ((s.offendsAt_append pre rest p.1 p.2).1 ho)
      rw [hfound]
      exact ⟨fun n hn => by cases hn; exact ⟨ho, fun m hm hlt => absurd hm (Nat.not_le.2 hlt)⟩, fun h => by cases h⟩
    · have hpass : s.offending pre.length pre.reverse (e :: rest)
          = s.offending (pre.length + 1) (e :: pre.reverse) rest := by
        cases e with
        | none => rfl
        | some p => exact if_neg (mt (s.offendsAt_append pre rest p.1 p.2).2 ho)
      have hstep : ∀ m, pre.length ≤ m → (pre.length + 1 ≤ m → ¬ s.OffendsAt (pre ++ e :: rest) m) →
          ¬ s.OffendsAt (pre ++ e :: rest) m := fun m hm h => by
        rcases Nat.eq_or_lt_of_le hm with rfl | hlt
        · exact ho
        · exact h hlt
      rw [hpass]
      exact ⟨fun n hn => ⟨(hsome n hn).1, fun m hm hlt => hstep m hm fun hm' => (hsome n hn).2 m hm' hlt⟩,
        fun hn m hm => hstep m hm (hnone hn m)⟩

/-- Entry `k` of a bank offends (R28). -/
def State.Offends (s : State) (bank : Vector Entry 32) (k : Fin 32) : Prop :=
  ∃ i d, bank[k] = some (i, d)
    ∧ ((∃ j : Fin 32, j < k ∧ ∃ d', bank[j] = some (i, d') ∧ d' ≠ d)
      ∨ ∃ cfg, (s.stream i).cfg = some cfg ∧ cfg.direction ≠ d)

theorem mem_take_bank (bank : Vector Entry 32) (k : Fin 32) (e : Entry) :
    e ∈ bank.toList.take k.val ↔ ∃ j : Fin 32, j < k ∧ bank[j] = e := by
  have hlen : bank.toList.length = 32 := by simp
  rw [List.mem_take_iff_getElem]
  refine ⟨fun ⟨j, hj, he⟩ => ⟨⟨j, by omega⟩, by simpa [Fin.lt_def] using And.left (Nat.lt_min.1 hj), by simpa using he⟩,
    fun ⟨j, hj, he⟩ => ⟨j.val, Nat.lt_min.2 ⟨hj, by omega⟩, by simpa using he⟩⟩

theorem State.offends_iff (s : State) (bank : Vector Entry 32) (k : Fin 32) :
    s.Offends bank k ↔ s.OffendsAt bank.toList k.val := by
  have hmem : ∀ p : Entry → Prop, (∃ e ∈ bank.toList.take k.val, p e) ↔ ∃ j : Fin 32, j < k ∧ p bank[j] := fun p =>
    ⟨fun ⟨e, he, hp⟩ => let ⟨j, hj, hb⟩ := (mem_take_bank bank k e).1 he; ⟨j, hj, hb ▸ hp⟩,
      fun ⟨j, hj, hp⟩ => ⟨_, (mem_take_bank bank k _).2 ⟨j, hj, rfl⟩, hp⟩⟩
  simp only [State.Offends, State.OffendsAt, bank_getElem?, Option.some.injEq, hmem]

/-- The validation of a bank answers its lowest offending entry. -/
theorem State.validate_eq_some {s : State} {bank : Vector Entry 32} {k : Fin 32} (ho : s.Offends bank k)
    (hlow : ∀ j, j < k → ¬ s.Offends bank j) : s.validate bank = some k.val := by
  obtain ⟨hsome, hnone⟩ := s.offending_spec [] bank.toList
  rw [s.offends_iff] at ho
  cases hv : s.validate bank with
  | none => exact absurd ho (hnone hv k.val (Nat.zero_le _))
  | some n =>
    obtain ⟨hn, hbelow⟩ := hsome n hv
    obtain ⟨i, d, hget, -⟩ := id hn
    obtain ⟨j, rfl, -⟩ := bank_getElem?_eq_some hget
    rcases Nat.lt_trichotomy j.val k.val with hlt | heq | hgt
    · exact absurd ((s.offends_iff bank j).2 hn) (hlow j hlt)
    · rw [heq]
    · exact absurd ho (hbelow k.val (Nat.zero_le _) hgt)

/-- The validation passes exactly when no entry offends. -/
theorem State.validate_eq_none_iff (s : State) (bank : Vector Entry 32) :
    s.validate bank = none ↔ ∀ k, ¬ s.Offends bank k := by
  obtain ⟨hsome, hnone⟩ := s.offending_spec [] bank.toList
  refine ⟨fun h k ho => hnone h k.val (Nat.zero_le _) ((s.offends_iff bank k).1 ho), fun h => ?_⟩
  cases hv : s.validate bank with
  | none => rfl
  | some n =>
    obtain ⟨hn, -⟩ := hsome n hv
    obtain ⟨i, d, hget, -⟩ := id hn
    obtain ⟨j, rfl, -⟩ := bank_getElem?_eq_some hget
    exact absurd ((s.offends_iff bank j).2 hn) (h j)

/-! ### MAPSWAP (R28 to R31) -/

/-- Settles O16. -/
theorem mapSwapOutcome : Obligations.MapSwapOutcome := by
  unfold Obligations.MapSwapOutcome
  intro s arg hr offends answer
  have hexec : ∀ {u code n}, s.mapswap = (u, code, word n) →
      exec (.mapswap arg) s = .next (u.withResult 0x20 arg code n) := fun h =>
    congrArg Host.Outcome.next (State.runCommand_answer hr h)
  refine ⟨fun hp => hexec (if_pos hp), fun hp => ⟨fun k hk hlow => hexec ?_, fun hno hs => hexec ?_,
    fun hno hs => hexec ?_⟩⟩
  · simp only [State.mapswap, hp, State.validate_eq_some hk hlow]
    rfl
  · simp only [State.mapswap, hp, (s.validate_eq_none_iff _).2 hno, hs]
    rfl
  · simp only [State.mapswap, hp, (s.validate_eq_none_iff _).2 hno, hs]
    rfl

end Sys2Proof.Machine
end

section
/-! PROOFS. What a row does to the streams, act by act: the turns of one stream, the acts of the Mover between them,
and that every row and every period of REFCLK is made of these. -/

namespace Sys2Proof.Machine

/-! ### The turns of one stream -/

/-- The widths the packer and the unpacker work with (R38): the part of a configuration's law that does not name the
slot length. -/
def StreamConfig.WidthInRange (c : StreamConfig) : Prop :=
  4 ≤ c.width ∧ c.width ≤ 24 ∧ (c.packing = .word → c.width ≤ 16)

/-- What any act but the Mover's own and a POST can do to one stream, with the condition it is done under. -/
inductive StreamCtx.Turn (c : StreamCtx) : StreamCtx → Prop
  /-- A stop with nothing left to store, or in ARMED (R51, R54, R55). -/
  | sweep : c.Turn c.swept
  /-- ABORT and CLEAR outside OFF (R65, R66). -/
  | abort : c.Turn { c.swept with lastSample := none }
  /-- ABORT in OFF (R65). -/
  | returnAll (hst : c.state = .off) : c.Turn { c.counted c.queue with queue := [] }
  /-- The boundary after a transmit drain (R58). -/
  | endDrain (hst : c.state = .draining .ended true) : c.Turn c.enterOff
  /-- The stop of a receive stream that has something left to store (R55). -/
  | flush (hst : c.state = .running ∨ c.state = .stopping) (hdir : c.cfg.map StreamConfig.direction = some .rx)
      (hq : c.queue ≠ []) :
      c.Turn { c.counted (c.queue.drop 1) with state := .draining .stop false, queue := c.queue.take 1 }
  /-- START and GSTART (R48, R141). -/
  | arm (m : StartMode) (hst : c.state = .off) (hcfg : c.cfg ≠ none) : c.Turn (c.arm m)
  /-- The start boundary (R49, R50). -/
  | start (m : StartMode) (e : Bool) (hst : c.state = .armed m e) :
      c.Turn { c with state := if e then .draining .ended false else .running }
  /-- STOP and GSTOP on a served line (R52, R143). -/
  | stopLater (hst : c.state = .running) : c.Turn { c with state := .stopping }
  /-- R63. -/
  | halt (cause : HaltCause) (hw : c.working = true) : c.Turn { c with state := .halted cause }
  /-- CONFIGURE and DECONFIGURE (R45, R46). -/
  | configure (cfg : Option StreamConfig) (hst : c.state = .off) (hq : c.queue = [])
      (hcfg : ∀ x, cfg = some x → x.WidthInRange) : c.Turn (c.reconfigure cfg)
  /-- R69. -/
  | send (x : Sample) (rest : List Sample) (hdir : c.cfg.map StreamConfig.direction = some .tx)
      (hd : c.driving = true) (hf : c.fifo = x :: rest) : c.Turn (c.takeSample x rest)
  /-- R70. -/
  | underrun (hdir : c.cfg.map StreamConfig.direction = some .tx)
      (hst : c.state = .running ∨ c.state = .stopping) : c.Turn c.underrunNow
  /-- R58: a drain finds the FIFO empty. -/
  | release (k : DrainKind) (r : Bool) (hdir : c.cfg.map StreamConfig.direction = some .tx)
      (hst : c.state = .draining k r) : c.Turn { c with state := .draining k true }
  /-- R74. -/
  | take (x : Sample) (hdir : c.cfg.map StreamConfig.direction = some .rx)
      (hst : c.state = .running ∨ c.state = .stopping) (hroom : c.fifo.length < 8) : c.Turn (c.enter x)
  /-- R59. -/
  | testEnd (n : Nat) : c.Turn (c.testEnd n)
  /-- R75, R76. -/
  | overrun (n : BitVec 16) (hst : c.state = .running ∨ c.state = .stopping) :
      c.Turn { c with overrunSamples := n, overrunEp := true }

/-- Turns of one stream, one after the other. -/
abbrev StreamCtx.Turns : StreamCtx → StreamCtx → Prop := Relation.ReflTransGen StreamCtx.Turn

theorem StreamCtx.Turn.turns {c c' : StreamCtx} (h : c.Turn c') : c.Turns c' := .single h

theorem StreamCtx.stopNow_turn {c : StreamCtx} (i : StreamId) (frame : BitVec 16) (b : Bool)
    (hst : c.state = .running ∨ c.state = .stopping) : c.Turn (c.stopNow i frame b).1 := by
  obtain ⟨hflush, hend⟩ := c.stopNow_spec i frame b
  by_cases h : c.stopFlushes b
  · rw [(hflush h).1]
    exact .flush hst h.1 h.2.1
  · rw [(hend h).1]
    exact .sweep

theorem StreamCtx.Stopped.turn {c c' : StreamCtx} {i : StreamId} {frame : BitVec 16} {b : Bool} {rs : List Record}
    (h : c.Stopped i frame b c' rs) (hst : c.state = .stopping) : c.Turn c' := by
  by_cases hf : c.stopFlushes b
  · rw [(h.1 hf).1]
    exact .flush (.inr hst) hf.1 hf.2.1
  · rw [(h.2 hf).1]
    exact .sweep

theorem StreamCtx.Crossed.turns {c c' : StreamCtx} {i : StreamId} {frame : BitVec 16} {b : Bool} {rs : List Record}
    (h : c.Crossed i frame b c' rs) : c.Turns c' := by
  simp only [StreamCtx.Crossed] at h
  split at h
  case h_1 m e hst =>
    split at h
    · rw [h.1]
      exact (StreamCtx.Turn.start m e hst).turns
    · rw [h.1]
  case h_2 hst => exact (StreamCtx.Stopped.turn h hst).turns
  case h_3 hst =>
    rw [h.1]
    exact (StreamCtx.Turn.endDrain hst).turns
  all_goals rw [h.1]

theorem StreamCtx.alignHalts.not_stopping {c : StreamCtx} (h : c.alignHalts) :
    c.state ≠ .stopping ∧ c.working = true := by
  obtain ⟨-, hst | ⟨k, r, hst⟩⟩ := h <;> simp [hst, StreamCtx.working]

/-- The loss of alignment: a stop, and then a halt (R11). -/
theorem State.Lost.turns {s : State} {i : StreamId} {c' : StreamCtx} {stops halts : List Record}
    (h : s.Lost i c' stops halts) : (s.stream i).Turns c' := by
  obtain ⟨c1, hstop, halign, hgroup, hrest⟩ := h
  have h1 : (s.stream i).Turns c1 := by
    split at hstop
    · rename_i hst
      exact (StreamCtx.Stopped.turn hstop hst).turns
    · rw [hstop.1]
  by_cases ha : (s.stream i).alignHalts
  · obtain ⟨hne, hw⟩ := ha.not_stopping
    rw [if_neg hne] at hstop
    rw [(halign ha).1, hstop.1]
    exact (StreamCtx.Turn.halt .align hw).turns
  · by_cases hg : s.groupHit i ∧ c1.working = true
    · rw [(hgroup ha hg.1 hg.2).1]
      exact h1.tail (.halt .group hg.2)
    · rw [(hrest ha (by rw [not_and_or, Bool.not_eq_true] at hg; exact hg)).1]
      exact h1

/-! ### Turns of the whole block -/

/-- The words of the window that only a write to them changes stand as they were. -/
def Window.SamePlain (w w' : Window) : Prop :=
  w'.stage = w.stage ∧ w'.mapBank = w.mapBank ∧ w'.mapEntry = w.mapEntry ∧ w'.streamSel = w.streamSel
  ∧ w'.fieldSel = w.fieldSel

theorem Window.SamePlain.refl (w : Window) : w.SamePlain w := ⟨rfl, rfl, rfl, rfl, rfl⟩

theorem Window.SamePlain.of_eq {w w' : Window} (h : w' = w) : w.SamePlain w' := h ▸ .refl w

theorem Window.SamePlain.trans {a b c : Window} (h : a.SamePlain b) (k : b.SamePlain c) : a.SamePlain c := by
  obtain ⟨h1, h2, h3, h4, h5⟩ := h
  obtain ⟨k1, k2, k3, k4, k5⟩ := k
  exact ⟨k1.trans h1, k2.trans h2, k3.trans h3, k4.trans h4, k5.trans h5⟩

/-- Every stream has had its turns, and the Mover, the posting numbers, the map and the plain words stay. -/
structure State.Turns (s t : State) : Prop where
  mover : t.mover = s.mover
  posting : t.nextPosting = s.nextPosting
  map : t.map = s.map
  plain : s.win.SamePlain t.win
  streams : ∀ i, (s.stream i).Turns (t.stream i)

theorem State.Turns.refl (s : State) : s.Turns s := ⟨rfl, rfl, rfl, .refl _, fun _ => .refl⟩

theorem State.Turns.trans {s t u : State} (h : s.Turns t) (k : t.Turns u) : s.Turns u :=
  ⟨k.mover.trans h.mover, k.posting.trans h.posting, k.map.trans h.map, h.plain.trans k.plain,
    fun i => (h.streams i).trans (k.streams i)⟩

/-- An update of the other units. -/
theorem State.Turns.of_streams {s t : State} (hs : t.streams = s.streams) (hm : t.mover = s.mover)
    (hp : t.nextPosting = s.nextPosting) (hmap : t.map = s.map) (hw : s.win.SamePlain t.win) : s.Turns t :=
  ⟨hm, hp, hmap, hw, fun i => by rw [State.stream_congr hs]⟩

/-- An update of the line port, the group actions and the completion queue. -/
theorem State.Turns.of_rest {s t : State} (hs : t.streams = s.streams) (hm : t.mover = s.mover)
    (hp : t.nextPosting = s.nextPosting) (hmap : t.map = s.map) (hw : t.win = s.win) : s.Turns t :=
  .of_streams hs hm hp hmap (.of_eq hw)

theorem State.Turns.foldl {α : Type} {f : State → α → State} (h : ∀ (a : State) (x : α), a.Turns (f a x))
    (l : List α) (s : State) : s.Turns (l.foldl f s) := by
  induction l generalizing s with
  | nil => exact .refl s
  | cons x l ih => exact (h s x).trans (ih (f s x))

theorem State.putStream_turns {s : State} {i : StreamId} {c : StreamCtx} (h : (s.stream i).Turns c) :
    s.Turns (s.putStream i c) :=
  ⟨rfl, rfl, rfl, .refl _, fun j => by
    rw [State.stream_putStream]
    split
    · rename_i hj
      exact hj ▸ h
    · exact .refl⟩

theorem State.apply_turns {s : State} {i : StreamId} {r : StreamCtx × List Record} (h : (s.stream i).Turns r.1) :
    s.Turns (s.apply i r) := (State.putStream_turns h).trans (.of_rest rfl rfl rfl rfl rfl)

theorem State.haltOne_turns (s : State) (i : StreamId) (cause : HaltCause) : s.Turns (s.haltOne i cause) := by
  simp only [State.haltOne]
  split
  · rename_i hw
    exact State.apply_turns (StreamCtx.Turn.halt cause hw).turns
  · exact .refl s

theorem State.haltCascade_turns (s : State) (i : StreamId) (cause : HaltCause) : s.Turns (s.haltCascade i cause) := by
  simp only [State.haltCascade]
  split
  · exact s.haltOne_turns i cause
  · exact (s.haltOne_turns i cause).trans (.foldl (fun a j => a.haltOne_turns j .group) _ _)

/-- A frame boundary, but for the swap of the map (R13). -/
theorem State.boundary_turns (s : State) (lp : BitVec 16 → List Record) :
    State.Turns { s with map := (s.boundary lp).map } (s.boundary lp) := by
  obtain ⟨-, -, -, ⟨_, _, hcross, -⟩, hframe⟩ := s.boundary_spec lp
  generalize s.boundary lp = u at hcross hframe ⊢
  exact ⟨by rw [hframe], by rw [hframe], rfl, .of_eq (by rw [hframe]), fun i => (hcross i).turns⟩

/-- The loss of alignment, but for the swap of the map (R11). -/
theorem State.loseAlignment_turns (s : State) :
    State.Turns { s with map := s.loseAlignment.map } s.loseAlignment := by
  obtain ⟨_, _, _, hlost, -, -, -, hframe⟩ := s.loseAlignment_spec
  generalize s.loseAlignment = u at hlost hframe ⊢
  exact ⟨by rw [hframe], by rw [hframe], rfl, .of_eq (by rw [hframe]), fun i => (hlost i).turns⟩

/-- LINE_DOWN, but for the swap of the map (R20). -/
theorem State.takeLineDown_turns (s : State) : State.Turns { s with map := s.takeLineDown.map } s.takeLineDown := by
  obtain ⟨_, -, hstr, -⟩ := s.takeLineDown_spec
  have hunits := s.takeLineDown_units
  generalize s.takeLineDown = u at hstr hunits ⊢
  refine ⟨by rw [hunits], by rw [hunits], rfl, .of_eq (by rw [hunits]), fun i => ?_⟩
  rw [hstr]
  split
  · rename_i hw
    exact (StreamCtx.Turn.halt .line hw).turns
  · exact .refl

end Sys2Proof.Machine
end

section
/-! PROOFS. The acts a row is made of: turns of the streams, a POST, and the acts of the Mover. -/

namespace Sys2Proof.Machine

/-! ### One act -/

/-- One act of the part, as a row or a period of REFCLK does it: turns of the streams, a POST, a setting or a pin of
the Mover, a tick of its ready timer, or an act of the Mover. -/
inductive State.Act (s : State) : State → Prop
  | turns {t : State} (h : s.Turns t) : s.Act t
  | post (i : StreamId) (d : Descriptor) (n : Nat) (hcfg : (s.stream i).cfg ≠ none)
      (htakes : (s.stream i).takesPost = true) (hd : d.posting = s.nextPosting) (hlen : 1 ≤ d.length ∧ d.length ≤ 4096) :
      s.Act { s.putStream i ((s.stream i).enqueue d n) with nextPosting := s.nextPosting + 1 }
  | pins (bgnt byld : Bool) : s.Act { s with mover := { s.mover with bgnt := bgnt, byld := byld } }
  | tenureMax (n : Nat) (h : 1 ≤ n ∧ n ≤ 32) : s.Act { s with mover := { s.mover with tenureMax := n } }
  | readyTimeout (n : Nat) (h : 1 ≤ n ∧ n ≤ 255) : s.Act { s with mover := { s.mover with readyTimeout := n } }
  | readyTick (w : InFlight) (hw : s.mover.inFlight = some w) (h : 1 < w.timer) :
      s.Act { s with mover := { s.mover with inFlight := some { w with timer := w.timer - 1 } } }
  | poll : s.Act s.pollMover
  | grant : s.Act s.grant
  | grantLow : s.Act s.grantLow
  | yield : s.Act s.yieldBus
  | complete (hostWrote : Option Word) : s.Act (s.completeWord hostWrote)
  | fault : s.Act s.faultWord

/-- Acts, one after the other. -/
abbrev State.Acts : State → State → Prop := Relation.ReflTransGen State.Act

theorem State.Act.acts {s t : State} (h : s.Act t) : s.Acts t := .single h

theorem State.Turns.acts {s t : State} (h : s.Turns t) : s.Acts t := (State.Act.turns h).acts

/-- Turns after others, the last ones first. -/
theorem State.Turns.after {s t u : State} (k : t.Turns u) (h : s.Turns t) : s.Turns u := h.trans k

/-- Acts after turns, the acts first. -/
theorem State.Acts.after {s t u : State} (k : t.Acts u) (h : s.Turns t) : s.Acts u := .head (.turns h) k

/-- What follows a change of a stream: the cut, the clearing, and the Mover's look at the requests. -/
theorem State.settle_acts (s : State) : s.Acts s.settle := by
  rw [s.settle_eq]
  have h : s.Turns { s with line := s.settledLine, groups := s.settledGroups } := .of_rest rfl rfl rfl rfl rfl
  exact h.acts.tail .poll

/-- Turns, with what follows them. -/
theorem State.Turns.settle {s t : State} (h : s.Turns t) : s.Acts t.settle := h.acts.trans t.settle_acts

theorem State.Act.settle {s t : State} (h : s.Act t) : s.Acts t.settle := h.acts.trans t.settle_acts

/-- Acts keep the map and the plain words. -/
theorem State.Act.keeps {s t : State} (h : s.Act t) : t.map = s.map ∧ s.win.SamePlain t.win := by
  have hmover : ∀ {u : State}, s.MoverAct u → u.map = s.map ∧ s.win.SamePlain u.win := fun k =>
    ⟨k.fields.2.1, .of_eq k.win⟩
  cases h with
  | turns h => exact ⟨h.map, h.plain⟩
  | poll => exact hmover s.pollMover_act
  | grant => exact hmover s.grant_act
  | grantLow => exact hmover s.grantLow_act
  | yield => exact hmover s.yieldBus_act
  | complete x =>
    refine ⟨?_, .of_eq (s.completeWord_win x)⟩
    have htake : ∀ m w data, (s.takeWord m w data).map = s.map := fun m w data => by
      rw [State.takeWord]
      split
      · split <;> rfl
      · rfl
    simp only [State.completeWord]
    split
    · exact (State.goOn_act _ _).fields.2.1.trans (htake _ _ _)
    · rfl
  | fault =>
    refine ⟨?_, .of_eq s.faultWord_win⟩
    simp only [State.faultWord]
    split
    · rw [State.endTenure_map]
      split
      · exact (State.haltCascade_turns _ _ _).map
      · rfl
    · rfl
  | _ => exact ⟨rfl, .refl _⟩

theorem State.Acts.keeps {s t : State} (h : s.Acts t) : t.map = s.map ∧ s.win.SamePlain t.win := by
  induction h with
  | refl => exact ⟨rfl, .refl _⟩
  | tail _ k ih => exact ⟨k.keeps.1.trans ih.1, ih.2.trans k.keeps.2⟩

/-! ### The commands -/

theorem State.runCommand_acts {s : State} (op arg : Byte) {run : State → Answer} (h : s.Acts (run s).1) :
    s.Acts (s.runCommand op arg run) := by
  simp only [State.runCommand]
  split
  · exact .refl
  · exact h.tail (.turns <| .of_streams rfl rfl rfl rfl ⟨rfl, rfl, rfl, rfl, rfl⟩)

theorem State.forStream_acts {s : State} (arg : Byte) {run : StreamId → Answer} (h : ∀ i, s.Acts (run i).1) :
    s.Acts (s.forStream arg run).1 := by
  simp only [State.forStream]
  split
  · exact .refl
  · exact h _

theorem State.forGroup_acts {s : State} (arg : Byte) {run : GroupId → Answer} (h : ∀ g, s.Acts (run g).1) :
    s.Acts (s.forGroup arg run).1 := by
  simp only [State.forGroup]
  split
  · exact .refl
  · exact h _

theorem State.event_acts {s : State} {run : State → State} (h : s.Acts (run s)) : s.Acts (s.event run) := by
  simp only [State.event]
  split
  · exact .refl
  · exact h

theorem State.hostWrite_acts {s : State} {run : Window → Window} (h : s.win.SamePlain (run s.win)) :
    s.Acts (s.hostWrite run) := by
  simp only [State.hostWrite]
  split
  · exact .refl
  · exact State.Turns.acts (.of_streams rfl rfl rfl rfl h)

theorem StreamConfig.Agrees.widthInRange {c : StreamConfig} {n : Nat} (h : c.Agrees n) : c.WidthInRange := by
  obtain ⟨h4, h24, -, hword, -⟩ := h
  exact ⟨h4, h24, hword⟩

/-- CONFIGURE and DECONFIGURE are refused outside OFF and with descriptors queued (R44, R46). -/
theorem StreamCtx.off_of_configurable {c : StreamCtx} (h : ¬ (c.state ≠ .off ∨ c.queue ≠ [])) :
    c.state = .off ∧ c.queue = [] := by
  simpa only [not_or, ne_eq, not_not] using h

theorem State.configure_acts (s : State) (i : StreamId) : s.Acts (s.configure i).1 := by
  simp only [State.configure]
  split
  · exact .refl
  · rename_i hoff
    obtain ⟨hst, hq⟩ := StreamCtx.off_of_configurable hoff
    split
    · exact .refl
    · rename_i cfg hparse
      split
      · exact .refl
      · split
        · exact .refl
        · have hturn : (s.stream i).Turn ((s.stream i).reconfigure (some cfg)) :=
            .configure _ hst hq fun x hx => by
              cases hx
              exact (StreamConfig.parse_agrees hparse).widthInRange
          exact State.Turns.acts ((State.putStream_turns hturn.turns).trans (.of_rest rfl rfl rfl rfl rfl))

theorem State.deconfigure_acts (s : State) (i : StreamId) : s.Acts (s.deconfigure i).1 := by
  simp only [State.deconfigure]
  split
  · exact .refl
  · rename_i hoff
    obtain ⟨hst, hq⟩ := StreamCtx.off_of_configurable hoff
    have hturn : (s.stream i).Turn ((s.stream i).reconfigure none) := .configure _ hst hq (by simp)
    exact (State.putStream_turns hturn.turns).acts

theorem State.post_acts (s : State) (i : StreamId) : s.Acts (s.post i).1 := by
  simp only [State.post]
  split
  · exact .refl
  · rename_i cfg hcfg
    split
    · exact .refl
    · rename_i htakes
      split
      · exact .refl
      · rename_i hlen
        split
        · exact .refl
        · repeat' split
          all_goals try exact .refl
          exact (State.Act.post i _ _ (by simp [hcfg]) (by simpa using htakes) rfl (by omega)).settle

theorem State.startStream_acts (s : State) (i : StreamId) : s.Acts (s.startStream i).1 := by
  simp only [State.startStream]
  split
  · exact .refl
  · rename_i cfg hcfg
    split
    · exact .refl
    · split
      · exact .refl
      · rename_i hst
        have harm : ∀ m, (s.stream i).Turn ((s.stream i).arm m) := fun m => .arm m (not_not.1 hst) (by simp [hcfg])
        repeat' split
        all_goals try exact .refl
        exact (State.putStream_turns (harm _).turns).settle

theorem State.stopStream_acts (s : State) (i : StreamId) : s.Acts (s.stopStream i).1 := by
  simp only [State.stopStream]
  split
  · exact .refl
  · split
    case h_1 => exact (State.apply_turns StreamCtx.Turn.sweep.turns).settle
    case h_2 hst =>
      split
      · exact (State.putStream_turns (StreamCtx.Turn.stopLater hst).turns).settle
      · exact (State.apply_turns (StreamCtx.stopNow_turn _ _ _ (.inl hst)).turns).settle
    all_goals exact .refl

theorem State.abortOne_turns (s : State) (i : StreamId) : s.Turns (s.abortOne i) := by
  simp only [State.abortOne]
  split
  · rename_i hst
    exact State.apply_turns (StreamCtx.Turn.returnAll hst).turns
  · exact State.apply_turns StreamCtx.Turn.abort.turns

theorem State.clearStream_acts (s : State) (i : StreamId) : s.Acts (s.clearStream i).1 := by
  simp only [State.clearStream]
  split
  · exact (State.apply_turns StreamCtx.Turn.abort.turns).settle
  all_goals exact .refl

/-- GSTART arms each member in OFF, once (R141). -/
theorem State.armAll_turns (m : StartMode) {l : List StreamId} (hn : l.Nodup) {s : State}
    (h : ∀ i ∈ l, (s.stream i).state = .off ∧ (s.stream i).cfg ≠ none) :
    s.Turns (l.foldl (fun a i => a.putStream i ((a.stream i).arm m)) s) := by
  induction l generalizing s with
  | nil => exact .refl s
  | cons i l ih =>
    obtain ⟨hi, hl⟩ := List.nodup_cons.1 hn
    obtain ⟨hst, hcfg⟩ := h i List.mem_cons_self
    have hturn : (s.stream i).Turn ((s.stream i).arm m) := .arm m hst hcfg
    refine (State.putStream_turns hturn.turns).trans (ih hl fun j hj => ?_)
    rw [State.stream_putStream_other _ _ fun (e : j = i) => hi (e ▸ hj)]
    exact h j (List.mem_cons_of_mem _ hj)

theorem State.gstart_acts (s : State) (g : GroupId) : s.Acts (s.gstart g).1 := by
  simp only [State.gstart]
  split
  · exact .refl
  · split
    · exact .refl
    · split
      · exact .refl
      · rename_i hready
        split
        · exact .refl
        · refine State.Turns.settle (.trans (State.armAll_turns _ (allStreams_nodup.filter _) fun i hi => ?_)
            (.of_rest rfl rfl rfl rfl rfl))
          have hmember := List.find?_eq_none.1 hready i hi
          simp only [StreamCtx.groupReady, Bool.not_eq_true, Bool.not_eq_false', decide_eq_true_eq] at hmember
          refine ⟨hmember.1, fun hc => ?_⟩
          have hgroup := (mem_members s g i).1 hi
          simp [StreamCtx.group?, hc] at hgroup

theorem State.gstopMember_turns (s : State) (i : StreamId) : s.Turns (s.gstopMember i) := by
  simp only [State.gstopMember]
  split
  case h_1 => exact State.apply_turns StreamCtx.Turn.sweep.turns
  case h_2 hst =>
    split
    · exact State.putStream_turns (StreamCtx.Turn.stopLater hst).turns
    · exact State.apply_turns (StreamCtx.stopNow_turn _ _ _ (.inl hst)).turns
  all_goals exact .refl s

theorem State.gstop_acts (s : State) (g : GroupId) : s.Acts (s.gstop g).1 := by
  have hall := State.Turns.foldl State.gstopMember_turns (s.members g) s
  simp only [State.gstop]
  split
  · split
    · exact State.Turns.settle (hall.trans (.of_rest rfl rfl rfl rfl rfl))
    · exact hall.settle
  · exact .refl

theorem State.gabort_acts (s : State) (g : GroupId) : s.Acts (s.gabort g).1 :=
  State.Turns.settle (.trans (.foldl State.abortOne_turns (s.abortable g) s) (.of_rest rfl rfl rfl rfl rfl))

theorem State.cqpop_acts (s : State) : s.Acts s.cqpop.1 := by
  simp only [State.cqpop]
  split
  · exact .refl
  · exact State.Turns.acts (.of_rest rfl rfl rfl rfl rfl)

theorem State.lineSet_acts (s : State) : s.Acts s.lineSet.1 := by
  simp only [State.lineSet]
  repeat' split
  all_goals exact State.Turns.acts (.of_rest rfl rfl rfl rfl rfl)

/-! ### Writes, time and slots -/

theorem State.writeIntCtrl_acts (s : State) (v : Word) : s.Acts (s.writeIntCtrl v) := by
  simp only [State.writeIntCtrl]
  split <;> exact State.Turns.acts (.of_streams rfl rfl rfl rfl ⟨rfl, rfl, rfl, rfl, rfl⟩)

theorem State.writeControl_acts (s : State) (cw : ControlWord) (v : Word) : s.Acts (s.writeControl cw v) := by
  have hmisuse : s.Acts { s with win := { s.win with accessErr := true } } :=
    State.Turns.acts (.of_streams rfl rfl rfl rfl ⟨rfl, rfl, rfl, rfl, rfl⟩)
  cases cw with
  | holdoff => exact State.Turns.acts (.of_rest rfl rfl rfl rfl rfl)
  | busCtrl =>
    simp only [State.writeControl]
    split
    · exact hmisuse
    · exact (State.Act.tenureMax _ (by omega)).acts
  | readyTimeout =>
    have hlt := field_lt v 7 0
    simp only [State.writeControl]
    split
    · exact hmisuse
    · exact (State.Act.readyTimeout _ (by omega)).acts

theorem State.sampleGrant_acts (s : State) : s.Acts s.sampleGrant := by
  simp only [State.sampleGrant]
  split
  · exact State.Act.grantLow.acts.tail .poll
  · exact .refl

theorem State.readyTick_acts (s : State) : s.Acts s.readyTick := by
  simp only [State.readyTick]
  split
  · exact .refl
  · rename_i w hw
    split
    · exact State.Act.fault.settle
    · exact (State.Act.readyTick w hw (by omega)).acts

theorem State.timebase_acts (s : State) : s.Acts s.timebase := by
  simp only [State.timebase, State.tick]
  split
  · exact State.Acts.after (State.readyTick_acts _) (.of_rest rfl rfl rfl rfl rfl)
  · exact State.Turns.acts (.of_rest rfl rfl rfl rfl rfl)

theorem State.bitPeriod_turns (s : State) : s.Turns s.bitPeriod := by
  simp only [State.bitPeriod]
  split
  · exact .of_rest rfl rfl rfl rfl rfl
  · exact .refl s

theorem State.bitClock_turns (s : State) : s.Turns s.bitClock := by
  simp only [State.bitClock]
  split
  · exact .refl s
  · split
    · split
      · exact .after (State.bitPeriod_turns _) (.of_rest rfl rfl rfl rfl rfl)
      · exact .of_rest rfl rfl rfl rfl rfl
    all_goals
      split
      · exact .after (State.bitPeriod_turns _) (.of_rest rfl rfl rfl rfl rfl)
      · exact .of_rest rfl rfl rfl rfl rfl

/-- One period of REFCLK. -/
theorem State.idle_acts (s : State) : s.Acts s.idle := by
  simp only [State.idle]
  split
  · exact .refl
  · exact (s.sampleGrant_acts.trans (State.timebase_acts _)).tail (.turns (State.bitClock_turns _))

theorem State.releaseReset_acts (s : State) : s.Acts s.releaseReset := by
  simp only [State.releaseReset]
  split
  · exact State.Acts.after (State.sampleGrant_acts _) (.of_rest rfl rfl rfl rfl rfl)
  · exact .refl

/-- A slot of the active bank belongs to a stream whose direction is the slot's (R15, R32). -/
theorem State.slotOwner_direction {s : State} {slot w : Nat} {d : Direction} {i : StreamId} {cfg : StreamConfig}
    (h : s.MapLaw) (ho : s.slotOwner slot d = some (i, w)) (hcfg : (s.stream i).cfg = some cfg) :
    cfg.direction = d := by
  simp only [State.slotOwner] at ho
  repeat' split at ho
  all_goals try cases ho
  rename_i hget hx
  obtain ⟨w', -, heq⟩ := Option.map_eq_some_iff.1 ho
  cases heq
  cases hx
  obtain ⟨hlt, he⟩ := Vector.getElem?_eq_some_iff.1 hget
  exact (h.1 ⟨slot, hlt⟩ i _ he).2 cfg hcfg

/-- A transmit slot of a stream that is a transmit stream, if configured (R68 to R72, R58). -/
theorem State.serveTx_turns {s : State} {i : StreamId} (width : Nat)
    (hdir : ∀ cfg, (s.stream i).cfg = some cfg → cfg.direction = .tx) : s.Turns (s.serveTx i width) := by
  have hsend : ∀ (t : State) (x : Option Sample), s.Turns t → s.Turns { t with line := t.line.drive i width x } :=
    fun t x h => h.trans (.of_rest rfl rfl rfl rfl rfl)
  simp only [State.serveTx]
  split
  · exact hsend s none (.refl s)
  · rename_i cfg hcfg
    have htx : (s.stream i).cfg.map StreamConfig.direction = some .tx := by simp [hcfg, hdir cfg hcfg]
    have hsample : ∀ x rest, (s.stream i).driving = true → (s.stream i).fifo = x :: rest →
        s.Turns (s.putStream i ((s.stream i).takeSample x rest)) := fun x rest hd hf =>
      State.putStream_turns (StreamCtx.Turn.send x rest htx hd hf).turns
    have hunder : (s.stream i).state = .running ∨ (s.stream i).state = .stopping →
        s.Turns (s.putStream i (s.stream i).underrunNow) := fun hst =>
      State.putStream_turns (StreamCtx.Turn.underrun htx hst).turns
    have hempty : (s.stream i).state = .running ∨ (s.stream i).state = .stopping → s.Turns
        (if (s.stream i).underrunEp then s.putStream i (s.stream i).underrunNow
          else (s.putStream i (s.stream i).underrunNow).raiseAll [.underrun i s.line.frame]) := fun hst => by
      split
      · exact hunder hst
      · exact (hunder hst).trans (.of_rest rfl rfl rfl rfl rfl)
    split
    case h_4 hst =>
      split
      · rename_i x rest hf
        exact hsend _ (some x) (hsample x rest (StreamCtx.driving_of_running_or_stopping (.inl hst)) hf)
      · split
        · exact hsend _ none ((hunder (.inl hst)).trans (State.haltCascade_turns _ _ _))
        · exact hsend _ _ (hempty (.inl hst))
    case h_5 hst =>
      split
      · rename_i x rest hf
        exact hsend _ (some x) (hsample x rest (StreamCtx.driving_of_running_or_stopping (.inr hst)) hf)
      · split
        · exact hsend _ none ((hunder (.inr hst)).trans (State.haltCascade_turns _ _ _))
        · exact hsend _ _ (hempty (.inr hst))
    case h_6 k r hst =>
      split
      · rename_i x rest hf
        exact hsend _ (some x) (hsample x rest (by simp [StreamCtx.driving, hst]) hf)
      · exact hsend _ none (State.putStream_turns (StreamCtx.Turn.release k r htx hst).turns)
    all_goals exact hsend s none (.refl s)

theorem State.startTxSlot_acts {s : State} (h : s.MapLaw) (slot : Nat) : s.Acts (s.startTxSlot slot) := by
  simp only [State.startTxSlot]
  split
  · exact .refl
  · rename_i i width ho
    exact State.Turns.settle (.after
      (State.serveTx_turns _ fun cfg hcfg => State.slotOwner_direction h ho hcfg) (.of_rest rfl rfl rfl rfl rfl))

/-- A sample offered to a stream that is a receive stream, if configured (R73 to R76). -/
theorem State.offerRx_turns {s : State} {i : StreamId} (x : Sample)
    (hdir : ∀ cfg, (s.stream i).cfg = some cfg → cfg.direction = .rx) : s.Turns (s.offerRx i x) := by
  by_cases hst : (s.stream i).state = .running ∨ (s.stream i).state = .stopping
  · cases hcfg : (s.stream i).cfg with
    | none =>
      simp only [State.offerRx, hcfg]
      exact .refl s
    | some cfg =>
      have hrx : (s.stream i).cfg.map StreamConfig.direction = some .rx := by simp [hcfg, hdir cfg hcfg]
      have hover : ∀ n, s.Turns (s.putStream i { s.stream i with overrunSamples := n, overrunEp := true }) :=
        fun n => State.putStream_turns (StreamCtx.Turn.overrun n hst).turns
      rw [State.offerRx_taking x hcfg hst]
      split
      · rename_i hroom
        exact State.putStream_turns (.tail (StreamCtx.Turn.take x hrx hst hroom).turns (.testEnd _))
      · split
        · exact (hover _).trans (State.haltCascade_turns _ _ _)
        · simp only
          split
          · exact hover _
          · exact (hover _).trans (.of_rest rfl rfl rfl rfl rfl)
  · rw [State.offerRx_refused x (not_or.1 hst)]
    exact .refl s

theorem State.endRxSlot_acts {s : State} (h : s.MapLaw) (slot : Nat) (rxd : Sample) :
    s.Acts (s.endRxSlot slot rxd) := by
  simp only [State.endRxSlot]
  split
  · exact .refl
  · rename_i i width ho
    exact State.Turns.settle (.after
      (State.offerRx_turns _ fun cfg hcfg => State.slotOwner_direction h ho hcfg) (.of_rest rfl rfl rfl rfl rfl))

end Sys2Proof.Machine
end

section
/-! PROOFS. Every row is made of acts, with the plain words it keeps (R160, R164, R165, R169). -/

namespace Sys2Proof.Machine

/-! ### Rows that swap or edit the map -/

/-- Acts on a state whose map may have been edited or swapped first. -/
def State.RowTo (s t : State) : Prop := ∃ m : SlotMap, State.Acts { s with map := m } t

theorem State.Acts.rowTo {s t : State} (h : s.Acts t) : s.RowTo t := ⟨s.map, h⟩

theorem State.RowTo.keepsPlain {s t : State} (h : s.RowTo t) : s.win.SamePlain t.win := by
  obtain ⟨m, h⟩ := h
  exact h.keeps.2

theorem State.RowTo.acts {s t u : State} (h : s.RowTo t) (k : t.Acts u) : s.RowTo u := by
  obtain ⟨m, h⟩ := h
  exact ⟨m, h.trans k⟩

theorem State.boundary_rowTo (s : State) (l : LinePort) (lp : BitVec 16 → List Record) :
    s.RowTo (State.boundary { s with line := l } lp).settle :=
  ⟨_, State.Turns.settle (.after (State.boundary_turns _ lp) (.of_rest rfl rfl rfl rfl rfl))⟩

theorem State.withLine_rowTo (s : State) (l : LinePort) : s.RowTo { s with line := l } :=
  State.Acts.rowTo (State.Turns.acts (.of_rest rfl rfl rfl rfl rfl))

theorem State.takeSync_rowTo (s : State) (pos : Nat) : s.RowTo (s.takeSync pos) := by
  have hsame : s.RowTo s := State.Acts.rowTo .refl
  simp only [State.takeSync]
  split
  · exact hsame
  · exact s.withLine_rowTo _
  · split
    · exact s.withLine_rowTo _
    · split
      · exact s.boundary_rowTo _ _
      · exact hsame
  all_goals
    split
    · exact s.boundary_rowTo _ _
    · split
      · exact s.boundary_rowTo _ _
      · exact hsame

theorem State.sampleHigh_rowTo (s : State) (bit : Nat) : s.RowTo (s.sampleHigh bit) := by
  simp only [State.sampleHigh]
  split
  · exact s.takeSync_rowTo _
  · exact State.Acts.rowTo .refl

theorem State.missSync_rowTo (s : State) : s.RowTo s.missSync := by
  simp only [State.missSync]
  split
  · split
    · exact s.boundary_rowTo _ _
    · exact ⟨_, State.Turns.settle (.after (State.loseAlignment_turns _) (.of_rest rfl rfl rfl rfl rfl))⟩
  · exact State.Acts.rowTo .refl

theorem State.endFrame_rowTo (s : State) : s.RowTo s.endFrame := by
  simp only [State.endFrame]
  split
  · exact s.boundary_rowTo _ _
  · exact State.Acts.rowTo .refl

theorem State.lineUp_rowTo (s : State) : s.RowTo s.lineUp.1 := by
  simp only [State.lineUp]
  split
  · exact State.Acts.rowTo .refl
  · split
    · exact s.withLine_rowTo _
    all_goals exact s.boundary_rowTo _ _

theorem State.lineDown_rowTo (s : State) : s.RowTo s.lineDown.1 := by
  simp only [State.lineDown]
  split
  · exact ⟨_, s.takeLineDown_turns.settle⟩
  · exact State.Acts.rowTo .refl

theorem State.mapswap_rowTo (s : State) : s.RowTo s.mapswap.1 := by
  simp only [State.mapswap]
  split
  · exact State.Acts.rowTo .refl
  · split
    · exact State.Acts.rowTo .refl
    · split
      · exact ⟨_, .refl⟩
      · exact ⟨_, State.Turns.acts (.of_rest rfl rfl rfl rfl rfl)⟩

theorem State.mapcopy_rowTo (s : State) : s.RowTo s.mapcopy.1 := by
  simp only [State.mapcopy]
  split
  · exact State.Acts.rowTo .refl
  · exact ⟨_, .refl⟩

theorem State.writeMapData_rowTo (s : State) (v : Word) : s.RowTo (s.writeMapData v) := by
  simp only [State.writeMapData]
  split
  · exact ⟨_, .refl⟩
  · exact State.Acts.rowTo (State.Turns.acts (.of_streams rfl rfl rfl rfl ⟨rfl, rfl, rfl, rfl, rfl⟩))

theorem State.runCommand_rowTo {s : State} (op arg : Byte) {run : State → Answer} (h : s.RowTo (run s).1) :
    s.RowTo (s.runCommand op arg run) := by
  simp only [State.runCommand]
  split
  · exact State.Acts.rowTo .refl
  · exact h.acts (State.Turns.acts (.of_streams rfl rfl rfl rfl ⟨rfl, rfl, rfl, rfl, rfl⟩))

theorem State.event_rowTo {s : State} {run : State → State} (h : s.RowTo (run s)) : s.RowTo (s.event run) := by
  simp only [State.event]
  split
  · exact State.Acts.rowTo .refl
  · exact h

/-! ### Every row -/

/-- The rows that may swap or edit the map, reset it, or write a plain word. -/
def movesMap : Instr → Bool
  | .mapswap _ | .mapcopy _ | .mapDataWrite _ | .lineUp _ | .lineDown _ | .syncArrival _ | .missedSync | .frameEnd
  | .pinReset | .registerWrite _ _ => true
  | _ => false

/-- The rows of the slots, which rest on the map. -/
def servesSlot : Instr → Bool
  | .transmitSlot _ | .receiveSlot _ _ => true
  | _ => false

/-- Every other row is made of acts. -/
theorem exec_acts {c : Instr} {s t : State} (hc : movesMap c = false) (hmap : servesSlot c = true → s.MapLaw)
    (h : exec c s = .next t) : s.Acts t := by
  have hcmd : ∀ {op arg} {run : State → Answer}, Host.Outcome.next (s.runCommand op arg run) = (.next t : Outcome) →
      s.Acts (run s).1 → s.Acts t := fun h k => by
    cases h; exact State.runCommand_acts _ _ k
  have hev : ∀ {run : State → State}, Host.Outcome.next (s.event run) = (.next t : Outcome) →
      s.Acts (run s) → s.Acts t := fun h k => by
    cases h; exact State.event_acts k
  have hwin : ∀ {run : Window → Window}, Host.Outcome.next (s.hostWrite run) = (.next t : Outcome) →
      s.win.SamePlain (run s.win) → s.Acts t := fun h k => by
    cases h; exact State.hostWrite_acts k
  have hpin : ∀ (b : Bool) {u : State}, s.Acts u →
      Host.Outcome.next (if s.resetLow then { s with mover := { s.mover with bgnt := b } } else u)
        = (.next t : Outcome) → s.Acts t := fun b u k h => by
    cases h
    split
    · exact (State.Act.pins b s.mover.byld).acts
    · exact k
  cases c with
  | configure a => exact hcmd h (State.forStream_acts a s.configure_acts)
  | deconfigure a => exact hcmd h (State.forStream_acts a s.deconfigure_acts)
  | post a => exact hcmd h (State.forStream_acts a s.post_acts)
  | start a => exact hcmd h (State.forStream_acts a s.startStream_acts)
  | stop a => exact hcmd h (State.forStream_acts a s.stopStream_acts)
  | abort a => exact hcmd h (State.forStream_acts a fun i => (s.abortOne_turns i).settle)
  | clear a => exact hcmd h (State.forStream_acts a s.clearStream_acts)
  | gstart a => exact hcmd h (State.forGroup_acts a s.gstart_acts)
  | gstop a => exact hcmd h (State.forGroup_acts a s.gstop_acts)
  | gabort a => exact hcmd h (State.forGroup_acts a s.gabort_acts)
  | cqpop a => exact hcmd h s.cqpop_acts
  | cqflush a => exact hcmd h (State.Turns.acts (.of_rest rfl rfl rfl rfl rfl))
  | lineSet a => exact hcmd h s.lineSet_acts
  | unknownOpcode op a => exact hcmd h .refl
  | intCtrlWrite v => exact hev h (s.writeIntCtrl_acts v)
  | controlWordWrite cw v => exact hev h (s.writeControl_acts cw v)
  | statusWrite v => exact hwin h (by split <;> exact ⟨rfl, rfl, rfl, rfl, rfl⟩)
  | readOnlyWrite w v => exact hwin h ⟨rfl, rfl, rfl, rfl, rfl⟩
  | samplesServedLowRead => exact hwin h (by split <;> exact ⟨rfl, rfl, rfl, rfl, rfl⟩)
  | resetRelease => cases h; exact s.releaseReset_acts
  | trialTimeout =>
    refine hev h ?_
    simp only [State.endTrial]
    split
    · exact State.Turns.acts (.of_rest rfl rfl rfl rfl rfl)
    · exact .refl
  | transmitSlot k => exact hev h (State.startTxSlot_acts (hmap rfl) k)
  | receiveSlot k x => exact hev h (State.endRxSlot_acts (hmap rfl) k x)
  | busGrant => exact hpin true State.Act.grant.settle h
  | busGrantLow => exact hpin false State.Act.grantLow.settle h
  | busGrantWithdrawn => exact hpin false State.Act.grantLow.settle h
  | busYield b =>
    have hbyld : s.Act { s with mover := { s.mover with byld := b } } := .pins s.mover.bgnt b
    cases h
    split
    · exact hbyld.acts.trans State.Act.yield.settle
    · exact hbyld.acts
  | wordTransferComplete x => exact hev h (State.Act.complete x).settle
  | busFault => exact hev h State.Act.fault.settle
  | holdoffExpiry => exact hev h (State.Turns.acts (.of_rest rfl rfl rfl rfl rfl))
  | fsyncLowSample =>
    refine hev h ?_
    simp only [State.sampleLow]
    split
    · exact State.Turns.acts (.of_rest rfl rfl rfl rfl rfl)
    · exact .refl
  | mapswap | mapcopy | mapDataWrite | lineUp | lineDown | syncArrival | missedSync | frameEnd | pinReset
  | registerWrite => cases hc

/-- Every row but PIN_RESET and a write to a plain word is made of acts, on a map that it may swap or edit first. -/
theorem exec_rowTo {c : Instr} {s t : State} (hreset : c ≠ .pinReset) (hwrite : ∀ p x, c ≠ .registerWrite p x)
    (hmap : servesSlot c = true → s.MapLaw) (h : exec c s = .next t) : s.RowTo t := by
  by_cases hc : movesMap c = false
  · exact (exec_acts hc hmap h).rowTo
  · cases c with
    | mapswap a => cases h; exact State.runCommand_rowTo _ a s.mapswap_rowTo
    | mapcopy a => cases h; exact State.runCommand_rowTo _ a s.mapcopy_rowTo
    | lineUp a => cases h; exact State.runCommand_rowTo _ a s.lineUp_rowTo
    | lineDown a => cases h; exact State.runCommand_rowTo _ a s.lineDown_rowTo
    | mapDataWrite v => cases h; exact State.event_rowTo (s.writeMapData_rowTo v)
    | syncArrival bit => cases h; exact State.event_rowTo (s.sampleHigh_rowTo bit)
    | missedSync => cases h; exact State.event_rowTo s.missSync_rowTo
    | frameEnd => cases h; exact State.event_rowTo s.endFrame_rowTo
    | pinReset => exact absurd rfl hreset
    | registerWrite p x => exact absurd rfl (hwrite p x)
    | _ => exact absurd rfl hc

/-! ### The plain words -/

/-- Only PIN_RESET and a write to a plain word change one (R160, R164, R165, R169). -/
theorem exec_keepsPlain {c : Instr} {s t : State} (hreset : c ≠ .pinReset) (hwrite : ∀ p x, c ≠ .registerWrite p x)
    (h : exec c s = .next t) : s.win.SamePlain t.win := by
  cases hslot : servesSlot c with
  | false => exact (exec_rowTo hreset hwrite (by simp [hslot]) h).keepsPlain
  | true =>
    cases c with
    | transmitSlot k => cases h; exact .of_eq (State.event_win (s.startTxSlot_win k))
    | receiveSlot k x => cases h; exact .of_eq (State.event_win (s.endRxSlot_win k x))
    | _ => cases hslot

/-- The row of a write to a plain word. -/
theorem exec_registerWrite {s : State} (hr : s.resetLow = false) (p : PlainWord) (v : Word) :
    exec (.registerWrite p v) s = .next { s with win := s.win.write p v } :=
  congrArg Host.Outcome.next (by simp only [State.hostWrite, hr]; rfl)

/-- A field of a word that starts at bit 0 is the word under the mask of its bits. -/
theorem word_mod_eq_and (v : Word) (k : Nat) (hk : k < 16) : word (v.toNat % 2 ^ k) = v &&& word (2 ^ k - 1) := by
  have hpow : 2 ^ k < 65536 := Nat.pow_lt_pow_right (by decide) hk
  refine BitVec.eq_of_toNat_eq ?_
  have hmod := Nat.mod_lt v.toNat (Nat.two_pow_pos k)
  rw [BitVec.toNat_and, toNat_word_of_lt (by omega), toNat_word_of_lt (by omega), Nat.and_two_pow_sub_one_eq_mod]

/-- MAP_INDEX reads back its bank bit and its entry (R24, R164). -/
theorem Window.mapIndexWord_write (w : Window) (v : Word) : (w.write .mapIndex v).mapIndexWord = v &&& 0x011F := by
  have hbank : (if flag v 8 then BankId.b1 else BankId.b0).code = v.toNat / 2 ^ 8 % 2 := by
    rw [← flag_toNat]
    cases flag v 8 <;> rfl
  have hentry : field v 4 0 % 32 = v.toNat % 32 := by simp [field]
  rw [Window.mapIndexWord, Window.write]
  simp only [hbank, hentry]
  refine word_eq_and (by omega) fun i hi => ?_
  interval_cases i <;> simp <;> omega

theorem stageFields_eq (k : Fin 6) : stageFields k = if k = 3 then 0xC0FF else if k = 4 then 0x0003 else 0xFFFF := by
  fin_cases k <;> rfl

/-- Window words 0CH to 11H are the staging words. -/
theorem State.readWord_stage (s : State) (k : Fin 6) : s.readWord ⟨12 + k.val, by omega⟩ = s.stageWord k := by
  fin_cases k <;> rfl

theorem State.readWord_reserved (s : State) (k : Fin 6) : s.readWord ⟨26 + k.val, by omega⟩ = 0 := by
  fin_cases k <;> rfl

/-- Settles O43. -/
theorem plainWordsReadBackTheirFields : Obligations.PlainWordsReadBackTheirFields := by
  unfold Obligations.PlainWordsReadBackTheirFields
  intro s v hr fields
  refine ⟨⟨_, exec_registerWrite hr .mapIndex v, Window.mapIndexWord_write _ v, rfl⟩,
    ⟨_, exec_registerWrite hr .streamSel v, ?_, rfl⟩, ⟨_, exec_registerWrite hr .fieldSel v, ?_, rfl⟩, fun k => ?_,
    fun k => ⟨exec_registerWrite hr (.reserved k) v, s.readWord_reserved k⟩,
    fun c t h hreset hwrite => exec_keepsPlain hreset hwrite h⟩
  · have hfield : field v 3 0 % 16 = v.toNat % 2 ^ 4 := by simp [field]
    exact (congrArg word hfield).trans (word_mod_eq_and v 4 (by decide))
  · have hfield : (BitVec.ofNat 5 (field v 4 0)).toNat = v.toNat % 2 ^ 5 := by simp [field]
    exact (congrArg word hfield).trans (word_mod_eq_and v 5 (by decide))
  · have hk : stageFields k = fields k := stageFields_eq k
    have hset : s.win.write (.stage k) v = { s.win with stage := s.win.stage.set k.val (v &&& fields k) } := by
      rw [← hk]
      rfl
    refine ⟨_, exec_registerWrite hr (.stage k) v, by rw [hset], ?_⟩
    rw [State.readWord_stage, hset]
    exact Vector.getElem_set_self _

end Sys2Proof.Machine
end

section
/-! PROOFS. The map law (R28, R30, R31, R32): what can change a bank, a role, a configuration or the line, and that
every step keeps it. -/

namespace Sys2Proof.Machine

/-! ### Banks that agree -/

/-- Agreement rests on the configurations. -/
theorem State.BankAgrees.congr {s t : State} {bank : Vector Entry 32} (h : s.BankAgrees bank)
    (hcfg : ∀ i, (t.stream i).cfg = (s.stream i).cfg) : t.BankAgrees bank := by
  simpa only [State.BankAgrees, hcfg] using h

/-- A bank that passes the validation of R28 agrees. -/
theorem State.bankAgrees_of_validate {s : State} {bank : Vector Entry 32} (h : s.validate bank = none) :
    s.BankAgrees bank := by
  have hno := (s.validate_eq_none_iff bank).1 h
  have hearlier : ∀ (k j : Fin 32) (i : StreamId) (d d' : Direction), j < k → bank[k] = some (i, d) →
      bank[j] = some (i, d') → d' = d := fun k j i d d' hlt hk hj => by
    by_contra hne
    exact hno k ⟨i, d, hk, .inl ⟨j, hlt, d', hj, hne⟩⟩
  refine fun k i d hk => ⟨fun j d' hj => ?_, fun cfg hcfg => ?_⟩
  · rcases lt_trichotomy j k with hlt | rfl | hgt
    · exact hearlier k j i d d' hlt hk hj
    · rw [hk] at hj
      cases hj
      rfl
    · exact (hearlier j k i d' d hgt hj hk).symm
  · by_contra hne
    exact hno k ⟨i, d, hk, .inr ⟨cfg, hcfg, hne⟩⟩

/-- The new configuration of one stream agrees with the bank when the bank gives the stream its direction only. -/
theorem State.BankAgrees.reconfigure {s t : State} {bank : Vector Entry 32} {i : StreamId} (h : s.BankAgrees bank)
    (hother : ∀ j, j ≠ i → t.stream j = s.stream j)
    (hi : ∀ cfg, (t.stream i).cfg = some cfg → ∀ (k : Fin 32) (d : Direction), bank[k] = some (i, d) →
      cfg.direction = d) : t.BankAgrees bank := by
  intro k j d hk
  obtain ⟨hdir, hcfg⟩ := h k j d hk
  refine ⟨hdir, fun cfg hc => ?_⟩
  by_cases hj : j = i
  · subst hj
    exact hi cfg hc k d hk
  · exact hcfg cfg (hother j hj ▸ hc)

/-- The part of the law that does not rest on the line. -/
def State.BanksAgree (s : State) : Prop :=
  s.BankAgrees s.map.activeBank ∧ (s.map.swapPending = true → s.BankAgrees s.map.shadowBank)

theorem State.MapLaw.banksAgree {s : State} (h : s.MapLaw) : s.BanksAgree := ⟨h.1, fun hp => (h.2 hp).1⟩

theorem State.MapLaw.not_pending {s : State} (h : s.MapLaw) (hs : s.line.served = false) :
    s.map.swapPending = false :=
  Bool.eq_false_iff.2 fun hp => Bool.eq_false_iff.1 hs (h.2 hp).2

/-- With no swap pending only the active bank matters. -/
theorem State.MapLaw.of_active {s : State} (hp : s.map.swapPending = false) (h : s.BankAgrees s.map.activeBank) :
    s.MapLaw :=
  ⟨h, fun k => absurd (hp.symm.trans k) (by decide)⟩

/-- The law rests on the map, the configurations and the line being served. -/
theorem State.MapLaw.congr {s t : State} (h : s.MapLaw) (hmap : t.map = s.map)
    (hcfg : ∀ i, (t.stream i).cfg = (s.stream i).cfg)
    (hserved : s.map.swapPending = true → s.line.served = true → t.line.served = true) : t.MapLaw := by
  obtain ⟨hactive, hpending⟩ := h
  simp only [State.MapLaw, hmap]
  exact ⟨hactive.congr hcfg, fun hp => ⟨(hpending hp).1.congr hcfg, hserved hp (hpending hp).2⟩⟩

/-- The law after acts that keep the map and the line. -/
theorem State.MapLaw.keepsLine {s t : State} (h : s.MapLaw) (hmap : t.map = s.map) (k : s.KeepsLine t) : t.MapLaw :=
  h.congr hmap (fun i => (k.streams i).1) fun _ hs => by
    rw [LinePort.served_iff] at hs ⊢
    rwa [k.state]

theorem State.MapLaw.settle {s : State} (h : s.MapLaw) : s.settle.MapLaw :=
  h.keepsLine s.settle_fields.1 s.settle_keepsLine

/-- A line port that changes while no swap is pending. -/
theorem State.MapLaw.withLine {s : State} (h : s.MapLaw) (l : LinePort) (hs : s.line.served = false) :
    State.MapLaw { s with line := l } :=
  .of_active (h.not_pending hs) (h.1.congr fun _ => rfl)

/-- A pending swap carried out leaves the law, whatever the line (R31). -/
theorem State.MapLaw.of_swap {s u : State} (h : s.BanksAgree)
    (hmap : u.map = if s.map.swapPending then { s.map with active := s.map.active.other, swapPending := false }
      else s.map) (hcfg : ∀ i, (u.stream i).cfg = (s.stream i).cfg) : u.MapLaw := by
  obtain ⟨hactive, hshadow⟩ := h
  cases hp : s.map.swapPending with
  | true =>
    rw [hp, if_pos rfl] at hmap
    refine .of_active (by rw [hmap]) ?_
    have hbank : u.map.activeBank = s.map.shadowBank := by
      rw [hmap]
      exact s.map.activeBank_swap
    rw [hbank]
    exact (hshadow hp).congr hcfg
  | false =>
    rw [hp, if_neg (by decide)] at hmap
    refine .of_active (by rw [hmap, hp]) ?_
    rw [hmap]
    exact hactive.congr hcfg

/-- A boundary with what follows it, from a state whose line port was moved on (R13, R31). -/
theorem State.boundary_mapLaw {s : State} (h : s.BanksAgree) (l : LinePort) (lp : BitVec 16 → List Record) :
    (State.boundary { s with line := l } lp).settle.MapLaw := by
  obtain ⟨-, hmap, -, ⟨_, _, hcross, -⟩, -⟩ := State.boundary_spec { s with line := l } lp
  exact (State.MapLaw.of_swap h hmap fun i => (hcross i).cfg).settle

/-! ### The rows of the line -/

theorem LineState.not_served {l : LinePort} (h : l.state ≠ .aligned ∧ l.state ≠ .flywheel) : l.served = false :=
  Bool.eq_false_iff.2 fun hs => ((LinePort.served_iff l).1 hs).elim h.1 h.2

theorem State.takeSync_mapLaw {s : State} (h : s.MapLaw) (pos : Nat) : (s.takeSync pos).MapLaw := by
  simp only [State.takeSync]
  split
  · exact h
  · rename_i hst
    exact h.withLine _ (LineState.not_served (by simp [hst]))
  · rename_i hst
    split
    · exact h.withLine _ (LineState.not_served (by simp [hst]))
    · split
      · exact State.boundary_mapLaw h.banksAgree _ _
      · exact h
  all_goals
    split
    · exact State.boundary_mapLaw h.banksAgree _ _
    · split
      · exact State.boundary_mapLaw h.banksAgree _ _
      · exact h

theorem State.sampleHigh_mapLaw {s : State} (h : s.MapLaw) (bit : Nat) : (s.sampleHigh bit).MapLaw := by
  simp only [State.sampleHigh]
  split
  · exact State.takeSync_mapLaw h _
  · exact h

theorem State.endTrial_mapLaw {s : State} (h : s.MapLaw) : s.endTrial.MapLaw := by
  simp only [State.endTrial]
  split
  · rename_i hst
    exact h.withLine _ (LineState.not_served (by simp [hst.2]))
  · exact h

theorem State.missSync_mapLaw {s : State} (h : s.MapLaw) : s.missSync.MapLaw := by
  simp only [State.missSync]
  split
  · split
    · exact State.boundary_mapLaw h.banksAgree _ _
    · obtain ⟨_, _, _, hlost, -, -, -, hframe⟩ :=
        State.loseAlignment_spec { s with line := s.line.passTo s.line.fmt.frameBits }
      have hmap := congrArg State.map hframe
      exact (State.MapLaw.of_swap h.banksAgree hmap fun i => (hlost i).cfg).settle
  · exact h

theorem State.endFrame_mapLaw {s : State} (h : s.MapLaw) : s.endFrame.MapLaw := by
  simp only [State.endFrame]
  split
  · exact State.boundary_mapLaw h.banksAgree _ _
  · exact h

theorem State.lineUp_mapLaw {s : State} (h : s.MapLaw) : s.lineUp.1.MapLaw := by
  simp only [State.lineUp]
  split
  · exact h
  · rename_i hup
    have hst : s.line.state = .disabled := (LinePort.up_eq_false_iff _).1 (Bool.eq_false_iff.2 hup)
    split
    · exact h.withLine _ (LineState.not_served (by simp [hst]))
    all_goals exact State.boundary_mapLaw h.banksAgree _ _

theorem State.lineDown_mapLaw {s : State} (h : s.MapLaw) : s.lineDown.1.MapLaw := by
  simp only [State.lineDown]
  split
  · obtain ⟨_, -, hstr, hmap, -⟩ := s.takeLineDown_spec
    refine State.MapLaw.settle (.of_swap h.banksAgree hmap fun i => ?_)
    rw [hstr]
    split <;> rfl
  · exact h

theorem State.lineSet_mapLaw {s : State} (h : s.MapLaw) : s.lineSet.1.MapLaw := by
  simp only [State.lineSet]
  repeat' split
  all_goals exact h

/-! ### The rows of the map and of the configurations -/

/-- With no conflict no entry names the stream in the other direction (R33). -/
theorem direction_of_conflictFrom {i : StreamId} {d x : Direction} {es : List Entry} {k : Nat}
    (h : conflictFrom i d k es = none) (hx : some (i, x) ∈ es) : x = d := by
  induction es generalizing k with
  | nil => cases hx
  | cons e rest ih =>
    cases e with
    | none => exact ih h (by simpa using hx)
    | some p =>
      obtain ⟨j, y⟩ := p
      simp only [conflictFrom] at h
      split at h
      · cases h
      · rename_i hpass
        rcases List.mem_cons.1 hx with heq | hrest
        · cases heq
          by_contra hne
          exact hpass ⟨rfl, hne⟩
        · exact ih h hrest

theorem State.configure_mapLaw {s : State} (h : s.MapLaw) (i : StreamId) : (s.configure i).1.MapLaw := by
  simp only [State.configure]
  split
  · exact h
  · split
    · exact h
    · rename_i cfg _
      split
      · exact h
      · rename_i hp
        split
        · exact h
        · rename_i hno
          refine .of_active (Bool.eq_false_iff.2 hp) (h.1.reconfigure (i := i) (fun j hj => ?_) fun x hx k d hk => ?_)
          · exact State.stream_putStream_other s _ hj
          · have hput := s.stream_putStream_same i ((s.stream i).reconfigure (some cfg))
            have hcfg : some cfg = some x := (congrArg StreamCtx.cfg hput).symm.trans hx
            cases hcfg
            have hmem : some (i, d) ∈ s.map.activeBank.toList := by
              rw [← hk]
              exact Vector.mem_toList_iff.2 (Vector.getElem_mem k.isLt)
            exact (direction_of_conflictFrom hno hmem).symm

theorem State.deconfigure_mapLaw {s : State} (h : s.MapLaw) (i : StreamId) : (s.deconfigure i).1.MapLaw := by
  simp only [State.deconfigure]
  split
  · exact h
  · have hbank : ∀ {bank}, s.BankAgrees bank →
        State.BankAgrees (s.putStream i ((s.stream i).reconfigure none)) bank := fun hb => by
      refine hb.reconfigure (i := i) (fun j hj => s.stream_putStream_other _ hj) fun x hx => ?_
      rw [State.stream_putStream_same] at hx
      cases hx
    exact ⟨hbank h.1, fun hp => ⟨hbank (h.2 hp).1, (h.2 hp).2⟩⟩

theorem State.mapswap_mapLaw {s : State} (h : s.MapLaw) : s.mapswap.1.MapLaw := by
  simp only [State.mapswap]
  split
  · exact h
  · split
    · exact h
    · rename_i hvalid
      have hshadow := State.bankAgrees_of_validate hvalid
      split
      · rename_i hs
        exact ⟨h.1, fun _ => ⟨hshadow, hs⟩⟩
      · refine .of_active rfl ?_
        simp only [State.accept, State.raiseAll_map, SlotMap.activeBank_swap]
        exact hshadow

theorem State.mapcopy_mapLaw {s : State} (h : s.MapLaw) : s.mapcopy.1.MapLaw := by
  simp only [State.mapcopy]
  split
  · exact h
  · rename_i hp
    refine .of_active ((s.map.putBank_swapPending _ _).trans (Bool.eq_false_iff.2 hp)) ?_
    simp only [State.accept, SlotMap.activeBank_putBank_shadow]
    exact h.1

theorem State.writeMapData_mapLaw {s : State} (h : s.MapLaw) (v : Word) : (s.writeMapData v).MapLaw := by
  by_cases hb : s.win.mapBank = s.map.active.other ∧ s.map.swapPending = false
  · rw [State.writeMapData_shadow v hb.1 hb.2]
    refine .of_active ((s.map.putBank_swapPending _ _).trans hb.2) ?_
    simp only [SlotMap.activeBank_putBank_shadow]
    exact h.1
  · rw [State.writeMapData, if_neg hb]
    exact h

/-! ### Every step -/

theorem State.runCommand_mapLaw {s : State} (op arg : Byte) {run : State → Answer} (h : s.MapLaw)
    (hr : (run s).1.MapLaw) : (s.runCommand op arg run).MapLaw := by
  simp only [State.runCommand]
  split
  · exact h
  · exact hr

theorem State.event_mapLaw {s : State} {run : State → State} (h : s.MapLaw) (hr : (run s).MapLaw) :
    (s.event run).MapLaw := by
  simp only [State.event]
  split
  · exact h
  · exact hr

theorem State.forStream_mapLaw {s : State} (arg : Byte) {run : StreamId → Answer} (h : s.MapLaw)
    (hr : ∀ i, (run i).1.MapLaw) : (s.forStream arg run).1.MapLaw := by
  simp only [State.forStream]
  split
  · exact h
  · exact hr _

theorem exec_mapLaw {c : Instr} {s t : State} (h : s.MapLaw) (hstep : exec c s = .next t) : t.MapLaw := by
  by_cases hc : movesMap c = false ∧ movesLine c = false
  · exact h.keepsLine (exec_acts hc.1 (fun _ => h) hstep).keeps.1 (exec_keepsLine hc.2 hstep)
  · cases c with
    | configure a =>
      cases hstep
      exact State.runCommand_mapLaw _ a h (State.forStream_mapLaw a h (State.configure_mapLaw h))
    | deconfigure a =>
      cases hstep
      exact State.runCommand_mapLaw _ a h (State.forStream_mapLaw a h (State.deconfigure_mapLaw h))
    | mapswap a => cases hstep; exact State.runCommand_mapLaw _ a h (State.mapswap_mapLaw h)
    | mapcopy a => cases hstep; exact State.runCommand_mapLaw _ a h (State.mapcopy_mapLaw h)
    | lineSet a => cases hstep; exact State.runCommand_mapLaw _ a h (State.lineSet_mapLaw h)
    | lineUp a => cases hstep; exact State.runCommand_mapLaw _ a h (State.lineUp_mapLaw h)
    | lineDown a => cases hstep; exact State.runCommand_mapLaw _ a h (State.lineDown_mapLaw h)
    | mapDataWrite v => cases hstep; exact State.event_mapLaw h (State.writeMapData_mapLaw h v)
    | syncArrival bit => cases hstep; exact State.event_mapLaw h (State.sampleHigh_mapLaw h bit)
    | trialTimeout => cases hstep; exact State.event_mapLaw h (State.endTrial_mapLaw h)
    | missedSync => cases hstep; exact State.event_mapLaw h (State.missSync_mapLaw h)
    | frameEnd => cases hstep; exact State.event_mapLaw h (State.endFrame_mapLaw h)
    | pinReset =>
      cases hstep
      exact .of_active rfl ((State.bankAgrees_reset .b0).congr fun _ => rfl)
    | registerWrite p v =>
      cases hstep
      simp only [State.hostWrite]
      split
      · exact h
      · exact h
    | _ => exact absurd ⟨rfl, rfl⟩ hc

/-- Settles O51: a step is a row, or one period of REFCLK, which keeps the map and the line. -/
theorem everyStepKeepsTheMapConsistent : Obligations.EveryStepKeepsTheMapConsistent := by
  unfold Obligations.EveryStepKeepsTheMapConsistent
  intro s t h hstep
  simp only [step] at hstep
  split at hstep
  · cases hstep
    exact h.keepsLine s.idle_acts.keeps.1 s.idle_keepsLine
  · rename_i c rest hp
    exact exec_mapLaw (s := { s with pending := rest }) h hstep

end Sys2Proof.Machine
end

section
/-! PROOFS. What a stream's state says of the rest of it, its queue and its FIFO (R39, R42, R67, R85 to R88): every turn
and every word transferred keeps it. -/

namespace Sys2Proof.Machine

/-! ### The law of one stream in its state (R39, R42) -/

/-- A stream that is not OFF is configured. -/
theorem StreamCtx.OffLaw.configured {c : StreamCtx} (h : c.OffLaw) (hst : c.state ≠ .off) : c.cfg ≠ none := by
  obtain ⟨-, hnone, -⟩ := h
  exact fun hc => hst (hnone hc).1

/-- An act outside OFF that keeps configuration, state and queue. -/
theorem StreamCtx.OffLaw.sameState {c c' : StreamCtx} (h : c.OffLaw) (hoff : c.state ≠ .off)
    (hcfg : c'.cfg = c.cfg) (hst : c'.state = c.state) (hq : c'.queue = c.queue)
    (hlast : c.cfg.map StreamConfig.direction ≠ some .tx → c'.lastSample = none) : c'.OffLaw := by
  obtain ⟨-, hnone, harmed, hended, hdrain, -⟩ := h
  simp only [StreamCtx.OffLaw, hcfg, hst, hq]
  exact ⟨fun k => absurd k hoff, hnone, harmed, hended, hdrain, hlast⟩

/-- A configured stream goes to another state than OFF. -/
theorem StreamCtx.OffLaw.toState {c : StreamCtx} {st : RunState} (h : c.OffLaw) (hcfg : c.cfg ≠ none)
    (hst : st ≠ .off) (harmed : ∀ m, st = .armed m true → c.queue = [])
    (hended : ∀ r, st = .draining .ended r → c.cfg.map StreamConfig.direction = some .tx → c.queue = [])
    (hdrain : ∀ k, st = .draining k true → c.cfg.map StreamConfig.direction = some .tx) :
    StreamCtx.OffLaw { c with state := st } := by
  obtain ⟨-, -, -, -, -, hlast⟩ := h
  exact ⟨fun k => absurd k hst, fun k => absurd k hcfg, harmed, hended, hdrain, hlast⟩

/-- A stream that has gone OFF in the condition of R42. -/
theorem StreamCtx.OffLaw.enterOff {c : StreamCtx} (h : c.OffLaw) (hq : c.cfg = none → c.queue = []) :
    c.enterOff.OffLaw := by
  obtain ⟨-, -, -, -, -, hlast⟩ := h
  exact ⟨fun _ => ⟨rfl, rfl, rfl, rfl, rfl, rfl⟩, fun k => ⟨rfl, hq k⟩, nofun, nofun, nofun, hlast⟩

/-- A stream swept into OFF. -/
theorem StreamCtx.OffLaw.swept {c : StreamCtx} (h : c.OffLaw) : c.swept.OffLaw := by
  obtain ⟨-, -, -, -, -, hlast⟩ := h
  exact ⟨fun _ => ⟨rfl, rfl, rfl, rfl, rfl, rfl⟩, fun _ => ⟨rfl, rfl⟩, nofun, nofun, nofun, hlast⟩

theorem StreamCtx.ne_off_of_working {c : StreamCtx} (h : c.working = true) : c.state ≠ .off := fun hst => by
  simp [StreamCtx.working, hst] at h

theorem StreamCtx.ne_off_of_driving {c : StreamCtx} (h : c.driving = true) : c.state ≠ .off := fun hst => by
  simp [StreamCtx.driving, hst] at h

/-- A receive stream in DRAINING with kind END may have descriptors left (R59). -/
theorem StreamCtx.testEnd_offLaw {c : StreamCtx} (h : c.OffLaw) (n : Nat) : (c.testEnd n).OffLaw := by
  simp only [StreamCtx.testEnd]
  split
  · exact h
  · rename_i cfg hcfg
    split
    · rename_i hend
      refine h.toState (by simp [hcfg]) (by simp) nofun (fun r _ hdir => ?_) nofun
      simp [hcfg, hend.1] at hdir
    · exact h

theorem StreamCtx.Turn.offLaw {c c' : StreamCtx} (t : c.Turn c') (h : c.OffLaw) : c'.OffLaw := by
  obtain ⟨hoff, hnone, harmed, hended, hdrain, hlast⟩ := id h
  cases t with
  | sweep => exact h.swept
  | abort =>
    obtain ⟨h1, h2, h3, h4, h5, -⟩ := h.swept
    exact ⟨h1, h2, h3, h4, h5, fun _ => rfl⟩
  | returnAll hst => exact ⟨hoff, fun _ => ⟨hst, rfl⟩, fun _ _ => rfl, fun _ _ _ => rfl, hdrain, hlast⟩
  | endDrain hst => exact h.enterOff fun hc => (hnone hc).2
  | flush hst hdir hq =>
    refine ⟨nofun, fun hc => ?_, nofun, nofun, nofun, hlast⟩
    have hc' : c.cfg = none := hc
    simp [hc'] at hdir
  | arm m hst hcfg => exact ⟨nofun, fun hc => absurd hc hcfg, nofun, nofun, nofun, fun _ => rfl⟩
  | start m e hst =>
    have hcfg := h.configured (by simp [hst])
    refine h.toState hcfg (by cases e <;> simp) (by cases e <;> simp) (fun r hr _ => ?_) (by cases e <;> simp)
    cases e with
    | true => exact harmed m hst
    | false => cases hr
  | stopLater hst => exact h.toState (h.configured (by simp [hst])) nofun nofun nofun nofun
  | halt cause hw => exact h.toState (h.configured (StreamCtx.ne_off_of_working hw)) nofun nofun nofun nofun
  | configure cfg hst hq hcfg =>
    refine ⟨hoff, fun _ => ⟨hst, hq⟩, fun _ _ => hq, fun _ _ _ => hq, fun k hk => ?_, fun hdir => if_neg hdir⟩
    exact absurd (hst.symm.trans hk) (by simp)
  | send x rest hdir hd hf =>
    exact h.sameState (StreamCtx.ne_off_of_driving hd) rfl rfl rfl fun hne => absurd hdir hne
  | underrun hdir hst =>
    exact h.sameState (StreamCtx.ne_off_of_driving (StreamCtx.driving_of_running_or_stopping hst)) rfl rfl rfl hlast
  | release k r hdir hst =>
    refine h.toState (h.configured (by simp [hst])) nofun nofun (fun r' hr' _ => ?_) fun _ _ => hdir
    cases hr'
    exact hended r hst hdir
  | take x hdir hst hroom =>
    exact h.sameState (StreamCtx.ne_off_of_driving (StreamCtx.driving_of_running_or_stopping hst)) rfl rfl rfl hlast
  | testEnd n => exact StreamCtx.testEnd_offLaw h n
  | overrun n hst =>
    exact h.sameState (StreamCtx.ne_off_of_driving (StreamCtx.driving_of_running_or_stopping hst)) rfl rfl rfl hlast

/-! ### The queue and the FIFO (R67, R88) -/

/-- No turn adds a descriptor. -/
theorem StreamCtx.Turn.queue_sublist {c c' : StreamCtx} (t : c.Turn c') : c'.queue.Sublist c.queue := by
  cases t with
  | sweep | abort | returnAll => exact List.nil_sublist _
  | flush => exact List.take_sublist 1 _
  | testEnd n => rw [StreamCtx.testEnd_queue]
  | _ => exact List.Sublist.refl _

theorem StreamCtx.QueueLaw.sublist {c c' : StreamCtx} {n : Nat} (h : c.QueueLaw n) (hq : c'.queue.Sublist c.queue) :
    c'.QueueLaw n :=
  ⟨h.1.sublist hq, fun d hd => h.2 d (hq.subset hd)⟩

theorem StreamCtx.testEnd_fifo (c : StreamCtx) (n : Nat) : (c.testEnd n).fifo = c.fifo := by
  simp only [StreamCtx.testEnd]
  split
  · rfl
  · split <;> rfl

theorem StreamCtx.Turn.fifo_le {c c' : StreamCtx} (t : c.Turn c') (h : c.fifo.length ≤ 8) : c'.fifo.length ≤ 8 := by
  cases t with
  | sweep | abort | endDrain => exact Nat.zero_le _
  | send x rest hdir hd hf =>
    rw [hf, List.length_cons] at h
    exact Nat.le_of_succ_le h
  | take x hdir hst hroom =>
    simp only [StreamCtx.enter, List.length_append, List.length_singleton]
    exact hroom
  | testEnd n => rwa [StreamCtx.testEnd_fifo]
  | _ => exact h

/-- What one stream keeps, whatever the Mover does: its OFF law, its queue's law under the next posting `n`, and at
most 8 samples in its FIFO. -/
structure StreamCtx.Sound (c : StreamCtx) (n : Nat) : Prop where
  off : c.OffLaw
  queue : c.QueueLaw n
  fifo : c.fifo.length ≤ 8

theorem StreamCtx.Turn.sound {c c' : StreamCtx} {n : Nat} (t : c.Turn c') (h : c.Sound n) : c'.Sound n :=
  ⟨t.offLaw h.off, h.queue.sublist t.queue_sublist, t.fifo_le h.fifo⟩

theorem StreamCtx.Turns.sound {c c' : StreamCtx} {n : Nat} (t : c.Turns c') (h : c.Sound n) : c'.Sound n := by
  induction t with
  | refl => exact h
  | tail _ k ih => exact k.sound ih

theorem StreamCtx.QueueLaw.mono {c : StreamCtx} {n k : Nat} (h : c.QueueLaw n) (hk : n ≤ k) : c.QueueLaw k :=
  ⟨h.1, fun d hd => Nat.lt_of_lt_of_le (h.2 d hd) hk⟩

/-! ### POST (R88, R90) -/

/-- A stream that takes a POST is in no state that has an empty queue, and its newest descriptor carries no END. -/
theorem StreamCtx.takesPost_iff (c : StreamCtx) : c.takesPost = true ↔
    (c.state = .off ∨ (∃ m, c.state = .armed m false) ∨ c.state = .running)
    ∧ ∀ d, c.queue.getLast? = some d → d.endFlag = false := by
  rw [StreamCtx.takesPost, Bool.and_eq_true]
  refine and_congr ?_ ?_
  · cases c.state with
    | armed m e => cases e <;> simp
    | _ => simp
  · cases c.queue.getLast? <;> simp

/-- A queue whose newest descriptor carries no END has none that does. -/
theorem StreamCtx.QueueLaw.endFlag_false {c : StreamCtx} {n : Nat} (h : c.QueueLaw n)
    (hlast : ∀ d, c.queue.getLast? = some d → d.endFlag = false) : ∀ d ∈ c.queue, d.endFlag = false := by
  intro d hd
  obtain ⟨pre, e, hq⟩ := List.eq_nil_or_concat c.queue |>.resolve_left (List.ne_nil_of_mem hd)
  rw [hq, List.concat_eq_append] at hd hlast
  rcases List.mem_append.1 hd with hpre | he
  · have hpair := h.1
    rw [hq, List.concat_eq_append] at hpair
    exact ((List.pairwise_append.1 hpair).2.2 d hpre e (by simp)).2
  · cases List.mem_singleton.1 he
    exact hlast d (by simp)

/-- The new descriptor joins the tail (R90). -/
def StreamCtx.withPost (c : StreamCtx) (d : Descriptor) : StreamCtx :=
  { c with queue := c.queue ++ [d], postedTotal := c.postedTotal + 1 }

/-- A POST is the new descriptor at the tail, and then perhaps the END test (R90, R59). -/
theorem StreamCtx.enqueue_turns (c : StreamCtx) (d : Descriptor) (n : Nat) :
    (c.withPost d).Turns (c.enqueue d n) := by
  simp only [StreamCtx.enqueue]
  split
  · exact (StreamCtx.Turn.testEnd n).turns
  · exact .refl

theorem StreamCtx.Sound.withPost {c : StreamCtx} {n : Nat} {d : Descriptor} (h : c.Sound n) (hcfg : c.cfg ≠ none)
    (htakes : c.takesPost = true) (hd : d.posting = n) : (c.withPost d).Sound (n + 1) := by
  obtain ⟨hoff, -, -, -, hdrain, hlast⟩ := h.off
  obtain ⟨hst, hend⟩ := c.takesPost_iff.1 htakes
  have hclean := h.queue.endFlag_false hend
  refine ⟨⟨hoff, fun hc => absurd hc hcfg, fun m hm => ?_, fun r hr _ => ?_, hdrain, hlast⟩, ⟨?_, ?_⟩, h.fifo⟩
  · have hm' : c.state = .armed m true := hm
    simp [hm'] at hst
  · have hr' : c.state = .draining .ended r := hr
    simp [hr'] at hst
  · refine List.pairwise_append.2 ⟨h.queue.1, List.pairwise_singleton _ _, fun a ha b hb => ?_⟩
    cases List.mem_singleton.1 hb
    exact ⟨hd ▸ h.queue.2 a ha, hclean a ha⟩
  · intro a ha
    rcases List.mem_append.1 ha with ha | ha
    · exact Nat.lt_succ_of_lt (h.queue.2 a ha)
    · cases List.mem_singleton.1 ha
      exact hd ▸ Nat.lt_succ_self _

/-! ### A word transferred (R95, R96, R110, R111) -/

theorem length_cutSamples (w k : Nat) (bs : List Bool) : (cutSamples w k bs).1.length = k := by
  induction k generalizing bs with
  | zero => rfl
  | succ k ih => simp [cutSamples, ih]

/-- A fetched word gives as many samples as it completes (R110, R111). -/
theorem StreamConfig.length_unpack (cfg : StreamConfig) (r : List Bool) (done left : Nat) (w : Word) :
    (cfg.unpack r done left w).1.length = cfg.completes r.length done left := by
  cases hp : cfg.packing with
  | packed => simp only [StreamConfig.unpack, hp, length_cutSamples]
  | word => simp only [StreamConfig.unpack, StreamConfig.completes, hp, List.length_singleton]
  | pair =>
    simp only [StreamConfig.unpack, StreamConfig.completes, hp]
    split <;> rfl

/-- The head returned: the next descriptor is the head, with no progress (R94, R98, R109). -/
def StreamCtx.nextHead (c : StreamCtx) (d : Descriptor) (rest : List Descriptor) : StreamCtx :=
  { c.counted [d] with queue := rest, samplesDone := 0, wordsDone := 0, residual := [] }

theorem StreamCtx.returnHead_fst {c : StreamCtx} {d : Descriptor} {rest : List Descriptor} (hq : c.queue = d :: rest)
    (i : StreamId) (frame : BitVec 16) (st : Status) (n : Nat) : (c.returnHead i frame st n).1 = c.nextHead d rest := by
  simp only [StreamCtx.returnHead, hq]
  rfl

/-- The stream with a fetched word unpacked (R92, R110, R111). -/
def StreamCtx.fed (c : StreamCtx) (cfg : StreamConfig) (d : Descriptor) (w : Word) : StreamCtx :=
  { c with
    fifo := c.fifo ++ (cfg.unpack c.residual c.wordsDone (d.length - c.samplesDone) w).1
    residual := (cfg.unpack c.residual c.wordsDone (d.length - c.samplesDone) w).2
    samplesDone := c.samplesDone + (cfg.unpack c.residual c.wordsDone (d.length - c.samplesDone) w).1.length
    wordsDone := c.wordsDone + 1 }

/-- The stream with a stored word counted (R93, R115). -/
def StreamCtx.stored (c : StreamCtx) (n : Nat) : StreamCtx :=
  { c with samplesDone := c.samplesDone + n, wordsDone := c.wordsDone + 1 }

/-- Everything the completion of a fetch does to the stream (R95, R50, R53, R57). -/
theorem StreamCtx.fetchWord_fst {c : StreamCtx} {cfg : StreamConfig} {d : Descriptor} {rest : List Descriptor}
    (hc : c.cfg = some cfg) (hq : c.queue = d :: rest) (i : StreamId) (frame : BitVec 16) (w : Word) :
    (c.fetchWord i frame w).1 = if d.length ≤ (c.fed cfg d w).samplesDone then
        if d.endFlag then ((c.fed cfg d w).nextHead d rest).endReached else (c.fed cfg d w).nextHead d rest
      else c.fed cfg d w := by
  have hret := StreamCtx.returnHead_fst (c := c.fed cfg d w) hq i frame .ok d.length
  rw [StreamCtx.fetchWord]
  split
  · rename_i cfg' d' rest' hc' hq'
    cases hc.symm.trans hc'
    cases hq.symm.trans hq'
    by_cases hfull : d.length ≤ (c.fed cfg d w).samplesDone
    · rw [if_pos hfull, ← hret]
      exact congrArg Prod.fst (if_pos (by exact hfull))
    · rw [if_neg hfull]
      exact congrArg Prod.fst (if_neg (by exact hfull))
  · rename_i hnone
    exact absurd hq (hnone cfg d rest hc)

/-- Everything the completion of a store does to the stream: the word counted, the head returned, or the head returned
and the drain or the flush ended (R96, R56, R60). -/
theorem StreamCtx.storeWord_cases {c : StreamCtx} {cfg : StreamConfig} {d : Descriptor} {rest : List Descriptor}
    (hc : c.cfg = some cfg) (hq : c.queue = d :: rest) (i : StreamId) (frame : BitVec 16) (n : Nat) :
    ((c.storeWord i frame n).1 = c.stored n
      ∧ ¬ (d.length ≤ c.samplesDone + n ∧ cfg.footprint d.length ≤ c.wordsDone + 1)
      ∧ ¬ (c.flushing = true ∧ c.fifo = [] ∧ c.residual = []))
    ∨ (c.storeWord i frame n).1 = (c.stored n).nextHead d rest
    ∨ (c.storeWord i frame n).1 = ((c.stored n).nextHead d rest).enterOff := by
  have hret := StreamCtx.returnHead_fst (c := c.stored n) hq i frame
  rw [StreamCtx.storeWord]
  split
  · rename_i cfg' d' rest' hc' hq'
    cases hc.symm.trans hc'
    cases hq.symm.trans hq'
    simp only [StreamCtx.drained]
    split
    · right
      split
      · exact .inr (congrArg StreamCtx.enterOff (hret _ _))
      · split
        · exact .inr (congrArg StreamCtx.enterOff (hret _ _))
        · exact .inl (hret _ _)
      all_goals exact .inl (hret _ _)
    · rename_i hfull
      split
      · exact .inr (.inr (congrArg StreamCtx.enterOff (hret _ _)))
      · rename_i hflush
        exact .inl ⟨rfl, hfull, hflush⟩
  · rename_i hnone
    exact absurd hq (hnone cfg d rest hc)

theorem StreamCtx.OffLaw.nextHead {c : StreamCtx} {d : Descriptor} {rest : List Descriptor} (h : c.OffLaw)
    (hoff : c.state ≠ .off) (hq : c.queue = d :: rest) : (c.nextHead d rest).OffLaw := by
  have hcfg := h.configured hoff
  obtain ⟨-, -, harmed, hended, hdrain, hlast⟩ := h
  refine ⟨fun k => absurd k hoff, fun k => absurd k hcfg, fun m hm => ?_, fun r hr hdir => ?_, hdrain, hlast⟩
  · exact absurd (hq.symm.trans (harmed m hm)) (by simp)
  · exact absurd (hq.symm.trans (hended r hr hdir)) (by simp)

/-- The END descriptor fetched: it was the newest, so the queue is empty (R50, R57). -/
theorem StreamCtx.endReached_offLaw {c : StreamCtx} (h : c.OffLaw) (hq : c.queue = []) : c.endReached.OffLaw := by
  simp only [StreamCtx.endReached]
  split
  case h_1 hst => exact h.toState (h.configured (by simp [hst])) nofun nofun (fun _ _ _ => hq) nofun
  case h_2 m e hst => exact h.toState (h.configured (by simp [hst])) nofun (fun _ _ => hq) nofun nofun
  all_goals exact h

theorem StreamCtx.QueueLaw.rest {c : StreamCtx} {n : Nat} {d : Descriptor} {rest : List Descriptor}
    (h : c.QueueLaw n) (hq : c.queue = d :: rest) : (d.endFlag = true → rest = []) ∧ rest.Sublist c.queue := by
  refine ⟨fun hend => ?_, hq ▸ List.sublist_cons_self d rest⟩
  obtain ⟨hpair, -⟩ := h
  rw [hq] at hpair
  refine List.eq_nil_iff_forall_not_mem.2 fun e he => ?_
  have hfalse := ((List.pairwise_cons.1 hpair).1 e he).2
  rw [hend] at hfalse
  cases hfalse

theorem StreamCtx.endReached_fields (c : StreamCtx) :
    c.endReached.queue = c.queue ∧ c.endReached.fifo = c.fifo ∧ c.endReached.cfg = c.cfg
    ∧ c.endReached.residual = c.residual ∧ c.endReached.samplesDone = c.samplesDone
    ∧ c.endReached.wordsDone = c.wordsDone := by
  simp only [StreamCtx.endReached]
  split <;> exact ⟨rfl, rfl, rfl, rfl, rfl, rfl⟩

/-- A fetched word that the FIFO has room for (R112). -/
theorem StreamCtx.Sound.fetchWord {c : StreamCtx} {cfg : StreamConfig} {d : Descriptor} {rest : List Descriptor}
    {n : Nat} (h : c.Sound n) (hoff : c.state ≠ .off) (hc : c.cfg = some cfg) (hq : c.queue = d :: rest)
    (hroom : c.roomCheck cfg d = true) (i : StreamId) (frame : BitVec 16) (w : Word) :
    (c.fetchWord i frame w).1.Sound n := by
  obtain ⟨-, -, -, -, -, hlast⟩ := id h.off
  obtain ⟨hend, hsub⟩ := h.queue.rest hq
  have hfed : (c.fed cfg d w).OffLaw := h.off.sameState hoff rfl rfl rfl hlast
  have hfifo : (c.fed cfg d w).fifo.length ≤ 8 := by
    simp only [StreamCtx.fed, List.length_append, StreamConfig.length_unpack]
    exact of_decide_eq_true hroom
  have hnext : ((c.fed cfg d w).nextHead d rest).Sound n :=
    ⟨hfed.nextHead hoff hq, h.queue.sublist hsub, hfifo⟩
  rw [StreamCtx.fetchWord_fst hc hq]
  split
  · split
    · rename_i hflag
      obtain ⟨hqueue, hff, -⟩ := ((c.fed cfg d w).nextHead d rest).endReached_fields
      exact ⟨StreamCtx.endReached_offLaw hnext.off (hend hflag), hnext.queue.sublist (by rw [hqueue]), by
        rw [hff]; exact hfifo⟩
    · exact hnext
  · exact ⟨hfed, h.queue, hfifo⟩

theorem StreamCtx.Sound.storeWord {c : StreamCtx} {cfg : StreamConfig} {d : Descriptor} {rest : List Descriptor}
    {n : Nat} (h : c.Sound n) (hoff : c.state ≠ .off) (hc : c.cfg = some cfg) (hq : c.queue = d :: rest)
    (i : StreamId) (frame : BitVec 16) (u : Nat) : (c.storeWord i frame u).1.Sound n := by
  obtain ⟨-, -, -, -, -, hlast⟩ := id h.off
  obtain ⟨-, hsub⟩ := h.queue.rest hq
  have hstored : (c.stored u).OffLaw := h.off.sameState hoff rfl rfl rfl hlast
  have hnext : ((c.stored u).nextHead d rest).Sound n := ⟨hstored.nextHead hoff hq, h.queue.sublist hsub, h.fifo⟩
  rcases StreamCtx.storeWord_cases hc hq i frame u with ⟨heq, -, -⟩ | heq | heq
  · rw [heq]
    exact ⟨hstored, h.queue, h.fifo⟩
  · rw [heq]
    exact hnext
  · rw [heq]
    refine ⟨hnext.off.enterOff fun hnone => ?_, hnext.queue, Nat.zero_le _⟩
    have hnone' : c.cfg = none := hnone
    rw [hc] at hnone'
    cases hnone'

/-- The preparation of a word takes samples only (R114). -/
theorem StreamCtx.Sound.prepared {c c' : StreamCtx} {n : Nat} (h : c.Sound n) (hoff : c.state ≠ .off)
    (hsame : c.sameButTaken c') (hfifo : c'.fifo.length ≤ c.fifo.length) : c'.Sound n := by
  obtain ⟨hcfg, hst, hq, -, -, -, hls, -⟩ := StreamCtx.sameButTaken_fields hsame
  obtain ⟨-, -, -, -, -, hlast⟩ := id h.off
  exact ⟨h.off.sameState hoff hcfg hst hq fun k => hls.trans (hlast k), h.queue.sublist (by rw [hq]),
    Nat.le_trans hfifo h.fifo⟩

end Sys2Proof.Machine
end

section
/-! PROOFS. The stream of a move agrees with the move (R112, R126, R134): every act keeps the laws of the streams and
of the move, and so does every step. -/

namespace Sys2Proof.Machine

/-! ### The head and the move -/

/-- The posting `p` is at the head of the queue (R126, R134). -/
def StreamCtx.HeadIs (c : StreamCtx) (p : Nat) : Prop := ∃ d rest, c.queue = d :: rest ∧ d.posting = p

theorem State.servesHead_iff {s : State} {m : Move} (hm : s.mover.move = some m) (i : StreamId) :
    s.servesHead i = true ↔ m.stream = i ∧ (s.stream i).HeadIs m.posting := by
  cases hq : (s.stream i).queue with
  | nil => simp [State.servesHead, StreamCtx.HeadIs, hm, hq]
  | cons d rest =>
    have hhead : (s.stream i).HeadIs m.posting ↔ d.posting = m.posting :=
      ⟨fun ⟨e, es, he, hp⟩ => by cases hq.symm.trans he; exact hp, fun hp => ⟨d, rest, hq, hp⟩⟩
    simp only [State.servesHead, hm, hq, hhead, decide_eq_true_eq]
    exact and_congr_right fun _ => ⟨Eq.symm, Eq.symm⟩

theorem StreamCtx.HeadIs.congr {c c' : StreamCtx} {p : Nat} (h : c'.HeadIs p) (hq : c'.queue.head? = c.queue.head?) :
    c.HeadIs p := by
  obtain ⟨d, rest, hd, hp⟩ := h
  rw [hd, List.head?_cons] at hq
  obtain ⟨rest', hq'⟩ := List.head?_eq_some_iff.1 hq.symm
  exact ⟨d, rest', hq', hp⟩

/-- The FIFO has room for the samples of the head's next word (R112). -/
def StreamCtx.HasRoom (c : StreamCtx) : Prop :=
  ∀ cfg d rest, c.cfg = some cfg → c.queue = d :: rest → c.roomCheck cfg d = true

/-- The stream of move `m` agrees with it: gone OFF it has no descriptor of the posting, its direction is the move's
while the posting is its head, and it has room for a fetched word in flight. -/
structure StreamCtx.AgreesWith (c : StreamCtx) (m : Move) (inFlight : Prop) : Prop where
  off : c.state = .off → ∀ d ∈ c.queue, d.posting ≠ m.posting
  dir : c.HeadIs m.posting → c.cfg.map StreamConfig.direction = some m.dir
  room : inFlight → m.dir = .tx → c.HeadIs m.posting → c.HasRoom

/-- A stream whose queue is empty agrees with every move. -/
theorem StreamCtx.AgreesWith.of_empty {c : StreamCtx} {m : Move} {p : Prop} (hq : c.queue = []) :
    c.AgreesWith m p := by
  have hno : ¬ c.HeadIs m.posting := fun ⟨d, rest, hd, _⟩ => by
    rw [hq] at hd
    cases hd
  exact ⟨fun _ d hd => absurd (hq ▸ hd) List.not_mem_nil, fun h => absurd h hno, fun _ _ h => absurd h hno⟩

/-- An act that keeps the head and its progress, and takes samples at most, does not lead to OFF. -/
theorem StreamCtx.AgreesWith.sameHead {c c' : StreamCtx} {m : Move} {p : Prop} (h : c.AgreesWith m p)
    (hoff : c'.state ≠ .off) (hcfg : c'.cfg = c.cfg) (hq : c'.queue.head? = c.queue.head?)
    (hprogress : c'.residual = c.residual ∧ c'.samplesDone = c.samplesDone ∧ c'.wordsDone = c.wordsDone)
    (hfifo : c.cfg.map StreamConfig.direction = some .tx → c'.fifo.length ≤ c.fifo.length) : c'.AgreesWith m p := by
  obtain ⟨hres, hs, hw⟩ := hprogress
  refine ⟨fun k => absurd k hoff, fun k => hcfg ▸ h.dir (k.congr hq), fun hp htx k => ?_⟩
  have hhead := k.congr hq
  have hdir := h.dir hhead
  rw [htx] at hdir
  intro cfg d rest hc hd
  rw [hd, List.head?_cons] at hq
  obtain ⟨rest', hd'⟩ := List.head?_eq_some_iff.1 hq.symm
  have hroom := h.room hp htx hhead cfg d rest' (hcfg ▸ hc) hd'
  have hle := of_decide_eq_true hroom
  refine decide_eq_true ?_
  rw [hres, hs, hw]
  exact Nat.le_trans (Nat.add_le_add_right (hfifo hdir) _) hle

theorem StreamCtx.testEnd_fields (c : StreamCtx) (n : Nat) :
    (c.testEnd n).cfg = c.cfg ∧ (c.testEnd n).residual = c.residual ∧ (c.testEnd n).samplesDone = c.samplesDone
    ∧ (c.testEnd n).wordsDone = c.wordsDone ∧ ((c.testEnd n).state = .off → c.state = .off) := by
  simp only [StreamCtx.testEnd]
  split
  · exact ⟨rfl, rfl, rfl, rfl, id⟩
  · split
    · exact ⟨rfl, rfl, rfl, rfl, nofun⟩
    · exact ⟨rfl, rfl, rfl, rfl, id⟩

/-- A turn keeps the agreement with every move. -/
theorem StreamCtx.Turn.agreesWith {c c' : StreamCtx} {m : Move} {p : Prop} (t : c.Turn c') (hl : c.OffLaw)
    (h : c.AgreesWith m p) : c'.AgreesWith m p := by
  obtain ⟨-, -, -, hended, hdrain, -⟩ := hl
  cases t with
  | sweep | abort | returnAll => exact .of_empty rfl
  | endDrain hst => exact .of_empty (hended true hst (hdrain .ended hst))
  | configure cfg hst hq hcfg => exact .of_empty hq
  | flush hst hdir hq =>
    refine h.sameHead nofun rfl ?_ ⟨rfl, rfl, rfl⟩ fun _ => Nat.le_refl _
    cases hc : c.queue with
    | nil => exact absurd hc hq
    | cons d rest => rfl
  | arm m hst hcfg => exact h.sameHead nofun rfl rfl ⟨rfl, rfl, rfl⟩ fun _ => Nat.le_refl _
  | start m e hst => exact h.sameHead (by cases e <;> simp) rfl rfl ⟨rfl, rfl, rfl⟩ fun _ => Nat.le_refl _
  | stopLater hst => exact h.sameHead nofun rfl rfl ⟨rfl, rfl, rfl⟩ fun _ => Nat.le_refl _
  | halt cause hw => exact h.sameHead nofun rfl rfl ⟨rfl, rfl, rfl⟩ fun _ => Nat.le_refl _
  | release k r hdir hst => exact h.sameHead nofun rfl rfl ⟨rfl, rfl, rfl⟩ fun _ => Nat.le_refl _
  | send x rest hdir hd hf =>
    exact h.sameHead (StreamCtx.ne_off_of_driving hd) rfl rfl ⟨rfl, rfl, rfl⟩ fun _ => by
      rw [hf]
      exact Nat.le_succ _
  | underrun hdir hst =>
    exact h.sameHead (StreamCtx.ne_off_of_driving (StreamCtx.driving_of_running_or_stopping hst)) rfl rfl
      ⟨rfl, rfl, rfl⟩ fun _ => Nat.le_refl _
  | take x hdir hst hroom =>
    exact h.sameHead (StreamCtx.ne_off_of_driving (StreamCtx.driving_of_running_or_stopping hst)) rfl rfl
      ⟨rfl, rfl, rfl⟩ fun htx => absurd (hdir.symm.trans htx) (by decide)
  | overrun n hst =>
    exact h.sameHead (StreamCtx.ne_off_of_driving (StreamCtx.driving_of_running_or_stopping hst)) rfl rfl
      ⟨rfl, rfl, rfl⟩ fun _ => Nat.le_refl _
  | testEnd n =>
    obtain ⟨hcfg, hres, hs, hw, hst⟩ := c.testEnd_fields n
    have hq := c.testEnd_queue n
    by_cases hoff : (c.testEnd n).state = .off
    · have hsame : c.testEnd n = c := by
        have := hst hoff
        simp only [StreamCtx.testEnd, this]
        split <;> simp
      rw [hsame]
      exact h
    · exact h.sameHead hoff hcfg (by rw [hq]) ⟨hres, hs, hw⟩ fun _ => by rw [StreamCtx.testEnd_fifo]

theorem StreamCtx.Turns.agreesWith {c c' : StreamCtx} {m : Move} {p : Prop} (t : c.Turns c') (hl : c.OffLaw)
    (h : c.AgreesWith m p) : c'.AgreesWith m p := by
  have both : c'.OffLaw ∧ c'.AgreesWith m p := by
    induction t with
    | refl => exact ⟨hl, h⟩
    | tail _ k ih => exact ⟨k.offLaw ih.1, k.agreesWith ih.1 ih.2⟩
  exact both.2

/-- A POST brings a posting that no move has served (R126, log 10). -/
theorem StreamCtx.AgreesWith.withPost {c : StreamCtx} {m : Move} {p : Prop} {d : Descriptor} (h : c.AgreesWith m p)
    (hnew : m.posting < d.posting) : (c.withPost d).AgreesWith m p := by
  have hhead : (c.withPost d).HeadIs m.posting →
      c.HeadIs m.posting ∧ (c.withPost d).queue.head? = c.queue.head? := fun ⟨e, rest, he, hp⟩ => by
    have hqueue : c.queue ++ [d] = e :: rest := he
    cases hq : c.queue with
    | nil =>
      rw [hq] at hqueue
      cases hqueue
      exact absurd hp (Nat.ne_of_gt hnew)
    | cons a as =>
      rw [hq] at hqueue
      cases hqueue
      refine ⟨⟨_, _, hq, hp⟩, ?_⟩
      simp [StreamCtx.withPost, hq]
  refine ⟨fun hst e he => ?_, fun k => h.dir (hhead k).1, fun hp htx k cfg e rest hc he => ?_⟩
  · rcases List.mem_append.1 he with he | he
    · exact h.off hst e he
    · cases List.mem_singleton.1 he
      exact Nat.ne_of_gt hnew
  · obtain ⟨hold, hq⟩ := hhead k
    rw [he, List.head?_cons] at hq
    obtain ⟨rest', he'⟩ := List.head?_eq_some_iff.1 hq.symm
    exact h.room hp htx hold cfg e rest' hc he'

/-! ### The streams and the move of the whole block -/

/-- Every stream keeps its laws. -/
def State.StreamsSound (s : State) : Prop := ∀ i, (s.stream i).Sound s.nextPosting

/-- The move in progress serves an older posting, its stream agrees with it, and the word in flight has its direction
(R126). -/
def State.MoveSound (s : State) : Prop :=
  ∀ m, s.mover.move = some m → m.posting < s.nextPosting
    ∧ (s.stream m.stream).AgreesWith m (s.mover.inFlight.isSome = true)
    ∧ ∀ w, s.mover.inFlight = some w → w.dir = m.dir

/-- The law of the streams without the map. -/
def State.SoundLaw (s : State) : Prop := s.StreamsSound ∧ s.MoveSound

theorem State.streamLaw_iff (s : State) : s.StreamLaw ↔ s.MapLaw ∧ s.SoundLaw := by
  refine and_congr_right fun _ => ⟨fun ⟨⟨hfifo, hmove⟩, hstr⟩ => ⟨fun i => ⟨(hstr i).1, (hstr i).2, hfifo i⟩,
    fun m hm => ?_⟩, fun ⟨hstr, hmove⟩ => ⟨⟨fun i => (hstr i).fifo, fun m hm => ?_⟩, fun i => ⟨(hstr i).off, (hstr i).queue⟩⟩⟩
  · have hserves := State.servesHead_iff hm m.stream
    obtain ⟨hp, hoff, hdir, hfly⟩ := hmove m hm
    refine ⟨hp, ⟨hoff, fun k => hdir (hserves.2 ⟨rfl, k⟩), fun hsome htx k cfg d rest hc hq => ?_⟩,
      fun w hw => (hfly w hw).1⟩
    obtain ⟨w, hw⟩ := Option.isSome_iff_exists.1 hsome
    exact (hfly w hw).2 cfg d rest htx (hserves.2 ⟨rfl, k⟩) hc hq
  · have hserves := State.servesHead_iff hm m.stream
    obtain ⟨hp, hagree, hfly⟩ := hmove m hm
    refine ⟨hp, hagree.off, fun k => hagree.dir (hserves.1 k).2, fun w hw => ⟨hfly w hw, fun cfg d rest htx k hc hq => ?_⟩⟩
    exact hagree.room (by simp [hw]) htx (hserves.1 k).2 cfg d rest hc hq

/-- The law rests on the streams, the posting numbers, the move and the word in flight but for its timer. -/
theorem State.SoundLaw.congr {s t : State} (h : s.SoundLaw) (hs : t.streams = s.streams)
    (hp : t.nextPosting = s.nextPosting) (hm : t.mover.move = s.mover.move)
    (hf : t.mover.inFlight.map InFlight.dir = s.mover.inFlight.map InFlight.dir) : t.SoundLaw := by
  have hstr := State.stream_congr hs
  have hsome : t.mover.inFlight.isSome = s.mover.inFlight.isSome := by
    rw [← Option.isSome_map (f := InFlight.dir), hf, Option.isSome_map]
  refine ⟨fun i => by rw [hstr, hp]; exact h.1 i, fun m hmv => ?_⟩
  obtain ⟨hlt, hagree, hdir⟩ := h.2 m (hm ▸ hmv)
  refine ⟨hp ▸ hlt, by rw [hstr, hsome]; exact hagree, fun w hw => ?_⟩
  rw [hw, Option.map_some] at hf
  obtain ⟨w', hw', heq⟩ := Option.map_eq_some_iff.1 hf.symm
  exact heq ▸ hdir w' hw'

/-- Turns of the streams. -/
theorem State.Turns.soundLaw {s t : State} (k : s.Turns t) (h : s.SoundLaw) : t.SoundLaw := by
  refine ⟨fun i => k.posting ▸ (k.streams i).sound (h.1 i), fun m hm => ?_⟩
  rw [k.mover] at hm
  obtain ⟨hlt, hagree, hdir⟩ := h.2 m hm
  rw [k.posting, k.mover]
  exact ⟨hlt, (k.streams m.stream).agreesWith (h.1 m.stream).off hagree, hdir⟩

/-! ### The acts of the Mover -/

/-- With no move the law asks nothing of it. -/
theorem State.SoundLaw.of_idle {s : State} (h : s.StreamsSound) (hm : s.mover.move = none) : s.SoundLaw :=
  ⟨h, fun m k => by rw [hm] at k; cases k⟩

theorem State.endTenure_soundLaw {s : State} (h : s.StreamsSound) : s.endTenure.SoundLaw := .of_idle h rfl

/-- A word started leaves the law, whatever the Mover held before, when the move has its stream's direction while it
serves the head (R126 to R128). -/
theorem State.nextWord_soundLaw {s t : State} {m : Move} (h : s.StreamsSound)
    (hdir : (s.stream m.stream).HeadIs m.posting → (s.stream m.stream).cfg.map StreamConfig.direction = some m.dir)
    (ht : s.nextWord m = some t) : t.SoundLaw := by
  obtain ⟨c, w, u, rfl, hsame, hfifo, -, cfg, d, rest, hcfg, hq, hp, htx, hrx⟩ := State.nextWord_spec ht
  obtain ⟨hcfg', hst', hq', -⟩ := StreamCtx.sameButTaken_fields hsame
  have hoff : (s.stream m.stream).state ≠ .off := fun hst => by
    cases hd : m.dir with
    | tx =>
      obtain ⟨rfl, hmay, -⟩ := htx hd
      simp [StreamCtx.mayFetch, hst] at hmay
    | rx =>
      obtain ⟨hmay, -⟩ := hrx hd
      simp [StreamCtx.mayStore, hst] at hmay
  have hstr : ∀ i, ((s.withStream m.stream c).launch m w u).stream i = if i = m.stream then c else s.stream i :=
    fun i => s.stream_withStream m.stream i c
  refine ⟨fun i => ?_, fun m' hm' => ?_⟩
  · rw [hstr]
    split
    · exact (h m.stream).prepared hoff hsame hfifo
    · exact h i
  · cases hm'
    rw [hstr, if_pos rfl]
    refine ⟨hp ▸ (h m.stream).queue.2 d (by simp [hq]), ⟨fun k => absurd (hst' ▸ k) hoff, fun k => ?_, fun _ hd _ => ?_⟩,
      fun w' hw' => by cases hw'; rfl⟩
    · rw [hcfg']
      exact hdir (k.congr (by rw [hq']))
    · obtain ⟨rfl, -, hroom⟩ := htx hd
      intro cfg' d' rest' hc hd'
      cases hcfg.symm.trans hc
      cases hq.symm.trans hd'
      exact hroom

/-- What the Mover records at the start of a move (R126). -/
theorem State.moveFor_spec {s : State} {i : StreamId} {m : Move} (h : s.moveFor i = some m) :
    m.stream = i ∧ ∃ cfg d rest, (s.stream i).cfg = some cfg ∧ (s.stream i).queue = d :: rest
      ∧ m.dir = cfg.direction ∧ m.posting = d.posting := by
  simp only [State.moveFor] at h
  split at h
  · rename_i cfg d rest hc hq
    cases h
    exact ⟨rfl, cfg, d, rest, hc, hq, rfl, rfl⟩
  · cases h

theorem State.chooseMove_soundLaw {s : State} (h : s.StreamsSound) : s.chooseMove.SoundLaw := by
  simp only [State.chooseMove]
  split
  · exact State.endTenure_soundLaw h
  · split
    · exact State.endTenure_soundLaw h
    · rename_i i hchoice m hm
      split
      · rename_i t ht
        obtain ⟨rfl, cfg, d, rest, hc, -, hdir, -⟩ := State.moveFor_spec hm
        refine State.nextWord_soundLaw (by exact h) (fun _ => ?_) ht
        rw [hc, hdir]
        rfl
      · exact State.endTenure_soundLaw h

theorem State.beginTenure_soundLaw {s : State} (h : s.StreamsSound) : s.beginTenure.SoundLaw := by
  simp only [State.beginTenure]
  split
  · exact State.endTenure_soundLaw h
  · exact State.chooseMove_soundLaw h

theorem State.pollMover_soundLaw {s : State} (h : s.SoundLaw) : s.pollMover.SoundLaw := by
  simp only [State.pollMover]
  split
  · split
    · exact State.beginTenure_soundLaw h.1
    · exact h
  · exact h

theorem State.grant_soundLaw {s : State} (h : s.SoundLaw) : s.grant.SoundLaw := by
  simp only [State.grant]
  split
  · exact State.beginTenure_soundLaw h.1
  · exact h

theorem State.yieldBus_soundLaw {s : State} (h : s.SoundLaw) : s.yieldBus.SoundLaw := by
  simp only [State.yieldBus]
  split
  · split
    · exact h
    · exact State.endTenure_soundLaw h.1
  · exact h

theorem State.grantLow_soundLaw {s : State} (h : s.SoundLaw) : s.grantLow.SoundLaw := by
  simp only [State.grantLow]
  split
  · exact h
  · exact State.yieldBus_soundLaw h
  · exact h
  · exact h

/-- While the move serves the head of its stream, the stream is not OFF, and it has the move's direction. -/
theorem State.MoveSound.serving {s : State} {m : Move} (h : s.MoveSound) (hm : s.mover.move = some m)
    (hserves : s.servesHead m.stream = true) : ∃ cfg d rest, (s.stream m.stream).cfg = some cfg
      ∧ (s.stream m.stream).queue = d :: rest ∧ (s.stream m.stream).state ≠ .off ∧ cfg.direction = m.dir
      ∧ d.posting = m.posting := by
  obtain ⟨-, hhead⟩ := (State.servesHead_iff hm m.stream).1 hserves
  obtain ⟨-, hagree, -⟩ := h m hm
  obtain ⟨cfg, hc, hdir⟩ := Option.map_eq_some_iff.1 (hagree.dir hhead)
  obtain ⟨d, rest, hq, hp⟩ := hhead
  exact ⟨cfg, d, rest, hc, hq, fun hst => hagree.off hst d (by simp [hq]) hp, hdir, hp⟩

/-- What a completed word makes of its stream, with its posting still the head or not (R130, R134). -/
theorem State.takeWord_stream (s : State) (m : Move) (w : InFlight) (data : Word) (i : StreamId) :
    (s.takeWord m w data).stream i = if i = m.stream ∧ s.servesHead m.stream = true then
        match w.dir with
        | .tx => ((s.stream m.stream).fetchWord m.stream s.line.frame data).1
        | .rx => ((s.stream m.stream).storeWord m.stream s.line.frame w.uncounted).1
      else s.stream i := by
  simp only [State.takeWord]
  cases hserves : s.servesHead m.stream with
  | false => simp
  | true =>
    cases hd : w.dir <;>
      · simp only [if_true, and_true]
        exact State.stream_apply s m.stream i _

theorem State.takeWord_nextPosting (s : State) (m : Move) (w : InFlight) (data : Word) :
    (s.takeWord m w data).nextPosting = s.nextPosting := by
  rw [State.takeWord]
  split
  · split <;> rfl
  · rfl

theorem State.takeWord_streamsSound {s : State} {m : Move} {w : InFlight} (h : s.SoundLaw)
    (hm : s.mover.move = some m) (hw : s.mover.inFlight = some w) (data : Word) :
    (s.takeWord m w data).StreamsSound := by
  intro i
  rw [State.takeWord_stream, State.takeWord_nextPosting]
  split
  · rename_i hi
    obtain ⟨cfg, d, rest, hc, hq, hoff, hcd, hp⟩ := h.2.serving hm hi.2
    obtain ⟨-, hagree, hdir⟩ := h.2 m hm
    split
    · rename_i htx
      have hroom := hagree.room (by simp [hw]) ((hdir w hw).symm.trans htx) ⟨d, rest, hq, hp⟩ cfg d rest hc hq
      exact (h.1 m.stream).fetchWord hoff hc hq hroom _ _ _
    · exact (h.1 m.stream).storeWord hoff hc hq _ _ _
  · exact h.1 i

/-- A completed word leaves its stream in the direction of the move while the posting is still its head. -/
theorem State.takeWord_direction {s : State} {m : Move} (h : s.SoundLaw) (hm : s.mover.move = some m)
    (w : InFlight) (data : Word) (hhead : ((s.takeWord m w data).stream m.stream).HeadIs m.posting) :
    ((s.takeWord m w data).stream m.stream).cfg.map StreamConfig.direction = some m.dir := by
  rw [((s.takeWord_keepsLine m w data).streams m.stream).1]
  cases hserves : s.servesHead m.stream with
  | true =>
    obtain ⟨cfg, d, rest, hc, -, -, hcd, -⟩ := h.2.serving hm hserves
    rw [hc, Option.map_some, hcd]
  | false =>
    rw [State.takeWord_stream, if_neg (by simp [hserves])] at hhead
    exact (h.2 m hm).2.1.dir hhead

/-- The Mover goes on (R129). -/
theorem State.goOn_soundLaw {s : State} {m : Move} (h : s.StreamsSound)
    (hdir : (s.stream m.stream).HeadIs m.posting → (s.stream m.stream).cfg.map StreamConfig.direction = some m.dir) :
    (s.goOn m).SoundLaw := by
  simp only [State.goOn]
  split
  · exact State.endTenure_soundLaw h
  · split
    · rename_i t ht
      exact State.nextWord_soundLaw h hdir ht
    · exact State.chooseMove_soundLaw h

theorem State.completeWord_soundLaw {s : State} (h : s.SoundLaw) (x : Option Word) : (s.completeWord x).SoundLaw := by
  simp only [State.completeWord]
  split
  · rename_i m w hm hw
    have hstreams := State.takeWord_streamsSound h hm hw (s.fetched w x)
    have hdir := State.takeWord_direction h hm w (s.fetched w x)
    exact State.goOn_soundLaw (by exact hstreams) (by exact hdir)
  · exact h

theorem State.faultWord_soundLaw {s : State} (h : s.SoundLaw) : s.faultWord.SoundLaw := by
  simp only [State.faultWord]
  split
  · have hraised : ∀ rs, (s.raiseAll rs).SoundLaw := fun _ => h
    refine State.endTenure_soundLaw ?_
    split
    · exact ((State.haltCascade_turns _ _ _).soundLaw (hraised _)).1
    · exact h.1
  · exact h

/-- A POST: a new posting number, and the descriptor at the tail of its queue. -/
theorem State.post_soundLaw {s : State} {i : StreamId} {d : Descriptor} (n : Nat) (h : s.SoundLaw)
    (hcfg : (s.stream i).cfg ≠ none) (htakes : (s.stream i).takesPost = true) (hd : d.posting = s.nextPosting) :
    State.SoundLaw { s.putStream i ((s.stream i).enqueue d n) with nextPosting := s.nextPosting + 1 } := by
  have hnew := (h.1 i).withPost hcfg htakes hd
  have hturns := (s.stream i).enqueue_turns d n
  have hstr : ∀ j, (s.putStream i ((s.stream i).enqueue d n)).stream j
      = if j = i then (s.stream i).enqueue d n else s.stream j := fun j => s.stream_putStream i j _
  refine ⟨fun j => ?_, fun m hm => ?_⟩
  · refine (congrArg (StreamCtx.Sound · (s.nextPosting + 1)) (hstr j)).mpr ?_
    split
    · exact hturns.sound hnew
    · exact ⟨(h.1 j).off, (h.1 j).queue.mono (Nat.le_succ _), (h.1 j).fifo⟩
  · obtain ⟨hlt, hagree, hdir⟩ := h.2 m hm
    refine ⟨Nat.lt_succ_of_lt hlt, ?_, hdir⟩
    refine (congrArg (StreamCtx.AgreesWith · m _) (hstr m.stream)).mpr ?_
    split
    · rename_i hi
      rw [hi] at hagree
      exact hturns.agreesWith hnew.off (hagree.withPost (hd ▸ hlt))
    · exact hagree

/-! ### Every step -/

theorem State.Act.soundLaw {s t : State} (k : s.Act t) (h : s.SoundLaw) : t.SoundLaw := by
  cases k with
  | turns k => exact k.soundLaw h
  | post i d n hcfg htakes hd hlen => exact State.post_soundLaw n h hcfg htakes hd
  | pins | tenureMax | readyTimeout => exact h
  | readyTick w hw hlt => exact h.congr rfl rfl rfl (by rw [hw]; rfl)
  | poll => exact State.pollMover_soundLaw h
  | grant => exact State.grant_soundLaw h
  | grantLow => exact State.grantLow_soundLaw h
  | yield => exact State.yieldBus_soundLaw h
  | complete x => exact State.completeWord_soundLaw h x
  | fault => exact State.faultWord_soundLaw h

theorem State.Acts.soundLaw {s t : State} (k : s.Acts t) (h : s.SoundLaw) : t.SoundLaw := by
  induction k with
  | refl => exact h
  | tail _ a ih => exact a.soundLaw ih

theorem exec_soundLaw {c : Instr} {s t : State} (hmap : s.MapLaw) (h : s.SoundLaw) (hstep : exec c s = .next t) :
    t.SoundLaw := by
  by_cases hreset : c = .pinReset
  · subst hreset
    cases hstep
    obtain ⟨-, -, hstreams⟩ := State.streamLaw_reset
    refine .of_idle (fun i => ?_) rfl
    have hctx : s.pinReset.stream i = State.reset.stream i := rfl
    obtain ⟨hoff, hqueue⟩ := hstreams i
    rw [hctx]
    exact ⟨hoff, hqueue.mono (Nat.zero_le _), by simp [StreamCtx.reset]⟩
  · by_cases hwrite : ∀ p x, c ≠ .registerWrite p x
    · obtain ⟨m, k⟩ := exec_rowTo hreset hwrite (fun _ => hmap) hstep
      exact k.soundLaw h
    · simp only [ne_eq, not_forall, not_not] at hwrite
      obtain ⟨p, x, rfl⟩ := hwrite
      cases hstep
      simp only [State.hostWrite]
      split
      · exact h
      · exact h

/-- The first part of O56. -/
theorem streamLaw_keptByStep : KeptByStep State.StreamLaw := by
  intro s t h hstep
  obtain ⟨hmap, hsound⟩ := s.streamLaw_iff.1 h
  refine t.streamLaw_iff.2 ⟨everyStepKeepsTheMapConsistent s t hmap hstep, ?_⟩
  simp only [step] at hstep
  split at hstep
  · cases hstep
    exact s.idle_acts.soundLaw hsound
  · rename_i c rest hp
    exact exec_soundLaw (s := { s with pending := rest }) hmap hsound hstep

end Sys2Proof.Machine
end

section
/-! PROOFS. The Mover's items (R118 to R122, R130, R131) and the widths of the configurations (R38): every act keeps
them. -/

namespace Sys2Proof.Machine

/-! ### The items of the Mover -/

/-- TENURE_MAX and READY_TIMEOUT are in range (R138). -/
structure Mover.InRange (m : Mover) : Prop where
  tenureMax : 1 ≤ m.tenureMax ∧ m.tenureMax ≤ 32
  readyTimeout : 1 ≤ m.readyTimeout ∧ m.readyTimeout ≤ 255

/-- The law outside HOLDING: no move, no word in flight and no limit. -/
theorem Mover.Law.of_idle {m : Mover} (hr : m.InRange) (hbus : m.bus ≠ .holding) (hmove : m.move = none)
    (hfly : m.inFlight = none) (hlim : m.limit = none) : m.Law := by
  simp [Mover.Law, hbus, hmove, hfly, hlim, hr.tenureMax, hr.readyTimeout]

theorem Mover.Law.inRange {m : Mover} (h : m.Law) : m.InRange := by
  obtain ⟨-, -, -, -, -, h1, h32, h1', h255⟩ := h
  exact ⟨⟨h1, h32⟩, ⟨h1', h255⟩⟩

/-- Outside HOLDING the Mover holds nothing. -/
theorem Mover.Law.holds_nothing {m : Mover} (h : m.Law) (hbus : m.bus ≠ .holding) :
    m.move = none ∧ m.inFlight = none ∧ m.limit = none := by
  obtain ⟨hmove, hfly, hlim, -⟩ := h
  simp only [hbus, false_iff, Bool.not_eq_true, Option.isSome_eq_false_iff, Option.isNone_iff_eq_none] at hmove hfly hlim
  exact ⟨hmove, hfly, hlim⟩

/-- The law of another state outside HOLDING, with the same settings. -/
theorem Mover.Law.toBus {m : Mover} (h : m.Law) {b : BusState} (hbus : m.bus ≠ .holding) (hb : b ≠ .holding) :
    Mover.Law { m with bus := b } := by
  obtain ⟨hmove, hfly, hlim⟩ := h.holds_nothing hbus
  exact .of_idle ⟨h.inRange.tenureMax, h.inRange.readyTimeout⟩ hb hmove hfly hlim

/-- A Mover that may start a word: in HOLDING, below its limit (R127). -/
structure Mover.MayGoOn (m : Mover) : Prop where
  range : m.InRange
  bus : m.bus = .holding
  limit : ∃ l, m.limit = some l ∧ m.wordCount < l ∧ l ≤ 32

theorem Mover.Law.mayGoOn {m : Mover} (h : m.Law) (hbus : m.bus = .holding) : m.MayGoOn := by
  obtain ⟨-, -, hlim, hcount, -⟩ := id h
  obtain ⟨l, hl⟩ := Option.isSome_iff_exists.1 (hlim.1 hbus)
  exact ⟨h.inRange, hbus, l, hl, hcount l hl⟩

theorem State.endTenure_moverLaw {s : State} (h : s.mover.InRange) : s.endTenure.mover.Law :=
  .of_idle ⟨h.tenureMax, h.readyTimeout⟩ nofun rfl rfl rfl

theorem State.launch_moverLaw {s : State} (h : s.mover.MayGoOn) (m : Move) (w : Word) (u : Nat) :
    (s.launch m w u).mover.Law := by
  obtain ⟨hr, hbus, l, hl, hcount⟩ := h
  simp only [State.launch, Mover.Law, hbus, hl, Option.isSome_some, Option.some.injEq, forall_eq', true_and]
  exact ⟨hcount, hr.readyTimeout.1, hr.tenureMax.1, hr.tenureMax.2, hr.readyTimeout⟩

theorem State.nextWord_moverLaw {s t : State} {m : Move} (h : s.mover.MayGoOn) (ht : s.nextWord m = some t) :
    t.mover.Law := by
  obtain ⟨c, w, u, rfl, -⟩ := State.nextWord_spec ht
  exact State.launch_moverLaw (by exact h) m w u

theorem State.chooseMove_moverLaw {s : State} (h : s.mover.MayGoOn) : s.chooseMove.mover.Law := by
  simp only [State.chooseMove]
  split
  · exact State.endTenure_moverLaw h.range
  · have hchosen : ∀ i, Mover.MayGoOn { s.mover with pointer := i, move := none } := fun i =>
      ⟨⟨h.range.tenureMax, h.range.readyTimeout⟩, h.bus, h.limit⟩
    split
    · exact State.endTenure_moverLaw (hchosen _).range
    · split
      · rename_i t ht
        exact State.nextWord_moverLaw (hchosen _) ht
      · exact State.endTenure_moverLaw (hchosen _).range

/-- A tenure begins below its limit, which is TENURE_MAX (R120, R122). -/
theorem State.beginTenure_moverLaw {s : State} (h : s.mover.InRange) : s.beginTenure.mover.Law := by
  have hbegun : s.mover.begun.MayGoOn :=
    ⟨⟨h.tenureMax, h.readyTimeout⟩, rfl, _, rfl, h.tenureMax⟩
  simp only [State.beginTenure]
  split
  · exact State.endTenure_moverLaw hbegun.range
  · exact State.chooseMove_moverLaw hbegun

theorem State.pollMover_moverLaw {s : State} (h : s.mover.Law) : s.pollMover.mover.Law := by
  simp only [State.pollMover]
  split
  · rename_i hidle
    have hasks := h.toBus (b := .requesting) (by simp [hidle.1]) nofun
    split
    · exact State.beginTenure_moverLaw hasks.inRange
    · exact hasks
  · exact h

theorem State.grant_moverLaw {s : State} (h : s.mover.Law) : s.grant.mover.Law := by
  simp only [State.grant]
  split
  · exact State.beginTenure_moverLaw ⟨h.inRange.tenureMax, h.inRange.readyTimeout⟩
  · exact h

theorem State.yieldBus_moverLaw {s : State} (h : s.mover.Law) : s.yieldBus.mover.Law := by
  simp only [State.yieldBus]
  split
  · split
    · exact h
    · exact State.endTenure_moverLaw h.inRange
  · exact h

theorem State.grantLow_moverLaw {s : State} (h : s.mover.Law) : s.grantLow.mover.Law := by
  simp only [State.grantLow]
  split
  · rename_i hbus
    exact Mover.Law.toBus (m := { s.mover with bgnt := false }) h (by simp [hbus]) nofun
  · exact State.yieldBus_moverLaw h
  · exact h
  · exact h

theorem State.takeWord_mover (s : State) (m : Move) (w : InFlight) (data : Word) :
    (s.takeWord m w data).mover = s.mover := by
  rw [State.takeWord]
  split
  · split <;> rfl
  · rfl

/-- The Mover goes on below its limit only (R122). -/
theorem State.goOn_moverLaw {s : State} (m : Move) (hr : s.mover.InRange) (hbus : s.mover.bus = .holding)
    (hlim : ∃ l, s.mover.limit = some l ∧ l ≤ 32) : (s.goOn m).mover.Law := by
  obtain ⟨l, hl, h32⟩ := hlim
  simp only [State.goOn, hl, Option.any_some]
  split
  · exact State.endTenure_moverLaw hr
  · rename_i hgo
    have hlt : s.mover.wordCount < l := by
      simp only [Bool.or_eq_true, decide_eq_true_eq, not_or, not_le] at hgo
      exact hgo.1
    have hmay : s.mover.MayGoOn := ⟨hr, hbus, l, hl, hlt, h32⟩
    split
    · rename_i t ht
      exact State.nextWord_moverLaw hmay ht
    · exact State.chooseMove_moverLaw hmay

theorem State.completeWord_moverLaw {s : State} (h : s.mover.Law) (x : Option Word) :
    (s.completeWord x).mover.Law := by
  simp only [State.completeWord]
  split
  · rename_i m w hm hw
    obtain ⟨-, hfly, -⟩ := id h
    obtain ⟨hr, hbus, l, hl, -, h32⟩ := h.mayGoOn (hfly.2 (by simp [hw]))
    rw [← s.takeWord_mover m w (s.fetched w x)] at hr hbus hl
    exact State.goOn_moverLaw m ⟨hr.tenureMax, hr.readyTimeout⟩ hbus ⟨l, hl, h32⟩
  · exact h

theorem State.faultWord_moverLaw {s : State} (h : s.mover.Law) : s.faultWord.mover.Law := by
  simp only [State.faultWord]
  split
  · refine State.endTenure_moverLaw ?_
    split
    · rw [(State.haltCascade_turns _ _ _).mover]
      exact h.inRange
    · exact h.inRange
  · exact h

theorem State.Act.moverLaw {s t : State} (k : s.Act t) (h : s.mover.Law) : t.mover.Law := by
  obtain ⟨hmove, hfly, hlim, hcount, htimer, h1, h32, h1', h255⟩ := id h
  cases k with
  | turns k => exact k.mover ▸ h
  | post | pins => exact h
  | tenureMax n hn => exact ⟨hmove, hfly, hlim, hcount, htimer, hn.1, hn.2, h1', h255⟩
  | readyTimeout n hn => exact ⟨hmove, hfly, hlim, hcount, htimer, h1, h32, hn.1, hn.2⟩
  | readyTick w hw hlt =>
    refine ⟨hmove, by simpa [hw] using hfly, hlim, hcount, fun w' hw' => ?_, h1, h32, h1', h255⟩
    cases hw'
    exact Nat.le_sub_one_of_lt hlt
  | poll => exact State.pollMover_moverLaw h
  | grant => exact State.grant_moverLaw h
  | grantLow => exact State.grantLow_moverLaw h
  | yield => exact State.yieldBus_moverLaw h
  | complete x => exact State.completeWord_moverLaw h x
  | fault => exact State.faultWord_moverLaw h

/-! ### The widths of the configurations -/

/-- The configuration, if there is one, has a width in its range (R38). -/
def StreamCtx.WidthInRange (c : StreamCtx) : Prop := ∀ cfg, c.cfg = some cfg → cfg.WidthInRange

theorem StreamCtx.WidthInRange.congr {c c' : StreamCtx} (h : c.WidthInRange) (hcfg : c'.cfg = c.cfg) :
    c'.WidthInRange := fun cfg hc => h cfg (hcfg ▸ hc)

theorem StreamCtx.Turn.widthInRange {c c' : StreamCtx} (t : c.Turn c') (h : c.WidthInRange) : c'.WidthInRange := by
  cases t with
  | configure cfg hst hq hcfg => exact hcfg
  | testEnd n => exact h.congr (c.testEnd_fields n).1
  | _ => exact h

theorem StreamCtx.Turns.widthInRange {c c' : StreamCtx} (t : c.Turns c') (h : c.WidthInRange) :
    c'.WidthInRange := by
  induction t with
  | refl => exact h
  | tail _ k ih => exact k.widthInRange ih

/-- Every configuration has a width in its range. -/
def State.WidthsInRange (s : State) : Prop := ∀ i, (s.stream i).WidthInRange

theorem State.LineLaw.widthsInRange {s : State} (h : s.LineLaw) : s.WidthsInRange := by
  obtain ⟨-, -, -, -, hagrees, -⟩ := h
  exact fun i cfg hc => (hagrees i cfg hc).widthInRange

theorem State.KeepsLine.widthsInRange {s t : State} (k : s.KeepsLine t) (h : s.WidthsInRange) : t.WidthsInRange :=
  fun i => (h i).congr (k.streams i).1

theorem State.Act.widthsInRange {s t : State} (k : s.Act t) (h : s.WidthsInRange) : t.WidthsInRange := by
  cases k with
  | turns k => exact fun i => (k.streams i).widthInRange (h i)
  | post i d n hcfg htakes hd hlen =>
    exact (State.putStream_keepsLine (StreamCtx.enqueue_drivesNoMore (s.stream i) d n)).widthsInRange h
  | poll => exact s.pollMover_act.keepsLine.widthsInRange h
  | grant => exact s.grant_act.keepsLine.widthsInRange h
  | grantLow => exact s.grantLow_act.keepsLine.widthsInRange h
  | yield => exact s.yieldBus_act.keepsLine.widthsInRange h
  | complete x => exact (s.completeWord_keepsLine x).widthsInRange h
  | fault => exact s.faultWord_keepsLine.widthsInRange h
  | _ => exact h

end Sys2Proof.Machine
end

section
/-! PROOFS. The head progress of one stream (R92, R93, R109, R113 to R115): what a turn, a POST, a word prepared and a
word transferred make of it. -/

namespace Sys2Proof.Machine

/-! ### Bits and words -/

/-- The words of a buffer hold its samples with fewer than 16 bits to spare (R104 to R107). -/
theorem StreamConfig.footprint_bounds (cfg : StreamConfig) (n : Nat) :
    n * cfg.sampleSize ≤ 16 * cfg.footprint n ∧ 16 * cfg.footprint n < n * cfg.sampleSize + 16 := by
  cases hp : cfg.packing <;> simp only [StreamConfig.footprint, StreamConfig.sampleSize, hp] <;> omega

theorem StreamConfig.WidthInRange.sampleSize_pos {cfg : StreamConfig} (h : cfg.WidthInRange) :
    0 < cfg.sampleSize := by
  obtain ⟨h4, -⟩ := h
  cases hp : cfg.packing <;> simp only [StreamConfig.sampleSize, hp] <;> omega

theorem StreamConfig.WidthInRange.footprint_pos {cfg : StreamConfig} (h : cfg.WidthInRange) {n : Nat} (hn : 1 ≤ n) :
    0 < cfg.footprint n := by
  have hsize := Nat.mul_pos hn h.sampleSize_pos
  have hle := (cfg.footprint_bounds n).1
  omega

/-- One sample appends as many bits as it fills in memory (R113). -/
theorem StreamConfig.WidthInRange.length_sampleBits {cfg : StreamConfig} (h : cfg.WidthInRange) (x : Sample) :
    (cfg.sampleBits x).length = cfg.sampleSize := by
  obtain ⟨-, h24, hword⟩ := h
  cases hp : cfg.packing with
  | packed => simp [StreamConfig.sampleBits, StreamConfig.sampleSize, hp]
  | word =>
    have h16 := hword hp
    simp only [StreamConfig.sampleBits, StreamConfig.sampleSize, hp, List.length_append, List.length_replicate,
      length_bitsOf]
    omega
  | pair =>
    simp only [StreamConfig.sampleBits, StreamConfig.sampleSize, hp, List.length_append, List.length_replicate,
      length_bitsOf]
    omega

theorem StreamConfig.WidthInRange.length_flatMap_sampleBits {cfg : StreamConfig} (h : cfg.WidthInRange)
    (xs : List Sample) : (xs.flatMap cfg.sampleBits).length = xs.length * cfg.sampleSize := by
  induction xs with
  | nil => simp
  | cons x xs ih =>
    rw [List.flatMap_cons, List.length_append, ih, h.length_sampleBits, List.length_cons, Nat.succ_mul, Nat.add_comm]

theorem length_cutSamples_rest (w k : Nat) (bs : List Bool) : (cutSamples w k bs).2.length = bs.length - k * w := by
  induction k generalizing bs with
  | zero => simp [cutSamples]
  | succ k ih =>
    simp only [cutSamples, ih, List.length_drop, Nat.succ_mul]
    omega

/-! ### A head without progress -/

/-- No samples and no words done, and no residual bits (R94). -/
def StreamCtx.Fresh (c : StreamCtx) : Prop := c.residual = [] ∧ c.samplesDone = 0 ∧ c.wordsDone = 0

theorem StreamCtx.Fresh.fetchProgress {c : StreamCtx} {cfg : StreamConfig} {d : Descriptor} (h : c.Fresh)
    (hw : cfg.WidthInRange) (hd : 1 ≤ d.length) : c.FetchProgress cfg d := by
  obtain ⟨hres, hs, hwords⟩ := h
  have h4 := hw.1
  refine ⟨by rw [hres]; exact Nat.lt_of_lt_of_le (by decide) h4, by omega, by rw [hwords]; exact hw.footprint_pos hd, ?_⟩
  cases hp : cfg.packing <;> simp [hres, hs, hwords]

theorem StreamCtx.Fresh.storeProgress {c : StreamCtx} {cfg : StreamConfig} {d : Descriptor} (h : c.Fresh)
    (hw : cfg.WidthInRange) (hd : 1 ≤ d.length) : c.StoreProgress cfg d none := by
  obtain ⟨hres, hs, hwords⟩ := h
  have hpos := hw.footprint_pos hd
  simp [StreamCtx.StoreProgress, hres, hs, hwords, hpos]

/-- A head without progress, and with no word in flight. -/
theorem StreamCtx.Fresh.headLaw {c : StreamCtx} (h : c.Fresh) (hw : c.WidthInRange)
    (hlen : ∀ d ∈ c.queue, 1 ≤ d.length ∧ d.length ≤ 4096) : c.HeadLaw none := by
  refine ⟨hlen, fun _ => h, fun cfg d rest hc hq => ?_⟩
  have hd := (hlen d (by simp [hq])).1
  exact ⟨fun _ => h.fetchProgress (hw cfg hc) hd, fun _ => h.storeProgress (hw cfg hc) hd⟩

theorem StreamCtx.Fresh.headLaw_of_empty {c : StreamCtx} (h : c.Fresh) (hq : c.queue = []) (f : Option Nat) :
    c.HeadLaw f := by
  refine ⟨fun d hd => ?_, fun _ => h, fun cfg d rest _ hd => ?_⟩
  · rw [hq] at hd
    cases hd
  · rw [hq] at hd
    cases hd

/-! ### Acts that keep the head -/

theorem StreamCtx.flushing_iff (c : StreamCtx) : c.flushing = true ↔ ∃ r, c.state = .draining .stop r := by
  simp only [StreamCtx.flushing]
  split <;> simp_all

/-- The configuration, the head and its progress stay, and a head that was being given up (halted, or flushed to the
end) still is. -/
structure StreamCtx.KeepsHead (c c' : StreamCtx) : Prop where
  cfg : c'.cfg = c.cfg
  queue : c'.queue.Sublist c.queue
  head : c'.queue.head? = c.queue.head?
  progress : c'.residual = c.residual ∧ c'.samplesDone = c.samplesDone ∧ c'.wordsDone = c.wordsDone
  halted : (∃ x, c.state = .halted x) → ∃ x, c'.state = .halted x
  flushed : c.flushing = true ∧ c.fifo = [] → (∃ x, c'.state = .halted x) ∨ c'.flushing = true ∧ c'.fifo = []

theorem StreamCtx.KeepsHead.refl (c : StreamCtx) : c.KeepsHead c :=
  ⟨rfl, .refl _, rfl, ⟨rfl, rfl, rfl⟩, id, .inr⟩

/-- An act on a stream that is neither halted nor flushing. -/
theorem StreamCtx.KeepsHead.of_live {c c' : StreamCtx} (hhalt : ∀ x, c.state ≠ .halted x)
    (hflush : ∀ r, c.state ≠ .draining .stop r) (hcfg : c'.cfg = c.cfg) (hsub : c'.queue.Sublist c.queue)
    (hhead : c'.queue.head? = c.queue.head?)
    (hprogress : c'.residual = c.residual ∧ c'.samplesDone = c.samplesDone ∧ c'.wordsDone = c.wordsDone) :
    c.KeepsHead c' :=
  ⟨hcfg, hsub, hhead, hprogress, fun ⟨x, hx⟩ => absurd hx (hhalt x), fun ⟨hf, _⟩ =>
    let ⟨r, hr⟩ := c.flushing_iff.1 hf
    absurd hr (hflush r)⟩

/-- An act in RUNNING or STOPPING that keeps the queue. -/
theorem StreamCtx.KeepsHead.of_running {c c' : StreamCtx} (hst : c.state = .running ∨ c.state = .stopping)
    (hcfg : c'.cfg = c.cfg) (hq : c'.queue = c.queue)
    (hprogress : c'.residual = c.residual ∧ c'.samplesDone = c.samplesDone ∧ c'.wordsDone = c.wordsDone) :
    c.KeepsHead c' := by
  refine .of_live (fun x hx => ?_) (fun r hr => ?_) hcfg (by rw [hq]) (by rw [hq]) hprogress
  · simp [hx] at hst
  · simp [hr] at hst

theorem StreamCtx.testEnd_keepsHead (c : StreamCtx) (n : Nat) : c.KeepsHead (c.testEnd n) := by
  simp only [StreamCtx.testEnd]
  split
  · exact .refl c
  · split
    · rename_i hend
      exact .of_running hend.2.1 rfl rfl ⟨rfl, rfl, rfl⟩
    · exact .refl c

theorem StreamCtx.endReached_keepsHead (c : StreamCtx) : c.KeepsHead c.endReached := by
  simp only [StreamCtx.endReached]
  split
  case h_1 hst => exact .of_running (.inl hst) rfl rfl ⟨rfl, rfl, rfl⟩
  case h_2 m e hst => exact .of_live (by simp [hst]) (by simp [hst]) rfl (.refl _) rfl ⟨rfl, rfl, rfl⟩
  all_goals exact .refl c

/-- A turn empties the queue, with no progress left, or keeps the head. -/
theorem StreamCtx.Turn.head {c c' : StreamCtx} (t : c.Turn c') (hl : c.OffLaw) :
    c'.queue = [] ∧ c'.Fresh ∨ c.KeepsHead c' := by
  obtain ⟨hoff, -, -, hended, hdrain, -⟩ := hl
  have hclean : c.state = .off → c.Fresh := fun hst =>
    let ⟨_, hres, hs, hw, _⟩ := hoff hst
    ⟨hres, hs, hw⟩
  cases t with
  | sweep | abort => exact .inl ⟨rfl, rfl, rfl, rfl⟩
  | returnAll hst => exact .inl ⟨rfl, hclean hst⟩
  | endDrain hst => exact .inl ⟨hended true hst (hdrain .ended hst), rfl, rfl, rfl⟩
  | configure cfg hst hq hcfg => exact .inl ⟨hq, hclean hst⟩
  | flush hst hdir hq =>
    refine .inr (.of_live (fun x hx => ?_) (fun r hr => ?_) rfl (List.take_sublist 1 _) ?_ ⟨rfl, rfl, rfl⟩)
    · simp [hx] at hst
    · simp [hr] at hst
    · cases c.queue <;> rfl
  | arm m hst hcfg => exact .inr (.of_live (by simp [hst]) (by simp [hst]) rfl (.refl _) rfl ⟨rfl, rfl, rfl⟩)
  | start m e hst => exact .inr (.of_live (by simp [hst]) (by simp [hst]) rfl (.refl _) rfl ⟨rfl, rfl, rfl⟩)
  | stopLater hst => exact .inr (.of_running (.inl hst) rfl rfl ⟨rfl, rfl, rfl⟩)
  | halt cause hw => exact .inr ⟨rfl, .refl _, rfl, ⟨rfl, rfl, rfl⟩, fun _ => ⟨_, rfl⟩, fun _ => .inl ⟨_, rfl⟩⟩
  | send x rest hdir hd hf =>
    refine .inr ⟨rfl, .refl _, rfl, ⟨rfl, rfl, rfl⟩, id, fun ⟨_, hempty⟩ => ?_⟩
    rw [hf] at hempty
    cases hempty
  | underrun hdir hst => exact .inr (.of_running hst rfl rfl ⟨rfl, rfl, rfl⟩)
  | release k r hdir hst =>
    refine .inr ⟨rfl, .refl _, rfl, ⟨rfl, rfl, rfl⟩, fun ⟨x, hx⟩ => ?_, fun ⟨hf, hempty⟩ => .inr ⟨?_, hempty⟩⟩
    · rw [hst] at hx
      cases hx
    · obtain ⟨r', hr'⟩ := c.flushing_iff.1 hf
      cases hst.symm.trans hr'
      exact (StreamCtx.flushing_iff _).2 ⟨true, rfl⟩
  | take x hdir hst hroom => exact .inr (.of_running hst rfl rfl ⟨rfl, rfl, rfl⟩)
  | testEnd n => exact .inr (c.testEnd_keepsHead n)
  | overrun n hst => exact .inr (.of_running hst rfl rfl ⟨rfl, rfl, rfl⟩)

theorem StreamCtx.KeepsHead.fetchProgress {c c' : StreamCtx} {cfg : StreamConfig} {d : Descriptor}
    (k : c.KeepsHead c') (h : c.FetchProgress cfg d) : c'.FetchProgress cfg d := by
  obtain ⟨hres, hs, hw⟩ := k.progress
  simp only [StreamCtx.FetchProgress, hres, hs, hw]
  exact h

theorem StreamCtx.KeepsHead.storeProgress {c c' : StreamCtx} {cfg : StreamConfig} {d : Descriptor} {f : Option Nat}
    (k : c.KeepsHead c') (h : c.StoreProgress cfg d f) : c'.StoreProgress cfg d f := by
  obtain ⟨hres, hs, hw⟩ := k.progress
  obtain ⟨hlen, hword, hpair, htaken, hhanded, hkept⟩ := h
  simp only [StreamCtx.StoreProgress, hres, hs, hw]
  refine ⟨hlen, hword, hpair, htaken, hhanded, ?_⟩
  rcases hkept with ⟨hhalt, hf⟩ | ⟨hfoot, heq | ⟨hf, hempty, hlt, hle, hlast⟩⟩
  · exact .inl ⟨k.halted hhalt, hf⟩
  · exact .inr ⟨hfoot, .inl heq⟩
  · refine .inr ⟨hfoot, .inr ⟨hf, hempty, hlt, hle, ?_⟩⟩
    rcases hlast with hfull | hhalt | hflush
    · exact .inl hfull
    · exact .inr (.inl (k.halted hhalt))
    · exact .inr (k.flushed hflush)

theorem StreamCtx.KeepsHead.headLaw {c c' : StreamCtx} {f : Option Nat} (k : c.KeepsHead c') (h : c.HeadLaw f) :
    c'.HeadLaw f := by
  obtain ⟨hlen, hempty, hprogress⟩ := h
  refine ⟨fun d hd => hlen d (k.queue.subset hd), fun hq => ?_, fun cfg d rest hc hq => ?_⟩
  · have hq' := k.head
    rw [hq, List.head?_nil, eq_comm, List.head?_eq_none_iff] at hq'
    obtain ⟨hres, hs, hw⟩ := k.progress
    rw [hres, hs, hw]
    exact hempty hq'
  · have hq' := k.head
    rw [hq, List.head?_cons] at hq'
    obtain ⟨rest', hd⟩ := List.head?_eq_some_iff.1 hq'.symm
    obtain ⟨htx, hrx⟩ := hprogress cfg d rest' (k.cfg ▸ hc) hd
    exact ⟨fun hdir => k.fetchProgress (htx hdir), fun hdir => k.storeProgress (hrx hdir)⟩

/-! ### The word in flight for the head -/

/-- The uncounted samples of the Mover's word in flight when the move serves the head of `c`, stream `i` (R115). -/
def Mover.flying (v : Mover) (i : StreamId) (c : StreamCtx) : Option Nat :=
  match v.inFlight, v.move, c.queue.head? with
  | some w, some m, some d => if m.stream = i ∧ m.posting = d.posting then some w.uncounted else none
  | _, _, _ => none

theorem State.headWord_eq (s : State) (i : StreamId) : s.headWord i = s.mover.flying i (s.stream i) := by
  cases hw : s.mover.inFlight with
  | none => simp [State.headWord, Mover.flying, hw]
  | some w =>
    cases hm : s.mover.move with
    | none => simp [State.headWord, State.servesHead, Mover.flying, hw, hm]
    | some m => cases hq : (s.stream i).queue <;> simp [State.headWord, State.servesHead, Mover.flying, hw, hm, hq]

theorem Mover.flying_congr (v : Mover) (i : StreamId) {c c' : StreamCtx} (h : c'.queue.head? = c.queue.head?) :
    v.flying i c' = v.flying i c := by
  simp only [Mover.flying, h]

/-- A posting that the move does not serve has no word in flight. -/
theorem Mover.flying_eq_none {v : Mover} {i : StreamId} {c : StreamCtx}
    (h : ∀ m, v.move = some m → ¬ (m.stream = i ∧ c.HeadIs m.posting)) : v.flying i c = none := by
  simp only [Mover.flying]
  split
  · rename_i w m d hw hm hd
    obtain ⟨rest, hq⟩ := List.head?_eq_some_iff.1 hd
    exact if_neg fun ⟨hi, hp⟩ => h m hm ⟨hi, d, rest, hq, hp.symm⟩
  · rfl

theorem StreamCtx.Turns.headLaw {c c' : StreamCtx} {v : Mover} {i : StreamId} (t : c.Turns c') (hl : c.OffLaw)
    (h : c.HeadLaw (v.flying i c)) : c'.HeadLaw (v.flying i c') := by
  have both : c'.OffLaw ∧ c'.HeadLaw (v.flying i c') := by
    induction t with
    | refl => exact ⟨hl, h⟩
    | tail _ k ih =>
      refine ⟨k.offLaw ih.1, ?_⟩
      rcases k.head ih.1 with ⟨hq, hfresh⟩ | hkeeps
      · exact hfresh.headLaw_of_empty hq _
      · rw [v.flying_congr i hkeeps.head]
        exact hkeeps.headLaw ih.2
  exact both.2

/-- A POST: a new head has no progress, and no word is in flight for it (R90, R94). -/
theorem StreamCtx.HeadLaw.withPost {c : StreamCtx} {v : Mover} {i : StreamId} {d : Descriptor}
    (h : c.HeadLaw (v.flying i c)) (hw : c.WidthInRange) (hd : 1 ≤ d.length ∧ d.length ≤ 4096)
    (hnew : ∀ m, v.move = some m → m.posting < d.posting) :
    (c.withPost d).HeadLaw (v.flying i (c.withPost d)) := by
  obtain ⟨hlen, hempty, hprogress⟩ := h
  have hlen' : ∀ e ∈ c.queue ++ [d], 1 ≤ e.length ∧ e.length ≤ 4096 := fun e he => by
    rcases List.mem_append.1 he with he | he
    · exact hlen e he
    · cases List.mem_singleton.1 he
      exact hd
  cases hq : c.queue with
  | nil =>
    have hfresh : (c.withPost d).Fresh := hempty hq
    have hnone : v.flying i (c.withPost d) = none := Mover.flying_eq_none fun m hm ⟨_, e, rest, he, hp⟩ => by
      have hqueue : c.queue ++ [d] = e :: rest := he
      rw [hq] at hqueue
      cases hqueue
      exact absurd hp (Nat.ne_of_gt (hnew m hm))
    rw [hnone]
    exact hfresh.headLaw hw hlen'
  | cons e rest =>
    have hqueue : (c.withPost d).queue = e :: (rest ++ [d]) := congrArg (· ++ [d]) hq
    rw [v.flying_congr i (c := c) (by rw [hqueue, hq]; rfl)]
    refine ⟨hlen', fun hnil => ?_, fun cfg d' rest' hc hd' => ?_⟩
    · rw [hqueue] at hnil
      cases hnil
    · cases hqueue.symm.trans hd'
      exact hprogress cfg e rest hc hq

/-! ### A word fetched (R92, R109 to R111) -/

/-- A packed word completes every sample whose bits are all there (R110). -/
theorem StreamCtx.fed_packed {c : StreamCtx} {cfg : StreamConfig} {d : Descriptor} (w : Word)
    (hp : cfg.packing = .packed) (hless : (c.fed cfg d w).samplesDone < d.length) :
    (c.fed cfg d w).samplesDone = c.samplesDone + (c.residual.length + 16) / cfg.width
    ∧ (c.fed cfg d w).residual.length = (c.residual.length + 16) % cfg.width := by
  have hcompletes : cfg.completes c.residual.length c.wordsDone (d.length - c.samplesDone)
      = min ((c.residual.length + 16) / cfg.width) (d.length - c.samplesDone) := by
    simp only [StreamConfig.completes, hp]
  have hsamples : (c.fed cfg d w).samplesDone
      = c.samplesDone + min ((c.residual.length + 16) / cfg.width) (d.length - c.samplesDone) := by
    rw [← hcompletes, ← cfg.length_unpack c.residual c.wordsDone _ w]
    rfl
  have hall : min ((c.residual.length + 16) / cfg.width) (d.length - c.samplesDone)
      = (c.residual.length + 16) / cfg.width := by omega
  have hres : (c.fed cfg d w).residual.length
      = c.residual.length + 16 - (c.residual.length + 16) / cfg.width * cfg.width := by
    simp only [StreamCtx.fed, StreamConfig.unpack, hp, length_cutSamples_rest, hcompletes, hall, List.length_append,
      length_bitsOf]
  have hdiv := Nat.div_add_mod' (c.residual.length + 16) cfg.width
  exact ⟨hall ▸ hsamples, by omega⟩

theorem StreamCtx.FetchProgress.fed {c : StreamCtx} {cfg : StreamConfig} {d : Descriptor} (w : Word)
    (h : c.FetchProgress cfg d) (hw : cfg.WidthInRange) (hless : (c.fed cfg d w).samplesDone < d.length) :
    (c.fed cfg d w).FetchProgress cfg d := by
  obtain ⟨hres, -, hwords, hagree⟩ := h
  obtain ⟨h4, -, -⟩ := hw
  have hdone : (c.fed cfg d w).wordsDone = c.wordsDone + 1 := rfl
  cases hp : cfg.packing with
  | packed =>
    simp only [hp] at hagree
    obtain ⟨hs, hr⟩ := StreamCtx.fed_packed w hp hless
    have hbits := (cfg.footprint_bounds d.length).1
    simp only [StreamConfig.sampleSize, hp] at hbits
    have hlt : (c.fed cfg d w).residual.length < cfg.width := hr ▸ Nat.mod_lt _ (by omega)
    have heq : 16 * (c.wordsDone + 1) = (c.fed cfg d w).samplesDone * cfg.width + (c.fed cfg d w).residual.length := by
      have hdiv := Nat.div_add_mod' (c.residual.length + 16) cfg.width
      rw [hs, hr, Nat.add_mul]
      omega
    have hnext : (c.fed cfg d w).samplesDone * cfg.width + cfg.width ≤ d.length * cfg.width := by
      rw [← Nat.succ_mul]
      exact Nat.mul_le_mul_right _ hless
    exact ⟨hlt, hless, by omega, by simp only [hp]; omega⟩
  | word =>
    simp only [hp] at hagree
    have hs : (c.fed cfg d w).samplesDone = c.samplesDone + 1 := by simp [StreamCtx.fed, StreamConfig.unpack, hp]
    have hr : (c.fed cfg d w).residual = [] := by simp [StreamCtx.fed, StreamConfig.unpack, hp]
    rw [hs] at hless
    have hend : cfg.footprint d.length = d.length := by simp only [StreamConfig.footprint, hp]
    exact ⟨by simp only [hr, List.length_nil]; omega, hs ▸ hless, by omega, by simp only [hp]; exact ⟨by omega, hr⟩⟩
  | pair =>
    simp only [hp, StreamConfig.footprint] at hagree hwords
    simp only [StreamCtx.FetchProgress, hp, hdone, StreamConfig.footprint]
    by_cases heven : c.wordsDone % 2 = 0
    · have hs : (c.fed cfg d w).samplesDone = c.samplesDone := by simp [StreamCtx.fed, StreamConfig.unpack, hp, heven]
      have hr : (c.fed cfg d w).residual.length = cfg.width - 16 := by
        simp [StreamCtx.fed, StreamConfig.unpack, hp, heven]
      have hodd : (c.wordsDone + 1) % 2 ≠ 0 := by omega
      rw [if_neg hodd, hr]
      omega
    · have hs : (c.fed cfg d w).samplesDone = c.samplesDone + 1 := by
        simp [StreamCtx.fed, StreamConfig.unpack, hp, heven]
      have hr : (c.fed cfg d w).residual.length = 0 := by simp [StreamCtx.fed, StreamConfig.unpack, hp, heven]
      have hodd : (c.wordsDone + 1) % 2 = 0 := by omega
      rw [if_pos hodd, hr]
      omega

/-- The head returned leaves no progress (R94). -/
theorem StreamCtx.HeadLaw.nextHead {c : StreamCtx} {d : Descriptor} {rest : List Descriptor}
    (hlen : ∀ e ∈ c.queue, 1 ≤ e.length ∧ e.length ≤ 4096) (hw : c.WidthInRange) (hq : c.queue = d :: rest) :
    (c.nextHead d rest).HeadLaw none :=
  StreamCtx.Fresh.headLaw ⟨rfl, rfl, rfl⟩ hw fun e he => hlen e (hq ▸ List.mem_cons_of_mem d he)

theorem StreamCtx.HeadLaw.fetchWord {c : StreamCtx} {cfg : StreamConfig} {d : Descriptor} {rest : List Descriptor}
    {f : Option Nat} (h : c.HeadLaw f) (hw : c.WidthInRange) (hc : c.cfg = some cfg) (hq : c.queue = d :: rest)
    (hdir : cfg.direction = .tx) (i : StreamId) (frame : BitVec 16) (w : Word) :
    (c.fetchWord i frame w).1.HeadLaw none := by
  obtain ⟨hlen, -, hprogress⟩ := h
  have hnext : ((c.fed cfg d w).nextHead d rest).HeadLaw none := .nextHead (by exact hlen) hw hq
  rw [StreamCtx.fetchWord_fst hc hq]
  split
  · split
    · exact (StreamCtx.endReached_keepsHead _).headLaw hnext
    · exact hnext
  · rename_i hless
    refine ⟨hlen, fun hnil => absurd (hq.symm.trans hnil) (by simp), fun cfg' d' rest' hc' hq' => ?_⟩
    cases hc.symm.trans hc'
    cases hq.symm.trans hq'
    refine ⟨fun _ => ((hprogress cfg d rest hc hq).1 hdir).fed w (hw cfg hc) (Nat.lt_of_not_le hless), fun hrx => ?_⟩
    exact absurd (hdir.symm.trans hrx) (by decide)

/-! ### A word stored (R93, R96, R115) -/

/-- A stored word that leaves the head at work: it was no padded word of a head at its end. -/
theorem StreamCtx.StoreProgress.stored {c : StreamCtx} {cfg : StreamConfig} {d : Descriptor} {u : Nat}
    (h : c.StoreProgress cfg d (some u))
    (hopen : ¬ (d.length ≤ c.samplesDone + u ∧ cfg.footprint d.length ≤ c.wordsDone + 1))
    (hflush : ¬ (c.flushing = true ∧ c.fifo = [] ∧ c.residual = [])) (hsize : 0 < cfg.sampleSize) :
    (c.stored u).StoreProgress cfg d none := by
  obtain ⟨hlen, hword, hpair, htaken, hhanded, ⟨-, hf⟩ | ⟨-, hkept⟩⟩ := h
  · cases hf
  · simp only [Option.getD_some, Option.isSome_some, if_true] at htaken hhanded hkept
    obtain ⟨hlo, hhi⟩ := cfg.footprint_bounds d.length
    have hless : c.samplesDone + u < d.length → (c.samplesDone + u) * cfg.sampleSize < d.length * cfg.sampleSize :=
      fun hlt => Nat.mul_lt_mul_of_pos_right hlt hsize
    refine ⟨hlen, hword, hpair, htaken, hhanded, ?_⟩
    rcases hkept with heq | ⟨-, hempty, hlt, hle, hfull | hhalt | hgone⟩
    · refine .inr ⟨Nat.lt_of_le_of_ne hhanded fun hend => ?_, .inl heq⟩
      have hend' : c.wordsDone + 1 = cfg.footprint d.length := hend
      have hmore := hless (by omega)
      rw [hend'] at heq
      omega
    · exfalso
      rw [hfull] at hlt hle
      omega
    · exact .inl ⟨hhalt, rfl⟩
    · exact absurd ⟨hgone.1, hgone.2, hempty⟩ hflush

theorem StreamCtx.HeadLaw.storeWord {c : StreamCtx} {cfg : StreamConfig} {d : Descriptor} {rest : List Descriptor}
    {u : Nat} (h : c.HeadLaw (some u)) (hw : c.WidthInRange) (hc : c.cfg = some cfg) (hq : c.queue = d :: rest)
    (hdir : cfg.direction = .rx) (i : StreamId) (frame : BitVec 16) : (c.storeWord i frame u).1.HeadLaw none := by
  obtain ⟨hlen, -, hprogress⟩ := h
  have hnext : ((c.stored u).nextHead d rest).HeadLaw none := .nextHead (by exact hlen) hw hq
  rcases StreamCtx.storeWord_cases hc hq i frame u with ⟨heq, hopen, hflush⟩ | heq | heq
  · rw [heq]
    refine ⟨hlen, fun hnil => absurd (hq.symm.trans hnil) (by simp), fun cfg' d' rest' hc' hq' => ?_⟩
    cases hc.symm.trans hc'
    cases hq.symm.trans hq'
    refine ⟨fun htx => absurd (hdir.symm.trans htx) (by decide), fun _ => ?_⟩
    exact ((hprogress cfg d rest hc hq).2 hdir).stored hopen hflush (hw cfg hc).sampleSize_pos
  · rw [heq]
    exact hnext
  · rw [heq]
    exact StreamCtx.Fresh.headLaw ⟨rfl, rfl, rfl⟩ (by exact hw) (by exact hnext.1)

/-! ### A word lost, a word prepared (R114, R132) -/

/-- A halted stream may lose the word in flight (R132). -/
theorem StreamCtx.HeadLaw.lost {c : StreamCtx} {f : Option Nat} (h : c.HeadLaw f)
    (hhalt : f ≠ none → ∃ x, c.state = .halted x) : c.HeadLaw none := by
  cases f with
  | none => exact h
  | some u =>
    obtain ⟨hlen, hempty, hprogress⟩ := h
    refine ⟨hlen, hempty, fun cfg d rest hc hq => ⟨(hprogress cfg d rest hc hq).1, fun hdir => ?_⟩⟩
    obtain ⟨hres, hword, hpair, htaken, hhanded, -⟩ := (hprogress cfg d rest hc hq).2 hdir
    simp only [Option.getD_some, Option.isSome_some, if_true] at htaken hhanded
    refine ⟨hres, hword, hpair, ?_, ?_, .inl ⟨hhalt nofun, rfl⟩⟩
    · exact Nat.le_trans (Nat.le_add_right _ _) htaken
    · exact Nat.le_trans (Nat.le_add_right _ _) hhanded

/-- The bits the takes of a preparation leave, and how the samples taken were counted (R114, R115). -/
theorem takeSamples_bits {cfg : StreamConfig} (hw : cfg.WidthInRange) (m : Nat) (r : List Bool) (fifo : List Sample) :
    ∃ k, k ≤ m ∧ (takeSamples cfg m r fifo).2.2.1 + (takeSamples cfg m r fifo).2.2.2 = k
      ∧ (takeSamples cfg m r fifo).2.2.2 ≤ 1
      ∧ (takeSamples cfg m r fifo).1.length = r.length + k * cfg.sampleSize
      ∧ (0 < k → r.length + (k - 1) * cfg.sampleSize < 16) := by
  obtain ⟨k, u, hm, hfifo, hu, hu1, heq, hbefore, -, -⟩ := takeSamples_taken cfg m r fifo
  have hlen : ∀ j, j ≤ fifo.length →
      (r ++ (fifo.take j).flatMap cfg.sampleBits).length = r.length + j * cfg.sampleSize := fun j hj => by
    rw [List.length_append, hw.length_flatMap_sampleBits, List.length_take, Nat.min_eq_left hj]
  refine ⟨k, hm, ?_⟩
  rw [heq]
  refine ⟨Nat.sub_add_cancel hu, hu1, hlen k hfifo, fun hk => ?_⟩
  rw [← hlen (k - 1) (by omega)]
  exact hbefore (k - 1) (by omega)

/-- The bits left when a word of 16 has been handed over, with `r` bits before and `k` samples taken (R113, R114). -/
theorem StreamConfig.WidthInRange.left_bits {cfg : StreamConfig} (hw : cfg.WidthInRange) {r k n : Nat} (hr : r ≤ 23)
    (hword : cfg.packing = .word → r = 0) (hpair : cfg.packing = .pair → r = 0 ∨ r = 16)
    (hbefore : 0 < k → r + (k - 1) * cfg.sampleSize < 16) (hn : 16 + n = r + k * cfg.sampleSize) :
    n ≤ 23 ∧ (cfg.packing = .word → n = 0) ∧ (cfg.packing = .pair → n = 0 ∨ n = 16) := by
  obtain ⟨-, h24, -⟩ := hw
  cases hp : cfg.packing with
  | packed =>
    simp only [StreamConfig.sampleSize, hp] at hbefore hn
    refine ⟨?_, nofun, nofun⟩
    cases k with
    | zero => omega
    | succ j =>
      have hj := hbefore (Nat.succ_pos j)
      rw [Nat.succ_mul] at hn
      rw [Nat.succ_sub_one] at hj
      omega
  | word =>
    have hr0 := hword hp
    simp only [StreamConfig.sampleSize, hp] at hbefore hn
    exact ⟨by omega, fun _ => by omega, nofun⟩
  | pair =>
    have hr16 := hpair hp
    simp only [StreamConfig.sampleSize, hp] at hbefore hn
    exact ⟨by omega, nofun, fun _ => by omega⟩

/-- A word prepared: a full one, or a padded one when the head's last sample is taken or a flush has emptied the FIFO
(R114). -/
theorem StreamCtx.prepare_cases {c c' : StreamCtx} {cfg : StreamConfig} {d : Descriptor} {w : Word} {u : Nat}
    (hp : c.prepare cfg d = some (c', w, u)) :
    ∃ r fifo n, takeSamples cfg (d.length - c.samplesDone) c.residual c.fifo = (r, fifo, n, u)
      ∧ c' = { c with fifo := fifo, samplesDone := c.samplesDone + n, residual := c'.residual }
      ∧ (16 ≤ r.length ∧ c'.residual = r.drop 16
        ∨ 0 < r.length ∧ r.length < 16 ∧ c'.residual = []
          ∧ (d.length - c.samplesDone ≤ n + u ∨ c.flushing = true ∧ fifo = [])) := by
  simp only [StreamCtx.prepare] at hp
  split at hp
  · split at hp
    · rename_i hfull
      cases hp
      exact ⟨_, _, _, rfl, rfl, .inl ⟨hfull, rfl⟩⟩
    · rename_i hshort
      split at hp
      · rename_i hpad
        cases hp
        exact ⟨_, _, _, rfl, rfl, .inr ⟨List.length_pos_of_ne_nil hpad.1, Nat.lt_of_not_le hshort, rfl, hpad.2⟩⟩
      · cases hp
  · cases hp

/-- The word prepared and the bits left hold the samples taken, but for the zeros of a padded word. -/
theorem StreamCtx.StoreProgress.prepared {c c' : StreamCtx} {cfg : StreamConfig} {d : Descriptor} {w : Word} {u : Nat}
    (h : c.StoreProgress cfg d none) (hw : cfg.WidthInRange) (hlive : ∀ x, c.state ≠ .halted x)
    (hp : c.prepare cfg d = some (c', w, u)) : c'.StoreProgress cfg d (some u) ∧ u ≤ 1 := by
  obtain ⟨hlen, hword, hpair, htaken, -, ⟨⟨x, hx⟩, -⟩ | ⟨hfoot, heq | ⟨hf, -⟩⟩⟩ := h
  · exact absurd hx (hlive x)
  · simp only [Option.getD_none, Option.isSome_none, Bool.false_eq_true, if_false, Nat.add_zero] at htaken heq
    obtain ⟨r, fifo, n, htake, hc', hcases⟩ := StreamCtx.prepare_cases hp
    obtain ⟨k, hk, hcount, hu, hbits, hbefore⟩ := takeSamples_bits hw (d.length - c.samplesDone) c.residual c.fifo
    simp only [htake] at hcount hu hbits
    have hdone : c'.samplesDone + u = c.samplesDone + k := by
      rw [hc', ← hcount]
      exact Nat.add_assoc _ _ _
    have hwords : c'.wordsDone = c.wordsDone := by rw [hc']
    have hall : (c.samplesDone + k) * cfg.sampleSize = 16 * c.wordsDone + r.length := by
      rw [Nat.add_mul, ← heq, hbits, Nat.add_assoc]
    refine ⟨?_, hu⟩
    simp only [StreamCtx.StoreProgress, Option.getD_some, Option.isSome_some, if_true, hdone, hwords, hall]
    rcases hcases with ⟨hfull, hres⟩ | ⟨hpos, hshort, hres, hlast⟩
    · have hleft : 16 + c'.residual.length = r.length := by
        rw [hres, List.length_drop]
        omega
      obtain ⟨h23, hword', hpair'⟩ := hw.left_bits hlen (fun k => by simp [hword k]) hpair hbefore (hleft.trans hbits)
      exact ⟨h23, fun k => List.eq_nil_of_length_eq_zero (hword' k), hpair', by omega, hfoot,
        .inr ⟨hfoot, .inl (by omega)⟩⟩
    · simp only [hres, List.length_nil]
      refine ⟨Nat.zero_le _, fun _ => trivial, fun _ => .inl trivial, by omega, hfoot,
        .inr ⟨hfoot, .inr ⟨trivial, trivial, by omega, by omega, ?_⟩⟩⟩
      rcases hlast with hend | hflush
      · exact .inl (by omega)
      · refine .inr (.inr ?_)
        rw [hc']
        exact hflush
  · cases hf

end Sys2Proof.Machine
end

section
/-! PROOFS. The head progress of the whole block (R92, R93, R96, R109, R113, R115): every act keeps it, and so does
every step, which settles O56. -/

namespace Sys2Proof.Machine

/-! ### With no word in flight -/

/-- The law of every head when no word is in flight. -/
def State.HeadsFree (s : State) : Prop := ∀ i, (s.stream i).HeadLaw none

theorem State.headWord_of_idle {s : State} (h : s.mover.inFlight = none) (i : StreamId) : s.headWord i = none := by
  simp only [State.headWord, h]

theorem State.HeadLaw.of_idle {s : State} (h : s.HeadsFree) (hfly : s.mover.inFlight = none) : s.HeadLaw := by
  refine ⟨fun w hw => ?_, fun i => ?_⟩
  · rw [hfly] at hw
    cases hw
  · rw [State.headWord_of_idle hfly]
    exact h i

theorem State.HeadLaw.free {s : State} (h : s.HeadLaw) (hfly : s.mover.inFlight = none) : s.HeadsFree := fun i =>
  State.headWord_of_idle hfly i ▸ h.2 i

theorem State.endTenure_headLaw {s : State} (h : s.HeadsFree) : s.endTenure.HeadLaw := .of_idle h rfl

/-! ### A word started (R126 to R128) -/

theorem State.launch_headWord {s : State} {m : Move} {d : Descriptor} {rest : List Descriptor} (w : Word) (u : Nat)
    (hq : (s.stream m.stream).queue = d :: rest) (hp : d.posting = m.posting) :
    (s.launch m w u).headWord m.stream = some u := by
  rw [State.headWord_eq, State.stream_launch]
  simp [Mover.flying, State.launch, hq, hp]

theorem State.launch_headWord_other {s : State} {m : Move} {i : StreamId} (w : Word) (u : Nat) (hi : i ≠ m.stream) :
    (s.launch m w u).headWord i = none := by
  rw [State.headWord_eq]
  refine Mover.flying_eq_none fun m' hm' ⟨hi', _⟩ => ?_
  cases hm'
  exact hi hi'.symm

/-- The progress of a transmit stream does not rest on the word in flight. -/
theorem StreamCtx.HeadLaw.of_tx {c : StreamCtx} {f g : Option Nat} (h : c.HeadLaw f)
    (hdir : c.cfg.map StreamConfig.direction = some .tx) : c.HeadLaw g := by
  obtain ⟨hlen, hempty, hprogress⟩ := h
  refine ⟨hlen, hempty, fun cfg d rest hc hq => ⟨(hprogress cfg d rest hc hq).1, fun hrx => ?_⟩⟩
  rw [hc, Option.map_some, hrx] at hdir
  cases hdir

/-- A word that the packer of a receive stream prepares (R114). -/
theorem StreamCtx.HeadLaw.prepared {c c' : StreamCtx} {cfg : StreamConfig} {d : Descriptor} {rest : List Descriptor}
    {w : Word} {u : Nat} (h : c.HeadLaw none) (hw : c.WidthInRange) (hc : c.cfg = some cfg) (hq : c.queue = d :: rest)
    (hdir : cfg.direction = .rx) (hmay : c.mayStore = true) (hp : c.prepare cfg d = some (c', w, u)) :
    c'.HeadLaw (some u) ∧ u ≤ 1 := by
  obtain ⟨hcfg, -, hqueue, -⟩ := StreamCtx.sameButTaken_fields (StreamCtx.prepare_spec hp).1
  obtain ⟨hlen, -, hprogress⟩ := h
  have hlive : ∀ x, c.state ≠ .halted x := fun x hx => by simp [StreamCtx.mayStore, hx] at hmay
  obtain ⟨hstore, hu⟩ := ((hprogress cfg d rest hc hq).2 hdir).prepared (hw cfg hc) hlive hp
  refine ⟨⟨hqueue ▸ hlen, fun hnil => ?_, fun cfg' d' rest' hc' hq' => ?_⟩, hu⟩
  · rw [hqueue, hq] at hnil
    cases hnil
  · rw [hcfg, hc] at hc'
    rw [hqueue, hq] at hq'
    cases hc'
    cases hq'
    exact ⟨fun htx => absurd (hdir.symm.trans htx) (by decide), fun _ => hstore⟩

theorem State.nextWord_headLaw {s t : State} {m : Move} (h : s.HeadsFree) (hw : s.WidthsInRange)
    (hdir : (s.stream m.stream).HeadIs m.posting → (s.stream m.stream).cfg.map StreamConfig.direction = some m.dir)
    (ht : s.nextWord m = some t) : t.HeadLaw := by
  obtain ⟨c, x, u, rfl, hsame, -, hleft, cfg, d, rest, hcfg, hq, hp, htx, hrx⟩ := State.nextWord_spec ht
  have hdir := hdir ⟨d, rest, hq, hp⟩
  have hstr : ∀ i, ((s.withStream m.stream c).launch m x u).stream i = if i = m.stream then c else s.stream i :=
    fun i => s.stream_withStream m.stream i c
  have hword : ((s.withStream m.stream c).launch m x u).headWord m.stream = some u := by
    obtain ⟨-, -, hqueue, -⟩ := StreamCtx.sameButTaken_fields hsame
    refine State.launch_headWord x u (d := d) (rest := rest) ?_ hp
    rw [s.stream_withStream m.stream m.stream c, if_pos rfl, hqueue, hq]
  have hserved : c.HeadLaw (some u) ∧ u ≤ 1 ∧ (m.dir = .tx → u = 0) := by
    cases hd : m.dir with
    | tx =>
      obtain ⟨rfl, hroom⟩ := htx hd
      have hlaunched := (State.nextWord_tx hcfg hq ⟨hp, hleft⟩ hd hroom).symm.trans ht
      have hu : u = 0 := by
        simp only [State.launch, Option.some.injEq, State.mk.injEq, Mover.mk.injEq, InFlight.mk.injEq] at hlaunched
        omega
      exact ⟨(h m.stream).of_tx (hd ▸ hdir), hu ▸ Nat.zero_le 1, fun _ => hu⟩
    | rx =>
      obtain ⟨hmay, hprep⟩ := hrx hd
      rw [hcfg, hd] at hdir
      obtain ⟨hlaw, hu⟩ := (h m.stream).prepared (hw m.stream) hcfg hq (Option.some.inj hdir) hmay hprep
      exact ⟨hlaw, hu, nofun⟩
  refine ⟨fun w hw => ?_, fun i => ?_⟩
  · cases hw
    exact hserved.2
  · rw [hstr]
    split
    · rename_i hi
      rw [hi, hword]
      exact hserved.1
    · rename_i hi
      rw [State.launch_headWord_other x u hi]
      exact h i

theorem State.chooseMove_headLaw {s : State} (h : s.HeadsFree) (hw : s.WidthsInRange) : s.chooseMove.HeadLaw := by
  simp only [State.chooseMove]
  split
  · exact State.endTenure_headLaw h
  · split
    · exact State.endTenure_headLaw h
    · rename_i i hchoice m hm
      split
      · rename_i t ht
        obtain ⟨rfl, cfg, d, rest, hc, -, hdir, -⟩ := State.moveFor_spec hm
        refine State.nextWord_headLaw (by exact h) (by exact hw) (fun _ => ?_) ht
        rw [hc, hdir]
        rfl
      · exact State.endTenure_headLaw h

theorem State.beginTenure_headLaw {s : State} (h : s.HeadsFree) (hw : s.WidthsInRange) : s.beginTenure.HeadLaw := by
  simp only [State.beginTenure]
  split
  · exact State.endTenure_headLaw h
  · exact State.chooseMove_headLaw h hw

theorem State.goOn_headLaw {s : State} {m : Move} (h : s.HeadsFree) (hw : s.WidthsInRange)
    (hdir : (s.stream m.stream).HeadIs m.posting → (s.stream m.stream).cfg.map StreamConfig.direction = some m.dir) :
    (s.goOn m).HeadLaw := by
  simp only [State.goOn]
  split
  · exact State.endTenure_headLaw h
  · split
    · rename_i t ht
      exact State.nextWord_headLaw h hw hdir ht
    · exact State.chooseMove_headLaw h hw

/-! ### The laws together -/

/-- The progress of the heads with the laws it rests on. -/
structure State.ProgressSound (s : State) : Prop where
  sound : s.SoundLaw
  mover : s.mover.Law
  widths : s.WidthsInRange
  heads : s.HeadLaw

/-- Outside HOLDING no word is in flight (R118). -/
theorem State.ProgressSound.free {s : State} (h : s.ProgressSound) (hbus : s.mover.bus ≠ .holding) : s.HeadsFree :=
  h.heads.free (h.mover.holds_nothing hbus).2.1

theorem State.pollMover_headLaw {s : State} (h : s.ProgressSound) : s.pollMover.HeadLaw := by
  simp only [State.pollMover]
  split
  · rename_i hidle
    split
    · exact State.beginTenure_headLaw (h.free (by simp [hidle.1])) h.widths
    · exact h.heads
  · exact h.heads

theorem State.grant_headLaw {s : State} (h : s.ProgressSound) : s.grant.HeadLaw := by
  simp only [State.grant]
  split
  · rename_i hbus
    exact State.beginTenure_headLaw (h.free (by simp [hbus])) h.widths
  · exact h.heads

theorem State.yieldBus_headLaw {s : State} (h : s.HeadLaw) : s.yieldBus.HeadLaw := by
  simp only [State.yieldBus]
  split
  · split
    · exact h
    · rename_i hnone
      exact State.endTenure_headLaw (h.free (by simpa using hnone))
  · exact h

theorem State.grantLow_headLaw {s : State} (h : s.HeadLaw) : s.grantLow.HeadLaw := by
  simp only [State.grantLow]
  split
  · exact h
  · exact State.yieldBus_headLaw h
  · exact h
  · exact h

/-! ### A word completed, a word lost -/

theorem State.takeWord_headsFree {s : State} {m : Move} {w : InFlight} (h : s.ProgressSound)
    (hm : s.mover.move = some m) (hw : s.mover.inFlight = some w) (data : Word) :
    (s.takeWord m w data).HeadsFree := by
  intro i
  rw [State.takeWord_stream]
  split
  · rename_i hi
    obtain ⟨cfg, d, rest, hc, hq, -, hcd, -⟩ := h.sound.2.serving hm hi.2
    obtain ⟨-, -, hdir⟩ := h.sound.2 m hm
    have hlaw := h.heads.2 m.stream
    have hword : s.headWord m.stream = some w.uncounted := by simp [State.headWord, hw, hi.2]
    rw [hword] at hlaw
    split
    · rename_i htx
      exact hlaw.fetchWord (h.widths _) hc hq (hcd.trans ((hdir w hw).symm.trans htx)) _ _ _
    · rename_i hrx
      exact hlaw.storeWord (h.widths _) hc hq (hcd.trans ((hdir w hw).symm.trans hrx)) _ _
  · rename_i hi
    have hnone : s.headWord i = none := by
      rw [State.headWord_eq]
      refine Mover.flying_eq_none fun m' hm' ⟨hi', hhead⟩ => hi ?_
      cases hm.symm.trans hm'
      exact ⟨hi'.symm, (State.servesHead_iff hm m.stream).2 ⟨rfl, hi' ▸ hhead⟩⟩
    exact hnone ▸ h.heads.2 i

theorem State.completeWord_headLaw {s : State} (h : s.ProgressSound) (x : Option Word) : (s.completeWord x).HeadLaw := by
  simp only [State.completeWord]
  split
  · rename_i m w hm hw
    have hfree := State.takeWord_headsFree h hm hw (s.fetched w x)
    have hwidths := (s.takeWord_keepsLine m w (s.fetched w x)).widthsInRange h.widths
    have hdir := State.takeWord_direction h.sound hm w (s.fetched w x)
    exact State.goOn_headLaw (by exact hfree) (by exact hwidths) (by exact hdir)
  · exact h.heads

theorem State.Turns.headLaw {s t : State} (k : s.Turns t) (hs : s.StreamsSound) (h : s.HeadLaw) : t.HeadLaw := by
  refine ⟨k.mover ▸ h.1, fun i => ?_⟩
  have hlaw := h.2 i
  rw [State.headWord_eq] at hlaw ⊢
  rw [k.mover]
  exact (k.streams i).headLaw (hs i).off hlaw

theorem Mover.serves_of_flying {v : Mover} {i : StreamId} {c : StreamCtx} (h : v.flying i c ≠ none) :
    ∃ m, v.move = some m ∧ m.stream = i ∧ c.HeadIs m.posting := by
  by_contra hno
  exact h (Mover.flying_eq_none fun m hm hserves => hno ⟨m, hm, hserves⟩)

theorem StreamCtx.halted_of_idle {c : StreamCtx} (hoff : c.state ≠ .off) (hw : ¬ c.working = true) :
    ∃ x, c.state = .halted x := by
  cases hst : c.state with
  | off => exact absurd hst hoff
  | halted x => exact ⟨x, rfl⟩
  | _ => simp [StreamCtx.working, hst] at hw

/-- The stream of the word halts, or was halted, so it may lose the word (R132). -/
theorem State.faultWord_headLaw {s : State} (h : s.ProgressSound) : s.faultWord.HeadLaw := by
  simp only [State.faultWord]
  split
  · rename_i m w hm hw
    refine State.endTenure_headLaw fun i => ?_
    split
    · rename_i hworking
      generalize hraised : s.raiseAll [.busFault m.stream s.line.frame w.addr] = r at hworking ⊢
      have hr : r.StreamsSound ∧ r.HeadLaw ∧ r.mover.move = some m := hraised ▸ ⟨h.sound.1, h.heads, hm⟩
      have k := r.haltCascade_turns m.stream .busFault
      have hlaw := (k.headLaw hr.1 hr.2.1).2 i
      refine hlaw.lost fun hfly => ?_
      rw [State.headWord_eq, k.mover] at hfly
      obtain ⟨m', hm', rfl, -⟩ := Mover.serves_of_flying hfly
      cases hr.2.2.symm.trans hm'
      obtain ⟨hhalted, -⟩ := r.haltCascade_spec m.stream .busFault hworking
      exact ⟨.busFault, by rw [hhalted, if_pos rfl]⟩
    · rename_i hidle
      refine StreamCtx.HeadLaw.lost (h.heads.2 i) fun hfly => ?_
      rw [State.headWord_eq] at hfly
      obtain ⟨m', hm', rfl, hhead⟩ := Mover.serves_of_flying hfly
      cases hm.symm.trans hm'
      obtain ⟨-, -, -, -, -, hoff, -⟩ := h.sound.2.serving hm ((State.servesHead_iff hm m.stream).2 ⟨rfl, hhead⟩)
      exact StreamCtx.halted_of_idle hoff hidle
  · exact h.heads

/-! ### Every act -/

theorem State.post_headLaw {s : State} {i : StreamId} {d : Descriptor} (n : Nat) (h : s.ProgressSound)
    (hcfg : (s.stream i).cfg ≠ none) (htakes : (s.stream i).takesPost = true) (hd : d.posting = s.nextPosting)
    (hlen : 1 ≤ d.length ∧ d.length ≤ 4096) :
    State.HeadLaw { s.putStream i ((s.stream i).enqueue d n) with nextPosting := s.nextPosting + 1 } := by
  have hstr : ∀ j, (s.putStream i ((s.stream i).enqueue d n)).stream j
      = if j = i then (s.stream i).enqueue d n else s.stream j := fun j => s.stream_putStream i j _
  refine ⟨h.heads.1, fun j => ?_⟩
  rw [State.headWord_eq]
  have hlaw := h.heads.2 j
  rw [State.headWord_eq] at hlaw
  refine (congrArg (fun c : StreamCtx => c.HeadLaw (s.mover.flying j c)) (hstr j)).mpr ?_
  split
  · rename_i hj
    subst hj
    have hposted := hlaw.withPost (h.widths j) hlen fun m hm => hd ▸ (h.sound.2 m hm).1
    exact ((s.stream j).enqueue_turns d n).headLaw ((h.sound.1 j).withPost hcfg htakes hd).off hposted
  · exact hlaw

theorem State.Act.headLaw {s t : State} (k : s.Act t) (h : s.ProgressSound) : t.HeadLaw := by
  cases k with
  | turns k => exact k.headLaw h.sound.1 h.heads
  | post i d n hcfg htakes hd hlen => exact State.post_headLaw n h hcfg htakes hd hlen
  | pins | tenureMax | readyTimeout => exact h.heads
  | readyTick w hw hlt =>
    refine ⟨fun w' hw' => ?_, fun i => ?_⟩
    · cases hw'
      exact h.heads.1 w hw
    · have hlaw := h.heads.2 i
      simp only [State.headWord, hw] at hlaw
      exact hlaw
  | poll => exact State.pollMover_headLaw h
  | grant => exact State.grant_headLaw h
  | grantLow => exact State.grantLow_headLaw h.heads
  | yield => exact State.yieldBus_headLaw h.heads
  | complete x => exact State.completeWord_headLaw h x
  | fault => exact State.faultWord_headLaw h

theorem State.Acts.progressSound {s t : State} (k : s.Acts t) (h : s.ProgressSound) : t.ProgressSound := by
  induction k with
  | refl => exact h
  | tail _ a ih => exact ⟨a.soundLaw ih.sound, a.moverLaw ih.mover, a.widthsInRange ih.widths, a.headLaw ih⟩

/-! ### Every step -/

theorem exec_progressSound {c : Instr} {s t : State} (hmap : s.MapLaw) (h : s.ProgressSound)
    (hstep : exec c s = .next t) : t.ProgressSound := by
  by_cases hreset : c = .pinReset
  · have hsound := exec_soundLaw hmap h.sound hstep
    subst hreset
    cases hstep
    obtain ⟨-, -, -, -, -, hmover, -⟩ := lawsHoldAtReset
    have hctx : ∀ i, s.pinReset.stream i = .reset := State.stream_reset
    refine ⟨hsound, hmover, fun i => ?_, State.headLaw_reset⟩
    rw [hctx]
    nofun
  · by_cases hwrite : ∀ p x, c ≠ .registerWrite p x
    · obtain ⟨m, k⟩ := exec_rowTo hreset hwrite (fun _ => hmap) hstep
      exact k.progressSound ⟨h.sound, h.mover, h.widths, h.heads⟩
    · simp only [ne_eq, not_forall, not_not] at hwrite
      obtain ⟨p, x, rfl⟩ := hwrite
      cases hstep
      simp only [State.hostWrite]
      split
      · exact h
      · exact ⟨h.sound, h.mover, h.widths, h.heads⟩

/-- Settles O56: every row and every period is made of acts, and each act keeps the agreement of the streams with the
move, the Mover's items and the progress of the heads. -/
theorem everyStepKeepsTheStreams : Obligations.EveryStepKeepsTheStreams := by
  unfold Obligations.EveryStepKeepsTheStreams
  refine ⟨streamLaw_keptByStep, fun s t ⟨hline, hmover, hstream, hheads⟩ hstep => ?_⟩
  obtain ⟨hmap, hsound⟩ := s.streamLaw_iff.1 hstream
  have hprogress : s.ProgressSound := ⟨hsound, hmover, hline.widthsInRange, hheads⟩
  have hafter : t.ProgressSound := by
    simp only [step] at hstep
    split at hstep
    · cases hstep
      exact s.idle_acts.progressSound hprogress
    · rename_i c rest hp
      exact exec_progressSound (s := { s with pending := rest }) hmap ⟨hsound, hmover, hprogress.widths, hheads⟩ hstep
  exact ⟨everyStepKeepsLineAndConfigurations s t hline hstep, hafter.mover, streamLaw_keptByStep s t hstream hstep,
    hafter.heads⟩

end Sys2Proof.Machine
end

section
/-! PROOFS. The completion of a store (R96, R130): what it makes of the head, of a drain and of a flush, what the Mover
does next, and what is left alone (O38). -/

namespace Sys2Proof.Machine

/-! ### The Mover goes on (R121 to R129) -/

/-- Everything the Mover can do after a completion: the tenure ends, or a next word starts, with or without a new
choice. -/
theorem State.goOn_cases (s : State) (m : Move) : ∃ (i : StreamId) (o : Option Move),
    s.goOn m = State.endTenure { s with mover := { s.mover with pointer := i, move := o } }
    ∨ ∃ m', State.nextWord { s with mover := { s.mover with pointer := i, move := o } } m' = some (s.goOn m) := by
  simp only [State.goOn]
  split
  · exact ⟨s.mover.pointer, s.mover.move, .inl rfl⟩
  · split
    · rename_i t ht
      exact ⟨s.mover.pointer, s.mover.move, .inr ⟨m, ht⟩⟩
    · simp only [State.chooseMove]
      split
      · exact ⟨s.mover.pointer, s.mover.move, .inl rfl⟩
      · rename_i i hi
        refine ⟨i, none, ?_⟩
        split
        · exact .inl rfl
        · rename_i m' hm'
          split
          · rename_i t ht
            exact .inr ⟨m', ht⟩
          · exact .inl rfl

/-- The bus stays held or is given back, and the word count of the tenure stays (R121). -/
theorem State.goOn_mover {s : State} (m : Move) (hbus : s.mover.bus = .holding) :
    (s.goOn m).mover.bus ≠ .idle ∧ (s.goOn m).mover.wordCount = s.mover.wordCount := by
  obtain ⟨i, o, hend | ⟨m', hnext⟩⟩ := s.goOn_cases m
  · rw [hend]
    exact ⟨nofun, rfl⟩
  · obtain ⟨c, w, u, heq, -⟩ := State.nextWord_spec hnext
    rw [heq]
    exact ⟨by simp [hbus], rfl⟩

/-- A word is prepared for a stream that may store only (R128): any other stream keeps its context. -/
theorem State.nextWord_stream {s t : State} {m : Move} (h : s.nextWord m = some t) {j : StreamId}
    (hj : (s.stream j).mayStore = false) : t.stream j = s.stream j := by
  obtain ⟨c, w, u, rfl, -, -, -, cfg, d, rest, -, -, -, htx, hrx⟩ := State.nextWord_spec h
  rw [State.stream_launch, State.stream_withStream]
  split
  · rename_i hjm
    subst hjm
    cases hd : m.dir with
    | tx => exact (htx hd).1
    | rx => rw [(hrx hd).1] at hj; cases hj
  · rfl

theorem State.goOn_stream {s : State} (m : Move) {j : StreamId} (hj : (s.stream j).mayStore = false) :
    (s.goOn m).stream j = s.stream j := by
  obtain ⟨i, o, hend | ⟨m', hnext⟩⟩ := s.goOn_cases m
  · rw [hend]
    rfl
  · exact State.nextWord_stream hnext hj

/-! ### What follows from the change of the streams (R16, R139) -/

theorem State.settledLine_congr {s t : State} (hl : t.line = s.line) (hs : t.streams = s.streams) :
    t.settledLine = s.settledLine := by
  simp only [State.settledLine, State.cutShift, hl, State.stream_congr hs]
  split
  · exact hl
  · split
    · exact hl
    · rfl

theorem State.settledGroups_congr {s t : State} (hg : t.groups = s.groups) (hs : t.streams = s.streams) :
    t.settledGroups = s.settledGroups := by
  cases s
  cases t
  cases hg
  cases hs
  rfl

/-- A settle that asks for no bus is what follows from the change of the streams. -/
theorem State.FollowedBy.of_settle {s u : State} (hbus : u.mover.bus ≠ .idle) (hl : u.line = s.line)
    (hg : u.groups = s.groups) (hrest : u.resetLow = s.resetLow ∧ u.nextPosting = s.nextPosting
      ∧ u.freeIdx = s.freeIdx ∧ u.pending = s.pending) : s.FollowedBy u.settle := by
  have hquiet := u.settle_quiet (.inl hbus)
  have hs : u.settle.streams = u.streams := by rw [hquiet]
  obtain ⟨-, -, -, -, -, -, -, -, -, hline, hgroups⟩ := State.settle_fields { s with streams := u.settle.streams }
  refine ⟨?_, ?_, ?_⟩
  · rw [State.followed, hline, congrArg State.line hquiet]
    exact State.settledLine_congr hl hs.symm
  · rw [State.followed, hgroups, congrArg State.groups hquiet]
    exact State.settledGroups_congr hg hs.symm
  · rw [hquiet]
    exact hrest

/-- What a stream has taken is read from the Mover and from that stream. -/
theorem StreamCtx.NextWordTaken.congr {c : StreamCtx} {j : StreamId} {t u : State} (h : c.NextWordTaken j t)
    (hm : u.mover = t.mover) (hs : u.stream j = t.stream j) : c.NextWordTaken j u := by
  simp only [StreamCtx.NextWordTaken, hm, hs] at h ⊢
  exact h

/-! ### The store of a word and its stream (R56, R60, R96) -/

/-- The BUFFER_DONE of a full head, raised when it carries NOTIFY (R100). -/
def Descriptor.okRecords (d : Descriptor) (i : StreamId) (frame : BitVec 16) : List Record :=
  if d.notify then [.bufferDone i frame d.tag .ok d.length] else []

section
variable {c : StreamCtx} {cfg : StreamConfig} {d : Descriptor} {rest : List Descriptor} (hc : c.cfg = some cfg)
  (hq : c.queue = d :: rest) (i : StreamId) (frame : BitVec 16) (n : Nat)
include hq

/-- R100: the return of a full head. -/
theorem StreamCtx.returnHead_ok : (c.stored n).returnHead i frame .ok d.length
    = ((c.stored n).nextHead d rest, d.okRecords i frame) := by
  simp only [StreamCtx.returnHead, StreamCtx.stored, hq, Descriptor.okRecords, true_and]
  cases d.notify <;> rfl

include hc

/-- The completion of a store, with the stream's configuration and its head at hand. -/
theorem StreamCtx.storeWord_eq : c.storeWord i frame n =
    if d.length ≤ c.samplesDone + n ∧ cfg.footprint d.length ≤ c.wordsDone + 1 then
      match c.state with
      | .draining .stop _ => StreamCtx.drained ((c.stored n).returnHead i frame .ok d.length) i frame .stop
      | .draining .ended _ =>
        if d.endFlag then StreamCtx.drained ((c.stored n).returnHead i frame .ok d.length) i frame .ended
        else (c.stored n).returnHead i frame .ok d.length
      | .off | .armed _ _ | .running | .stopping | .halted _ => (c.stored n).returnHead i frame .ok d.length
    else if c.flushing = true ∧ c.fifo = [] ∧ c.residual = [] then
      StreamCtx.drained ((c.stored n).returnHead i frame .short (c.samplesDone + n)) i frame .stop
    else (c.stored n, []) := by
  rw [StreamCtx.storeWord]
  split
  · rename_i cfg' d' rest' hc' hq'
    cases hc.symm.trans hc'
    cases hq.symm.trans hq'
    rfl
  · rename_i hnone
    exact absurd hq (hnone cfg d rest hc)

section
variable (hopen : ¬ (d.length ≤ c.samplesDone + n ∧ cfg.footprint d.length ≤ c.wordsDone + 1))
include hopen

/-- A word that leaves the head at work is counted (R93, R115). -/
theorem StreamCtx.storeWord_counted (hmore : c.flushing = false ∨ c.fifo ≠ [] ∨ c.residual ≠ []) :
    c.storeWord i frame n = (c.stored n, []) := by
  have hkeep : ¬ (c.flushing = true ∧ c.fifo = [] ∧ c.residual = []) := fun ⟨hf, hx, hr⟩ => by
    simp [hf, hx, hr] at hmore
  rw [StreamCtx.storeWord_eq hc hq, if_neg hopen, if_neg hkeep]

/-- The word that empties a flush returns the head SHORT (R56). -/
theorem StreamCtx.storeWord_flushed (hf : c.flushing = true) (hx : c.fifo = []) (hr : c.residual = []) :
    c.storeWord i frame n = (((c.stored n).nextHead d rest).enterOff,
      [.bufferDone i frame d.tag .short (c.samplesDone + n), .streamStopped i frame .stop 0]) := by
  have hret : (c.stored n).returnHead i frame .short (c.samplesDone + n)
      = ((c.stored n).nextHead d rest, [.bufferDone i frame d.tag .short (c.samplesDone + n)]) := by
    simp only [StreamCtx.returnHead, StreamCtx.stored, hq, reduceCtorEq, false_and, if_false]
    rfl
  have hfifo : ((c.stored n).nextHead d rest).fifo = [] := hx
  rw [StreamCtx.storeWord_eq hc hq, if_neg hopen, if_pos ⟨hf, hx, hr⟩, hret, StreamCtx.drained, hfifo]
  rfl

end

section
variable (hfull : d.length ≤ c.samplesDone + n ∧ cfg.footprint d.length ≤ c.wordsDone + 1)
include hfull

/-- A full head returns OK, and the stream goes on (R96, R133). -/
theorem StreamCtx.storeWord_full (hf : c.flushing = false)
    (hend : ¬ ((∃ r, c.state = .draining .ended r) ∧ d.endFlag = true)) :
    c.storeWord i frame n = ((c.stored n).nextHead d rest, d.okRecords i frame) := by
  rw [StreamCtx.storeWord_eq hc hq, if_pos hfull, StreamCtx.returnHead_ok hq]
  cases hst : c.state with
  | draining k r =>
    cases k with
    | stop => simp [StreamCtx.flushing, hst] at hf
    | ended => exact if_neg fun he => hend ⟨⟨r, hst⟩, he⟩
  | off | armed _ _ | running | stopping | halted _ => rfl

/-- A full head that carries END ends the drain (R60). -/
theorem StreamCtx.storeWord_ended {r : Bool} (hst : c.state = .draining .ended r) (hend : d.endFlag = true) :
    c.storeWord i frame n = (((c.stored n).nextHead d rest).enterOff,
      d.okRecords i frame ++ [.streamStopped i frame .ended c.fifo.length]) := by
  rw [StreamCtx.storeWord_eq hc hq, if_pos hfull, StreamCtx.returnHead_ok hq, hst]
  exact if_pos hend

/-- A full head ends the flush (R56). -/
theorem StreamCtx.storeWord_filled (hf : c.flushing = true) :
    c.storeWord i frame n = (((c.stored n).nextHead d rest).enterOff,
      d.okRecords i frame ++ [.streamStopped i frame .stop c.fifo.length]) := by
  obtain ⟨r, hst⟩ := c.flushing_iff.1 hf
  rw [StreamCtx.storeWord_eq hc hq, if_pos hfull, StreamCtx.returnHead_ok hq, hst]
  rfl

end
end

/-! ### The completion of a store (R130) -/

/-- A store completed for the head of its stream: the stream and its records are the store's, memory has the word, and
the Mover goes on from there. -/
theorem exec_storeComplete {s : State} {m : Move} {w : InFlight} (x : Option Word) (hr : s.resetLow = false)
    (hbus : s.mover.bus = .holding) (hm : s.mover.move = some m) (hw : s.mover.inFlight = some w) (hdir : w.dir = .rx)
    (hserves : s.servesHead m.stream = true) {r : StreamCtx × List Record}
    (hstore : (s.stream m.stream).storeWord m.stream s.line.frame w.uncounted = r) :
    ∃ t, exec (.wordTransferComplete x) s = .next t
      ∧ t.mover.wordCount = s.mover.wordCount + 1 ∧ t.mem = storeMem w.addr.toNat w.word s.mem
      ∧ (∀ j, j ≠ m.stream → (s.stream j).NextWordTaken j t)
      ∧ r.1.NextWordTaken m.stream t ∧ (r.1.mayStore = false → t.stream m.stream = r.1)
      ∧ t.cq = s.cq.raiseAll r.2 ∧ t.free = s.free + (s.stream m.stream).queue.length - r.1.queue.length
      ∧ t.map = s.map ∧ t.win = s.win ∧ s.FollowedBy t := by
  obtain ⟨u, hu⟩ : ∃ u : State, u = { s.apply m.stream r with
      mem := storeMem w.addr.toNat w.word s.mem
      mover := { s.mover with wordCount := s.mover.wordCount + 1, inFlight := none } } := ⟨_, rfl⟩
  have hexec : exec (.wordTransferComplete x) s = .next (u.goOn m).settle := by
    refine congrArg Host.Outcome.next ((State.event_run hr _).trans (congrArg State.settle ?_))
    simp only [State.completeWord, hm, hw, State.takeWord, hserves, hdir, State.memAt, hstore, if_true, hu]
    rfl
  have hubus : u.mover.bus = .holding := by rw [hu]; exact hbus
  obtain ⟨hidle, hcount⟩ := State.goOn_mover m hubus
  obtain ⟨hline, hmap, hfree, hpost, hgroups, hcq, hwin, hreset, hmem, hidx, hpend⟩ := (u.goOn_act m).fields
  have hquiet := (u.goOn m).settle_quiet (.inl hidle)
  have hmover : (u.goOn m).settle.mover = (u.goOn m).mover := by rw [hquiet]
  have hstream : ∀ j, (u.goOn m).settle.stream j = (u.goOn m).stream j := State.stream_congr (by rw [hquiet])
  have htaken : ∀ j, (u.stream j).NextWordTaken j (u.goOn m).settle := fun j =>
    (u.goOn_taken m j).congr hmover (hstream j)
  have hsame : u.stream m.stream = r.1 := by rw [hu]; exact s.stream_apply_same m.stream r
  have hother : ∀ j, j ≠ m.stream → u.stream j = s.stream j := fun j hj => by
    rw [hu]
    exact (s.stream_apply m.stream j r).trans (if_neg hj)
  refine ⟨_, hexec, ?_, ?_, fun j hj => hother j hj ▸ htaken j, hsame ▸ htaken m.stream, fun hstop => ?_, ?_, ?_,
    ?_, ?_, .of_settle hidle ?_ ?_ ?_⟩
  · rw [hmover, hcount, hu]
  · rw [hquiet, hmem, hu]
  · rw [hstream, State.goOn_stream m (by rw [hsame]; exact hstop), hsame]
  · rw [hquiet, hcq, hu]
    rfl
  · rw [hquiet, hfree, hu]
    rfl
  · rw [hquiet, hmap, hu]
    rfl
  · rw [hquiet, hwin, hu]
    rfl
  · rw [hline, hu]
    rfl
  · rw [hgroups, hu]
    rfl
  · rw [hreset, hpost, hidx, hpend, hu]
    exact ⟨rfl, rfl, rfl, rfl⟩

/-- A stored word reads back at its address, and every other address keeps its word (R172, log 4). -/
theorem State.memoryWord_storeMem {s t : State} {a : Addr} {w : Word} (h : s.MemoryLaw)
    (ht : t.mem = storeMem a.toNat w s.mem) (b : Addr) : t.memoryWord b = if b = a then w else s.memoryWord b := by
  simp only [State.memoryWord, ht, loadMem_storeMem _ _ w h, BitVec.toNat_inj]
  split <;> rfl

/-- Settles O38: the stream is what the store makes of it, case by case, and the Mover goes on from there. -/
theorem storedWordCompletes : Obligations.StoredWordCompletes := by
  unfold Obligations.StoredWordCompletes
  intro s m w cfg d rest x hr hbus hm hw hdir _ hc _ hq hp c taken full returned off okRecord
  have hserves : s.servesHead m.stream = true := by
    simp only [State.servesHead, hm, hq, hp, and_self, decide_true]
  obtain ⟨t, hexec, hcount, hmem, hothers, htaken, hkept, hcq, hfree, hmap, hwin, hfollowed⟩ :=
    exec_storeComplete x hr hbus hm hw hdir hserves rfl
  have hone : s.free + (s.stream m.stream).queue.length - rest.length = s.free + 1 := by
    rw [hq, List.length_cons]
    omega
  refine ⟨t, hexec, hcount, hmem, fun hlaw a => State.memoryWord_storeMem hlaw hmem a, hothers,
    fun hfull hf hend => ?_, fun hfull ⟨r, hst⟩ hend => ?_, fun hfull hf => ?_, fun hopen hf hx hres => ?_,
    fun hopen hmore => ?_, hmap, hwin, hfollowed⟩
  · rw [StreamCtx.storeWord_full hc hq _ _ _ hfull hf hend] at htaken hcq hfree
    exact ⟨htaken, hcq, hfree.trans hone⟩
  · rw [StreamCtx.storeWord_ended hc hq _ _ _ hfull hst hend] at hkept hcq hfree
    exact ⟨hkept rfl, hfree.trans hone, hcq⟩
  · rw [StreamCtx.storeWord_filled hc hq _ _ _ hfull hf] at hkept hcq hfree
    exact ⟨hkept rfl, hfree.trans hone, hcq⟩
  · rw [StreamCtx.storeWord_flushed hc hq _ _ _ hopen hf hx hres] at hkept hcq hfree
    exact ⟨hkept rfl, hfree.trans hone, hcq⟩
  · rw [StreamCtx.storeWord_counted hc hq _ _ _ hopen hmore] at htaken hcq hfree
    exact ⟨htaken, hcq, hfree.trans (Nat.add_sub_cancel _ _)⟩

end Sys2Proof.Machine
end

section
/-! PROOFS. The stream commands: refused operands (O5), DECONFIGURE (O8), START (O10), STOP (O11), ABORT and CLEAR
(O12). -/

namespace Sys2Proof.Machine

/-! ### The operand of a command (R43, R140) -/

theorem streamOf_eq_none {arg : Byte} (h : 16 ≤ arg.toNat) : streamOf arg = none := dif_neg (Nat.not_lt.2 h)

theorem groupOf_eq_none {arg : Byte} (h : 4 ≤ arg.toNat) : groupOf arg = none := dif_neg (Nat.not_lt.2 h)

section
variable {s : State} {op arg : Byte} (hr : s.resetLow = false)
include hr

/-- A stream command with a number above 15 changes its result only (R43). -/
theorem State.runCommand_badStream {run : State → StreamId → Answer} (h : 16 ≤ arg.toNat) :
    s.runCommand op arg (fun s => s.forStream arg (run s)) = s.withResult op arg .badStream 0 :=
  State.runCommand_answer hr (by simp only [State.forStream, streamOf_eq_none h]; rfl)

/-- A group command with a number above 3 changes its result only (R140, R143, R144). -/
theorem State.runCommand_badGroup {run : State → GroupId → Answer} (h : 4 ≤ arg.toNat) :
    s.runCommand op arg (fun s => s.forGroup arg (run s)) = s.withResult op arg .badParam 0 :=
  State.runCommand_answer hr (by simp only [State.forGroup, groupOf_eq_none h]; rfl)

/-- A stream command of stream `i` answers what its meaning answers. -/
theorem State.runCommand_stream {u : State} {i : StreamId} {run : State → StreamId → Answer} {code : ResultCode}
    {n : Nat} (hi : arg.toNat = i.val) (h : run s i = (u, code, word n)) :
    s.runCommand op arg (fun s => s.forStream arg (run s)) = u.withResult op arg code n :=
  State.runCommand_answer hr (by simp only [State.forStream, streamOf_eq hi]; exact h)

end

/-- Settles O5. -/
theorem badOpcodeOrNumberIsRefused : Obligations.BadOpcodeOrNumberIsRefused := by
  unfold Obligations.BadOpcodeOrNumberIsRefused
  intro s arg hr
  have hstream : ∀ (op : Byte) (run : State → StreamId → Answer), 16 ≤ arg.toNat →
      Host.Outcome.next (s.runCommand op arg fun s => s.forStream arg (run s))
      = (.next (s.withResult op arg .badStream 0) : Outcome) :=
    fun _ _ h => congrArg _ (State.runCommand_badStream hr h)
  have hgroup : ∀ (op : Byte) (run : State → GroupId → Answer), 4 ≤ arg.toNat →
      Host.Outcome.next (s.runCommand op arg fun s => s.forGroup arg (run s))
      = (.next (s.withResult op arg .badParam 0) : Outcome) :=
    fun _ _ h => congrArg _ (State.runCommand_badGroup hr h)
  exact ⟨fun op => congrArg Host.Outcome.next (State.runCommand_answer hr rfl),
    fun h => ⟨hstream _ _ h, hstream _ _ h, hstream _ _ h, hstream _ _ h, hstream _ _ h, hstream _ _ h,
      hstream _ _ h⟩,
    fun h => ⟨hgroup _ _ h, hgroup _ _ h, hgroup _ _ h⟩⟩

/-! ### DECONFIGURE (R46) -/

/-- Who owns a slot is read from the line and the map. -/
theorem State.slotOwner_congr {s t : State} (hl : t.line = s.line) (hm : t.map = s.map) (slot : Nat) (d : Direction) :
    t.slotOwner slot d = s.slotOwner slot d := by
  simp only [State.slotOwner, hl, hm]

/-- From the next boundary no slot is an unconfigured stream's (R34, R15). -/
theorem BoundaryTo.slotOwner_unconfigured {t v : State} {own : List Record} {i : StreamId} (hb : BoundaryTo t v own)
    (hc : (t.stream i).cfg = none) (slot : Nat) (d : Direction) (w : Nat) : v.slotOwner slot d ≠ some (i, w) := by
  obtain ⟨hline, -⟩ := hb
  have hctx : (t.streams[i.val]'i.isLt).cfg = none := hc
  refine State.slotOwner_none ?_ slot d w
  rw [hline, Fin.getElem_fin]
  simp [hctx]

/-- An OFF stream with an empty queue loses its configuration, and with it its last sample sent (R39, R46). -/
theorem State.deconfigure_taken {s : State} {i : StreamId} (hoff : (s.stream i).state = .off)
    (hq : (s.stream i).queue = []) :
    s.deconfigure i = (s.withStream i { s.stream i with cfg := none, lastSample := none }).accept 0 := by
  have hidle : ¬ ((s.stream i).state ≠ .off ∨ (s.stream i).queue ≠ []) := by simp [hoff, hq]
  have hput := s.putStream_eq_withStream i ((s.stream i).reconfigure none) rfl
  simp only [State.deconfigure, if_neg hidle, hput]
  rfl

/-- Settles O8. -/
theorem deconfigureOutcome : Obligations.DeconfigureOutcome := by
  unfold Obligations.DeconfigureOutcome
  intro s i arg hr hi c
  refine ⟨fun hbusy => congrArg Host.Outcome.next (State.runCommand_stream hr hi (if_pos hbusy)), fun hoff hq => ?_⟩
  intro t
  have hnone : (t.stream i).cfg = none :=
    congrArg StreamCtx.cfg (s.stream_withStream_same i { c with cfg := none, lastSample := none })
  refine ⟨congrArg Host.Outcome.next (State.runCommand_stream hr hi (State.deconfigure_taken hoff hq)),
    State.slotOwner_congr rfl rfl, fun v own hb => hb.slotOwner_unconfigured hnone, fun hcfg hlast => ?_⟩
  have hsame : { c with cfg := none, lastSample := none } = s.stream i := by
    rw [← hcfg, ← hlast]
  simp only [t, hsame, State.withStream_self]

/-! ### START (R47, R48) -/

theorem StartMode.parse_eq_none {w4 w5 : Word} (h : 2 ≤ w4.toNat % 4) : StartMode.parse w4 w5 = none := by
  have hf : field w4 1 0 = w4.toNat % 4 := by simp [field]
  rw [StartMode.parse, hf]
  split
  · omega
  · omega
  · rfl

theorem StartMode.parse_eq_some {w4 w5 : Word} (h : w4.toNat % 4 ≤ 1) :
    StartMode.parse w4 w5 = some (if w4.toNat % 4 = 0 then .next else .at w5) := by
  have hf : field w4 1 0 = w4.toNat % 4 := by simp [field]
  obtain h0 | h1 : w4.toNat % 4 = 0 ∨ w4.toNat % 4 = 1 := by omega
  · simp only [StartMode.parse, hf, h0, if_true]
  · simp only [StartMode.parse, hf, h1, one_ne_zero, if_false]

/-- R47 check 6: only an AT start is late, with its target at the counter or behind it. -/
theorem StartMode.late_iff {n : Nat} (hn : n ≤ 1) (target frame : BitVec 16) :
    StartMode.late (if n = 0 then .next else .at target) frame = true
      ↔ n = 1 ∧ ((target - frame).toNat = 0 ∨ 32768 ≤ (target - frame).toNat) := by
  by_cases h0 : n = 0
  · rw [if_pos h0]
    simp [StartMode.late, h0]
  · rw [if_neg h0]
    have h1 : n = 1 := by omega
    simp only [StartMode.late, decide_eq_true_eq, h1, true_and]

section
variable {s : State} {i : StreamId} {cfg : StreamConfig} (hc : (s.stream i).cfg = some cfg)
include hc

theorem State.startStream_grouped {g : GroupId} (hg : cfg.group = some g) :
    s.startStream i = s.refuse .grouped g.val := by
  simp only [State.startStream, hc, hg]

variable (hg : cfg.group = none)
include hg

theorem State.startStream_notOff (hst : (s.stream i).state ≠ .off) : s.startStream i = s.refuse .state 0 := by
  simp only [State.startStream, hc, hg, if_pos hst]

variable (hoff : (s.stream i).state = .off)
include hoff

theorem State.startStream_badParam (hm : StartMode.parse (s.stageWord 4) (s.stageWord 5) = none) :
    s.startStream i = s.refuse .badParam 0 := by
  simp only [State.startStream, hc, hg, if_neg (not_not.2 hoff), hm]

/-- The last two checks, and the arming. -/
theorem State.startStream_mode {m : StartMode} (hm : StartMode.parse (s.stageWord 4) (s.stageWord 5) = some m) :
    s.startStream i = if (s.stream i).queue = [] then s.refuse .empty 0
      else if m.late s.line.frame then s.refuse .late s.line.frame.toNat
      else (s.withStream i ((s.stream i).arm m)).settle.accept 0 := by
  rw [← s.putStream_eq_withStream i ((s.stream i).arm m) rfl]
  simp only [State.startStream, hc, hg, if_neg (not_not.2 hoff), hm]

end

/-- Settles O10. -/
theorem startOutcome : Obligations.StartOutcome := by
  unfold Obligations.StartOutcome
  intro s i arg hr hi c code target mode answer late
  have hexec : ∀ {u code n}, s.startStream i = (u, code, word n) →
      exec (.start arg) s = .next (u.withResult 0x04 arg code n) := fun h =>
    congrArg Host.Outcome.next (State.runCommand_stream hr hi h)
  refine ⟨fun hc => hexec ?_, fun cfg hc => ⟨fun g hg => hexec (State.startStream_grouped hc hg),
    fun hg => ⟨fun hst => hexec (State.startStream_notOff hc hg hst),
      fun hoff h2 => hexec (State.startStream_badParam hc hg hoff (StartMode.parse_eq_none h2)), ?_⟩⟩⟩
  · have hc' : (s.stream i).cfg = none := hc
    simp only [State.startStream, hc']
    rfl
  · have hmode : ∀ hoff : c.state = .off, code ≤ 1 → _ := fun hoff h1 =>
      State.startStream_mode hc hg hoff (StartMode.parse_eq_some h1)
    refine ⟨fun hoff h1 hq => hexec ((hmode hoff h1).trans (if_pos hq)), fun hoff h1 hq hlate => ?_,
      fun hoff h1 hq hlate => ?_⟩
    · exact hexec ((hmode hoff h1).trans ((if_neg hq).trans (if_pos ((StartMode.late_iff h1 _ _).2 hlate))))
    · exact hexec ((hmode hoff h1).trans ((if_neg hq).trans (if_neg (mt (StartMode.late_iff h1 _ _).1 hlate))))

/-! ### STOP (R51, R52) -/

section
variable {s : State} {i : StreamId}

theorem State.stopStream_grouped {g : GroupId} (hg : (s.stream i).group? = some g) :
    s.stopStream i = s.refuse .grouped g.val := by
  simp only [State.stopStream, hg]

variable (hg : (s.stream i).group? = none)
include hg

theorem State.stopStream_refused (hst : (s.stream i).state = .off ∨ (s.stream i).state = .stopping
      ∨ (∃ k r, (s.stream i).state = .draining k r) ∨ ∃ h, (s.stream i).state = .halted h) :
    s.stopStream i = s.refuse .state 0 := by
  rcases hst with hst | hst | ⟨k, r, hst⟩ | ⟨h, hst⟩ <;> simp only [State.stopStream, hg, hst]

theorem State.stopStream_armed {m : StartMode} {e : Bool} (hst : (s.stream i).state = .armed m e) :
    s.stopStream i = (s.apply i ((s.stream i).stopArmed i s.line.frame)).settle.accept 1 := by
  simp only [State.stopStream, hg, hst]

theorem State.stopStream_served (hst : (s.stream i).state = .running) (hs : s.line.served = true) :
    s.stopStream i = (s.withStream i { s.stream i with state := .stopping }).settle.accept 0 := by
  rw [← s.putStream_eq_withStream i { s.stream i with state := .stopping } rfl]
  simp only [State.stopStream, hg, hst, hs, if_true]

theorem State.stopStream_unserved (hst : (s.stream i).state = .running) (hs : s.line.served = false) :
    s.stopStream i
      = (s.apply i ((s.stream i).stopNow i s.line.frame (s.headInFlight i))).settle.accept 1 := by
  simp only [State.stopStream, hg, hst, hs, Bool.false_eq_true, if_false]

end

/-- Settles O11. -/
theorem stopOutcome : Obligations.StopOutcome := by
  unfold Obligations.StopOutcome
  intro s i arg hr hi c answer
  have hexec : ∀ {u code n}, s.stopStream i = (u, code, word n) →
      exec (.stop arg) s = .next (u.withResult 0x05 arg code n) := fun h =>
    congrArg Host.Outcome.next (State.runCommand_stream hr hi h)
  refine ⟨fun g hg => hexec (State.stopStream_grouped hg), fun hg => ⟨
    fun hst => hexec (State.stopStream_refused hg hst),
    fun m e hst => hexec (State.stopStream_armed hg hst), fun hst hs => hexec (State.stopStream_served hg hst hs),
    fun hst hs => ⟨_, _, c.stopNow_spec i s.line.frame (s.headInFlight i),
      hexec (State.stopStream_unserved hg hst hs)⟩⟩⟩

/-! ### ABORT and CLEAR (R65, R66) -/

/-- An aborted or cleared stream is OFF with an empty queue, and has sent no last sample (R65, R66). -/
theorem State.apply_abortNow (s : State) (i : StreamId) (report : Bool) :
    s.apply i ((s.stream i).abortNow i s.line.frame report)
      = { s.withStream i { (s.stream i).swept with lastSample := none } with
      free := s.free + (s.stream i).queue.length
      cq := s.cq.raiseAll (sweepRecords (s.stream i).queue i s.line.frame .aborted
        ++ if report then [.streamStopped i s.line.frame .abort (s.stream i).fifo.length] else []) } := rfl

section
variable {s : State} {i : StreamId}

theorem State.clearStream_refused (hst : ∀ h, (s.stream i).state ≠ .halted h) :
    s.clearStream i = s.refuse .state 0 := by
  simp only [State.clearStream]
  split
  · rename_i h hh
    exact absurd hh (hst h)
  all_goals rfl

theorem State.clearStream_halted {h : HaltCause} (hst : (s.stream i).state = .halted h) : s.clearStream i
    = (s.apply i ((s.stream i).abortNow i s.line.frame false)).settle.accept (s.stream i).queue.length := by
  simp only [State.clearStream, hst]

end

/-- Settles O12. -/
theorem abortAndClearOutcome : Obligations.AbortAndClearOutcome := by
  unfold Obligations.AbortAndClearOutcome
  intro s i arg hr hi c returns stopped ended
  have habort : ∀ {u}, s.abortOne i = u →
      exec (.abort arg) s = .next (u.settle.withResult 0x06 arg .ok c.queue.length) := fun h =>
    congrArg Host.Outcome.next (State.runCommand_stream hr hi (h ▸ rfl))
  have hclear : ∀ {u code n}, s.clearStream i = (u, code, word n) →
      exec (.clear arg) s = .next (u.withResult 0x07 arg code n) := fun h =>
    congrArg Host.Outcome.next (State.runCommand_stream hr hi h)
  refine ⟨fun hoff => habort (if_pos hoff), fun hst => habort (if_neg hst),
    fun hst => hclear (State.clearStream_refused hst), fun h hst => ?_⟩
  have hended : s.apply i (c.abortNow i s.line.frame false) = ended returns := by
    rw [State.apply_abortNow]
    simp [ended, returns, c]
  exact hended ▸ hclear (State.clearStream_halted hst)

end Sys2Proof.Machine
end

section
/-! PROOFS. Configurations, map entries and commands read from the words that spell or show them (O7, O57). -/

namespace Sys2Proof.Machine

/-! ### The codes of the staging layouts (section 10.7) -/

theorem directionOf_eq_some_iff {n : Nat} {d : Direction} : directionOf n = some d ↔ d.code = n := by
  refine ⟨fun h => ?_, fun h => by subst h; cases d <;> rfl⟩
  simp only [directionOf] at h
  split at h <;> cases h <;> rfl

theorem packingOf_eq_some_iff {n : Nat} {p : Packing} : packingOf n = some p ↔ p.code = n := by
  refine ⟨fun h => ?_, fun h => by subst h; cases p <;> rfl⟩
  simp only [packingOf] at h
  split at h <;> cases h <;> rfl

theorem extensionOf_eq_some_iff {n : Nat} {e : Extension} : extensionOf n = some e ↔ e.code = n := by
  refine ⟨fun h => ?_, fun h => by subst h; cases e <;> rfl⟩
  simp only [extensionOf] at h
  split at h <;> cases h <;> rfl

theorem underrunOf_eq_some_iff {n : Nat} {u : UnderrunPolicy} : underrunOf n = some u ↔ u.code = n := by
  refine ⟨fun h => ?_, fun h => by subst h; cases u <;> rfl⟩
  simp only [underrunOf] at h
  split at h <;> cases h <;> rfl

theorem overrunOf_eq_some_iff {n : Nat} {o : OverrunPolicy} : overrunOf n = some o ↔ o.code = n := by
  refine ⟨fun h => ?_, fun h => by subst h; cases o <;> rfl⟩
  simp only [overrunOf] at h
  split at h <;> cases h <;> rfl

theorem groupFieldOf_eq_some_iff {n : Nat} {g : Option GroupId} : groupFieldOf n = some g ↔ groupCode g = n := by
  refine ⟨fun h => ?_, fun h => ?_⟩
  · simp only [groupFieldOf] at h
    split at h <;> cases h <;> rfl
  · subst h
    cases g with
    | none => rfl
    | some g => fin_cases g <;> rfl

theorem directionOf_eq_none {n : Nat} (h : directionOf n = none) : 1 < n := by
  by_contra hle
  have hle' : n ≤ 1 := Nat.not_lt.1 hle
  interval_cases n <;> cases h

theorem packingOf_eq_none {n : Nat} (h : packingOf n = none) : 2 < n := by
  by_contra hle
  have hle' : n ≤ 2 := Nat.not_lt.1 hle
  interval_cases n <;> cases h

theorem extensionOf_eq_none {n : Nat} (h : extensionOf n = none) : 2 < n := by
  by_contra hle
  have hle' : n ≤ 2 := Nat.not_lt.1 hle
  interval_cases n <;> cases h

theorem underrunOf_eq_none {n : Nat} (h : underrunOf n = none) : 4 < n := by
  by_contra hle
  have hle' : n ≤ 4 := Nat.not_lt.1 hle
  interval_cases n <;> cases h

theorem overrunOf_eq_none {n : Nat} (h : overrunOf n = none) : 2 < n := by
  by_contra hle
  have hle' : n ≤ 2 := Nat.not_lt.1 hle
  interval_cases n <;> cases h

theorem groupFieldOf_eq_none {n : Nat} (h : groupFieldOf n = none) : 4 < n := by
  by_contra hle
  have hle' : n ≤ 4 := Nat.not_lt.1 hle
  interval_cases n <;> cases h

/-- Field 4 of R44 by its codes. -/
theorem extensionFits_eq_false_iff (d : Direction) (p : Packing) (e : Extension) : extensionFits d p e = false
    ↔ if d.code = 1 ∧ p.code ≠ 0 then e.code ≠ 1 ∧ e.code ≠ 2 else e.code ≠ 0 := by
  cases d <;> cases p <;> cases e <;> decide

/-- Field 5 of R44 by its codes. -/
theorem underrunFits_eq_false_iff (d : Direction) (u : UnderrunPolicy) : underrunFits d u = false
    ↔ if d.code = 0 then u.code = 0 ∨ 4 < u.code else u.code ≠ 0 := by
  cases d <;> cases u <;> decide

/-- Field 6 of R44 by its codes. -/
theorem overrunFits_eq_false_iff (d : Direction) (o : OverrunPolicy) : overrunFits d o = false
    ↔ if d.code = 1 then o.code = 0 ∨ 2 < o.code else o.code ≠ 0 := by
  cases d <;> cases o <;> decide

theorem Packing.code_eq_one_iff (p : Packing) : p.code = 1 ↔ p = .word := by cases p <;> decide

/-! ### CONFIGURE's eight checks in order (R44) -/

/-- Field `n` of R44's table fails, for the staging words STAGE0 and STAGE1. -/
def StreamConfig.FieldFails (slotLen : Nat) (w0 w1 : Word) (n : Nat) : Prop :=
  match n with
  | 1 => ¬ field w0 1 0 = 0 ∧ ¬ field w0 1 0 = 1
  | 2 => field w0 12 8 < 4 ∨ 24 < field w0 12 8 ∨ slotLen < field w0 12 8
  | 3 => field w0 15 14 = 3 ∨ (field w0 15 14 = 1 ∧ 16 < field w0 12 8)
  | 4 =>
    if field w0 1 0 = 1 ∧ field w0 15 14 ≠ 0 then field w0 5 4 ≠ 1 ∧ field w0 5 4 ≠ 2 else field w0 5 4 ≠ 0
  | 5 => if field w0 1 0 = 0 then field w1 2 0 = 0 ∨ 4 < field w1 2 0 else field w1 2 0 ≠ 0
  | 6 => if field w0 1 0 = 1 then field w1 5 4 = 0 ∨ 2 < field w1 5 4 else field w1 5 4 ≠ 0
  | 7 => field w1 11 8 = 0 ∨ 7 < field w1 11 8
  | 8 => 4 < field w1 14 12
  | _ => False

/-! Each field by its code: an undefined code fails, a defined one is checked against the other fields. -/

section
variable {slotLen : Nat} {w0 w1 : Word}

theorem StreamConfig.direction_fails (h : directionOf (field w0 1 0) = none) : FieldFails slotLen w0 w1 1 := by
  have hcode := directionOf_eq_none h
  simp only [FieldFails]
  omega

theorem StreamConfig.packing_fails (h : packingOf (field w0 15 14) = none) : FieldFails slotLen w0 w1 3 := by
  have hcode := packingOf_eq_none h
  have hlt : field w0 15 14 < 4 := field_lt w0 15 14
  exact .inl (by omega)

theorem StreamConfig.extension_fails (h : extensionOf (field w0 5 4) = none) : FieldFails slotLen w0 w1 4 := by
  have hcode := extensionOf_eq_none h
  simp only [FieldFails]
  split <;> omega

theorem StreamConfig.underrun_fails (h : underrunOf (field w1 2 0) = none) : FieldFails slotLen w0 w1 5 := by
  have hcode := underrunOf_eq_none h
  simp only [FieldFails]
  split <;> omega

theorem StreamConfig.overrun_fails (h : overrunOf (field w1 5 4) = none) : FieldFails slotLen w0 w1 6 := by
  have hcode := overrunOf_eq_none h
  simp only [FieldFails]
  split <;> omega

theorem StreamConfig.group_passes {g : Option GroupId} (h : groupFieldOf (field w1 14 12) = some g) :
    ¬ FieldFails slotLen w0 w1 8 := by
  have hcode := groupFieldOf_eq_some_iff.1 h
  have hle := groupCode_le g
  simp only [FieldFails]
  omega

variable {d : Direction} (hdir : directionOf (field w0 1 0) = some d)

include hdir in
theorem StreamConfig.direction_passes : ¬ FieldFails slotLen w0 w1 1 := by
  have hcode := directionOf_eq_some_iff.1 hdir
  have hle := d.code_le
  simp only [FieldFails]
  omega

theorem StreamConfig.packing_check {p : Packing} (hpack : packingOf (field w0 15 14) = some p) :
    p = .word ∧ 16 < field w0 12 8 ↔ FieldFails slotLen w0 w1 3 := by
  have hcode := packingOf_eq_some_iff.1 hpack
  have hle := p.code_le
  simp only [FieldFails, ← p.code_eq_one_iff]
  omega

include hdir

theorem StreamConfig.extension_check {p : Packing} {e : Extension} (hpack : packingOf (field w0 15 14) = some p)
    (hext : extensionOf (field w0 5 4) = some e) : extensionFits d p e = false ↔ FieldFails slotLen w0 w1 4 := by
  rw [extensionFits_eq_false_iff, directionOf_eq_some_iff.1 hdir, packingOf_eq_some_iff.1 hpack,
    extensionOf_eq_some_iff.1 hext]
  rfl

theorem StreamConfig.underrun_check {u : UnderrunPolicy} (hund : underrunOf (field w1 2 0) = some u) :
    underrunFits d u = false ↔ FieldFails slotLen w0 w1 5 := by
  rw [underrunFits_eq_false_iff, directionOf_eq_some_iff.1 hdir, underrunOf_eq_some_iff.1 hund]
  rfl

theorem StreamConfig.overrun_check {o : OverrunPolicy} (hovr : overrunOf (field w1 5 4) = some o) :
    overrunFits d o = false ↔ FieldFails slotLen w0 w1 6 := by
  rw [overrunFits_eq_false_iff, directionOf_eq_some_iff.1 hdir, overrunOf_eq_some_iff.1 hovr]
  rfl

end

/-- An answer that checks made in order from number `n` on give: the first that fails, or none. -/
inductive ChecksFrom (fails : Nat → Prop) : Nat → Except Nat StreamConfig → Prop
  | fail {n : Nat} (h : fails n) : ChecksFrom fails n (.error n)
  | pass {n : Nat} {r : Except Nat StreamConfig} (h : ¬ fails n) (rest : ChecksFrom fails (n + 1) r) :
      ChecksFrom fails n r
  | done {n : Nat} {cfg : StreamConfig} (h : ∀ k, n ≤ k → ¬ fails k) : ChecksFrom fails n (.ok cfg)

theorem ChecksFrom.error {fails : Nat → Prop} {n k : Nat} {r : Except Nat StreamConfig} (h : ChecksFrom fails n r)
    (hr : r = .error k) : fails k ∧ ∀ j, n ≤ j → j < k → ¬ fails j := by
  induction h with
  | fail h =>
    cases hr
    exact ⟨h, fun j hj hlt => absurd hj (Nat.not_le.2 hlt)⟩
  | pass h _ ih =>
    obtain ⟨hk, hlow⟩ := ih hr
    refine ⟨hk, fun j hj hlt => ?_⟩
    rcases Nat.eq_or_lt_of_le hj with rfl | hj
    · exact h
    · exact hlow j hj hlt
  | done => cases hr

theorem ChecksFrom.ok {fails : Nat → Prop} {n : Nat} {cfg : StreamConfig} {r : Except Nat StreamConfig}
    (h : ChecksFrom fails n r) (hr : r = .ok cfg) : ∀ j, n ≤ j → ¬ fails j := by
  induction h with
  | fail => cases hr
  | pass h _ ih =>
    intro j hj
    rcases Nat.eq_or_lt_of_le hj with rfl | hj
    · exact h
    · exact ih hr j hj
  | done h => exact h

/-- One check of the table: it fails with its number, or the next ones follow. -/
theorem ChecksFrom.check {fails : Nat → Prop} {n : Nat} {r : Except Nat StreamConfig} {p : Prop} [Decidable p]
    (h : p ↔ fails n) (rest : ChecksFrom fails (n + 1) r) : ChecksFrom fails n (if p then .error n else r) := by
  split
  · rename_i hp
    exact .fail (h.1 hp)
  · rename_i hp
    exact .pass (mt h.2 hp) rest

/-- The reading of a configuration is the eight checks in order (R44). -/
theorem StreamConfig.parse_checks (slotLen : Nat) (w0 w1 w2 w3 : Word) :
    ChecksFrom (StreamConfig.FieldFails slotLen w0 w1) 1 (StreamConfig.parse slotLen w0 w1 w2 w3) := by
  simp only [StreamConfig.parse]
  split
  case h_1 hnone => exact .fail (direction_fails hnone)
  case h_2 d hdir =>
  refine .pass (direction_passes hdir) (.check Iff.rfl ?_)
  split
  case h_1 hnone => exact .fail (packing_fails hnone)
  case h_2 p hpack =>
  refine .check (packing_check hpack) ?_
  split
  case h_1 hnone => exact .fail (extension_fails hnone)
  case h_2 e hext =>
  refine .check (extension_check hdir hpack hext) ?_
  split
  case h_1 hnone => exact .fail (underrun_fails hnone)
  case h_2 u hund =>
  refine .check (underrun_check hdir hund) ?_
  split
  case h_1 hnone => exact .fail (overrun_fails hnone)
  case h_2 o hovr =>
  refine .check (overrun_check hdir hovr) (.check Iff.rfl ?_)
  split
  case h_1 hnone => exact .fail (groupFieldOf_eq_none hnone)
  case h_2 g hgroup =>
  refine .pass (group_passes hgroup) (.done fun k hk => ?_)
  obtain ⟨j, rfl⟩ := Nat.exists_eq_add_of_le' hk
  exact id

/-- An accepted configuration spells its fields. -/
theorem StreamConfig.parse_fields {slotLen : Nat} {w0 w1 w2 w3 : Word} {cfg : StreamConfig}
    (h : StreamConfig.parse slotLen w0 w1 w2 w3 = .ok cfg) :
    cfg.direction.code = field w0 1 0 ∧ cfg.width = field w0 12 8 ∧ cfg.packing.code = field w0 15 14
    ∧ cfg.extension.code = field w0 5 4 ∧ cfg.underrun.code = field w1 2 0
    ∧ cfg.overrun.code = field w1 5 4 ∧ cfg.watermark = field w1 11 8
    ∧ groupCode cfg.group = field w1 14 12 ∧ cfg.haltOnLoss = w1.getLsbD 15
    ∧ cfg.fill.toNat = (field w3 7 0 * 65536 + w2.toNat) % 2 ^ field w0 12 8 := by
  simp only [StreamConfig.parse] at h
  repeat' split at h
  all_goals cases h
  rename_i hdir _ _ _ hpack _ _ _ hext _ _ _ hund _ _ _ hovr _ _ _ _ hgroup
  have hfill : field w3 7 0 * 65536 + w2.toNat < 2 ^ 24 := by
    have := field_lt w3 7 0
    have := w2.isLt
    omega
  refine ⟨directionOf_eq_some_iff.1 hdir, rfl, packingOf_eq_some_iff.1 hpack, extensionOf_eq_some_iff.1 hext,
    underrunOf_eq_some_iff.1 hund, overrunOf_eq_some_iff.1 hovr, rfl, groupFieldOf_eq_some_iff.1 hgroup, rfl, ?_⟩
  rw [BitVec.toNat_ofNat]
  exact Nat.mod_eq_of_lt (Nat.lt_of_le_of_lt (Nat.mod_le _ _) hfill)

/-- Settles O7: the reading is the eight checks in order, so its answer is the first that fails. -/
theorem configureChecksFieldsInOrder : Obligations.ConfigureChecksFieldsInOrder := by
  unfold Obligations.ConfigureChecksFieldsInOrder
  intro slotLen w0 w1 w2 w3 tx rx packing width bad
  have hbad : bad = StreamConfig.FieldFails slotLen w0 w1 := rfl
  have hchecks := StreamConfig.parse_checks slotLen w0 w1 w2 w3
  have hfirst : ∀ {n}, bad n → 1 ≤ n := fun {n} hn => Nat.pos_of_ne_zero fun h0 => by subst h0; exact hn
  rw [hbad] at hfirst ⊢
  cases h : StreamConfig.parse slotLen w0 w1 w2 w3 with
  | error k =>
    obtain ⟨hk, hlow⟩ := hchecks.error h
    refine ⟨fun n hn hless => congrArg Except.error (Nat.le_antisymm ?_ ?_), fun hnone => absurd hk (hnone k)⟩
    · exact Nat.not_lt.1 fun hlt => hlow n (hfirst hn) hlt hn
    · exact Nat.not_lt.1 fun hlt => hless k hlt hk
  | ok cfg =>
    exact ⟨fun n hn _ => absurd hn (hchecks.ok h n (hfirst hn)),
      fun _ => ⟨cfg, rfl, StreamConfig.parse_fields h⟩⟩


/-! ### Configurations and map entries as they are shown (R164, R165) -/

/-- CONFIGURE reads the words that show a legal configuration as that configuration. -/
theorem StreamConfig.parse_words {slotLen : Nat} {cfg : StreamConfig} (h : cfg.Agrees slotLen) :
    StreamConfig.parse slotLen cfg.words.1 cfg.words.2.1 cfg.words.2.2.1 cfg.words.2.2.2 = .ok cfg := by
  obtain ⟨h4, h24, hlen, hword, hext, hund, hovr, h1, h7, hfill⟩ := h
  obtain ⟨hpack, hwidth, hextc, hdir, -⟩ := StreamConfig.words_format (cfg := cfg) (by omega)
  obtain ⟨hhalt, hgroup, hmark, hovrc, hundc, -⟩ := StreamConfig.words_policy (cfg := cfg) (by omega)
  have hfull : field cfg.words.2.2.2 7 0 * 65536 + cfg.words.2.2.1.toNat = cfg.fill.toNat := by
    have hwords := cfg.words_fill
    have hlt := cfg.fill.isLt
    have hlow : field cfg.words.2.2.2 7 0 = cfg.words.2.2.2.toNat := by
      simp only [field, pow_zero, Nat.div_one]
      exact Nat.mod_eq_of_lt (by omega)
    rw [hlow, hwords]
  have hinWidth : ¬ (cfg.width < 4 ∨ 24 < cfg.width ∨ slotLen < cfg.width) := by omega
  have hinMark : ¬ (cfg.watermark = 0 ∨ 7 < cfg.watermark) := by omega
  have hinWord : ¬ (cfg.packing = .word ∧ 16 < cfg.width) := fun ⟨hp, hlt⟩ => Nat.not_le.2 hlt (hword hp)
  simp only [StreamConfig.parse, directionOf_eq_some_iff.2 hdir.symm, packingOf_eq_some_iff.2 hpack.symm,
    extensionOf_eq_some_iff.2 hextc.symm, underrunOf_eq_some_iff.2 hundc.symm, overrunOf_eq_some_iff.2 hovrc.symm,
    groupFieldOf_eq_some_iff.2 hgroup.symm, hwidth, hmark, hhalt, hfull, (extensionFits_iff _ _ _).2 hext,
    (underrunFits_iff _ _).2 hund, (overrunFits_iff _ _).2 hovr, hinWidth, hinMark, hinWord, Nat.mod_eq_of_lt hfill,
    BitVec.ofNat_toNat, BitVec.setWidth_eq, if_false, Bool.true_eq_false]

/-- MAP_DATA reads the word that shows an entry as that entry. -/
theorem Entry.parse_word (e : Entry) : Entry.parse (Entry.word e) = e := by
  cases e with
  | none => rfl
  | some p =>
    obtain ⟨i, d⟩ := p
    have hd := d.code_le
    have hi := i.isLt
    have hn : (Entry.word (some (i, d))).toNat = 2 ^ 15 + d.code * 2 ^ 8 + i.val := by
      rw [Entry.word_some]
      exact toNat_word_of_lt (by omega)
    have htop : flag (Entry.word (some (i, d))) 15 = true := (flag_iff_div _ _).2 (by rw [hn]; omega)
    have hstream : field (Entry.word (some (i, d))) 3 0 % 16 = i.val := by
      simp only [field, hn]
      omega
    have hdir : flag (Entry.word (some (i, d))) 8 = decide (d = .rx) := by
      have hcode : (decide (d = .rx)).toNat = d.code := by cases d <;> rfl
      exact flag_of_div (by rw [hn, hcode]; omega)
    simp only [Entry.parse, htop, hstream, hdir, if_true]
    cases d <;> rfl

/-! ### Commands (sections 10.1, 10.6, R167, log 29) -/

theorem Instr.ofCommand_undefined {op : Byte} (h : op ∉ definedOpcodes) (arg : Byte) :
    Instr.ofCommand op arg = .unknownOpcode ⟨op, h⟩ arg := dif_pos h

/-- A command carries the opcode and the operand that spell it. -/
theorem Instr.ofCommand_parts (op arg : Byte) :
    (Instr.ofCommand op arg).opcode? = some op ∧ (Instr.ofCommand op arg).operand? = some arg := by
  by_cases h : op ∈ definedOpcodes
  · simp only [definedOpcodes, List.mem_cons, List.not_mem_nil, or_false] at h
    rcases h with rfl | rfl | rfl | rfl | rfl | rfl | rfl | rfl | rfl | rfl | rfl | rfl | rfl | rfl | rfl | rfl | rfl
      <;> exact ⟨rfl, rfl⟩
  · rw [Instr.ofCommand_undefined h]
    exact ⟨rfl, rfl⟩

/-- Every command row is the one its opcode and its operand spell. -/
theorem Instr.ofCommand_of_opcode {c : Instr} {op : Byte} (h : c.opcode? = some op) :
    ∃ arg, c.operand? = some arg ∧ Instr.ofCommand op arg = c := by
  cases c with
  | unknownOpcode u arg =>
    cases h
    exact ⟨arg, rfl, Instr.ofCommand_undefined u.property arg⟩
  | configure arg | deconfigure arg | post arg | start arg | stop arg | abort arg | clear arg | gstart arg | gstop arg
  | gabort arg | mapswap arg | mapcopy arg | cqpop arg | cqflush arg | lineSet arg | lineUp arg | lineDown arg =>
    cases h
    exact ⟨arg, rfl, rfl⟩
  | _ => cases h

/-- A COMMAND word holds its opcode in bits 15 to 8 and its operand in bits 7 to 0 (section 10.6). -/
theorem Instr.ofCommandWord_append (op arg : Byte) : Instr.ofCommandWord (op ++ arg) = .ofCommand op arg := by
  have hop : (op ++ arg).extractLsb' 8 8 = op := BitVec.eq_of_toNat_eq (by
    have h1 := op.isLt
    have h2 := arg.isLt
    rw [BitVec.extractLsb'_toNat, toNat_append_byte, Nat.shiftRight_eq_div_pow]
    omega)
  have harg : (op ++ arg).extractLsb' 0 8 = arg := BitVec.eq_of_toNat_eq (by
    have h2 := arg.isLt
    rw [BitVec.extractLsb'_toNat, toNat_append_byte, Nat.shiftRight_eq_div_pow]
    omega)
  rw [Instr.ofCommandWord, hop, harg]

theorem decodeTableWord_command (op arg : Byte) :
    decodeTableWord 16 (op.toNat * 256 + arg.toNat) = some (.ofCommand op arg) := by
  have hword : BitVec.ofNat 16 (op.toNat * 256 + arg.toNat) = op ++ arg := by
    rw [← toNat_append_byte, BitVec.ofNat_toNat, BitVec.setWidth_eq]
  rw [decodeTableWord, if_pos rfl, hword, Instr.ofCommandWord_append]

/-- A slave write at the front of the queue runs its row (section 10.1). -/
theorem step_withSlaveWrite (s : State) (k : Fin 32) (v : Word) :
    step (s.withSlaveWrite k v) = exec (Instr.ofWrite k v) s := rfl

/-- Settles O57. -/
theorem wordsDecodeToWhatTheyEncode : Obligations.WordsDecodeToWhatTheyEncode := by
  unfold Obligations.WordsDecodeToWhatTheyEncode
  refine ⟨fun slotLen cfg h => StreamConfig.parse_words h, Entry.parse_word, Instr.ofCommand_parts,
    fun c op h => Instr.ofCommand_of_opcode h, fun s op arg => ⟨?_, ?_⟩, step_withSlaveWrite⟩
  · rw [step_withSlaveWrite]
    exact congrArg (exec · s) (Instr.ofCommandWord_append op arg)
  · rw [State.withFetchWord, decodeTableWord_command]
    rfl

end Sys2Proof.Machine
end

section
/-! PROOFS. Service requests and the choice (R78 to R80, R112, R116, R124): when a stream presents a request, and which
one the Mover chooses. -/

namespace Sys2Proof.Machine

/-! ### The order of the search (R124) -/

theorem allStreams_eq_finRange : allStreams = List.finRange 16 := by decide

/-- The place of a stream in the search: how far after the pointer it stands, in circular order. -/
theorem searchOrder_place (p k i : StreamId) : p + k + 1 = i ↔ k = i - p - 1 := by
  rw [eq_sub_iff_add_eq, eq_sub_iff_add_eq, add_assoc, add_comm p]

theorem mem_searchOrder (p i : StreamId) : i ∈ searchOrder p :=
  List.mem_map.2 ⟨i - p - 1, mem_allStreams _, (searchOrder_place p _ i).2 rfl⟩

/-- The search finds the stream that comes soonest after the pointer. -/
theorem find?_searchOrder_iff (p i : StreamId) (q : StreamId → Bool) :
    (searchOrder p).find? q = some i ↔ q i = true ∧ ∀ j, q j = true → (i - p - 1).val ≤ (j - p - 1).val := by
  rw [searchOrder, List.find?_map, allStreams_eq_finRange, ← Fin.find?_eq_find?_finRange, Option.map_eq_some_iff]
  simp only [Fin.find?_eq_some_iff, Function.comp_apply, searchOrder_place, exists_eq_right,
    (searchOrder_place p _ i).2 rfl]
  refine and_congr_right fun _ => ⟨fun h j hj => ?_, fun h k hk => ?_⟩
  · by_contra hlt
    have hfree := h (j - p - 1) (Fin.lt_def.2 (not_le.1 hlt))
    rw [(searchOrder_place p _ j).2 rfl, hj] at hfree
    cases hfree
  · by_contra hk'
    have hle := h (p + k + 1) (by simpa using hk')
    rw [← (searchOrder_place p k _).1 rfl] at hle
    exact absurd hk (not_lt.2 hle)

/-- R124: the Mover chooses the first urgent request after the pointer, or else the first normal one. -/
theorem State.choice_eq_some_iff (s : State) (i : StreamId) : s.choice = some i ↔
    ∃ urgent, s.request i = some urgent
      ∧ (urgent = false → ∀ j, s.request j ≠ some true)
      ∧ ∀ j, s.request j = some urgent → (i - s.mover.pointer - 1).val ≤ (j - s.mover.pointer - 1).val := by
  simp only [State.choice]
  split
  · rename_i k hk
    obtain ⟨hurgent, hfirst⟩ := (find?_searchOrder_iff _ _ _).1 hk
    simp only [decide_eq_true_eq] at hurgent hfirst
    constructor
    · rintro ⟨⟩
      exact ⟨true, hurgent, nofun, hfirst⟩
    · rintro ⟨urgent, hi, hnone, hsoonest⟩
      cases urgent with
      | false => exact absurd hurgent (hnone rfl k)
      | true => exact hk.symm.trans ((find?_searchOrder_iff _ _ _).2 (by simpa using ⟨hi, hsoonest⟩))
  · rename_i hnone
    have hcalm : ∀ j, s.request j ≠ some true := fun j => by
      simpa using List.find?_eq_none.1 hnone j (mem_searchOrder _ j)
    rw [find?_searchOrder_iff]
    simp only [decide_eq_true_eq]
    constructor
    · rintro ⟨hi, hsoonest⟩
      exact ⟨false, hi, fun _ => hcalm, hsoonest⟩
    · rintro ⟨urgent, hi, -, hsoonest⟩
      cases urgent with
      | false => exact ⟨hi, hsoonest⟩
      | true => exact absurd hi (hcalm i)

/-! ### One stream's request (R78 to R80) -/

theorem StreamCtx.request_unconfigured {c : StreamCtx} (n : Nat) (hc : c.cfg = none) : c.request n = none := by
  simp only [StreamCtx.request, hc]

theorem StreamCtx.request_emptyQueue {c : StreamCtx} (n : Nat) (hq : c.queue = []) : c.request n = none := by
  cases hc : c.cfg <;> simp only [StreamCtx.request, hc, hq]

theorem StreamCtx.mayFetch_iff (c : StreamCtx) :
    c.mayFetch = true ↔ (∃ m, c.state = .armed m false) ∨ c.state = .running ∨ c.state = .stopping := by
  cases hst : c.state <;> simp [StreamCtx.mayFetch, hst]

section
variable {c : StreamCtx} {cfg : StreamConfig} {d : Descriptor} {rest : List Descriptor}
  (hc : c.cfg = some cfg) (hq : c.queue = d :: rest)
include hc hq

theorem StreamCtx.request_eq_txRequest (n : Nat) (hd : cfg.direction = .tx) : c.request n = c.txRequest cfg d := by
  simp only [StreamCtx.request, hc, hq, hd]

theorem StreamCtx.request_eq_rxRequest (n : Nat) (hd : cfg.direction = .rx) :
    c.request n = c.rxRequest cfg d n := by
  simp only [StreamCtx.request, hc, hq, hd]

end

/-- The three conditions of a fetch's request (R78, R112). -/
theorem StreamCtx.txRequest_cond_iff (c : StreamCtx) (cfg : StreamConfig) (d : Descriptor) :
    (c.mayFetch = true ∧ c.fifo.length ≤ cfg.watermark ∧ c.roomCheck cfg d = true)
      ↔ ((∃ m, c.state = .armed m false) ∨ c.state = .running ∨ c.state = .stopping)
        ∧ c.fifo.length ≤ cfg.watermark
        ∧ c.fifo.length + cfg.completes c.residual.length c.wordsDone (d.length - c.samplesDone) ≤ 8 := by
  rw [c.mayFetch_iff, StreamCtx.roomCheck, decide_eq_true_eq]
  rfl

theorem StreamCtx.rxRequest_draining {c : StreamCtx} {k : DrainKind} {b : Bool} (cfg : StreamConfig) (d : Descriptor)
    (n : Nat) (hst : c.state = .draining k b) : c.rxRequest cfg d n = some true := by
  simp only [StreamCtx.rxRequest, hst]

/-- R79, R80 and R116: what a receive stream asks for in RUNNING or STOPPING. -/
theorem StreamCtx.rxRequest_inService {c : StreamCtx} (cfg : StreamConfig) (d : Descriptor) (n : Nat)
    (hst : c.state = .running ∨ c.state = .stopping) : c.rxRequest cfg d n =
    if cfg.watermark ≤ c.fifo.length
        ∧ cfg.needed c.residual.length (d.length - (c.samplesDone + n)) ≤ c.fifo.length then
      some (decide (7 ≤ c.fifo.length))
    else none := by
  rcases hst with hst | hst <;> simp only [StreamCtx.rxRequest, hst]

theorem StreamCtx.rxRequest_silent {c : StreamCtx} (cfg : StreamConfig) (d : Descriptor) (n : Nat)
    (hst : ¬ (c.state = .running ∨ c.state = .stopping)) (hdrain : ∀ k b, c.state ≠ .draining k b) :
    c.rxRequest cfg d n = none := by
  cases hs : c.state with
  | running => exact absurd (.inl hs) hst
  | stopping => exact absurd (.inr hs) hst
  | draining k b => exact absurd hs (hdrain k b)
  | off | armed | halted => simp only [StreamCtx.rxRequest, hs]

/-- Settles O34. -/
theorem choiceIsFirstAfterThePointer : Obligations.ChoiceIsFirstAfterThePointer := by
  unfold Obligations.ChoiceIsFirstAfterThePointer
  intro s i
  refine ⟨s.choice_eq_some_iff i, fun hc => StreamCtx.request_unconfigured _ hc,
    fun _ hq => StreamCtx.request_emptyQueue _ hq, fun _ _ _ hq => StreamCtx.request_emptyQueue _ hq,
    fun cfg d rest hc hq => ⟨fun hd => ?_, fun hd => ?_⟩⟩
  · have htx : s.request i = _ := StreamCtx.request_eq_txRequest hc hq _ hd
    have hcond := (s.stream i).txRequest_cond_iff cfg d
    exact ⟨fun h => htx.trans (if_pos (hcond.2 h)), fun h => htx.trans (if_neg (h ∘ hcond.1))⟩
  · have hrx : s.request i = _ := StreamCtx.request_eq_rxRequest hc hq _ hd
    exact ⟨fun k b hst => hrx.trans (StreamCtx.rxRequest_draining cfg d _ hst),
      fun hst h => hrx.trans ((StreamCtx.rxRequest_inService cfg d _ hst).trans (if_pos h)),
      fun hst h => hrx.trans ((StreamCtx.rxRequest_inService cfg d _ hst).trans (if_neg h)),
      fun hst hdrain => hrx.trans (StreamCtx.rxRequest_silent cfg d _ hst hdrain)⟩

end Sys2Proof.Machine
end

section
/-! PROOFS. An idle Mover leaves no request waiting (R81, R119): every act that can raise a request ends with the
Mover's look at the requests, and every other one leaves the requests as they were. -/

namespace Sys2Proof.Machine

/-! ### The Mover's look at the requests (R119) -/

theorem State.nextWord_bus {s t : State} {m : Move} (h : s.nextWord m = some t) : t.mover.bus = s.mover.bus := by
  obtain ⟨c, w, u, rfl, -⟩ := State.nextWord_spec h
  rfl

/-- A choice keeps the bus or gives it back (R121, R125). -/
theorem State.chooseMove_bus {s : State} (h : s.mover.bus = .holding) : s.chooseMove.mover.bus ≠ .idle := by
  simp only [State.chooseMove]
  split
  · nofun
  · split
    · nofun
    · split
      · rename_i t ht
        rw [State.nextWord_bus ht]
        simp [h]
      · nofun

theorem State.beginTenure_bus (s : State) : s.beginTenure.mover.bus ≠ .idle := by
  simp only [State.beginTenure]
  split
  · nofun
  · exact State.chooseMove_bus rfl

/-- After the look the Mover is IDLE only where it found no request (R119). -/
theorem State.pollMover_idleLaw (s : State) : s.pollMover.IdleLaw := by
  simp only [State.pollMover]
  split
  · split
    · exact fun h => absurd h (State.beginTenure_bus _)
    · exact nofun
  · rename_i hquiet
    intro hidle i
    by_contra hr
    exact hquiet ⟨hidle, s.anyRequest_iff.2 ⟨i, hr⟩⟩

theorem State.settle_idleLaw (s : State) : s.settle.IdleLaw := s.cutShift.clearGroups.pollMover_idleLaw

/-! ### Acts that raise no request -/

/-- A stream's request rests on its context, the move and the word in flight alone (R81). -/
theorem State.request_congr {s t : State} {i : StreamId} (hs : t.stream i = s.stream i)
    (hm : t.mover.move = s.mover.move)
    (hu : t.mover.inFlight.map InFlight.uncounted = s.mover.inFlight.map InFlight.uncounted) :
    t.request i = s.request i := by
  have hserves : t.servesHead i = s.servesHead i := by simp only [State.servesHead, hm, hs]
  have huncounted : ∀ u : State, u.uncounted i =
      if u.servesHead i then (u.mover.inFlight.map InFlight.uncounted).getD 0 else 0 := fun u => by
    cases hw : u.mover.inFlight <;> simp [State.uncounted, hw]
  rw [State.request, State.request, hs, huncounted, huncounted, hu, hserves]

/-- An act that leaves the streams, the bus state, the move and the samples of the word in flight keeps the law. -/
theorem State.IdleLaw.congr {s t : State} (h : s.IdleLaw) (hs : t.streams = s.streams)
    (hb : t.mover.bus = s.mover.bus) (hm : t.mover.move = s.mover.move)
    (hu : t.mover.inFlight.map InFlight.uncounted = s.mover.inFlight.map InFlight.uncounted) : t.IdleLaw :=
  fun hidle i => (State.request_congr (State.stream_congr hs i) hm hu).trans (h (hb.symm.trans hidle) i)

/-- An act of the other units keeps the law. -/
theorem State.IdleLaw.of_rest {s t : State} (h : s.IdleLaw) (hs : t.streams = s.streams) (hm : t.mover = s.mover) :
    t.IdleLaw :=
  h.congr hs (congrArg Mover.bus hm) (congrArg Mover.move hm) (by rw [hm])

/-- A stream whose new context presents no request, as CONFIGURE and DECONFIGURE leave it, raises none (R45, R46). -/
theorem State.IdleLaw.putStream {s : State} (h : s.IdleLaw) {i : StreamId} {c : StreamCtx}
    (hc : ∀ n, c.request n = none) : (s.putStream i c).IdleLaw := fun hidle j => by
  by_cases hj : j = i
  · subst hj
    rw [State.request, State.stream_putStream_same]
    exact hc _
  · exact (State.request_congr (s.stream_putStream_other c hj) rfl rfl).trans (h hidle j)

/-- A stream with an empty queue presents no request under any configuration (R78, R79). -/
theorem StreamCtx.request_reconfigure {c : StreamCtx} (hq : c.queue = []) (cfg : Option StreamConfig) (n : Nat) :
    (c.reconfigure cfg).request n = none :=
  StreamCtx.request_emptyQueue n hq

/-! ### The commands -/

section
variable {s : State} (h : s.IdleLaw)
include h

theorem State.runCommand_idleLaw (op arg : Byte) {run : State → Answer} (hr : (run s).1.IdleLaw) :
    (s.runCommand op arg run).IdleLaw := by
  simp only [State.runCommand]
  split
  · exact h
  · exact hr.of_rest rfl rfl

theorem State.forStream_idleLaw (arg : Byte) {run : StreamId → Answer} (hr : ∀ i, (run i).1.IdleLaw) :
    (s.forStream arg run).1.IdleLaw := by
  simp only [State.forStream]
  split
  · exact h
  · exact hr _

theorem State.forGroup_idleLaw (arg : Byte) {run : GroupId → Answer} (hr : ∀ g, (run g).1.IdleLaw) :
    (s.forGroup arg run).1.IdleLaw := by
  simp only [State.forGroup]
  split
  · exact h
  · exact hr _

theorem State.event_idleLaw {run : State → State} (hr : (run s).IdleLaw) : (s.event run).IdleLaw := by
  simp only [State.event]
  split
  · exact h
  · exact hr

theorem State.hostWrite_idleLaw (run : Window → Window) : (s.hostWrite run).IdleLaw := by
  simp only [State.hostWrite]
  split
  · exact h
  · exact h.of_rest rfl rfl

theorem State.configure_idleLaw (i : StreamId) : (s.configure i).1.IdleLaw := by
  simp only [State.configure]
  split
  · exact h
  · rename_i hoff
    have hput : ∀ cfg, (s.putStream i ((s.stream i).reconfigure cfg)).IdleLaw := fun cfg =>
      h.putStream (StreamCtx.request_reconfigure (StreamCtx.off_of_configurable hoff).2 cfg)
    repeat' split
    all_goals try exact h
    exact (hput _).of_rest rfl rfl

theorem State.deconfigure_idleLaw (i : StreamId) : (s.deconfigure i).1.IdleLaw := by
  simp only [State.deconfigure]
  split
  · exact h
  · rename_i hoff
    exact h.putStream (StreamCtx.request_reconfigure (StreamCtx.off_of_configurable hoff).2 none)

/-! A stream or group command is refused, and changes nothing, or ends with the look (R88, R47, R51, R52, R66, R140,
R143). -/

theorem State.post_idleLaw (i : StreamId) : (s.post i).1.IdleLaw := by
  simp only [State.post]
  repeat' split
  all_goals try exact h
  exact State.settle_idleLaw _

theorem State.startStream_idleLaw (i : StreamId) : (s.startStream i).1.IdleLaw := by
  simp only [State.startStream]
  repeat' split
  all_goals try exact h
  exact State.settle_idleLaw _

theorem State.stopStream_idleLaw (i : StreamId) : (s.stopStream i).1.IdleLaw := by
  simp only [State.stopStream]
  repeat' split
  all_goals try exact h
  all_goals exact State.settle_idleLaw _

theorem State.clearStream_idleLaw (i : StreamId) : (s.clearStream i).1.IdleLaw := by
  simp only [State.clearStream]
  split
  · exact State.settle_idleLaw _
  all_goals exact h

theorem State.gstart_idleLaw (g : GroupId) : (s.gstart g).1.IdleLaw := by
  simp only [State.gstart]
  repeat' split
  all_goals try exact h
  exact State.settle_idleLaw _

theorem State.gstop_idleLaw (g : GroupId) : (s.gstop g).1.IdleLaw := by
  simp only [State.gstop]
  split
  · split <;> exact State.settle_idleLaw _
  · exact h

theorem State.mapswap_idleLaw : s.mapswap.1.IdleLaw := by
  simp only [State.mapswap]
  repeat' split
  all_goals exact h.of_rest rfl rfl

theorem State.mapcopy_idleLaw : s.mapcopy.1.IdleLaw := by
  simp only [State.mapcopy]
  split <;> exact h.of_rest rfl rfl

theorem State.cqpop_idleLaw : s.cqpop.1.IdleLaw := by
  simp only [State.cqpop]
  split <;> exact h.of_rest rfl rfl

theorem State.lineSet_idleLaw : s.lineSet.1.IdleLaw := by
  simp only [State.lineSet]
  repeat' split
  all_goals exact h.of_rest rfl rfl

theorem State.lineUp_idleLaw : s.lineUp.1.IdleLaw := by
  simp only [State.lineUp]
  split
  · exact h
  · split
    · exact h.of_rest rfl rfl
    all_goals exact State.settle_idleLaw _

theorem State.lineDown_idleLaw : s.lineDown.1.IdleLaw := by
  simp only [State.lineDown]
  split
  · exact State.settle_idleLaw _
  · exact h

/-! ### The slot line -/

theorem State.takeSync_idleLaw (pos : Nat) : (s.takeSync pos).IdleLaw := by
  simp only [State.takeSync]
  split
  · exact h
  · exact h.of_rest rfl rfl
  · split
    · exact h.of_rest rfl rfl
    · split
      · exact State.settle_idleLaw _
      · exact h
  all_goals
    split
    · exact State.settle_idleLaw _
    · split
      · exact State.settle_idleLaw _
      · exact h

theorem State.sampleHigh_idleLaw (bit : Nat) : (s.sampleHigh bit).IdleLaw := by
  simp only [State.sampleHigh]
  split
  · exact State.takeSync_idleLaw h _
  · exact h

theorem State.sampleLow_idleLaw : s.sampleLow.IdleLaw := by
  simp only [State.sampleLow]
  split <;> exact h.of_rest rfl rfl

theorem State.endTrial_idleLaw : s.endTrial.IdleLaw := by
  simp only [State.endTrial]
  split <;> exact h.of_rest rfl rfl

theorem State.missSync_idleLaw : s.missSync.IdleLaw := by
  simp only [State.missSync]
  split
  · split <;> exact State.settle_idleLaw _
  · exact h

theorem State.endFrame_idleLaw : s.endFrame.IdleLaw := by
  simp only [State.endFrame]
  split
  · exact State.settle_idleLaw _
  · exact h

theorem State.startTxSlot_idleLaw (slot : Nat) : (s.startTxSlot slot).IdleLaw := by
  simp only [State.startTxSlot]
  split
  · exact h
  · exact State.settle_idleLaw _

theorem State.endRxSlot_idleLaw (slot : Nat) (rxd : Sample) : (s.endRxSlot slot rxd).IdleLaw := by
  simp only [State.endRxSlot]
  split
  · exact h
  · exact State.settle_idleLaw _

/-! ### The Mover's pins and settings, the window, time -/

/-- The levels of BGNT and BYLD play no part in the requests. -/
theorem State.pins_idleLaw (bgnt byld : Bool) :
    State.IdleLaw { s with mover := { s.mover with bgnt := bgnt, byld := byld } } :=
  h.congr rfl rfl rfl rfl

theorem State.writeMapData_idleLaw (v : Word) : (s.writeMapData v).IdleLaw := by
  simp only [State.writeMapData]
  split <;> exact h.of_rest rfl rfl

theorem State.writeIntCtrl_idleLaw (v : Word) : (s.writeIntCtrl v).IdleLaw := by
  simp only [State.writeIntCtrl]
  split <;> exact h.of_rest rfl rfl

theorem State.writeControl_idleLaw (cw : ControlWord) (v : Word) : (s.writeControl cw v).IdleLaw := by
  have hsetting : ∀ m n, State.IdleLaw { s with mover := { s.mover with tenureMax := m, readyTimeout := n } } :=
    fun m n => h.congr rfl rfl rfl rfl
  cases cw with
  | holdoff => exact h.of_rest rfl rfl
  | busCtrl =>
    simp only [State.writeControl]
    split
    · exact h.of_rest rfl rfl
    · exact hsetting _ s.mover.readyTimeout
  | readyTimeout =>
    simp only [State.writeControl]
    split
    · exact h.of_rest rfl rfl
    · exact hsetting s.mover.tenureMax _

theorem State.sampleGrant_idleLaw : s.sampleGrant.IdleLaw := by
  simp only [State.sampleGrant]
  split
  · exact State.pollMover_idleLaw _
  · exact h

theorem State.releaseReset_idleLaw : s.releaseReset.IdleLaw := by
  simp only [State.releaseReset]
  split
  · exact State.sampleGrant_idleLaw (h.of_rest rfl rfl)
  · exact h

/-- A tick of the ready timer counts, or ends in a bus fault with the look after it (R131, R132). -/
theorem State.readyTick_idleLaw : s.readyTick.IdleLaw := by
  simp only [State.readyTick]
  split
  · exact h
  · rename_i w hw
    split
    · exact State.settle_idleLaw _
    · exact h.congr rfl rfl rfl (by rw [hw]; rfl)

theorem State.timebase_idleLaw : s.timebase.IdleLaw := by
  simp only [State.timebase, State.tick]
  split
  · exact State.readyTick_idleLaw (h.of_rest rfl rfl)
  · exact h.of_rest rfl rfl

theorem State.bitClock_idleLaw : s.bitClock.IdleLaw := by
  rw [(State.bitClock_spec (s := s) (t := s) (n := s.line.tbLeft) rfl rfl).2]
  exact h.of_rest rfl rfl

theorem State.idle_idleLaw : s.idle.IdleLaw := by
  simp only [State.idle]
  split
  · exact h
  · exact State.bitClock_idleLaw (State.timebase_idleLaw (State.sampleGrant_idleLaw h))

/-! ### Every step -/

theorem exec_idleLaw {c : Instr} {t : State} (hstep : exec c s = .next t) : t.IdleLaw := by
  have hcmd : ∀ {op arg} {run : State → Answer}, Host.Outcome.next (s.runCommand op arg run) = (.next t : Outcome) →
      (run s).1.IdleLaw → t.IdleLaw := fun k hr => by
    cases k; exact State.runCommand_idleLaw h _ _ hr
  have hev : ∀ {run : State → State}, Host.Outcome.next (s.event run) = (.next t : Outcome) →
      (run s).IdleLaw → t.IdleLaw := fun k hr => by
    cases k; exact State.event_idleLaw h hr
  have hpin : ∀ (b : Bool) {u : State}, u.IdleLaw →
      Host.Outcome.next (if s.resetLow then { s with mover := { s.mover with bgnt := b } } else u)
        = (.next t : Outcome) → t.IdleLaw := fun b u hu k => by
    cases k
    split
    · exact State.pins_idleLaw h b s.mover.byld
    · exact hu
  cases c with
  | configure a => exact hcmd hstep (State.forStream_idleLaw h a (State.configure_idleLaw h))
  | deconfigure a => exact hcmd hstep (State.forStream_idleLaw h a (State.deconfigure_idleLaw h))
  | post a => exact hcmd hstep (State.forStream_idleLaw h a (State.post_idleLaw h))
  | start a => exact hcmd hstep (State.forStream_idleLaw h a (State.startStream_idleLaw h))
  | stop a => exact hcmd hstep (State.forStream_idleLaw h a (State.stopStream_idleLaw h))
  | abort a => exact hcmd hstep (State.forStream_idleLaw h a fun i => (s.abortOne i).settle_idleLaw)
  | clear a => exact hcmd hstep (State.forStream_idleLaw h a (State.clearStream_idleLaw h))
  | gstart a => exact hcmd hstep (State.forGroup_idleLaw h a (State.gstart_idleLaw h))
  | gstop a => exact hcmd hstep (State.forGroup_idleLaw h a (State.gstop_idleLaw h))
  | gabort a => exact hcmd hstep (State.forGroup_idleLaw h a fun _ => State.settle_idleLaw _)
  | mapswap a => exact hcmd hstep (State.mapswap_idleLaw h)
  | mapcopy a => exact hcmd hstep (State.mapcopy_idleLaw h)
  | cqpop a => exact hcmd hstep (State.cqpop_idleLaw h)
  | cqflush a => exact hcmd hstep (h.of_rest rfl rfl)
  | lineSet a => exact hcmd hstep (State.lineSet_idleLaw h)
  | lineUp a => exact hcmd hstep (State.lineUp_idleLaw h)
  | lineDown a => exact hcmd hstep (State.lineDown_idleLaw h)
  | unknownOpcode op a => exact hcmd hstep h
  | mapDataWrite v => exact hev hstep (State.writeMapData_idleLaw h v)
  | intCtrlWrite v => exact hev hstep (State.writeIntCtrl_idleLaw h v)
  | controlWordWrite cw v => exact hev hstep (State.writeControl_idleLaw h cw v)
  | statusWrite | readOnlyWrite | samplesServedLowRead | registerWrite =>
    cases hstep
    exact State.hostWrite_idleLaw h _
  | pinReset => cases hstep; exact nofun
  | resetRelease => cases hstep; exact State.releaseReset_idleLaw h
  | syncArrival bit => exact hev hstep (State.sampleHigh_idleLaw h bit)
  | trialTimeout => exact hev hstep (State.endTrial_idleLaw h)
  | missedSync => exact hev hstep (State.missSync_idleLaw h)
  | frameEnd => exact hev hstep (State.endFrame_idleLaw h)
  | transmitSlot k => exact hev hstep (State.startTxSlot_idleLaw h k)
  | receiveSlot k x => exact hev hstep (State.endRxSlot_idleLaw h k x)
  | busGrant => exact hpin true (State.settle_idleLaw _) hstep
  | busGrantLow => exact hpin false (State.settle_idleLaw _) hstep
  | busGrantWithdrawn => exact hpin false (State.settle_idleLaw _) hstep
  | busYield b =>
    cases hstep
    split
    · exact State.settle_idleLaw _
    · exact State.pins_idleLaw h s.mover.bgnt b
  | wordTransferComplete x => exact hev hstep (State.settle_idleLaw _)
  | busFault => exact hev hstep (State.settle_idleLaw _)
  | holdoffExpiry => exact hev hstep (h.of_rest rfl rfl)
  | fsyncLowSample => exact hev hstep (State.sampleLow_idleLaw h)

end

/-- Settles O54: a row that can raise a request ends with the Mover's look, and so does a period of REFCLK in which the
ready timer ends or the Mover comes to IDLE. -/
theorem everyStepKeepsIdleWithoutRequest : Obligations.EveryStepKeepsIdleWithoutRequest := by
  unfold Obligations.EveryStepKeepsIdleWithoutRequest
  intro s t h hstep
  simp only [step] at hstep
  split at hstep
  · cases hstep
    exact State.idle_idleLaw h
  · rename_i c rest hp
    exact exec_idleLaw (s := { s with pending := rest }) (h.of_rest rfl rfl) hstep

end Sys2Proof.Machine
end

section
/-! PROOFS. Underrun slots (R70 to R72, R63, R146): what a transmit slot does to a stream whose FIFO is empty. -/

namespace Sys2Proof.Machine

/-- R70, R72: the stream after an underrun slot, with its count at most 65535. -/
theorem StreamCtx.underrunNow_eq (c : StreamCtx) : c.underrunNow = { c with
    underrunEp := true
    underrunSlots := if c.underrunSlots = 65535#16 then 65535#16 else c.underrunSlots + 1 } := by
  rw [StreamCtx.underrunNow, saturate_eq]

theorem LinePort.drive_eq (l : LinePort) (i : StreamId) (width : Nat) (x : Option Sample) : l.drive i width x =
    { l with
      txStream := if x.isSome then some i else none
      txBits := match x with
        | some y => bitsOf width y.toNat
        | none => [] } := by
  cases x <;> rfl

/-- A halt with its cascade, of a stream whose context has changed but for its configuration and its state (R63, R146):
the records are those of the stream as it was. -/
theorem State.haltCascade_withStream {s : State} {i : StreamId} {c : StreamCtx} (cause : HaltCause)
    (hcfg : c.cfg = (s.stream i).cfg) (hst : c.state = (s.stream i).state) (hw : (s.stream i).working = true) :
    (s.withStream i c).HaltedBy ((s.withStream i c).haltCascade i cause) i cause
    ∧ ((s.withStream i c).haltCascade i cause).cq = s.cq.raiseAll (s.haltRecords i cause)
    ∧ (s.withStream i c).haltCascade i cause = { s with
        streams := ((s.withStream i c).haltCascade i cause).streams
        cq := ((s.withStream i c).haltCascade i cause).cq } := by
  have hsame : ∀ j, ((s.withStream i c).stream j).group? = (s.stream j).group?
      ∧ ((s.withStream i c).stream j).working = (s.stream j).working := fun j => by
    rw [State.stream_withStream]
    split
    · rename_i hj
      subst hj
      exact ⟨StreamCtx.group?_congr hcfg, by simp only [StreamCtx.working, hst]⟩
    · exact ⟨rfl, rfl⟩
  obtain ⟨hhalted, hcq, hframe⟩ := State.haltCascade_spec (s.withStream i c) i cause ((hsame i).2.trans hw)
  exact ⟨hhalted, hcq.trans (congrArg s.cq.raiseAll (State.haltRecords_congr hsame rfl i cause)), hframe⟩

section
variable {s : State} {i : StreamId} {cfg : StreamConfig}
  (hc : (s.stream i).cfg = some cfg) (hst : (s.stream i).state = .running ∨ (s.stream i).state = .stopping)
  (hf : (s.stream i).fifo = [])
include hc hst hf

/-- An underrun slot that goes on (R70, R71): the stream counts it, an episode that was not open is reported, and the
slot carries what the policy says. -/
theorem State.serveTx_underrun (width : Nat) (hpolicy : cfg.underrun ≠ .halt) : s.serveTx i width =
    { s.withStream i (s.stream i).underrunNow with
      line := s.line.drive i width (cfg.underrunSample (s.stream i).lastSample)
      cq := if (s.stream i).underrunEp then s.cq else s.cq.raise (.underrun i s.line.frame) } := by
  rw [← s.putStream_eq_withStream i (s.stream i).underrunNow rfl]
  rcases hst with hst | hst <;> simp only [State.serveTx, hc, hst, hf, if_neg hpolicy] <;>
    cases (s.stream i).underrunEp <;> rfl

/-- An underrun slot under HALT (R72): the stream counts it and halts with cause XRUN, then its group (R63, R146), and
the slot is released. -/
theorem State.serveTx_underrun_halt (width : Nat) (hpolicy : cfg.underrun = .halt) :
    State.HaltedBy (s.withStream i (s.stream i).underrunNow) (s.serveTx i width) i .xrun
    ∧ (s.serveTx i width).cq = s.cq.raiseAll (s.haltRecords i .xrun)
    ∧ s.serveTx i width = { s with
        streams := (s.serveTx i width).streams
        cq := (s.serveTx i width).cq
        line := s.line.drive i width none } := by
  have hserve : s.serveTx i width = { (s.withStream i (s.stream i).underrunNow).haltCascade i .xrun with
      line := ((s.withStream i (s.stream i).underrunNow).haltCascade i .xrun).line.drive i width none } := by
    rw [← s.putStream_eq_withStream i (s.stream i).underrunNow rfl]
    rcases hst with hst | hst <;> simp only [State.serveTx, hc, hst, hf, if_pos hpolicy]
  have hwork : (s.stream i).working = true := by rcases hst with hst | hst <;> simp [StreamCtx.working, hst]
  obtain ⟨hhalted, hcq, hframe⟩ :=
    State.haltCascade_withStream (c := (s.stream i).underrunNow) .xrun rfl rfl hwork
  rw [hserve]
  generalize (s.withStream i (s.stream i).underrunNow).haltCascade i .xrun = u at hhalted hcq hframe
  exact ⟨hhalted, hcq, by rw [hframe]⟩

end

/-- Settles O31. -/
theorem transmitSlotUnderruns : Obligations.TransmitSlotUnderruns := by
  unfold Obligations.TransmitSlotUnderruns
  intro s slot i cfg hr ho hc hst hf c c' driven sends
  have hcount : c.underrunNow = c' := c.underrunNow_eq
  have hdriven : ∀ x, (s.line.atSlot (slot * s.line.fmt.slotLen) slot).drive i cfg.width x = driven x := fun x =>
    LinePort.drive_eq _ i cfg.width x
  have hsends : ∀ x, cfg.underrun ≠ .halt → cfg.underrunSample c.lastSample = x → sends x := by
    rintro _ hpolicy rfl
    have hserve := State.serveTx_underrun
      (s := { s with line := s.line.atSlot (slot * s.line.fmt.slotLen) slot }) hc hst hf cfg.width hpolicy
    rw [hdriven] at hserve
    exact exec_transmitSlot hr ho (hcount ▸ hserve)
  refine ⟨fun h => hsends _ (by simp [h]) (by simp [StreamConfig.underrunSample, h]),
    fun h => hsends _ (by simp [h]) (by simp [StreamConfig.underrunSample, h]),
    fun h => hsends _ (by simp [h]) (by simp [StreamConfig.underrunSample, h]), fun h => ?_⟩
  obtain ⟨hhalted, hcq, hframe⟩ := State.serveTx_underrun_halt
    (s := { s with line := s.line.atSlot (slot * s.line.fmt.slotLen) slot }) hc hst hf cfg.width h
  rw [hdriven] at hframe
  exact ⟨_, exec_transmitSlot hr ho rfl, hcount ▸ hhalted, hcq, hframe⟩

end Sys2Proof.Machine
end

section
/-! PROOFS. The descriptor pool (R86, R87) and the posting counters (R102): every act but a POST only returns
descriptors, each counted once and its record freed, and a POST takes one record for one count (O49). -/

namespace Sys2Proof.Machine

/-! ### The descriptors of one stream (R98, R101) -/

/-- The stream has returned some of its descriptors, each counted in buffers_done, and none was posted. -/
def StreamCtx.Returns (c c' : StreamCtx) : Prop :=
  ∃ n, c'.queue.length + n = c.queue.length ∧ c'.postedTotal = c.postedTotal
    ∧ c'.buffersDone = c.buffersDone + BitVec.ofNat 16 n

/-- None is returned. -/
theorem StreamCtx.Returns.none {c c' : StreamCtx} (hq : c'.queue = c.queue) (hp : c'.postedTotal = c.postedTotal)
    (hb : c'.buffersDone = c.buffersDone) : c.Returns c' := ⟨0, by rw [hq]; rfl, hp, by simp [hb]⟩

theorem StreamCtx.Returns.refl (c : StreamCtx) : c.Returns c := .none rfl rfl rfl

/-- All are returned. -/
theorem StreamCtx.Returns.all {c c' : StreamCtx} (hq : c'.queue = []) (hp : c'.postedTotal = c.postedTotal)
    (hb : c'.buffersDone = c.buffersDone + BitVec.ofNat 16 c.queue.length) : c.Returns c' :=
  ⟨c.queue.length, by simp [hq], hp, hb⟩

/-- All but the head are returned. -/
theorem StreamCtx.Returns.tail {c c' : StreamCtx} (hq : c'.queue = c.queue.take 1)
    (hp : c'.postedTotal = c.postedTotal)
    (hb : c'.buffersDone = c.buffersDone + BitVec.ofNat 16 (c.queue.drop 1).length) : c.Returns c' :=
  ⟨(c.queue.drop 1).length, by rw [hq, ← List.length_append, List.take_append_drop], hp, hb⟩

theorem StreamCtx.Returns.trans {a b c : StreamCtx} (h : a.Returns b) (k : b.Returns c) : a.Returns c := by
  obtain ⟨n, hn, hp, hb⟩ := h
  obtain ⟨m, hm, hp', hb'⟩ := k
  exact ⟨n + m, by omega, hp'.trans hp, by rw [hb', hb, BitVec.ofNat_add, BitVec.add_assoc]⟩

/-- The head is returned (R94, R98). -/
theorem StreamCtx.nextHead_returns {c : StreamCtx} {d : Descriptor} {rest : List Descriptor}
    (hq : c.queue = d :: rest) : c.Returns (c.nextHead d rest) := ⟨1, by rw [hq]; rfl, rfl, rfl⟩

theorem StreamCtx.testEnd_returns (c : StreamCtx) (n : Nat) : c.Returns (c.testEnd n) := by
  simp only [StreamCtx.testEnd]
  split
  · exact .refl c
  · split
    · exact .none rfl rfl rfl
    · exact .refl c

theorem StreamCtx.endReached_returns (c : StreamCtx) : c.Returns c.endReached := by
  simp only [StreamCtx.endReached]
  split <;> exact .none rfl rfl rfl

theorem StreamCtx.Turn.returns {c c' : StreamCtx} (t : c.Turn c') : c.Returns c' := by
  cases t with
  | sweep | abort | returnAll => exact .all rfl rfl rfl
  | flush => exact .tail rfl rfl rfl
  | testEnd n => exact c.testEnd_returns n
  | _ => exact .none rfl rfl rfl

theorem StreamCtx.Turns.returns {c c' : StreamCtx} (t : c.Turns c') : c.Returns c' := by
  induction t with
  | refl => exact .refl c
  | tail _ k ih => exact ih.trans k.returns

/-- The preparation of a word returns none (R114). -/
theorem StreamCtx.sameButTaken.returns {c c' : StreamCtx} (h : c.sameButTaken c') : c.Returns c' := by
  obtain ⟨-, -, hq, -, -, -, -, -, -, -, hp, hb, -⟩ := StreamCtx.sameButTaken_fields h
  exact .none hq hp hb

/-- A stop of a stream, in any state. -/
theorem StreamCtx.Stopped.returns {c c' : StreamCtx} {i : StreamId} {frame : BitVec 16} {b : Bool} {rs : List Record}
    (h : c.Stopped i frame b c' rs) : c.Returns c' := by
  by_cases hf : c.stopFlushes b
  · rw [(h.1 hf).1]
    exact .tail rfl rfl rfl
  · rw [(h.2 hf).1]
    exact .all rfl rfl rfl

/-- A fetched word returns the head, or none (R95). -/
theorem StreamCtx.fetchWord_returns (c : StreamCtx) (i : StreamId) (frame : BitVec 16) (w : Word) :
    c.Returns (c.fetchWord i frame w).1 := by
  cases hc : c.cfg with
  | none => simp only [StreamCtx.fetchWord, hc]; exact .refl c
  | some cfg =>
    cases hq : c.queue with
    | nil => simp only [StreamCtx.fetchWord, hc, hq]; exact .refl c
    | cons d rest =>
      have hfed : c.Returns (c.fed cfg d w) := .none rfl rfl rfl
      have hnext := hfed.trans (StreamCtx.nextHead_returns (c := c.fed cfg d w) hq)
      rw [StreamCtx.fetchWord_fst hc hq]
      split
      · split
        · exact hnext.trans (StreamCtx.endReached_returns _)
        · exact hnext
      · exact hfed

/-- A stored word returns the head, or none (R96, R56, R60). -/
theorem StreamCtx.storeWord_returns (c : StreamCtx) (i : StreamId) (frame : BitVec 16) (n : Nat) :
    c.Returns (c.storeWord i frame n).1 := by
  cases hc : c.cfg with
  | none => simp only [StreamCtx.storeWord, hc]; exact .refl c
  | some cfg =>
    cases hq : c.queue with
    | nil => simp only [StreamCtx.storeWord, hc, hq]; exact .refl c
    | cons d rest =>
      have hstored : c.Returns (c.stored n) := .none rfl rfl rfl
      have hnext := hstored.trans (StreamCtx.nextHead_returns (c := c.stored n) hq)
      rcases StreamCtx.storeWord_cases hc hq i frame n with ⟨heq, -, -⟩ | heq | heq
      · exact heq ▸ hstored
      · exact heq ▸ hnext
      · exact heq ▸ hnext.trans (.none rfl rfl rfl)

/-! ### The pool and the counters of the whole block -/

/-- R86, R87 and R102 together. -/
def State.PoolSound (s : State) : Prop := s.PoolLaw ∧ s.CounterLaw

/-- The pool and the counters are sound after, when they are before. -/
structure State.KeepsPool (s t : State) : Prop where
  sound : s.PoolSound → t.PoolSound

theorem State.KeepsPool.refl (s : State) : s.KeepsPool s := ⟨id⟩

theorem State.KeepsPool.trans {s t u : State} (h : s.KeepsPool t) (k : t.KeepsPool u) : s.KeepsPool u :=
  ⟨k.sound ∘ h.sound⟩

/-- An act after another, the last one first. -/
theorem State.KeepsPool.after {s t u : State} (k : t.KeepsPool u) (h : s.KeepsPool t) : s.KeepsPool u := h.trans k

/-- The one reason why an act other than a POST keeps the pool: its streams only return descriptors, and the records
of these join the free list. -/
theorem State.KeepsPool.of_returns {s t : State} (hs : ∀ i, (s.stream i).Returns (t.stream i))
    (hfree : t.free + t.queued = s.free + s.queued) : s.KeepsPool t := by
  refine ⟨fun ⟨⟨hall, hmost⟩, hcount⟩ => ?_⟩
  refine ⟨⟨hfree.trans hall, fun i => ?_⟩, fun i => ?_⟩
  · obtain ⟨n, hn, -⟩ := hs i
    have := hmost i
    omega
  · obtain ⟨n, hn, hp, hb⟩ := hs i
    rw [hp, hb, sub_add_eq_sub_sub, hcount i, ← hn, BitVec.ofNat_add, add_sub_cancel_right]

/-- An update of the other units. -/
theorem State.KeepsPool.of_eq {s t : State} (hs : t.streams = s.streams) (hf : t.free = s.free) : s.KeepsPool t :=
  .of_returns (fun _ => by rw [State.stream_congr hs]; exact .refl _) (by rw [hf, State.queued_congr hs])

theorem State.KeepsPool.foldl {α : Type} {f : State → α → State}
    (h : ∀ (a : State) (x : α), a.KeepsPool (f a x)) (l : List α) (s : State) : s.KeepsPool (l.foldl f s) := by
  induction l generalizing s with
  | nil => exact .refl s
  | cons x l ih => exact (h s x).trans (ih (f s x))

theorem State.putStream_keepsPool {s : State} {i : StreamId} {c : StreamCtx} (h : (s.stream i).Returns c) :
    s.KeepsPool (s.putStream i c) := by
  refine .of_returns (fun j => ?_) (s.free_queued_putStream i c ?_)
  · rw [State.stream_putStream]
    split
    · rename_i hj
      exact hj ▸ h
    · exact .refl _
  · obtain ⟨n, hn, -⟩ := h
    omega

/-- A write that keeps the queue and its counters. -/
theorem State.writeStream_keepsPool {s : State} {i : StreamId} (c : StreamCtx) (hq : c.queue = (s.stream i).queue)
    (hp : c.postedTotal = (s.stream i).postedTotal) (hb : c.buffersDone = (s.stream i).buffersDone) :
    s.KeepsPool (s.putStream i c) := State.putStream_keepsPool (.none hq hp hb)

theorem State.apply_keepsPool {s : State} {i : StreamId} {r : StreamCtx × List Record}
    (h : (s.stream i).Returns r.1) : s.KeepsPool (s.apply i r) :=
  (State.putStream_keepsPool h).trans (.of_eq rfl rfl)

/-- The acts of the Mover prepare words, and move no descriptor. -/
theorem State.MoverAct.keepsPool {s t : State} (h : s.MoverAct t) : s.KeepsPool t := by
  obtain ⟨-, -, hfree, -⟩ := h.fields
  have hlen : ∀ i, (t.stream i).queue.length = (s.stream i).queue.length := fun i => by
    obtain ⟨-, -, hq, -⟩ := StreamCtx.sameButTaken_fields (h.2 i)
    rw [hq]
  exact .of_returns (fun i => (h.2 i).returns) (by simp only [hfree, State.queued, hlen])

theorem State.settle_keepsPool (s : State) : s.KeepsPool s.settle :=
  .after s.settle_act.keepsPool (.of_eq rfl rfl)

/-- An act that keeps the pool, with what follows it. -/
theorem State.KeepsPool.settle {s t : State} (h : s.KeepsPool t) : s.KeepsPool t.settle :=
  h.trans t.settle_keepsPool

/-! ### Acts of several streams -/

theorem State.haltOne_keepsPool (s : State) (i : StreamId) (cause : HaltCause) :
    s.KeepsPool (s.haltOne i cause) := by
  simp only [State.haltOne]
  split
  · exact State.apply_keepsPool (.none rfl rfl rfl)
  · exact .refl s

theorem State.haltCascade_keepsPool (s : State) (i : StreamId) (cause : HaltCause) :
    s.KeepsPool (s.haltCascade i cause) := by
  simp only [State.haltCascade]
  split
  · exact s.haltOne_keepsPool i cause
  · exact (s.haltOne_keepsPool i cause).trans (.foldl (fun a j => a.haltOne_keepsPool j .group) _ _)

theorem State.boundary_keepsPool (s : State) (lp : BitVec 16 → List Record) : s.KeepsPool (s.boundary lp) := by
  obtain ⟨-, -, hfree, ⟨_, _, hcross, -⟩, -⟩ := s.boundary_spec lp
  exact .of_returns (fun i => (hcross i).turns.returns) hfree

/-- A frame boundary on a line port that has moved on, with what follows it. -/
theorem State.boundaryAt_keepsPool (s : State) (l : LinePort) (lp : BitVec 16 → List Record) :
    s.KeepsPool (State.boundary { s with line := l } lp).settle :=
  .settle (.after (State.boundary_keepsPool _ lp) (.of_eq rfl rfl))

theorem State.loseAlignment_keepsPool (s : State) : s.KeepsPool s.loseAlignment := by
  obtain ⟨_, _, _, hlost, -, -, hfree, -⟩ := s.loseAlignment_spec
  exact .of_returns (fun i => (hlost i).turns.returns) hfree

theorem State.takeLineDown_keepsPool (s : State) : s.KeepsPool s.takeLineDown := by
  obtain ⟨_, -, hstr, -, -, -, hfree⟩ := s.takeLineDown_spec
  refine .of_returns (fun i => ?_) hfree
  rw [hstr]
  split
  · exact .none rfl rfl rfl
  · exact .refl _

/-! ### The stream commands and the group commands -/

theorem State.runCommand_keepsPool {s : State} (op arg : Byte) {run : State → Answer}
    (h : s.KeepsPool (run s).1) : s.KeepsPool (s.runCommand op arg run) := by
  simp only [State.runCommand]
  split
  · exact .refl s
  · exact h.trans (.of_eq rfl rfl)

theorem State.forStream_keepsPool {s : State} (arg : Byte) {run : StreamId → Answer}
    (h : ∀ i, s.KeepsPool (run i).1) : s.KeepsPool (s.forStream arg run).1 := by
  simp only [State.forStream]
  split
  · exact .refl s
  · exact h _

theorem State.forGroup_keepsPool {s : State} (arg : Byte) {run : GroupId → Answer}
    (h : ∀ g, s.KeepsPool (run g).1) : s.KeepsPool (s.forGroup arg run).1 := by
  simp only [State.forGroup]
  split
  · exact .refl s
  · exact h _

theorem State.configure_keepsPool (s : State) (i : StreamId) : s.KeepsPool (s.configure i).1 := by
  have hput : ∀ cfg, s.KeepsPool ((s.putStream i ((s.stream i).reconfigure (some cfg))).leaveFrame i) := fun cfg =>
    (State.writeStream_keepsPool ((s.stream i).reconfigure (some cfg)) rfl rfl rfl).trans (.of_eq rfl rfl)
  simp only [State.configure]
  repeat' split
  all_goals try exact .refl s
  exact hput _

theorem State.deconfigure_keepsPool (s : State) (i : StreamId) : s.KeepsPool (s.deconfigure i).1 := by
  simp only [State.deconfigure]
  split
  · exact .refl s
  · exact State.writeStream_keepsPool _ rfl rfl rfl

/-- What a POST does to the queue and the counters (R90). -/
theorem StreamCtx.enqueue_fields (c : StreamCtx) (d : Descriptor) (n : Nat) :
    (c.enqueue d n).queue.length = c.queue.length + 1 ∧ (c.enqueue d n).postedTotal = c.postedTotal + 1
    ∧ (c.enqueue d n).buffersDone = c.buffersDone := by
  simp only [StreamCtx.enqueue, StreamCtx.testEnd]
  repeat' split
  all_goals exact ⟨by simp, rfl, rfl⟩

/-- R90: a POST takes one record of the pool for one count, where a record is free and the queue has room (R88). -/
theorem State.enqueue_keepsPool {s : State} {i : StreamId} (d : Descriptor) (n : Nat) (hfree : s.free ≠ 0)
    (hroom : (s.stream i).queue.length < 8) : s.KeepsPool (s.putStream i ((s.stream i).enqueue d n)) := by
  refine ⟨fun ⟨⟨hall, hmost⟩, hcount⟩ => ?_⟩
  obtain ⟨hq, hp, hb⟩ := (s.stream i).enqueue_fields d n
  generalize (s.stream i).enqueue d n = c at hq hp hb ⊢
  have hqueued := s.queued_withStream i c
  have hsame : (s.putStream i c).queued = (s.withStream i c).queued := State.queued_congr rfl
  refine ⟨⟨?_, fun j => ?_⟩, fun j => ?_⟩
  · rw [hsame, State.putStream_free]
    omega
  · rw [State.stream_putStream]
    split
    · omega
    · exact hmost j
  · rw [State.stream_putStream]
    split
    · rw [hp, hb, hq, BitVec.ofNat_add, ← hcount i, add_sub_right_comm]
      rfl
    · exact hcount j

theorem State.post_keepsPool (s : State) (i : StreamId) : s.KeepsPool (s.post i).1 := by
  have hpost : ∀ d n p, s.free ≠ 0 → (s.stream i).queue.length < 8 → s.KeepsPool
      (State.settle { s.putStream i ((s.stream i).enqueue d n) with nextPosting := p }) :=
    fun d n p hfree hroom => .settle ((State.enqueue_keepsPool d n hfree hroom).trans (.of_eq rfl rfl))
  simp only [State.post]
  repeat' split
  all_goals try exact .refl s
  rename_i hroom hfree
  exact hpost _ _ _ hfree (Nat.lt_of_not_le hroom)

theorem State.startStream_keepsPool (s : State) (i : StreamId) : s.KeepsPool (s.startStream i).1 := by
  have harm : ∀ m, s.KeepsPool (s.putStream i ((s.stream i).arm m)).settle := fun m =>
    (State.writeStream_keepsPool ((s.stream i).arm m) rfl rfl rfl).settle
  simp only [State.startStream]
  repeat' split
  all_goals try exact .refl s
  exact harm _

theorem StreamCtx.stopNow_returns (c : StreamCtx) (i : StreamId) (frame : BitVec 16) (b : Bool) :
    c.Returns (c.stopNow i frame b).1 := (c.stopNow_spec i frame b).returns

theorem State.stopStream_keepsPool (s : State) (i : StreamId) : s.KeepsPool (s.stopStream i).1 := by
  simp only [State.stopStream]
  split
  · exact .refl s
  · split
    case h_1 => exact (State.apply_keepsPool StreamCtx.Turn.sweep.returns).settle
    case h_2 =>
      split
      · exact .settle (State.writeStream_keepsPool _ rfl rfl rfl)
      · exact (State.apply_keepsPool (StreamCtx.stopNow_returns _ _ _ _)).settle
    all_goals exact .refl s

theorem State.abortOne_keepsPool (s : State) (i : StreamId) : s.KeepsPool (s.abortOne i) := by
  simp only [State.abortOne]
  split
  · rename_i hst
    exact State.apply_keepsPool (StreamCtx.Turn.returnAll hst).returns
  · exact State.apply_keepsPool StreamCtx.Turn.abort.returns

theorem State.clearStream_keepsPool (s : State) (i : StreamId) : s.KeepsPool (s.clearStream i).1 := by
  simp only [State.clearStream]
  split
  · exact (State.apply_keepsPool StreamCtx.Turn.abort.returns).settle
  all_goals exact .refl s

theorem State.gstart_keepsPool (s : State) (g : GroupId) : s.KeepsPool (s.gstart g).1 := by
  have harm : ∀ m, s.KeepsPool ((s.armMembers g m).setGroup g (.start m)).settle := fun m =>
    .settle (.trans (.foldl (fun a i => State.writeStream_keepsPool ((a.stream i).arm m) rfl rfl rfl) (s.members g) s)
      (.of_eq rfl rfl))
  simp only [State.gstart]
  repeat' split
  all_goals try exact .refl s
  exact harm _

theorem State.gstopMember_keepsPool (s : State) (i : StreamId) : s.KeepsPool (s.gstopMember i) := by
  simp only [State.gstopMember]
  split
  case h_1 => exact State.apply_keepsPool StreamCtx.Turn.sweep.returns
  case h_2 =>
    split
    · exact State.writeStream_keepsPool _ rfl rfl rfl
    · exact State.apply_keepsPool (StreamCtx.stopNow_returns _ _ _ _)
  all_goals exact .refl s

theorem State.gstop_keepsPool (s : State) (g : GroupId) : s.KeepsPool (s.gstop g).1 := by
  have hall := State.KeepsPool.foldl State.gstopMember_keepsPool (s.members g) s
  simp only [State.gstop]
  split
  · split
    · exact .settle (hall.trans (.of_eq rfl rfl))
    · exact hall.settle
  · exact .refl s

theorem State.gabort_keepsPool (s : State) (g : GroupId) : s.KeepsPool (s.gabort g).1 :=
  .settle (.trans (.foldl State.abortOne_keepsPool (s.abortable g) s) (.of_eq rfl rfl))

/-! ### The line, the map and the window -/

theorem State.event_keepsPool {s : State} {run : State → State} (h : s.KeepsPool (run s)) :
    s.KeepsPool (s.event run) := by
  simp only [State.event]
  split
  · exact .refl s
  · exact h

theorem State.hostWrite_keepsPool (s : State) (run : Window → Window) : s.KeepsPool (s.hostWrite run) := by
  simp only [State.hostWrite]
  split
  · exact .refl s
  · exact .of_eq rfl rfl

theorem State.mapswap_keepsPool (s : State) : s.KeepsPool s.mapswap.1 := by
  simp only [State.mapswap]
  repeat' split
  all_goals exact .of_eq rfl rfl

theorem State.mapcopy_keepsPool (s : State) : s.KeepsPool s.mapcopy.1 := by
  simp only [State.mapcopy]
  split <;> exact .of_eq rfl rfl

theorem State.cqpop_keepsPool (s : State) : s.KeepsPool s.cqpop.1 := by
  simp only [State.cqpop]
  split <;> exact .of_eq rfl rfl

theorem State.lineSet_keepsPool (s : State) : s.KeepsPool s.lineSet.1 := by
  simp only [State.lineSet]
  repeat' split
  all_goals exact .of_eq rfl rfl

theorem State.lineUp_keepsPool (s : State) : s.KeepsPool s.lineUp.1 := by
  simp only [State.lineUp]
  split
  · exact .refl s
  · split
    · exact .of_eq rfl rfl
    all_goals exact s.boundaryAt_keepsPool _ _

theorem State.lineDown_keepsPool (s : State) : s.KeepsPool s.lineDown.1 := by
  simp only [State.lineDown]
  split
  · exact s.takeLineDown_keepsPool.settle
  · exact .refl s

theorem State.takeSync_keepsPool (s : State) (pos : Nat) : s.KeepsPool (s.takeSync pos) := by
  simp only [State.takeSync]
  split
  · exact .refl s
  · exact .of_eq rfl rfl
  · split
    · exact .of_eq rfl rfl
    · split
      · exact s.boundaryAt_keepsPool _ _
      · exact .refl s
  all_goals
    split
    · exact s.boundaryAt_keepsPool _ _
    · split
      · exact s.boundaryAt_keepsPool _ _
      · exact .refl s

theorem State.sampleHigh_keepsPool (s : State) (bit : Nat) : s.KeepsPool (s.sampleHigh bit) := by
  simp only [State.sampleHigh]
  split
  · exact s.takeSync_keepsPool _
  · exact .refl s

theorem State.sampleLow_keepsPool (s : State) : s.KeepsPool s.sampleLow := by
  simp only [State.sampleLow]
  split <;> exact .of_eq rfl rfl

theorem State.endTrial_keepsPool (s : State) : s.KeepsPool s.endTrial := by
  simp only [State.endTrial]
  split <;> exact .of_eq rfl rfl

theorem State.missSync_keepsPool (s : State) : s.KeepsPool s.missSync := by
  simp only [State.missSync]
  split
  · split
    · exact s.boundaryAt_keepsPool _ _
    · exact .settle (.after (State.loseAlignment_keepsPool _) (.of_eq rfl rfl))
  · exact .refl s

theorem State.endFrame_keepsPool (s : State) : s.KeepsPool s.endFrame := by
  simp only [State.endFrame]
  split
  · exact s.boundaryAt_keepsPool _ _
  · exact .refl s

theorem State.writeMapData_keepsPool (s : State) (v : Word) : s.KeepsPool (s.writeMapData v) := by
  simp only [State.writeMapData]
  split <;> exact .of_eq rfl rfl

theorem State.writeIntCtrl_keepsPool (s : State) (v : Word) : s.KeepsPool (s.writeIntCtrl v) := by
  simp only [State.writeIntCtrl]
  split <;> exact .of_eq rfl rfl

theorem State.writeControl_keepsPool (s : State) (cw : ControlWord) (v : Word) :
    s.KeepsPool (s.writeControl cw v) := by
  cases cw with
  | holdoff => exact .of_eq rfl rfl
  | busCtrl => simp only [State.writeControl]; split <;> exact .of_eq rfl rfl
  | readyTimeout => simp only [State.writeControl]; split <;> exact .of_eq rfl rfl

/-! ### The bus, the slots and time -/

theorem State.takeWord_keepsPool (s : State) (m : Move) (w : InFlight) (data : Word) :
    s.KeepsPool (s.takeWord m w data) := by
  simp only [State.takeWord]
  split
  · split
    · exact State.apply_keepsPool (StreamCtx.fetchWord_returns _ _ _ _)
    · exact State.apply_keepsPool (StreamCtx.storeWord_returns _ _ _ _)
  · exact .refl s

theorem State.completeWord_keepsPool (s : State) (x : Option Word) : s.KeepsPool (s.completeWord x) := by
  simp only [State.completeWord]
  split
  · exact .after (State.goOn_act _ _).keepsPool ((s.takeWord_keepsPool _ _ _).trans (.of_eq rfl rfl))
  · exact .refl s

theorem State.faultWord_keepsPool (s : State) : s.KeepsPool s.faultWord := by
  simp only [State.faultWord]
  split
  · refine State.KeepsPool.trans ?_ (State.endTenure_act _).keepsPool
    split
    · exact .after (State.haltCascade_keepsPool _ _ _) (.of_eq rfl rfl)
    · exact .of_eq rfl rfl
  · exact .refl s

theorem State.sampleGrant_keepsPool (s : State) : s.KeepsPool s.sampleGrant := by
  rw [State.sampleGrant_eq]
  exact .of_eq rfl rfl

theorem State.releaseReset_keepsPool (s : State) : s.KeepsPool s.releaseReset := by
  simp only [State.releaseReset]
  split
  · exact .after (State.sampleGrant_keepsPool _) (.of_eq rfl rfl)
  · exact .refl s

/-- A transmit slot moves no descriptor (R68 to R72). -/
theorem State.serveTx_keepsPool (s : State) (i : StreamId) (width : Nat) : s.KeepsPool (s.serveTx i width) := by
  have hsend : ∀ (t : State) (x : Option Sample), s.KeepsPool t →
      s.KeepsPool { t with line := t.line.drive i width x } := fun t x h => h.trans (.of_eq rfl rfl)
  have hsample : ∀ x rest, s.KeepsPool { s.putStream i ((s.stream i).takeSample x rest) with
      line := s.line.drive i width (some x) } := fun x rest =>
    hsend (s.putStream i _) _ (State.writeStream_keepsPool ((s.stream i).takeSample x rest) rfl rfl rfl)
  have hunder : s.KeepsPool (s.putStream i (s.stream i).underrunNow) :=
    State.writeStream_keepsPool _ rfl rfl rfl
  simp only [State.serveTx]
  split
  · exact hsend s none (.refl s)
  · split
    case h_4 | h_5 =>
      split
      · exact hsample _ _
      · split
        · exact hsend _ none (hunder.trans (State.haltCascade_keepsPool _ _ _))
        · refine hsend _ _ ?_
          split
          · exact hunder
          · exact hunder.trans (.of_eq rfl rfl)
    case h_6 =>
      split
      · exact hsample _ _
      · exact hsend (s.putStream i _) none (State.writeStream_keepsPool _ rfl rfl rfl)
    all_goals exact hsend s none (.refl s)

theorem State.startTxSlot_keepsPool (s : State) (slot : Nat) : s.KeepsPool (s.startTxSlot slot) := by
  simp only [State.startTxSlot]
  split
  · exact .refl s
  · exact .settle (.after (State.serveTx_keepsPool _ _ _) (.of_eq rfl rfl))

/-- A receive slot moves no descriptor (R73 to R76). -/
theorem State.offerRx_keepsPool (s : State) (i : StreamId) (x : Sample) : s.KeepsPool (s.offerRx i x) := by
  have hover : ∀ n, s.KeepsPool (s.putStream i { s.stream i with overrunSamples := n, overrunEp := true }) := fun n =>
    State.writeStream_keepsPool _ rfl rfl rfl
  have henter : (s.stream i).Returns ((s.stream i).enter x) := .none rfl rfl rfl
  by_cases hst : (s.stream i).state = .running ∨ (s.stream i).state = .stopping
  · cases hcfg : (s.stream i).cfg with
    | none => simp only [State.offerRx, hcfg]; exact .refl s
    | some cfg =>
      rw [State.offerRx_taking x hcfg hst]
      split
      · exact State.putStream_keepsPool (henter.trans (StreamCtx.testEnd_returns _ _))
      · split
        · exact (hover _).trans (State.haltCascade_keepsPool _ _ _)
        · simp only
          split
          · exact hover _
          · exact (hover _).trans (.of_eq rfl rfl)
  · rw [State.offerRx_refused x (not_or.1 hst)]
    exact .refl s

theorem State.endRxSlot_keepsPool (s : State) (slot : Nat) (rxd : Sample) : s.KeepsPool (s.endRxSlot slot rxd) := by
  simp only [State.endRxSlot]
  split
  · exact .refl s
  · exact .settle (.after (State.offerRx_keepsPool _ _ _) (.of_eq rfl rfl))

theorem State.readyTick_keepsPool (s : State) : s.KeepsPool s.readyTick := by
  simp only [State.readyTick]
  split
  · exact .refl s
  · split
    · exact s.faultWord_keepsPool.settle
    · exact .of_eq rfl rfl

theorem State.timebase_keepsPool (s : State) : s.KeepsPool s.timebase := by
  simp only [State.timebase, State.tick]
  split
  · exact .after (State.readyTick_keepsPool _) (.of_eq rfl rfl)
  · exact .of_eq rfl rfl

theorem State.bitClock_keepsPool (s : State) : s.KeepsPool s.bitClock := by
  rw [(State.bitClock_spec (s := s) (t := s) (n := s.line.tbLeft) rfl rfl).2]
  exact .of_eq rfl rfl

/-- One period of REFCLK. -/
theorem State.idle_keepsPool (s : State) : s.KeepsPool s.idle := by
  simp only [State.idle]
  split
  · exact .refl s
  · exact (s.sampleGrant_keepsPool.trans (State.timebase_keepsPool _)).trans (State.bitClock_keepsPool _)

/-! ### Every row -/

/-- After a pin reset the pool is whole and no descriptor is queued (R86). -/
theorem State.pinReset_keepsPool (s : State) : s.KeepsPool s.pinReset := by
  obtain ⟨hpool, hcount, -⟩ := lawsHoldAtReset
  exact ⟨fun _ => ⟨hpool, hcount⟩⟩

theorem exec_keepsPool {c : Instr} {s t : State} (h : exec c s = .next t) : s.KeepsPool t := by
  have hcmd : ∀ {op arg} {run : State → Answer}, Host.Outcome.next (s.runCommand op arg run) = (.next t : Outcome) →
      s.KeepsPool (run s).1 → s.KeepsPool t := fun h k => by
    cases h; exact State.runCommand_keepsPool _ _ k
  have hev : ∀ {run : State → State}, Host.Outcome.next (s.event run) = (.next t : Outcome) →
      s.KeepsPool (run s) → s.KeepsPool t := fun h k => by
    cases h; exact State.event_keepsPool k
  have hwin : ∀ {run : Window → Window}, Host.Outcome.next (s.hostWrite run) = (.next t : Outcome) →
      s.KeepsPool t := fun h => by
    cases h; exact State.hostWrite_keepsPool s _
  have hpin : ∀ {m : Mover} {u : State}, s.MoverAct u →
      Host.Outcome.next (if s.resetLow then { s with mover := m } else u.settle) = (.next t : Outcome) →
      s.KeepsPool t := fun k h => by
    cases h
    split
    · exact .of_eq rfl rfl
    · exact k.keepsPool.settle
  cases c with
  | configure a => exact hcmd h (State.forStream_keepsPool a s.configure_keepsPool)
  | deconfigure a => exact hcmd h (State.forStream_keepsPool a s.deconfigure_keepsPool)
  | post a => exact hcmd h (State.forStream_keepsPool a s.post_keepsPool)
  | start a => exact hcmd h (State.forStream_keepsPool a s.startStream_keepsPool)
  | stop a => exact hcmd h (State.forStream_keepsPool a s.stopStream_keepsPool)
  | abort a => exact hcmd h (State.forStream_keepsPool a fun i => (s.abortOne_keepsPool i).settle)
  | clear a => exact hcmd h (State.forStream_keepsPool a s.clearStream_keepsPool)
  | gstart a => exact hcmd h (State.forGroup_keepsPool a s.gstart_keepsPool)
  | gstop a => exact hcmd h (State.forGroup_keepsPool a s.gstop_keepsPool)
  | gabort a => exact hcmd h (State.forGroup_keepsPool a s.gabort_keepsPool)
  | mapswap a => exact hcmd h s.mapswap_keepsPool
  | mapcopy a => exact hcmd h s.mapcopy_keepsPool
  | cqpop a => exact hcmd h s.cqpop_keepsPool
  | cqflush a => exact hcmd h (.of_eq rfl rfl)
  | lineSet a => exact hcmd h s.lineSet_keepsPool
  | lineUp a => exact hcmd h s.lineUp_keepsPool
  | lineDown a => exact hcmd h s.lineDown_keepsPool
  | unknownOpcode op a => exact hcmd h (.refl s)
  | mapDataWrite v => exact hev h (s.writeMapData_keepsPool v)
  | intCtrlWrite v => exact hev h (s.writeIntCtrl_keepsPool v)
  | controlWordWrite cw v => exact hev h (s.writeControl_keepsPool cw v)
  | statusWrite v => exact hwin h
  | readOnlyWrite w v => exact hwin h
  | samplesServedLowRead => exact hwin h
  | registerWrite p v => exact hwin h
  | pinReset => cases h; exact s.pinReset_keepsPool
  | resetRelease => cases h; exact s.releaseReset_keepsPool
  | syncArrival bit => exact hev h (s.sampleHigh_keepsPool bit)
  | trialTimeout => exact hev h s.endTrial_keepsPool
  | missedSync => exact hev h s.missSync_keepsPool
  | frameEnd => exact hev h s.endFrame_keepsPool
  | transmitSlot k => exact hev h (s.startTxSlot_keepsPool k)
  | receiveSlot k x => exact hev h (s.endRxSlot_keepsPool k x)
  | busGrant => exact hpin s.grant_act h
  | busGrantLow => exact hpin s.grantLow_act h
  | busGrantWithdrawn => exact hpin s.grantLow_act h
  | busYield b =>
    cases h
    split
    · exact .settle (.after (State.yieldBus_act _).keepsPool (.of_eq rfl rfl))
    · exact .of_eq rfl rfl
  | wordTransferComplete x => exact hev h (s.completeWord_keepsPool x).settle
  | busFault => exact hev h s.faultWord_keepsPool.settle
  | holdoffExpiry => exact hev h (.of_eq rfl rfl)
  | fsyncLowSample => exact hev h s.sampleLow_keepsPool

/-- Settles O49: a step is one row or one period of REFCLK, and each keeps the pool and the counters. -/
theorem everyStepKeepsThePool : Obligations.EveryStepKeepsThePool := by
  unfold Obligations.EveryStepKeepsThePool
  intro s t h hstep
  simp only [step] at hstep
  split at hstep
  · cases hstep
    exact s.idle_keepsPool.sound h
  · rename_i c rest hp
    have hrest : s.KeepsPool { s with pending := rest } := .of_eq rfl rfl
    exact (exec_keepsPool hstep).sound (hrest.sound h)

end Sys2Proof.Machine
end

section
/-! PROOFS. POST (R59, R88 to R90): its checks in order, the staged descriptor, and the END test of a receive stream
(O9). -/

namespace Sys2Proof.Machine

/-- The staged descriptor, field by field (section 10.7). -/
theorem Descriptor.parse_eq (n : Nat) (w0 w1 w2 w3 : Word) : Descriptor.parse n w0 w1 w2 w3 =
    { address := BitVec.ofNat 24 (w1.toNat % 256 * 65536 + w0.toNat)
      length := w2.toNat % 8192
      endFlag := w3.getLsbD 15
      notify := w3.getLsbD 14
      tag := w3.setWidth 8
      posting := n } := by
  have haddress : field w1 7 0 = w1.toNat % 256 := by simp [field]
  have hlength : field w2 12 0 = w2.toNat % 8192 := by simp [field]
  have htag : BitVec.ofNat 8 (field w3 7 0) = w3.setWidth 8 := BitVec.eq_of_toNat_eq (by simp [field])
  rw [Descriptor.parse, haddress, hlength, htag]
  rfl

/-- R89: the last word of the footprint lies past the top. -/
theorem StreamConfig.fits_eq_false_iff (cfg : StreamConfig) (d : Descriptor) :
    cfg.fits d = false ↔ ¬ d.address.toNat + 2 * (cfg.footprint d.length - 1) ≤ 0xFFFFFE := decide_eq_false_iff_not

/-- The END test after a POST with END: the samples accepted cover the queue with the new descriptor (R59). -/
theorem StreamCtx.withPost_endCondition_iff (c : StreamCtx) {d : Descriptor} (hend : d.endFlag = true) (n : Nat) :
    (c.withPost d).endCondition n = true
      ↔ (c.queue.map Descriptor.length).sum + d.length ≤ c.samplesDone + n + c.fifo.length := by
  rw [StreamCtx.endCondition_iff]
  simp [StreamCtx.withPost, hend]

/-- The END test of a configured stream (R59). -/
theorem StreamCtx.testEnd_eq {c : StreamCtx} {cfg : StreamConfig} (n : Nat) (hc : c.cfg = some cfg) :
    c.testEnd n = if cfg.direction = .rx ∧ (c.state = .running ∨ c.state = .stopping) ∧ c.endCondition n = true
      then { c with state := .draining .ended false } else c := by
  rw [StreamCtx.testEnd]
  split
  · rename_i hnone
    cases hnone.symm.trans hc
  · rename_i cfg' hcfg
    cases hcfg.symm.trans hc
    rfl

/-- A POST that is taken: the descriptor at the tail, posted_total advanced, and a covered receive stream in RUNNING
goes DRAINING (R90, R59). -/
theorem StreamCtx.enqueue_eq {c : StreamCtx} {cfg : StreamConfig} {d : Descriptor} (n : Nat) {covered : Prop}
    [Decidable covered] (hc : c.cfg = some cfg) (hst : c.state ≠ .stopping)
    (hcov : covered ↔ cfg.direction = .rx ∧ c.state = .running ∧ d.endFlag = true
      ∧ (c.queue.map Descriptor.length).sum + d.length ≤ c.samplesDone + n + c.fifo.length) :
    c.enqueue d n = { c with
      queue := c.queue ++ [d], postedTotal := c.postedTotal + 1
      state := if covered then .draining .ended false else c.state } := by
  cases hend : d.endFlag with
  | false =>
    have hnot : ¬ covered := fun h => by simp [hcov, hend] at h
    rw [if_neg hnot]
    simp only [StreamCtx.enqueue, hend, Bool.false_eq_true, if_false]
  | true =>
    have htest : cfg.direction = .rx ∧ ((c.withPost d).state = .running ∨ (c.withPost d).state = .stopping)
        ∧ (c.withPost d).endCondition n = true ↔ covered := by
      rw [c.withPost_endCondition_iff hend, hcov]
      simp only [StreamCtx.withPost, hst, hend, or_false, true_and]
    have hpost : c.enqueue d n = (c.withPost d).testEnd n := by
      rw [StreamCtx.enqueue, if_pos hend]
      rfl
    rw [hpost, StreamCtx.testEnd_eq (c := c.withPost d) n hc]
    by_cases h : covered
    · rw [if_pos h, if_pos (htest.2 h)]
      rfl
    · rw [if_neg h, if_neg (mt htest.1 h)]
      rfl

/-- A write that adds one descriptor to a queue takes one record of the pool (R86, R90). -/
theorem State.putStream_eq_takesRecord (s : State) (i : StreamId) (c : StreamCtx)
    (h : c.queue.length = (s.stream i).queue.length + 1) :
    s.putStream i c = { s.withStream i c with free := s.free - 1 } := by
  have hfree : s.free + (s.stream i).queue.length - c.queue.length = s.free - 1 := by omega
  rw [State.putStream, hfree]
  rfl

/-- The checks of R88 in order, and the POST that passes them, for a configured stream. -/
theorem State.post_eq {s : State} {i : StreamId} {c : StreamCtx} {cfg : StreamConfig} {d : Descriptor}
    (hs : s.stream i = c) (hc : c.cfg = some cfg)
    (hd : Descriptor.parse s.nextPosting (s.stageWord 0) (s.stageWord 1) (s.stageWord 2) (s.stageWord 3) = d) :
    s.post i =
      if c.takesPost = false then s.refuse .state 0
      else if d.length = 0 ∨ 4096 < d.length then s.refuse .badLength 0
      else if d.address.toNat % 2 = 1 then s.refuse .badAddress 1
      else if cfg.fits d = false then s.refuse .badAddress 2
      else if 8 ≤ c.queue.length then s.refuse .queueFull 8
      else if s.free = 0 then s.refuse .poolEmpty 0
      else (State.settle { s.putStream i (c.enqueue d (s.uncounted i)) with
        nextPosting := s.nextPosting + 1 }).accept (c.queue.length + 1) := by
  simp only [State.post, hs, hc, hd]
  rfl

/-- Settles O9: each clause is the checks of R88 passed up to the one that fails, or all of them. -/
theorem postOutcome : Obligations.PostOutcome := by
  unfold Obligations.PostOutcome
  intro s i arg hr hi c d answer takes inSpace
  have hexec : ∀ {u code n}, s.post i = (u, code, word n) →
      exec (.post arg) s = .next (u.withResult 0x03 arg code n) := fun h =>
    congrArg Host.Outcome.next (State.runCommand_stream hr hi h)
  refine ⟨fun hc => hexec ?_, fun cfg hc => ?_⟩
  · have hc' : (s.stream i).cfg = none := hc
    simp only [State.post, hc']
    rfl
  · have hpost := State.post_eq (c := c) (d := d) rfl hc (Descriptor.parse_eq s.nextPosting _ _ _ _)
    have hrefused : c.takesPost = false ↔ ¬ takes := by rw [← Bool.not_eq_true, c.takesPost_iff]
    have hfits := cfg.fits_eq_false_iff d
    refine ⟨fun ht => hexec (hpost.trans (if_pos (hrefused.2 ht))), fun ht hlen => ?_, fun ht h1 h4096 => ?_⟩
    · rw [if_neg (mt hrefused.1 (not_not.2 ht)), if_pos hlen] at hpost
      exact hexec hpost
    · rw [if_neg (mt hrefused.1 (not_not.2 ht)), if_neg (by omega)] at hpost
      refine ⟨fun hodd => hexec (hpost.trans (if_pos hodd)), fun heven hpast => ?_, fun heven hin => ?_⟩
      · rw [if_neg (by omega), if_pos (hfits.2 hpast)] at hpost
        exact hexec hpost
      · rw [if_neg (by omega), if_neg (mt hfits.1 (not_not.2 hin))] at hpost
        refine ⟨fun hfull => hexec (hpost.trans (if_pos hfull)), fun hroom hempty => ?_, fun hroom hfree => ?_⟩
        · rw [if_neg (by omega), if_pos hempty] at hpost
          exact hexec hpost
        · intro covered u
          rw [if_neg (by omega), if_neg (by omega)] at hpost
          have hst : c.state ≠ .stopping := fun h => by
            obtain ⟨hst, -⟩ := ht
            simp [h] at hst
          have henqueue : c.enqueue d (s.uncounted i) = _ :=
            StreamCtx.enqueue_eq (s.uncounted i) (covered := covered) hc hst Iff.rfl
          rw [henqueue, State.putStream_eq_takesRecord _ _ _ (by simp [c])] at hpost
          exact hexec hpost

end Sys2Proof.Machine
end

section
/-! PROOFS. The completion of a fetch (R92, R95, R110, R111, R130): the word becomes samples, the last one returns the
head, and the Mover goes on (O37). -/

namespace Sys2Proof.Machine

/-! ### The fetched word and its stream (R95, R50, R53, R57) -/

section
variable {c : StreamCtx} {cfg : StreamConfig} {d : Descriptor} {rest : List Descriptor} (hc : c.cfg = some cfg)
  (hq : c.queue = d :: rest) (i : StreamId) (frame : BitVec 16) (w : Word)
include hc hq

/-- The completion of a fetch, with the stream's configuration and its head at hand. -/
theorem StreamCtx.fetchWord_eq : c.fetchWord i frame w =
    if d.length ≤ (c.fed cfg d w).samplesDone then
      let r := (c.fed cfg d w).returnHead i frame .ok d.length
      (if d.endFlag then r.1.endReached else r.1, r.2)
    else (c.fed cfg d w, []) := by
  rw [StreamCtx.fetchWord]
  split
  · rename_i cfg' d' rest' hc' hq'
    cases hc.symm.trans hc'
    cases hq.symm.trans hq'
    rfl
  · rename_i hnone
    exact absurd hq (hnone cfg d rest hc)

/-- A word that leaves the head at work gives its samples (R92). -/
theorem StreamCtx.fetchWord_more (hmore : (c.fed cfg d w).samplesDone < d.length) :
    c.fetchWord i frame w = (c.fed cfg d w, []) := by
  rw [StreamCtx.fetchWord_eq hc hq, if_neg (Nat.not_le.2 hmore)]

/-- The word that completes the head's last sample returns it OK (R95, R100). -/
theorem StreamCtx.fetchWord_last (hlast : d.length ≤ (c.fed cfg d w).samplesDone) : c.fetchWord i frame w =
    (if d.endFlag then ((c.fed cfg d w).nextHead d rest).endReached else (c.fed cfg d w).nextHead d rest,
      d.okRecords i frame) := by
  have hret : (c.fed cfg d w).returnHead i frame .ok d.length
      = ((c.fed cfg d w).nextHead d rest, d.okRecords i frame) := by
    simp only [StreamCtx.returnHead, StreamCtx.fed, hq, Descriptor.okRecords, true_and]
    cases d.notify <;> rfl
  rw [StreamCtx.fetchWord_eq hc hq, if_pos hlast, hret]

end

/-- The END descriptor fetched: RUNNING drains and ARMED notes it (R57, R50). -/
theorem StreamCtx.endReached_eq (c : StreamCtx) : c.endReached = { c with
    state := match c.state with
      | .running => .draining .ended false
      | .armed mode _ => .armed mode true
      | other => other } := by
  obtain ⟨cfg, state, _⟩ := c
  cases state <;> rfl

/-! ### A fetching stream keeps its samples (R114) -/

/-- A word is prepared for a store only: the stream of a fetch keeps its context (R127). -/
theorem State.nextWord_fetching {s t : State} {m : Move} (h : s.nextWord m = some t) {j : StreamId}
    (hj : m.stream = j → m.dir = .tx) : t.stream j = s.stream j := by
  obtain ⟨c, w, u, rfl, -, -, -, cfg, d, rest, -, -, -, htx, -⟩ := State.nextWord_spec h
  rw [State.stream_launch, State.stream_withStream]
  split
  · rename_i hjm
    obtain ⟨hsame, -⟩ := htx (hj hjm.symm)
    rw [hsame, hjm]
  · rfl

/-- A new choice takes its direction from the stream's configuration (R126). -/
theorem State.chooseMove_fetching (s : State) {j : StreamId}
    (hj : (s.stream j).cfg.map StreamConfig.direction = some .tx) : s.chooseMove.stream j = s.stream j := by
  simp only [State.chooseMove]
  split
  · rfl
  · split
    · rfl
    · rename_i m hm
      split
      · rename_i t ht
        obtain ⟨rfl, cfg, d, rest, hc, -, hdir, -⟩ := State.moveFor_spec hm
        refine State.nextWord_fetching ht fun hjm => ?_
        have hcfg : (s.stream m.stream).cfg = some cfg := hc
        rw [← hjm, hcfg] at hj
        exact hdir.trans (Option.some.inj hj)
      · rfl

/-- After a completion no sample is taken from a transmit stream. -/
theorem State.goOn_fetching (s : State) {m : Move} {j : StreamId}
    (hj : (s.stream j).cfg.map StreamConfig.direction = some .tx) (hm : m.stream = j → m.dir = .tx) :
    (s.goOn m).stream j = s.stream j := by
  simp only [State.goOn]
  split
  · rfl
  · split
    · rename_i t ht
      exact State.nextWord_fetching ht hm
    · exact s.chooseMove_fetching hj

/-! ### The completion of a word (R130, R134) -/

/-- A completed word touches one stream, the pool and the completion queue. -/
theorem State.takeWord_frame (s : State) (m : Move) (w : InFlight) (data : Word) :
    s.takeWord m w data = { s with
      streams := (s.takeWord m w data).streams
      free := (s.takeWord m w data).free
      cq := (s.takeWord m w data).cq } := by
  rw [State.takeWord]
  split
  · split <;> rfl
  · rfl

/-- A word completed in either direction, its posting still the head or returned: memory has it or gave it, the
streams are those that took the word, and the Mover goes on from there; a transmit stream gives it no sample. -/
theorem exec_wordComplete {s : State} {m : Move} {w : InFlight} (x : Option Word) (hr : s.resetLow = false)
    (hbus : s.mover.bus = .holding) (hm : s.mover.move = some m) (hw : s.mover.inFlight = some w) {v : State}
    (hv : s.takeWord m w (s.fetched w x) = v) :
    ∃ t, exec (.wordTransferComplete x) s = .next t
      ∧ t.mover.wordCount = s.mover.wordCount + 1 ∧ t.mem = s.memAt w x
      ∧ (∀ j, (v.stream j).NextWordTaken j t)
      ∧ (∀ j, (v.stream j).cfg.map StreamConfig.direction = some .tx → (m.stream = j → m.dir = .tx) →
          t.stream j = v.stream j)
      ∧ t.cq = v.cq ∧ t.free = v.free ∧ t.map = s.map ∧ t.win = s.win ∧ s.FollowedBy t := by
  have hframe := s.takeWord_frame m w (s.fetched w x)
  rw [hv] at hframe
  obtain ⟨u, hu⟩ : ∃ u : State, u = { v with
      mem := s.memAt w x
      mover := { v.mover with wordCount := v.mover.wordCount + 1, inFlight := none } } := ⟨_, rfl⟩
  have hexec : exec (.wordTransferComplete x) s = .next (u.goOn m).settle := by
    refine congrArg Host.Outcome.next ((State.event_run hr _).trans (congrArg State.settle ?_))
    simp only [State.completeWord, hm, hw, hv, hu]
  have hustream : ∀ j, u.stream j = v.stream j := State.stream_congr (by rw [hu])
  have humover : u.mover = { s.mover with wordCount := s.mover.wordCount + 1, inFlight := none } := by
    rw [hu, hframe]
  obtain ⟨hidle, hcount⟩ := State.goOn_mover (s := u) m (by rw [humover]; exact hbus)
  obtain ⟨hline, hmap, hfree, hpost, hgroups, hcq, hwin, hreset, hmem, hidx, hpend⟩ := (u.goOn_act m).fields
  have hquiet := (u.goOn m).settle_quiet (.inl hidle)
  have hmover : (u.goOn m).settle.mover = (u.goOn m).mover := by rw [hquiet]
  have hstream : ∀ j, (u.goOn m).settle.stream j = (u.goOn m).stream j := State.stream_congr (by rw [hquiet])
  refine ⟨_, hexec, ?_, ?_, fun j => hustream j ▸ (u.goOn_taken m j).congr hmover (hstream j), fun j htx hdir => ?_,
    ?_, ?_, ?_, ?_, .of_settle hidle ?_ ?_ ?_⟩
  · rw [hmover, hcount, humover]
  · rw [hquiet, hmem, hu]
  · rw [hstream, u.goOn_fetching (by rw [hustream]; exact htx) hdir, hustream]
  · rw [hquiet, hcq, hu]
  · rw [hquiet, hfree, hu]
  · rw [hquiet, hmap, hu, hframe]
  · rw [hquiet, hwin, hu, hframe]
  · rw [hline, hu, hframe]
  · rw [hgroups, hu, hframe]
  · rw [hreset, hpost, hidx, hpend, hu, hframe]
    exact ⟨rfl, rfl, rfl, rfl⟩

/-- R172: a fetch reads the host's word where it has written, or else what memory holds. -/
theorem State.fetched_eq (s : State) (w : InFlight) (x : Option Word) : s.fetched w x =
    match x with
    | some y => y
    | none => match loadMem w.addr.toNat s.mem with
      | some y => y
      | none => Config.memoryAtStart w.addr.toNat := by
  cases x with
  | some y => rfl
  | none =>
    rw [State.fetched, Option.getD_none, State.memoryWord]
    cases loadMem w.addr.toNat s.mem <;> rfl

/-- Settles O37: the stream is what the fetch makes of it, and the Mover goes on from there without it. -/
theorem fetchedWordCompletes : Obligations.FetchedWordCompletes := by
  unfold Obligations.FetchedWordCompletes
  intro s m w cfg d rest x hr hbus hm hw hdir hmdir hc hcdir hq hp c held data p
  have hserves : s.servesHead m.stream = true := by
    simp only [State.servesHead, hm, hq, hp, and_self, decide_true]
  obtain ⟨r, hfetch⟩ : ∃ r, c.fetchWord m.stream s.line.frame (s.fetched w x) = r := ⟨_, rfl⟩
  have htake : s.takeWord m w (s.fetched w x) = s.apply m.stream r := by
    rw [State.takeWord, if_pos hserves, hdir, ← hfetch]
  obtain ⟨t, hexec, hcount, hmem, htaken, hkept, hcq, hfree, hmap, hwin, hfollowed⟩ :=
    exec_wordComplete x hr hbus hm hw htake
  have hdata : s.fetched w x = data := s.fetched_eq w x
  have hstream : t.stream m.stream = r.1 := by
    refine (hkept m.stream ?_ fun _ => hmdir).trans (s.stream_apply_same m.stream r)
    rw [State.stream_apply_same, ← hfetch, (c.fetchWord_drivesNoMore _ _ _).1, hc, Option.map_some, hcdir]
  have hone : s.free + (s.stream m.stream).queue.length - rest.length = s.free + 1 := by
    rw [hq, List.length_cons]
    omega
  rw [hdata] at hfetch
  refine ⟨t, hexec, hcount, fun j hj => ?_, fun hmore => ?_, fun hlast => ?_, hmap, hwin, hfollowed, ?_⟩
  · have hother : (s.apply m.stream r).stream j = s.stream j := (s.stream_apply m.stream j r).trans (if_neg hj)
    exact hother ▸ htaken j
  · rw [StreamCtx.fetchWord_more hc hq _ _ _ hmore] at hfetch
    subst hfetch
    exact ⟨hstream, hcq, hfree.trans (Nat.add_sub_cancel _ _)⟩
  · rw [StreamCtx.fetchWord_last hc hq _ _ _ hlast] at hfetch
    subst hfetch
    have hqueue : (if d.endFlag then ((c.fed cfg d data).nextHead d rest).endReached
        else (c.fed cfg d data).nextHead d rest).queue = rest := by
      split
      · obtain ⟨hqueue, -⟩ := ((c.fed cfg d data).nextHead d rest).endReached_fields
        exact hqueue
      · rfl
    refine ⟨hstream.trans ?_, hfree.trans ?_, hcq⟩
    · cases hend : d.endFlag with
      | false => rfl
      | true => exact StreamCtx.endReached_eq _
    · rw [State.apply_free, hqueue, hone]
  · rw [hmem]
    cases x <;> simp only [State.memAt, hdir]

end Sys2Proof.Machine
end

section
/-! PROOFS. What the Mover does next after a completion (R121 to R129): the completion of a word whose posting was
returned (O39), and the end of a tenure, the next word of the move or a new choice (O40). -/

namespace Sys2Proof.Machine

/-! ### A returned posting (R134) -/

/-- Settles O39: the word is taken by no stream, and the Mover goes on from there. -/
theorem returnedPostingDiscardsTheWord : Obligations.ReturnedPostingDiscardsTheWord := by
  unfold Obligations.ReturnedPostingDiscardsTheWord
  intro s m w x hr hbus hm hw hreturned
  have htake : s.takeWord m w (s.fetched w x) = s := by
    rw [State.takeWord, if_neg (ne_true_of_eq_false hreturned)]
  obtain ⟨t, hexec, hcount, hmem, htaken, -, hrest⟩ := exec_wordComplete x hr hbus hm hw htake
  exact ⟨t, hexec, hcount, htaken, hmem, hrest⟩

/-! ### A new choice (R124 to R126, R129) -/

/-- With no request there is nothing to choose (R124). -/
theorem State.choice_eq_none {s : State} (h : ∀ i, s.request i = none) : s.choice = none := by
  cases hi : s.choice with
  | none => rfl
  | some i => exact absurd (h i) (State.request_of_choice hi)

/-- A choice with no request ends the tenure (R121). -/
theorem State.chooseMove_noRequest {s : State} (h : ∀ i, s.request i = none) : s.chooseMove = s.endTenure := by
  simp only [State.chooseMove, State.choice_eq_none h]

/-- A choice in any tenure, just begun (`chooseMove_started`) or going on, starts the first word of the chosen stream's
move (R124 to R128). -/
theorem State.chooseMove_moveStarted (s : State) : MoveStarted s s.mover s.chooseMove := by
  intro i cfg d rest hchoice hc hq hleft
  have hreq := State.request_of_choice hchoice
  have hmove := State.moveFor_eq (s := { s with mover := { s.mover with pointer := i, move := none } }) hc hq
  have hwords : d.posting = d.posting ∧ 0 < cfg.footprint d.length - (s.stream i).wordsDone :=
    ⟨rfl, Nat.sub_pos_of_lt hleft⟩
  refine ⟨fun hdir => ?_, fun hdir c' w n hprep => ?_⟩
  · rw [State.chooseMove_eq hchoice hmove
      (State.nextWord_tx hc hq hwords hdir (StreamCtx.request_tx hc hq hdir hreq))]
    exact ⟨rfl, rfl⟩
  · rw [State.chooseMove_eq hchoice hmove
      (State.nextWord_rx hc hq hwords hdir (StreamCtx.request_rx hc hq hdir hreq) hprep)]
    exact ⟨rfl, rfl⟩

/-! ### The tenure after a completion (R121 to R123, R127 to R129) -/

section
variable {s : State} (m : Move) {l : Nat} (hl : s.mover.limit = some l)
include hl

/-- The tenure ends at its limit, and when it was yielded (R122, R123). -/
theorem State.goOn_ends (h : l ≤ s.mover.wordCount ∨ s.mover.yielded = true) : s.goOn m = s.endTenure := by
  simp only [State.goOn, hl, Option.any_some]
  exact if_pos (by simpa using h)

section
variable (hcount : s.mover.wordCount < l) (hy : s.mover.yielded = false)
include hcount hy

/-- Otherwise the move goes on with its next word, or a new choice is made (R127, R129). -/
theorem State.goOn_proceeds : s.goOn m = (s.nextWord m).getD s.chooseMove := by
  have hkeeps : ¬ (decide (l ≤ s.mover.wordCount) || s.mover.yielded) = true := by simp [hy, hcount]
  simp only [State.goOn, hl, Option.any_some, if_neg hkeeps]
  cases s.nextWord m <;> rfl

/-- A fetch goes on with the word at the next address (R127). -/
theorem State.goOn_fetches (hgoes : (s.stream m.stream).GoesOn m) (hdir : m.dir = .tx) :
    s.goOn m = s.launch m 0 0 := by
  obtain ⟨cfg, d, rest, hc, hq, hp, hleft, hfetch, -⟩ := hgoes
  rw [State.goOn_proceeds m hl hcount hy, State.nextWord_tx hc hq ⟨hp, hleft⟩ hdir (hfetch hdir), Option.getD_some]

/-- A store goes on with the word its packer prepares (R114, R128). -/
theorem State.goOn_stores (hgoes : (s.stream m.stream).GoesOn m) (hdir : m.dir = .rx) {cfg : StreamConfig}
    {d : Descriptor} {rest : List Descriptor} {c : StreamCtx} {y : Word} {n : Nat}
    (hc : (s.stream m.stream).cfg = some cfg) (hq : (s.stream m.stream).queue = d :: rest)
    (hprep : (s.stream m.stream).prepare cfg d = some (c, y, n)) :
    s.goOn m = (s.putStream m.stream c).launch m y n := by
  obtain ⟨cfg', d', rest', hc', hq', hp, hleft, -, hstore⟩ := hgoes
  cases hc.symm.trans hc'
  cases hq.symm.trans hq'
  obtain ⟨hmay, -⟩ := hstore hdir
  rw [State.goOn_proceeds m hl hcount hy, State.nextWord_rx hc hq ⟨hp, hleft⟩ hdir hmay hprep, Option.getD_some]

/-- A move that does not go on leaves the Mover with a new choice (R129). -/
theorem State.goOn_chooses (hstop : ¬ (s.stream m.stream).GoesOn m) : s.goOn m = s.chooseMove := by
  rw [State.goOn_proceeds m hl hcount hy, (s.nextWord_none_iff m).2 hstop, Option.getD_none]

end
end

/-- The word in flight taken and counted, with the memory it leaves: the state the Mover goes on from (R130, R134). -/
def State.wordTaken (s : State) (m : Move) (w : InFlight) (x : Option Word) : State :=
  { s.takeWord m w (s.fetched w x) with
    mem := s.memAt w x
    mover := { s.mover with wordCount := s.mover.wordCount + 1, inFlight := none } }

/-- The Mover goes on once the word is taken, and what follows from the change of the streams touches neither the Mover
nor a stream. -/
theorem exec_wordComplete_goOn {s : State} {m : Move} {w : InFlight} (x : Option Word) (hr : s.resetLow = false)
    (hbus : s.mover.bus = .holding) (hm : s.mover.move = some m) (hw : s.mover.inFlight = some w) :
    ∃ t, exec (.wordTransferComplete x) s = .next t
      ∧ t.mover = ((s.wordTaken m w x).goOn m).mover ∧ t.streams = ((s.wordTaken m w x).goOn m).streams := by
  have hexec : exec (.wordTransferComplete x) s = .next ((s.wordTaken m w x).goOn m).settle := by
    refine congrArg Host.Outcome.next ((State.event_run hr _).trans (congrArg State.settle ?_))
    have hmover : (s.takeWord m w (s.fetched w x)).mover = s.mover := by rw [s.takeWord_frame]
    simp only [State.completeWord, hm, hw, hmover, State.wordTaken]
  obtain ⟨hheld, -⟩ := State.goOn_mover (s := s.wordTaken m w x) m hbus
  have hquiet := ((s.wordTaken m w x).goOn m).settle_quiet (.inl hheld)
  exact ⟨_, hexec, by rw [hquiet], by rw [hquiet]⟩

/-- Settles O40: the clauses are the branches of what the Mover does once the word is taken. -/
theorem tenureEndsAtItsLimitOrYield : Obligations.TenureEndsAtItsLimitOrYield := by
  unfold Obligations.TenureEndsAtItsLimitOrYield
  intro s m w x l hr hbus hm hw hl counted u c next
  obtain ⟨t, hexec, hmover, hstreams⟩ := exec_wordComplete_goOn x hr hbus hm hw
  have hlimit : (s.wordTaken m w x).mover.limit = some l := hl
  refine ⟨t, hexec, fun hend => ?_, fun hcount hy =>
    ⟨fun hgoes hdir => ?_, ?_, fun hstop hnone => ?_, fun hstop => ?_⟩⟩
  · rw [hmover, hstreams, State.goOn_ends m hlimit hend]
    exact ⟨rfl, rfl⟩
  · rw [hmover, hstreams, State.goOn_fetches m hlimit hcount hy hgoes hdir]
    exact ⟨rfl, rfl⟩
  · intro hgoes hdir cfg d rest c' y n hc hq hprep
    rw [hmover, hstreams, State.goOn_stores m hlimit hcount hy hgoes hdir hc hq hprep]
    exact ⟨rfl, rfl⟩
  · have hend := State.chooseMove_noRequest (s := s.wordTaken m w x) hnone
    rw [hmover, hstreams, State.goOn_chooses m hlimit hcount hy hstop, hend]
    exact ⟨rfl, rfl⟩
  · have hstarted := (s.wordTaken m w x).chooseMove_moveStarted
    rw [← State.goOn_chooses m hlimit hcount hy hstop] at hstarted
    intro i cfg d rest hchoice hc hq hleft
    rw [hmover, hstreams]
    exact hstarted i cfg d rest hchoice hc hq hleft

end Sys2Proof.Machine
end

section
/-! PROOFS. Samples in memory (R106 to R108, R110, R111, R113 to R116): the value of a received sample, what a fetched
word gives, and the word the packer prepares (O59). -/

namespace Sys2Proof.Machine

/-! ### Numbers and bit lists -/

/-- The first bits of a list are the upper ones of its number. -/
theorem natOf_append (a b : List Bool) : natOf (a ++ b) = natOf a * 2 ^ b.length + natOf b := by
  induction b using List.reverseRecOn with
  | nil => simp [natOf]
  | append_singleton b x ih =>
    have hsnoc (l : List Bool) : natOf (l ++ [x]) = 2 * natOf l + x.toNat := by
      simp [natOf]
    rw [← List.append_assoc, hsnoc, hsnoc, ih, List.length_append, List.length_singleton, Nat.pow_succ]
    ring

theorem natOf_lt (bs : List Bool) : natOf bs < 2 ^ bs.length := by
  induction bs using List.reverseRecOn with
  | nil => simp [natOf]
  | append_singleton bs x ih =>
    have hx : x.toNat ≤ 1 := Bool.toNat_le x
    have hone : natOf [x] = x.toNat := by simp [natOf]
    rw [natOf_append, hone, List.length_append, List.length_singleton, Nat.pow_succ]
    omega

theorem natOf_replicate_false (n : Nat) : natOf (List.replicate n false) = 0 := by
  induction n with
  | zero => rfl
  | succ n ih => rw [List.replicate_succ', natOf_append, ih]; rfl

theorem natOf_replicate_true (n : Nat) : natOf (List.replicate n true) = 2 ^ n - 1 := by
  induction n with
  | zero => rfl
  | succ n ih =>
    have hone : natOf [true] = 1 := rfl
    have hpos := Nat.two_pow_pos n
    rw [List.replicate_succ', natOf_append, ih, hone, List.length_singleton, Nat.pow_succ]
    omega

/-- The last `w` bits are the low ones. -/
theorem natOf_mod_two_pow (bs : List Bool) (w : Nat) : natOf bs % 2 ^ w = natOf (bs.drop (bs.length - w)) := by
  by_cases hw : w ≤ bs.length
  · have hlen : (bs.drop (bs.length - w)).length = w := by rw [List.length_drop]; omega
    have hlow := natOf_lt (bs.drop (bs.length - w))
    conv_lhs => rw [← List.take_append_drop (bs.length - w) bs, natOf_append]
    rw [hlen] at hlow ⊢
    rw [Nat.mul_add_mod', Nat.mod_eq_of_lt hlow]
  · have hshort : natOf bs < 2 ^ w := (natOf_lt bs).trans (Nat.pow_lt_pow_right one_lt_two (by omega))
    rw [Nat.mod_eq_of_lt hshort, Nat.sub_eq_zero_of_le (by omega), List.drop_zero]

/-- The low bits of a number are the last ones of its list. -/
theorem drop_bitsOf (w n k : Nat) : (bitsOf w n).drop k = bitsOf (w - k) n := by
  induction w generalizing k with
  | zero => simp [bitsOf]
  | succ w ih =>
    cases k with
    | zero => rfl
    | succ k => rw [bitsOf, List.drop_succ_cons, ih, Nat.succ_sub_succ]

/-! ### The value of a received sample (R106 to R108) -/

/-- R108: bits before a sample extend it with its sign or with zeros. -/
theorem natOf_extended {w size x : Nat} (hw : w ≤ size) (hx : x < 2 ^ w) (b : Bool) :
    natOf (List.replicate (size - w) b ++ bitsOf w x) = if b then x + 2 ^ size - 2 ^ w else x := by
  rw [natOf_append, length_bitsOf, natOf_bitsOf, Nat.mod_eq_of_lt hx]
  cases b with
  | false => rw [natOf_replicate_false, Nat.zero_mul, Nat.zero_add]; rfl
  | true =>
    have hsize : 2 ^ (size - w) * 2 ^ w = 2 ^ size := by rw [← Nat.pow_add, Nat.sub_add_cancel hw]
    have hle : 2 ^ w ≤ 2 ^ size := Nat.pow_le_pow_right (by decide) hw
    rw [natOf_replicate_true, Nat.sub_one_mul, hsize, if_pos rfl]
    omega

/-- R108: only SIGN sets the bits above a sample, and only where the sample's own top bit is set. -/
theorem Extension.bit_iff (e : Extension) {w : Nat} {x : Sample} (h1 : 1 ≤ w) (hx : x.toNat < 2 ^ w) :
    e.bit w x = true ↔ e = .sign ∧ 2 ^ (w - 1) ≤ x.toNat := by
  have htop : x.toNat.testBit (w - 1) = true ↔ 2 ^ (w - 1) ≤ x.toNat :=
    ⟨fun hset => Nat.le_of_not_lt fun hlt => Bool.false_ne_true ((Nat.testBit_lt_two_pow hlt).symm.trans hset),
      fun hle => Nat.testBit_of_two_pow_le_and_two_pow_add_one_gt hle (by rwa [Nat.sub_add_cancel h1])⟩
  cases e <;> simp [Extension.bit, htop]

/-- R106, R107: the sample's value in a memory of `size` bits, when its bits are extended to that size. -/
theorem natOf_extension {c : StreamConfig} {x : Sample} {size : Nat} (h1 : 1 ≤ c.width) (hw : c.width ≤ size)
    (hx : x.toNat < 2 ^ c.width)
    (hbits : c.sampleBits x
      = List.replicate (size - c.width) (c.extension.bit c.width x) ++ bitsOf c.width x.toNat) :
    natOf (c.sampleBits x) = if c.extension = .sign ∧ 2 ^ (c.width - 1) ≤ x.toNat then
      x.toNat + 2 ^ size - 2 ^ c.width else x.toNat := by
  rw [hbits, natOf_extended hw hx]
  exact if_congr (c.extension.bit_iff h1 hx) rfl rfl

/-! ### The unpacker (R110, R111) -/

/-- The samples cut from a bit list are its stretches of `w` bits, and what stands behind them is left. -/
theorem cutSamples_eq (w k : Nat) (bs : List Bool) : cutSamples w k bs =
    ((List.range k).map (fun j => BitVec.ofNat 24 (natOf ((bs.drop (j * w)).take w))), bs.drop (k * w)) := by
  induction k generalizing bs with
  | zero => simp [cutSamples]
  | succ k ih =>
    have hdrop (j : Nat) : (bs.drop w).drop (j * w) = bs.drop ((j + 1) * w) := by
      rw [List.drop_drop, Nat.succ_mul, Nat.add_comm]
    simp only [cutSamples, ih, hdrop, List.range_succ_eq_map, List.map_cons, List.map_map, Nat.zero_mul, List.drop_zero,
      Function.comp_def, Nat.succ_eq_add_one]

section
variable {c : StreamConfig} (r : List Bool) (n left : Nat) (w : Word)

/-- R110: a word of a PACKED buffer. -/
theorem StreamConfig.unpack_packed (hp : c.packing = .packed) : c.unpack r n left w
    = cutSamples c.width (min ((r.length + 16) / c.width) left) (r ++ bitsOf 16 w.toNat) := by
  simp only [StreamConfig.unpack, StreamConfig.completes, hp]

/-- R106: a word of a WORD buffer is one sample, its low bits. -/
theorem StreamConfig.unpack_word (hp : c.packing = .word) :
    c.unpack r n left w = ([BitVec.ofNat 24 (w.toNat % 2 ^ c.width)], []) := by
  simp only [StreamConfig.unpack, hp]

/-- R107, R111: the first word of a pair gives no sample and leaves the sample's upper bits. -/
theorem StreamConfig.unpack_pair_upper (hp : c.packing = .pair) (hw : c.width ≤ 24) (hn : n % 2 = 0) :
    c.unpack r n left w = ([], (bitsOf 16 w.toNat).drop (32 - c.width)) := by
  have hlow : 16 - (32 - c.width) = c.width - 16 := by omega
  simp only [StreamConfig.unpack, hp, if_pos hn, drop_bitsOf, hlow]

/-- R107, R111: the second word of a pair gives the sample, the low bits of both. -/
theorem StreamConfig.unpack_pair_lower (hp : c.packing = .pair) (hn : n % 2 = 1) :
    c.unpack r n left w = ([BitVec.ofNat 24 (natOf ((r ++ bitsOf 16 w.toNat).drop
      ((r ++ bitsOf 16 w.toNat).length - c.width)))], []) := by
  have hodd : ¬ n % 2 = 0 := by omega
  simp only [StreamConfig.unpack, hp, if_neg hodd, natOf_mod_two_pow]

end

/-! ### The packer (R113 to R116) -/

/-- The bits a packer holds after `k` samples more (R113). -/
def StreamCtx.bitsAfter (c : StreamCtx) (cfg : StreamConfig) (k : Nat) : List Bool :=
  c.residual ++ (c.fifo.take k).flatMap cfg.sampleBits

/-- The takes for the next word end at `k` samples, and not before (R114): with 16 bits, with the head's last sample or
with an empty FIFO. -/
structure StreamCtx.TakesEndAt (c : StreamCtx) (cfg : StreamConfig) (d : Descriptor) (k : Nat) : Prop where
  le_left : k ≤ d.length - c.samplesDone
  le_fifo : k ≤ c.fifo.length
  before : ∀ j, j < k → (c.bitsAfter cfg j).length < 16
  stop : 16 ≤ (c.bitsAfter cfg k).length ∨ k = d.length - c.samplesDone ∨ k = c.fifo.length

/-- The takes end once. -/
theorem StreamCtx.TakesEndAt.unique {c : StreamCtx} {cfg : StreamConfig} {d : Descriptor} {j k : Nat}
    (hj : c.TakesEndAt cfg d j) (hk : c.TakesEndAt cfg d k) : j = k := by
  have hle {a b : Nat} (ha : c.TakesEndAt cfg d a) (hb : c.TakesEndAt cfg d b) : b ≤ a := by
    by_contra hlt
    have hshort := hb.before a (by omega)
    have hleft := hb.le_left
    have hfifo := hb.le_fifo
    have hstop := ha.stop
    omega
  exact Nat.le_antisymm (hle hk hj) (hle hj hk)

/-- The takes of a preparation: the samples up to their end, of which the one that reaches 16 bits is counted only at
the word's completion (R114, R115). -/
theorem StreamCtx.TakesEndAt.takeSamples_eq {c : StreamCtx} {cfg : StreamConfig} {d : Descriptor} {k : Nat}
    (h : c.TakesEndAt cfg d k) :
    ∃ u, takeSamples cfg (d.length - c.samplesDone) c.residual c.fifo
        = (c.bitsAfter cfg k, c.fifo.drop k, k - u, u)
      ∧ u = if 0 < k ∧ 16 ≤ (c.bitsAfter cfg k).length then 1 else 0 := by
  obtain ⟨k', u, hleft, hfifo, -, hu, heq, hbefore, hstop, hcount⟩ :=
    takeSamples_taken cfg (d.length - c.samplesDone) c.residual c.fifo
  obtain rfl : k' = k := StreamCtx.TakesEndAt.unique ⟨hleft, hfifo, hbefore, hstop⟩ h
  refine ⟨u, heq, ?_⟩
  split
  · rename_i hfull
    exact hcount.2 hfull
  · rename_i hopen
    have hone : u ≠ 1 := fun hu1 => hopen (hcount.1 hu1)
    omega

section
variable {c : StreamCtx} {cfg : StreamConfig} {d : Descriptor}

/-- With too few samples for a word and no flush there is none (R116). -/
theorem StreamCtx.prepare_tooFew (hf : c.flushing = false)
    (hfew : c.fifo.length < cfg.needed c.residual.length (d.length - c.samplesDone)) : c.prepare cfg d = none := by
  have hwait : ¬ (c.flushing = true
      ∨ cfg.needed c.residual.length (d.length - c.samplesDone) ≤ c.fifo.length) := by
    simpa [hf] using hfew
  simp only [StreamCtx.prepare, if_neg hwait]

variable (hready : c.flushing = true ∨ cfg.needed c.residual.length (d.length - c.samplesDone) ≤ c.fifo.length)
  {k : Nat} (hk : c.TakesEndAt cfg d k)
include hready hk

/-- 16 bits make a word, and the rest stays behind (R114, R115). -/
theorem StreamCtx.prepare_whole (hfull : 16 ≤ (c.bitsAfter cfg k).length) : c.prepare cfg d
    = some ({ c with
        fifo := c.fifo.drop k
        samplesDone := c.samplesDone + (k - if k = 0 then 0 else 1)
        residual := (c.bitsAfter cfg k).drop 16 },
      word (natOf ((c.bitsAfter cfg k).take 16)), if k = 0 then 0 else 1) := by
  obtain ⟨u, htake, hu⟩ := hk.takeSamples_eq
  have hcount : u = if k = 0 then 0 else 1 := by
    rw [hu]
    split <;> split <;> omega
  simp only [StreamCtx.prepare, if_pos hready, htake, if_pos hfull, hcount]

section
variable (hshort : (c.bitsAfter cfg k).length < 16)
include hshort

/-- With fewer than 16 bits the preparation turns on whether the head or a flush ends with them (R114). -/
theorem StreamCtx.prepare_short : c.prepare cfg d =
    if c.bitsAfter cfg k ≠ [] ∧ (k = d.length - c.samplesDone ∨ c.flushing = true) then
      some ({ c with fifo := c.fifo.drop k, samplesDone := c.samplesDone + k, residual := [] },
        word (natOf (c.bitsAfter cfg k ++ List.replicate (16 - (c.bitsAfter cfg k).length) false)), 0)
    else none := by
  obtain ⟨u, htake, hu⟩ := hk.takeSamples_eq
  have hopen : ¬ 16 ≤ (c.bitsAfter cfg k).length := Nat.not_le.2 hshort
  have hnone : u = 0 := hu.trans (if_neg fun h => hopen h.2)
  have hleft := hk.le_left
  have hfifo := hk.le_fifo
  have hends : (d.length - c.samplesDone ≤ k ∨ c.flushing = true ∧ c.fifo.drop k = [])
      ↔ (k = d.length - c.samplesDone ∨ c.flushing = true) := by
    rw [List.drop_eq_nil_iff]
    have hstop := hk.stop
    constructor
    · rintro (hall | ⟨hf, -⟩)
      · exact .inl (by omega)
      · exact .inr hf
    · rintro (hall | hf)
      · exact .inl (by omega)
      · rcases hstop with hfull | hall | hempty
        · exact absurd hfull hopen
        · exact .inl (by omega)
        · exact .inr ⟨hf, by omega⟩
  simp only [StreamCtx.prepare, if_pos hready, htake, if_neg hopen, hnone, Nat.sub_zero, Nat.add_zero, hends]

end
end

/-- Settles O59: the value of a sample, the unpacker by packing, and the packer by the bits its takes end with. -/
theorem extensionGivesTheValue : Obligations.ExtensionGivesTheValue := by
  unfold Obligations.ExtensionGivesTheValue
  refine ⟨?value, ?unpacker, ?packer⟩
  case value =>
    intro c x h1 h24 hx value
    refine ⟨fun hp => ?_, fun hp h16 => ?_, fun hp => ?_,
      fun hp _ r n left w => StreamConfig.unpack_word r n left w hp⟩
    · simp only [StreamConfig.sampleBits, hp]
    · exact natOf_extension h1 h16 hx (by simp only [StreamConfig.sampleBits, hp])
    · exact natOf_extension h1 (h24.trans (by decide)) hx (by simp only [StreamConfig.sampleBits, hp])
  case unpacker =>
    intro c r n left w bits
    refine ⟨fun hp => ?_, fun hp h24 => ⟨StreamConfig.unpack_pair_upper r n left w hp h24,
      StreamConfig.unpack_pair_lower r n left w hp⟩⟩
    rw [StreamConfig.unpack_packed r n left w hp, cutSamples_eq]
    exact ⟨rfl, rfl⟩
  case packer =>
    intro c cfg d m held needed flush
    have hflush : c.flushing = true ↔ flush := c.flushing_iff
    refine ⟨fun hf hfew => StreamCtx.prepare_tooFew (Bool.eq_false_iff.2 (hf ∘ hflush.1)) hfew, ?_⟩
    intro k hready hleft hfifo bits hbefore hstop uncounted after
    have hk : c.TakesEndAt cfg d k := ⟨hleft, hfifo, hbefore, hstop⟩
    have hready' := hready.imp_left hflush.2
    refine ⟨StreamCtx.prepare_whole hready' hk, fun hshort hsome hends => ?_, fun hshort hnot => ?_⟩
    · rw [StreamCtx.prepare_short hready' hk hshort]
      exact if_pos ⟨hsome, hends.imp_right hflush.2⟩
    · rw [StreamCtx.prepare_short hready' hk hshort]
      refine if_neg fun ⟨hsome, hends⟩ => ?_
      rcases hnot with hempty | ⟨hmore, hno⟩
      · exact hsome hempty
      · exact hends.elim (Nat.ne_of_lt hmore) (hno ∘ hflush.1)

end Sys2Proof.Machine
end

section
/-! PROOFS. A tenure under its pins (R118 to R123, R130, R131, R171) and the stored words (log 4): a row of any unit but
the Mover leaves both alone but for the look that follows it, and the Mover's own acts keep them (O53). -/

namespace Sys2Proof.Machine

/-! ### The pins of a tenure (R121, R123) -/

/-- The second half of the law of a tenure: one that nothing has asked to end has BGNT asserted and BYLD not. -/
def Mover.PinsAgree (m : Mover) : Prop := m.bus = .holding → m.yielded = false → m.bgnt = true ∧ m.byld = false

theorem State.tenureLaw_iff (s : State) :
    s.TenureLaw ↔ (s.resetLow = true → s.mover.bus = .waitLow) ∧ s.mover.PinsAgree := Iff.rfl

theorem Mover.PinsAgree.of_released {m : Mover} (h : m.bus ≠ .holding) : m.PinsAgree := fun hb => absurd hb h

/-- The bus is given back, or the tenure goes on as it was: the bus state, the yield and the pins stay. -/
def Mover.EndsOrGoesOn (m m' : Mover) : Prop :=
  m'.bus = .waitLow ∨ m'.bus = m.bus ∧ m'.yielded = m.yielded ∧ m'.bgnt = m.bgnt ∧ m'.byld = m.byld

theorem Mover.EndsOrGoesOn.refl (m : Mover) : m.EndsOrGoesOn m := .inr ⟨rfl, rfl, rfl, rfl⟩

theorem Mover.EndsOrGoesOn.waitLow {m m' : Mover} (h : m.EndsOrGoesOn m') (hb : m.bus = .waitLow) :
    m'.bus = .waitLow := by
  obtain h | ⟨hbus, -⟩ := h
  · exact h
  · exact hbus.trans hb

theorem Mover.EndsOrGoesOn.pinsAgree {m m' : Mover} (h : m.EndsOrGoesOn m') (k : m.PinsAgree) : m'.PinsAgree := by
  obtain h | ⟨hbus, hy, hg, hb⟩ := h
  · exact .of_released (by simp [h])
  · simpa only [Mover.PinsAgree, hbus, hy, hg, hb] using k

theorem State.nextWord_goesOn {s t : State} {m : Move} (h : s.nextWord m = some t) :
    s.mover.EndsOrGoesOn t.mover := by
  obtain ⟨c, w, u, rfl, -⟩ := State.nextWord_spec h
  exact .inr ⟨rfl, rfl, rfl, rfl⟩

theorem State.chooseMove_goesOn (s : State) : s.mover.EndsOrGoesOn s.chooseMove.mover := by
  simp only [State.chooseMove]
  split
  · exact .inl rfl
  · split
    · exact .inl rfl
    · split
      · rename_i t ht
        have hgo := State.nextWord_goesOn ht
        exact hgo
      · exact .inl rfl

theorem State.goOn_goesOn (s : State) (m : Move) : s.mover.EndsOrGoesOn (s.goOn m).mover := by
  simp only [State.goOn]
  split
  · exact .inl rfl
  · split
    · rename_i t ht
      exact State.nextWord_goesOn ht
    · exact s.chooseMove_goesOn

/-- RDY finds no word in flight, or the Mover goes on once the word is taken (R130). -/
theorem State.completeWord_cases (s : State) (x : Option Word) :
    s.completeWord x = s ∨ ∃ m w, s.completeWord x = (s.wordTaken m w x).goOn m := by
  simp only [State.completeWord]
  split
  · rename_i m w hm hw
    refine .inr ⟨m, w, ?_⟩
    simp only [State.wordTaken, State.takeWord_mover]
  · exact .inl rfl

theorem State.completeWord_goesOn (s : State) (x : Option Word) : s.mover.EndsOrGoesOn (s.completeWord x).mover := by
  obtain heq | ⟨m, w, heq⟩ := s.completeWord_cases x
  · rw [heq]
    exact .refl _
  · rw [heq]
    have hgo := State.goOn_goesOn (s.wordTaken m w x) m
    exact hgo

theorem State.faultWord_goesOn (s : State) : s.mover.EndsOrGoesOn s.faultWord.mover := by
  simp only [State.faultWord]
  split
  · exact .inl rfl
  · exact .refl _

/-- A tenure begins with BYLD low (R120), so its pins agree where BGNT is asserted. -/
theorem State.beginTenure_pinsAgree {s : State} (hg : s.mover.bgnt = true) : s.beginTenure.mover.PinsAgree := by
  simp only [State.beginTenure]
  split
  · exact .of_released nofun
  · rename_i hb
    exact (State.chooseMove_goesOn _).pinsAgree fun _ _ => ⟨hg, by simpa using hb⟩

theorem State.grant_pinsAgree {s : State} (h : s.mover.PinsAgree) : s.grant.mover.PinsAgree := by
  simp only [State.grant]
  split
  · exact State.beginTenure_pinsAgree rfl
  · exact fun hb hy => ⟨rfl, (h hb hy).2⟩

/-- The look begins a tenure only where BGNT is asserted (R119). -/
theorem State.pollMover_pinsAgree {s : State} (h : s.mover.PinsAgree) : s.pollMover.mover.PinsAgree := by
  simp only [State.pollMover]
  split
  · split
    · rename_i hg
      exact State.beginTenure_pinsAgree hg
    · exact .of_released nofun
  · exact h

/-- After a yield no tenure goes on that nothing has asked to end, whatever the pins (R123). -/
theorem State.yieldBus_pinsAgree (s : State) : s.yieldBus.mover.PinsAgree := by
  simp only [State.yieldBus]
  split
  · split
    · exact fun _ hy => nomatch hy
    · exact .of_released nofun
  · rename_i hb
    exact .of_released hb

theorem State.grantLow_pinsAgree (s : State) : s.grantLow.mover.PinsAgree := by
  simp only [State.grantLow]
  split
  · exact .of_released nofun
  · exact State.yieldBus_pinsAgree _
  all_goals
    rename_i hb
    exact .of_released (by simp [hb])

/-! ### What the laws of a tenure and of the stored words rest on -/

/-- The Mover's items, the stored words and the RESET pin. -/
def State.busSide (s : State) : Mover × List (Nat × Word) × Bool := (s.mover, s.mem, s.resetLow)

/-- The laws of the Mover's items, of the stored words and of a tenure hold after, when they hold before. -/
structure State.KeepsTenure (s t : State) : Prop where
  mover : s.mover.Law → t.mover.Law
  memory : s.MemoryLaw → t.MemoryLaw
  tenure : s.TenureLaw → t.TenureLaw

theorem State.KeepsTenure.trans {s t u : State} (h : s.KeepsTenure t) (k : t.KeepsTenure u) : s.KeepsTenure u :=
  ⟨k.mover ∘ h.mover, k.memory ∘ h.memory, k.tenure ∘ h.tenure⟩

/-- An act after another, the last one first. -/
theorem State.KeepsTenure.after {s t u : State} (k : t.KeepsTenure u) (h : s.KeepsTenure t) : s.KeepsTenure u :=
  h.trans k

/-- An act of the other units. -/
theorem State.KeepsTenure.of_same {s t : State} (h : t.busSide = s.busSide) : s.KeepsTenure t := by
  simp only [State.busSide, Prod.mk.injEq] at h
  obtain ⟨hm, hmem, hr⟩ := h
  exact ⟨by rw [hm]; exact id, by simp only [State.MemoryLaw, hmem]; exact id,
    by simp only [State.tenureLaw_iff, hm, hr]; exact id⟩

theorem State.KeepsTenure.refl (s : State) : s.KeepsTenure s := .of_same rfl

/-- An act of the Mover that ends the tenure or lets it go on. -/
theorem State.KeepsTenure.of_goesOn {s t : State} (hlaw : s.mover.Law → t.mover.Law)
    (hmem : s.MemoryLaw → t.MemoryLaw) (hreset : t.resetLow = s.resetLow) (h : s.mover.EndsOrGoesOn t.mover) :
    s.KeepsTenure t :=
  ⟨hlaw, hmem, fun ⟨hlow, hpins⟩ => ⟨fun hr => h.waitLow (hlow (hreset ▸ hr)), h.pinsAgree hpins⟩⟩

/-- An act of the Mover with RESET high. -/
theorem State.MoverAct.keepsTenure {s t : State} (h : s.MoverAct t) (hr : s.resetLow = false)
    (hlaw : s.mover.Law → t.mover.Law) (hpins : s.mover.PinsAgree → t.mover.PinsAgree) : s.KeepsTenure t := by
  obtain ⟨-, -, -, -, -, -, -, hreset, hmem, -⟩ := h.fields
  refine ⟨hlaw, by simp only [State.MemoryLaw, hmem]; exact id, fun ⟨_, k⟩ => ⟨fun hlow => ?_, hpins k⟩⟩
  simp [hreset, hr] at hlow

theorem State.pollMover_keepsTenure (s : State) : s.KeepsTenure s.pollMover := by
  obtain ⟨-, -, -, -, -, -, -, hreset, hmem, -⟩ := s.pollMover_act.fields
  refine ⟨State.pollMover_moverLaw, by simp only [State.MemoryLaw, hmem]; exact id, fun ⟨hlow, hpins⟩ =>
    ⟨fun hr => ?_, State.pollMover_pinsAgree hpins⟩⟩
  have hwait := hlow (hreset ▸ hr)
  simp [State.pollMover, hwait]

theorem State.settle_keepsTenure (s : State) : s.KeepsTenure s.settle := by
  rw [s.settle_eq]
  exact .after (State.pollMover_keepsTenure _) (.of_same rfl)

/-- An act that keeps the laws, with what follows it. -/
theorem State.KeepsTenure.settle {s t : State} (h : s.KeepsTenure t) : s.KeepsTenure t.settle :=
  h.trans t.settle_keepsTenure

end Sys2Proof.Machine
end

section
/-! PROOFS. Every row keeps the laws of a tenure and of the stored words (O53): the rows of the streams, the line, the
map and the window touch the Mover by the look that follows them only, and its own rows keep its laws. -/

namespace Sys2Proof.Machine

/-! ### Acts that touch neither the Mover, nor memory, nor RESET -/

theorem foldl_busSide {α : Type} {f : State → α → State} (h : ∀ a x, (f a x).busSide = a.busSide) (xs : List α)
    (s : State) : (xs.foldl f s).busSide = s.busSide := by
  induction xs generalizing s with
  | nil => rfl
  | cons x xs ih => exact (ih (f s x)).trans (h s x)

theorem State.haltOne_busSide (s : State) (i : StreamId) (cause : HaltCause) :
    (s.haltOne i cause).busSide = s.busSide := by
  simp only [State.haltOne]
  split <;> rfl

theorem State.haltCascade_busSide (s : State) (i : StreamId) (cause : HaltCause) :
    (s.haltCascade i cause).busSide = s.busSide := by
  simp only [State.haltCascade]
  split
  · exact s.haltOne_busSide i cause
  · exact (foldl_busSide (fun a j => a.haltOne_busSide j .group) _ _).trans (s.haltOne_busSide i cause)

theorem State.boundary_busSide (s : State) (lp : BitVec 16 → List Record) :
    (s.boundary lp).busSide = s.busSide := by
  obtain ⟨-, -, -, -, hframe⟩ := s.boundary_spec lp
  rw [hframe]
  rfl

theorem State.loseAlignment_busSide (s : State) : s.loseAlignment.busSide = s.busSide := by
  obtain ⟨_, _, _, -, -, -, -, hframe⟩ := s.loseAlignment_spec
  rw [hframe]
  rfl

theorem State.takeLineDown_busSide (s : State) : s.takeLineDown.busSide = s.busSide := by
  rw [s.takeLineDown_units]
  rfl

theorem State.abortOne_busSide (s : State) (i : StreamId) : (s.abortOne i).busSide = s.busSide := by
  simp only [State.abortOne]
  split <;> rfl

theorem State.armMembers_busSide (s : State) (g : GroupId) (m : StartMode) :
    (s.armMembers g m).busSide = s.busSide :=
  foldl_busSide (f := fun a i => a.putStream i ((a.stream i).arm m)) (fun _ _ => rfl) _ _

theorem State.gstopMember_busSide (s : State) (i : StreamId) : (s.gstopMember i).busSide = s.busSide := by
  simp only [State.gstopMember]
  split
  case h_2 => split <;> rfl
  all_goals rfl

theorem State.serveTx_busSide (s : State) (i : StreamId) (width : Nat) : (s.serveTx i width).busSide = s.busSide := by
  have hhalt : ∀ c, ((s.putStream i c).haltCascade i .xrun).busSide = s.busSide := fun c =>
    State.haltCascade_busSide _ _ _
  simp only [State.serveTx]
  split
  · rfl
  · split
    case h_4 | h_5 =>
      split
      · rfl
      · split
        · exact hhalt _
        · split <;> rfl
    case h_6 => split <;> rfl
    all_goals rfl

theorem State.offerRx_busSide (s : State) (i : StreamId) (x : Sample) : (s.offerRx i x).busSide = s.busSide := by
  simp only [State.offerRx]
  split
  · rfl
  · split
    case h_5 | h_6 =>
      split
      · rfl
      · split
        · exact State.haltCascade_busSide _ _ _
        · split <;> rfl
    all_goals rfl

theorem State.bitClock_busSide (s : State) : s.bitClock.busSide = s.busSide := by
  rw [(State.bitClock_spec (s := s) (t := s) (n := s.line.tbLeft) rfl rfl).2]
  rfl

/-! ### The commands of the streams and of the groups -/

theorem State.runCommand_keepsTenure {s : State} (op arg : Byte) {run : State → Answer}
    (h : s.KeepsTenure (run s).1) : s.KeepsTenure (s.runCommand op arg run) := by
  simp only [State.runCommand]
  split
  · exact .refl s
  · exact h.trans (.of_same rfl)

theorem State.forStream_keepsTenure {s : State} (arg : Byte) {run : StreamId → Answer}
    (h : ∀ i, s.KeepsTenure (run i).1) : s.KeepsTenure (s.forStream arg run).1 := by
  simp only [State.forStream]
  split
  · exact .refl s
  · exact h _

theorem State.forGroup_keepsTenure {s : State} (arg : Byte) {run : GroupId → Answer}
    (h : ∀ g, s.KeepsTenure (run g).1) : s.KeepsTenure (s.forGroup arg run).1 := by
  simp only [State.forGroup]
  split
  · exact .refl s
  · exact h _

theorem State.event_keepsTenure {s : State} {run : State → State} (h : s.resetLow = false → s.KeepsTenure (run s)) :
    s.KeepsTenure (s.event run) := by
  simp only [State.event]
  split
  · exact .refl s
  · rename_i hr
    exact h (by simpa using hr)

theorem State.hostWrite_keepsTenure (s : State) (run : Window → Window) : s.KeepsTenure (s.hostWrite run) := by
  simp only [State.hostWrite]
  split <;> exact .of_same rfl

theorem State.configure_keepsTenure (s : State) (i : StreamId) : s.KeepsTenure (s.configure i).1 := by
  simp only [State.configure]
  repeat' split
  all_goals exact .of_same rfl

theorem State.deconfigure_keepsTenure (s : State) (i : StreamId) : s.KeepsTenure (s.deconfigure i).1 := by
  simp only [State.deconfigure]
  split <;> exact .of_same rfl

theorem State.post_keepsTenure (s : State) (i : StreamId) : s.KeepsTenure (s.post i).1 := by
  simp only [State.post]
  repeat' split
  all_goals try exact .refl s
  exact .settle (.of_same rfl)

theorem State.startStream_keepsTenure (s : State) (i : StreamId) : s.KeepsTenure (s.startStream i).1 := by
  simp only [State.startStream]
  repeat' split
  all_goals try exact .refl s
  exact .settle (.of_same rfl)

theorem State.stopStream_keepsTenure (s : State) (i : StreamId) : s.KeepsTenure (s.stopStream i).1 := by
  simp only [State.stopStream]
  repeat' split
  all_goals try exact .refl s
  all_goals exact .settle (.of_same rfl)

theorem State.clearStream_keepsTenure (s : State) (i : StreamId) : s.KeepsTenure (s.clearStream i).1 := by
  simp only [State.clearStream]
  split
  · exact .settle (.of_same rfl)
  all_goals exact .refl s

theorem State.gstart_keepsTenure (s : State) (g : GroupId) : s.KeepsTenure (s.gstart g).1 := by
  have harm : ∀ m, s.KeepsTenure ((s.armMembers g m).setGroup g (.start m)) := fun m =>
    .trans (.of_same (s.armMembers_busSide g m)) (.of_same rfl)
  simp only [State.gstart]
  repeat' split
  all_goals try exact .refl s
  exact (harm _).settle

theorem State.gstop_keepsTenure (s : State) (g : GroupId) : s.KeepsTenure (s.gstop g).1 := by
  have hall : s.KeepsTenure ((s.members g).foldl State.gstopMember s) :=
    .of_same (foldl_busSide State.gstopMember_busSide _ _)
  simp only [State.gstop]
  split
  · split
    · exact .settle (hall.trans (.of_same rfl))
    · exact hall.settle
  · exact .refl s

theorem State.gabort_keepsTenure (s : State) (g : GroupId) : s.KeepsTenure (s.gabort g).1 :=
  .settle (.trans (.of_same (foldl_busSide State.abortOne_busSide (s.abortable g) s)) (.of_same rfl))

/-! ### The map, the completion queue and the line -/

theorem State.mapswap_keepsTenure (s : State) : s.KeepsTenure s.mapswap.1 := by
  simp only [State.mapswap]
  repeat' split
  all_goals exact .of_same rfl

theorem State.mapcopy_keepsTenure (s : State) : s.KeepsTenure s.mapcopy.1 := by
  simp only [State.mapcopy]
  split <;> exact .of_same rfl

theorem State.cqpop_keepsTenure (s : State) : s.KeepsTenure s.cqpop.1 := by
  simp only [State.cqpop]
  split <;> exact .of_same rfl

theorem State.lineSet_keepsTenure (s : State) : s.KeepsTenure s.lineSet.1 := by
  simp only [State.lineSet]
  repeat' split
  all_goals exact .of_same rfl

/-- A frame boundary on a line port that has moved on, with what follows it. -/
theorem State.boundaryAt_keepsTenure (s : State) (l : LinePort) (lp : BitVec 16 → List Record) :
    s.KeepsTenure (State.boundary { s with line := l } lp).settle :=
  .settle (.of_same (State.boundary_busSide _ lp))

theorem State.lineUp_keepsTenure (s : State) : s.KeepsTenure s.lineUp.1 := by
  simp only [State.lineUp]
  split
  · exact .refl s
  · split
    · exact .of_same rfl
    all_goals exact s.boundaryAt_keepsTenure _ _

theorem State.lineDown_keepsTenure (s : State) : s.KeepsTenure s.lineDown.1 := by
  simp only [State.lineDown]
  split
  · exact .settle (.of_same s.takeLineDown_busSide)
  · exact .refl s

theorem State.takeSync_keepsTenure (s : State) (pos : Nat) : s.KeepsTenure (s.takeSync pos) := by
  simp only [State.takeSync]
  split
  · exact .refl s
  · exact .of_same rfl
  · split
    · exact .of_same rfl
    · split
      · exact s.boundaryAt_keepsTenure _ _
      · exact .refl s
  all_goals
    split
    · exact s.boundaryAt_keepsTenure _ _
    · split
      · exact s.boundaryAt_keepsTenure _ _
      · exact .refl s

theorem State.sampleHigh_keepsTenure (s : State) (bit : Nat) : s.KeepsTenure (s.sampleHigh bit) := by
  simp only [State.sampleHigh]
  split
  · exact s.takeSync_keepsTenure _
  · exact .refl s

theorem State.sampleLow_keepsTenure (s : State) : s.KeepsTenure s.sampleLow := by
  simp only [State.sampleLow]
  split <;> exact .of_same rfl

theorem State.endTrial_keepsTenure (s : State) : s.KeepsTenure s.endTrial := by
  simp only [State.endTrial]
  split <;> exact .of_same rfl

theorem State.missSync_keepsTenure (s : State) : s.KeepsTenure s.missSync := by
  simp only [State.missSync]
  split
  · split
    · exact s.boundaryAt_keepsTenure _ _
    · exact .settle (.of_same (State.loseAlignment_busSide _))
  · exact .refl s

theorem State.endFrame_keepsTenure (s : State) : s.KeepsTenure s.endFrame := by
  simp only [State.endFrame]
  split
  · exact s.boundaryAt_keepsTenure _ _
  · exact .refl s

theorem State.startTxSlot_keepsTenure (s : State) (slot : Nat) : s.KeepsTenure (s.startTxSlot slot) := by
  simp only [State.startTxSlot]
  split
  · exact .refl s
  · exact .settle (.of_same (State.serveTx_busSide _ _ _))

theorem State.endRxSlot_keepsTenure (s : State) (slot : Nat) (rxd : Sample) :
    s.KeepsTenure (s.endRxSlot slot rxd) := by
  simp only [State.endRxSlot]
  split
  · exact .refl s
  · exact .settle (.of_same (State.offerRx_busSide _ _ _))

/-! ### The writes of the window -/

theorem State.writeMapData_keepsTenure (s : State) (v : Word) : s.KeepsTenure (s.writeMapData v) := by
  simp only [State.writeMapData]
  split <;> exact .of_same rfl

theorem State.writeIntCtrl_keepsTenure (s : State) (v : Word) : s.KeepsTenure (s.writeIntCtrl v) := by
  simp only [State.writeIntCtrl]
  split <;> exact .of_same rfl

/-- TENURE_MAX and READY_TIMEOUT are written in their ranges only, and a tenure keeps the limit it began with (R138,
R163). -/
theorem State.writeControl_keepsTenure (s : State) (cw : ControlWord) (v : Word) :
    s.KeepsTenure (s.writeControl cw v) := by
  cases cw with
  | holdoff => exact .of_same rfl
  | busCtrl =>
    simp only [State.writeControl]
    split
    · exact .of_same rfl
    · exact .of_goesOn (State.Act.tenureMax _ (by omega)).moverLaw id rfl (.refl s.mover)
  | readyTimeout =>
    have hlt := field_lt v 7 0
    simp only [State.writeControl]
    split
    · exact .of_same rfl
    · exact .of_goesOn (State.Act.readyTimeout _ (by omega)).moverLaw id rfl (.refl s.mover)

/-! ### The bus -/

/-- Memory at the memory's answer keeps its canonical form (log 4). -/
theorem State.memAt_wf {s : State} (h : s.MemoryLaw) (w : InFlight) (x : Option Word) :
    memWf (s.memAt w x) = true := by
  simp only [State.memAt]
  split
  · exact storeMem_wf _ _ h
  · exact storeMem_wf _ _ h
  · exact h

theorem State.completeWord_keepsTenure (s : State) (x : Option Word) : s.KeepsTenure (s.completeWord x) := by
  have hunits : (s.MemoryLaw → (s.completeWord x).MemoryLaw) ∧ (s.completeWord x).resetLow = s.resetLow := by
    obtain heq | ⟨m, w, heq⟩ := s.completeWord_cases x
    · rw [heq]
      exact ⟨id, rfl⟩
    · obtain ⟨-, -, -, -, -, -, -, hreset, hmem, -⟩ := (State.goOn_act (s.wordTaken m w x) m).fields
      have htaken : (s.wordTaken m w x).resetLow = s.resetLow := by
        rw [State.wordTaken, s.takeWord_frame]
      rw [heq]
      exact ⟨fun h => (congrArg memWf hmem).trans (State.memAt_wf h w x), hreset.trans htaken⟩
  exact .of_goesOn (fun h => State.completeWord_moverLaw h x) hunits.1 hunits.2 (s.completeWord_goesOn x)

theorem State.faultWord_keepsTenure (s : State) : s.KeepsTenure s.faultWord := by
  have hunits : s.faultWord.mem = s.mem ∧ s.faultWord.resetLow = s.resetLow := by
    simp only [State.faultWord]
    split
    · split
      · have hside := State.haltCascade_busSide
        simp only [State.busSide, Prod.mk.injEq] at hside
        obtain ⟨-, hmem, hreset⟩ := hside _ _ _
        exact ⟨hmem, hreset⟩
      · exact ⟨rfl, rfl⟩
    · exact ⟨rfl, rfl⟩
  exact .of_goesOn State.faultWord_moverLaw (by simp only [State.MemoryLaw, hunits.1]; exact id) hunits.2
    s.faultWord_goesOn

theorem State.grant_keepsTenure {s : State} (hr : s.resetLow = false) : s.KeepsTenure s.grant :=
  s.grant_act.keepsTenure hr State.grant_moverLaw State.grant_pinsAgree

theorem State.grantLow_keepsTenure {s : State} (hr : s.resetLow = false) : s.KeepsTenure s.grantLow :=
  s.grantLow_act.keepsTenure hr State.grantLow_moverLaw fun _ => s.grantLow_pinsAgree

/-- BYLD asserted, with RESET high (R123). -/
theorem State.yieldAsserted_keepsTenure {s : State} (hr : s.resetLow = false) :
    s.KeepsTenure (State.yieldBus { s with mover := { s.mover with byld := true } }) :=
  ((State.MoverAct.ofMover s _).trans (State.yieldBus_act _)).keepsTenure hr
    (fun h => State.yieldBus_moverLaw (by exact h)) fun _ => State.yieldBus_pinsAgree _

/-- The levels of the pins, while RESET is low (R171; log 9). -/
theorem State.pins_keepsTenure {s : State} (hr : s.resetLow = true) (bgnt byld : Bool) :
    s.KeepsTenure { s with mover := { s.mover with bgnt := bgnt, byld := byld } } :=
  ⟨id, id, fun ⟨hlow, _⟩ => ⟨hlow, Mover.PinsAgree.of_released (by simp [hlow hr])⟩⟩

/-- BYLD removed asks for nothing (log 8). -/
theorem State.yieldRemoved_keepsTenure (s : State) :
    s.KeepsTenure { s with mover := { s.mover with byld := false } } :=
  ⟨id, id, fun ⟨hlow, hpins⟩ => ⟨hlow, fun hb hy => ⟨(hpins hb hy).1, rfl⟩⟩⟩

theorem State.busYield_keepsTenure {s t : State} {level : Bool} (h : execBusYield level s = .next t) :
    s.KeepsTenure t := by
  cases h
  split
  · rename_i hyield
    obtain ⟨hr, rfl⟩ := hyield
    exact (State.yieldAsserted_keepsTenure hr).settle
  · rename_i hno
    cases hlevel : level with
    | false => exact s.yieldRemoved_keepsTenure
    | true =>
      refine State.pins_keepsTenure ?_ s.mover.bgnt true
      simpa [hlevel] using hno

/-! ### Time and RESET -/

theorem State.sampleGrant_keepsTenure {s : State} (hr : s.resetLow = false) : s.KeepsTenure s.sampleGrant := by
  simp only [State.sampleGrant]
  split
  · exact (State.grantLow_keepsTenure hr).trans (State.pollMover_keepsTenure _)
  · exact .refl s

theorem State.readyTick_keepsTenure (s : State) : s.KeepsTenure s.readyTick := by
  simp only [State.readyTick]
  split
  · exact .refl s
  · rename_i w hw
    split
    · exact s.faultWord_keepsTenure.settle
    · exact .of_goesOn (State.Act.readyTick w hw (by omega)).moverLaw id rfl (.refl s.mover)

theorem State.timebase_keepsTenure (s : State) : s.KeepsTenure s.timebase := by
  simp only [State.timebase, State.tick]
  split
  · exact .after (State.readyTick_keepsTenure _) (.of_same rfl)
  · exact .of_same rfl

/-- One period of REFCLK. -/
theorem State.idle_keepsTenure (s : State) : s.KeepsTenure s.idle := by
  simp only [State.idle]
  split
  · exact .refl s
  · rename_i hr
    have hgrant := State.sampleGrant_keepsTenure (s := s) (by simpa using hr)
    exact (hgrant.trans (State.timebase_keepsTenure _)).trans (.of_same (State.bitClock_busSide _))

/-- At the release the Mover begins in WAIT_LOW (R118, R171). -/
theorem State.releaseReset_keepsTenure (s : State) : s.KeepsTenure s.releaseReset := by
  simp only [State.releaseReset]
  split
  · refine .after (State.sampleGrant_keepsTenure rfl) ⟨id, id, fun ⟨_, hpins⟩ => ⟨nofun, hpins⟩⟩
  · exact .refl s

/-- A pin reset leaves the Mover in WAIT_LOW with its reset settings, and memory as it is (R171). -/
theorem State.pinReset_keepsTenure (s : State) : s.KeepsTenure s.pinReset := by
  have hrange : Mover.reset.InRange := ⟨by decide, by decide⟩
  exact ⟨fun _ => .of_idle ⟨hrange.tenureMax, hrange.readyTimeout⟩ nofun rfl rfl rfl, id,
    fun _ => ⟨fun _ => rfl, Mover.PinsAgree.of_released nofun⟩⟩

/-! ### Every step -/

theorem exec_keepsTenure {c : Instr} {s t : State} (h : exec c s = .next t) : s.KeepsTenure t := by
  have hcmd : ∀ {op arg} {run : State → Answer}, Host.Outcome.next (s.runCommand op arg run) = (.next t : Outcome) →
      s.KeepsTenure (run s).1 → s.KeepsTenure t := fun h k => by
    cases h; exact State.runCommand_keepsTenure _ _ k
  have hev : ∀ {run : State → State}, Host.Outcome.next (s.event run) = (.next t : Outcome) →
      s.KeepsTenure (run s) → s.KeepsTenure t := fun h k => by
    cases h; exact State.event_keepsTenure fun _ => k
  have hpin : ∀ (b : Bool) {u : State}, (s.resetLow = false → s.KeepsTenure u) →
      Host.Outcome.next (if s.resetLow then { s with mover := { s.mover with bgnt := b } } else u.settle)
        = (.next t : Outcome) → s.KeepsTenure t := fun b u k h => by
    cases h
    split
    · rename_i hr
      exact State.pins_keepsTenure hr b s.mover.byld
    · rename_i hr
      exact (k (by simpa using hr)).settle
  cases c with
  | configure a => exact hcmd h (State.forStream_keepsTenure a s.configure_keepsTenure)
  | deconfigure a => exact hcmd h (State.forStream_keepsTenure a s.deconfigure_keepsTenure)
  | post a => exact hcmd h (State.forStream_keepsTenure a s.post_keepsTenure)
  | start a => exact hcmd h (State.forStream_keepsTenure a s.startStream_keepsTenure)
  | stop a => exact hcmd h (State.forStream_keepsTenure a s.stopStream_keepsTenure)
  | abort a => exact hcmd h (State.forStream_keepsTenure a fun i => .settle (.of_same (s.abortOne_busSide i)))
  | clear a => exact hcmd h (State.forStream_keepsTenure a s.clearStream_keepsTenure)
  | gstart a => exact hcmd h (State.forGroup_keepsTenure a s.gstart_keepsTenure)
  | gstop a => exact hcmd h (State.forGroup_keepsTenure a s.gstop_keepsTenure)
  | gabort a => exact hcmd h (State.forGroup_keepsTenure a s.gabort_keepsTenure)
  | mapswap a => exact hcmd h s.mapswap_keepsTenure
  | mapcopy a => exact hcmd h s.mapcopy_keepsTenure
  | cqpop a => exact hcmd h s.cqpop_keepsTenure
  | cqflush a => exact hcmd h (.of_same rfl)
  | lineSet a => exact hcmd h s.lineSet_keepsTenure
  | lineUp a => exact hcmd h s.lineUp_keepsTenure
  | lineDown a => exact hcmd h s.lineDown_keepsTenure
  | unknownOpcode op a => exact hcmd h (.refl s)
  | mapDataWrite v => exact hev h (s.writeMapData_keepsTenure v)
  | intCtrlWrite v => exact hev h (s.writeIntCtrl_keepsTenure v)
  | controlWordWrite cw v => exact hev h (s.writeControl_keepsTenure cw v)
  | statusWrite | readOnlyWrite | samplesServedLowRead | registerWrite => cases h; exact s.hostWrite_keepsTenure _
  | pinReset => cases h; exact s.pinReset_keepsTenure
  | resetRelease => cases h; exact s.releaseReset_keepsTenure
  | syncArrival bit => exact hev h (s.sampleHigh_keepsTenure bit)
  | trialTimeout => exact hev h s.endTrial_keepsTenure
  | missedSync => exact hev h s.missSync_keepsTenure
  | frameEnd => exact hev h s.endFrame_keepsTenure
  | transmitSlot k => exact hev h (s.startTxSlot_keepsTenure k)
  | receiveSlot k x => exact hev h (s.endRxSlot_keepsTenure k x)
  | busGrant => exact hpin true State.grant_keepsTenure h
  | busGrantLow | busGrantWithdrawn => exact hpin false State.grantLow_keepsTenure h
  | busYield b => exact State.busYield_keepsTenure h
  | wordTransferComplete x => exact hev h (s.completeWord_keepsTenure x).settle
  | busFault => exact hev h s.faultWord_keepsTenure.settle
  | holdoffExpiry => exact hev h (.of_same rfl)
  | fsyncLowSample => exact hev h s.sampleLow_keepsTenure

/-- A step is one row or one period of REFCLK. -/
theorem step_keepsTenure {s t : State} (h : step s = .next t) : s.KeepsTenure t := by
  simp only [step] at h
  split at h
  · cases h
    exact s.idle_keepsTenure
  · rename_i c rest hp
    exact .after (exec_keepsTenure h) (.of_same rfl)

/-- Settles O53: the laws of the Mover's items, of the stored words and of a tenure are each kept by every step. -/
theorem everyStepKeepsTheTenure : Obligations.EveryStepKeepsTheTenure := by
  unfold Obligations.EveryStepKeepsTheTenure
  refine ⟨fun s t ⟨hlaw, hmem⟩ h => ?_, fun s t ⟨hlaw, htenure⟩ h => ?_⟩
  · exact ⟨(step_keepsTenure h).mover hlaw, (step_keepsTenure h).memory hmem⟩
  · exact ⟨(step_keepsTenure h).mover hlaw, (step_keepsTenure h).tenure htenure⟩

end Sys2Proof.Machine
end

section
/-! PROOFS. The pins of the bus (R118 to R121, R123): the grant that begins a tenure (O35), the grant that begins none,
BGNT low, and BYLD (O36). -/

namespace Sys2Proof.Machine

/-! ### The rows of BGNT and BYLD, with RESET high -/

section
variable {s u : State} (hr : s.resetLow = false)
include hr

theorem exec_busGrant (hu : s.grant = u) : exec .busGrant s = .next u.settle :=
  hu ▸ congrArg Host.Outcome.next (if_neg (by simp [hr]))

/-- A low sample of BGNT and a withdrawal of it are one (log 25). -/
theorem exec_grantLow (hu : s.grantLow = u) :
    exec .busGrantLow s = .next u.settle ∧ exec .busGrantWithdrawn s = .next u.settle := by
  have hrow : (if s.resetLow then { s with mover := { s.mover with bgnt := false } } else s.grantLow.settle)
      = u.settle := hu ▸ if_neg (by simp [hr])
  exact ⟨congrArg Host.Outcome.next hrow, congrArg Host.Outcome.next hrow⟩

theorem exec_yieldAsserted (hu : State.yieldBus { s with mover := { s.mover with byld := true } } = u) :
    exec (.busYield true) s = .next u.settle :=
  hu ▸ congrArg Host.Outcome.next (if_pos ⟨hr, rfl⟩)

end

/-- BYLD removed changes its level only (log 8). -/
theorem exec_yieldRemoved (s : State) :
    exec (.busYield false) s = .next { s with mover := { s.mover with byld := false } } :=
  congrArg Host.Outcome.next (if_neg (by simp))

/-! ### A grant (R119, R120) -/

theorem State.grant_requesting {s : State} (h : s.mover.bus = .requesting) :
    s.grant = State.beginTenure { s with mover := { s.mover with bgnt := true } } := by
  simp only [State.grant, h, if_true]

theorem State.grant_elsewhere {s : State} (h : s.mover.bus ≠ .requesting) :
    s.grant = { s with mover := { s.mover with bgnt := true } } := by
  simp only [State.grant, if_neg h]

/-- With BYLD low a tenure begins with a choice (R120, R124). -/
theorem State.beginTenure_chooses {s : State} (h : s.mover.byld = false) :
    s.beginTenure = State.chooseMove { s with mover := s.mover.begun } :=
  if_neg (by simp [h])

/-- With BYLD high, or with no request, the tenure is empty (R120). -/
theorem State.beginTenure_empty {s : State} (h : s.mover.byld = true ∨ ∀ i, s.request i = none) :
    s.beginTenure = State.endTenure { s with mover := s.mover.begun } := by
  simp only [State.beginTenure]
  split
  · rfl
  · rename_i hb
    exact State.chooseMove_noRequest (s := { s with mover := s.mover.begun }) (h.resolve_left hb)

/-! ### The first word of a move (R125, R126, R130) -/

section
variable {s : State} {i : StreamId} {cfg : StreamConfig} {d : Descriptor} {rest : List Descriptor}
  (hi : s.choice = some i) (hc : (s.stream i).cfg = some cfg) (hq : (s.stream i).queue = d :: rest)
  (hleft : (s.stream i).wordsDone < cfg.footprint d.length)
include hi hc hq hleft

/-- The first word of a fetch: nothing but the Mover's items changes. -/
theorem State.chooseMove_fetches (hdir : cfg.direction = .tx) :
    s.chooseMove = { s with mover := s.mover.moving i (s.stream i) cfg d 0 0 } := by
  have hmove := State.moveFor_eq (s := { s with mover := { s.mover with pointer := i, move := none } }) hc hq
  have hready := StreamCtx.request_tx hc hq hdir (State.request_of_choice hi)
  exact State.chooseMove_eq hi hmove (State.nextWord_tx hc hq ⟨rfl, Nat.sub_pos_of_lt hleft⟩ hdir hready)

/-- The first word of a store: its stream gives up the samples of the word (R114). -/
theorem State.chooseMove_stores (hdir : cfg.direction = .rx) {c' : StreamCtx} {w : Word} {n : Nat}
    (hprep : (s.stream i).prepare cfg d = some (c', w, n)) :
    s.chooseMove = { s.withStream i c' with mover := s.mover.moving i (s.stream i) cfg d w n } := by
  have hmove := State.moveFor_eq (s := { s with mover := { s.mover with pointer := i, move := none } }) hc hq
  have hready := StreamCtx.request_rx hc hq hdir (State.request_of_choice hi)
  obtain ⟨hsame, -⟩ := StreamCtx.prepare_spec hprep
  obtain ⟨-, -, hqueue, -⟩ := StreamCtx.sameButTaken_fields hsame
  have hput := s.putStream_eq_withStream i c' (by rw [hqueue])
  rw [← hput]
  exact State.chooseMove_eq hi hmove (State.nextWord_rx hc hq ⟨rfl, Nat.sub_pos_of_lt hleft⟩ hdir hready hprep)

end

/-- Settles O35: the grant begins a tenure, whose choice starts the first word. -/
theorem busGrantBeginsATenure : Obligations.BusGrantBeginsATenure := by
  unfold Obligations.BusGrantBeginsATenure
  intro s i cfg d rest hr hbus hbyld hi hc hq hleft c tenure
  have hgrant : s.grant = State.chooseMove { s with mover := tenure } :=
    (State.grant_requesting hbus).trans (State.beginTenure_chooses hbyld)
  refine ⟨fun hdir => exec_busGrant hr (hgrant.trans ?_),
    fun hdir c' w n hprep => exec_busGrant hr (hgrant.trans ?_)⟩
  · exact State.chooseMove_fetches (s := { s with mover := tenure }) hi hc hq hleft hdir
  · exact State.chooseMove_stores (s := { s with mover := tenure }) hi hc hq hleft hdir hprep

/-! ### BGNT low and a yield (R118, R119, R121, R123) -/

/-- A yield in HOLDING marks a tenure with a word in flight, and ends one with none. -/
theorem State.yieldBus_holding {s : State} (h : s.mover.bus = .holding) : s.yieldBus = { s with mover :=
    if s.mover.inFlight.isSome then { s.mover with yielded := true } else s.mover.ended } := by
  simp only [State.yieldBus, h, if_true]
  split <;> rfl

theorem State.yieldBus_elsewhere {s : State} (h : s.mover.bus ≠ .holding) : s.yieldBus = s := if_neg h

theorem State.grantLow_waitLow {s : State} (h : s.mover.bus = .waitLow) :
    s.grantLow = { s with mover := { s.mover with bgnt := false, bus := .idle } } := by
  simp only [State.grantLow, h]

theorem State.grantLow_holding {s : State} (h : s.mover.bus = .holding) :
    s.grantLow = State.yieldBus { s with mover := { s.mover with bgnt := false } } := by
  simp only [State.grantLow, h]

theorem State.grantLow_elsewhere {s : State} (h : s.mover.bus = .idle ∨ s.mover.bus = .requesting) :
    s.grantLow = { s with mover := { s.mover with bgnt := false } } := by
  obtain h | h := h <;> simp only [State.grantLow, h]

/-- Settles O36: each clause is one row in one bus state. -/
theorem busReleaseAndYield : Obligations.BusReleaseAndYield := by
  unfold Obligations.BusReleaseAndYield
  intro s hr low marked answers both
  refine ⟨fun hbus hempty => ?_, fun hbus => ?_, fun hbus => ?_, fun hbus => ?_, fun hbus => ⟨?_, ?_⟩,
    fun hbus => ?_, exec_yieldRemoved s⟩
  · exact exec_busGrant hr ((State.grant_requesting hbus).trans (State.beginTenure_empty hempty))
  · exact exec_busGrant hr (State.grant_elsewhere hbus)
  · exact exec_grantLow hr (State.grantLow_waitLow hbus)
  · exact exec_grantLow hr (State.grantLow_elsewhere hbus)
  · exact exec_grantLow hr ((State.grantLow_holding hbus).trans (State.yieldBus_holding hbus))
  · exact exec_yieldAsserted hr (State.yieldBus_holding hbus)
  · exact exec_yieldAsserted hr (State.yieldBus_elsewhere hbus)

end Sys2Proof.Machine
end

section
/-! PROOFS. The bus fault (R63, R130 to R132, R146), as an event and as the tick at which the ready timer ends (O41). -/

namespace Sys2Proof.Machine

/-! ### The fault of a word (R132) -/

section
variable {s : State} {m : Move} {w : InFlight} (hm : s.mover.move = some m) (hw : s.mover.inFlight = some w)
include hm hw

theorem State.faultWord_eq : s.faultWord = State.endTenure
    (if (s.stream m.stream).working then (s.raiseAll [.busFault m.stream s.line.frame w.addr]).haltCascade m.stream
        .busFault
      else s.raiseAll [.busFault m.stream s.line.frame w.addr]) := by
  simp only [State.faultWord, hm, hw]
  rfl

/-- A working stream halts, and then its group (R63, R146). -/
theorem State.faultWord_halts (hwork : (s.stream m.stream).working = true) :
    s.HaltedBy s.faultWord m.stream .busFault
    ∧ s.faultWord.cq = s.cq.raiseAll (.busFault m.stream s.line.frame w.addr :: s.haltRecords m.stream .busFault) := by
  obtain ⟨hhalted, hcq, -⟩ :=
    (s.raiseAll [.busFault m.stream s.line.frame w.addr]).haltCascade_spec m.stream .busFault hwork
  rw [State.faultWord_eq hm hw, if_pos hwork]
  exact ⟨hhalted, hcq⟩

/-- A stream in OFF or HALTED stays as it is. -/
theorem State.faultWord_stays (hidle : (s.stream m.stream).working = false) :
    s.faultWord.streams = s.streams
    ∧ s.faultWord.cq = s.cq.raiseAll [.busFault m.stream s.line.frame w.addr] := by
  rw [State.faultWord_eq hm hw, if_neg (by simp [hidle])]
  exact ⟨rfl, rfl⟩

/-- The fault touches the streams and the completion queue, and ends the tenure (R121). -/
theorem State.faultWord_units : s.faultWord = { s with
    mover := s.mover.ended, streams := s.faultWord.streams, cq := s.faultWord.cq } := by
  rw [State.faultWord_eq hm hw]
  split
  · rename_i hwork
    obtain ⟨-, -, hframe⟩ :=
      (s.raiseAll [.busFault m.stream s.line.frame w.addr]).haltCascade_spec m.stream .busFault hwork
    generalize (s.raiseAll [.busFault m.stream s.line.frame w.addr]).haltCascade m.stream .busFault = u at hframe ⊢
    conv_lhs => rw [hframe]
    rfl
  · rfl

/-- After the fault the Mover is in WAIT_LOW, and the look at the requests finds nothing to do (R119). -/
theorem State.faultWord_settle : s.faultWord.settle = { s.faultWord with
    line := s.faultWord.settledLine, groups := s.faultWord.settledGroups } :=
  s.faultWord.settle_quiet (.inl (by rw [State.faultWord_units hm hw]; nofun))

end

/-! ### The bit clock after the fault (log 31) -/

/-- The cut of a sample changes what is shifted out only (R16). -/
theorem State.settledLine_shift (s : State) :
    ∃ x bits, s.settledLine = { s.line with txStream := x, txBits := bits } := by
  simp only [State.settledLine, State.cutShift]
  split
  · exact ⟨_, _, rfl⟩
  · split <;> exact ⟨_, _, rfl⟩

/-- The cut of a sample and the timebase do not touch each other. -/
theorem State.settledLine_timebase {s u : State} {n : Nat} (hl : u.line = { s.line with tbLeft := n })
    (hs : u.streams = s.streams) : u.settledLine = { s.settledLine with tbLeft := n } := by
  have htx : u.line.txStream = s.line.txStream := by rw [hl]
  simp only [State.settledLine, State.cutShift, htx, State.stream_congr hs]
  split
  · exact hl
  · split
    · exact hl
    · simp only [hl]

/-- The bit clock of a state whose line stands at the same place of the same frame. -/
theorem State.BitClockTo.congr {s v : State} {l l' : LinePort} (h : v.BitClockTo l l')
    (hstate : v.line.state = s.line.state) (hfmt : v.line.fmt = s.line.fmt) (hdue : v.lineDue = s.lineDue) :
    s.BitClockTo l l' := by
  simpa only [State.BitClockTo, hstate, hfmt, hdue] using h

/-- The bit clock counts as it would have without the cut, since neither the cut nor the timebase moves the line. -/
theorem State.bitClock_afterCut {s v : State} {n : Nat} {x : Option StreamId} {bits : List Bool}
    (hl : v.line = { s.line with tbLeft := n, txStream := x, txBits := bits }) (hm : v.map = s.map) :
    s.BitClockTo v.line v.bitClock.line := by
  have hdue : v.lineDue = s.lineDue :=
    State.lineDue_congr (s := { s with line := { s.line with tbLeft := n, txStream := x, txBits := bits } }) hl hm
  exact (State.bitClock_spec (s := v) (t := v) (n := v.line.tbLeft) rfl rfl).1.congr (by rw [hl]) (by rw [hl]) hdue

/-! ### What the fault leaves -/

/-- `u` is `s` at the moment of the fault: the bus state, the timebase and the completion queue have moved on, as they
do before the tick at which the ready timer ends (logs 19 and 31). -/
def State.ReachesFault (s u : State) (n : Nat) (q : CompletionQueue) : Prop :=
  ∃ b, u = { s with mover := { s.mover with bus := b }, line := { s.line with tbLeft := n }, cq := q }

theorem State.ReachesFault.refl (s : State) : s.ReachesFault s s.line.tbLeft s.cq := ⟨s.mover.bus, rfl⟩

section
variable {s u t : State} {n : Nat} {q : CompletionQueue} {m : Move} {w : InFlight} (hu : s.ReachesFault u n q)
  (hm : s.mover.move = some m) (hw : s.mover.inFlight = some w)
  (ht : t = { u.faultWord.settle with line := t.line, freeIdx := t.freeIdx })
include hu hm hw

theorem State.ReachesFault.inFlight : u.mover.move = some m ∧ u.mover.inFlight = some w := by
  obtain ⟨b, rfl⟩ := hu
  exact ⟨hm, hw⟩

/-- The bit clock after the fault counts as it does in `s`. -/
theorem State.ReachesFault.bitClock :
    s.BitClockTo u.faultWord.settle.line u.faultWord.settle.bitClock.line := by
  obtain ⟨hum, huw⟩ := hu.inFlight hm hw
  have hunits := State.faultWord_units hum huw
  obtain ⟨hmap, -, -, -, -, -, -, -, -, hline, -⟩ := State.settle_fields u.faultWord
  obtain ⟨x, bits, hshift⟩ := State.settledLine_shift u.faultWord
  obtain ⟨b, rfl⟩ := hu
  refine State.bitClock_afterCut (n := n) (x := x) (bits := bits) ?_ ?_
  · rw [hline, hshift, hunits]
  · rw [hmap, hunits]

include ht

/-- The outcome of the fault, whatever the bit clock does after it. -/
theorem State.ReachesFault.outcome : FaultOutcome s t m w q := by
  obtain ⟨hum, huw⟩ := hu.inFlight hm hw
  have hhalts := State.faultWord_halts hum huw
  have hstays := State.faultWord_stays hum huw
  have hunits := State.faultWord_units hum huw
  rw [State.faultWord_settle hum huw] at ht
  generalize u.faultWord = f at hhalts hstays hunits ht
  obtain ⟨b, rfl⟩ := hu
  have hstreams : t.streams = f.streams := by rw [ht]
  have hcq : t.cq = f.cq := by rw [ht]
  refine ⟨?_, fun hwork => ⟨fun j => ?_, hcq.trans (hhalts hwork).2⟩,
    fun hidle => ⟨hstreams.trans (hstays hidle).1, hcq.trans (hstays hidle).2⟩, ?_, ?_⟩
  · rw [ht, hunits]
    rfl
  · rw [State.stream_congr hstreams]
    exact (hhalts hwork).1 j
  · obtain ⟨-, -, -, -, -, -, -, -, -, -, hgroups⟩ := State.settle_fields { s with streams := t.streams }
    have hkept : f.groups = s.groups := by rw [hunits]
    rw [State.followed, hgroups, ht]
    exact State.settledGroups_congr hkept rfl
  · rw [ht, hunits]
    exact ⟨rfl, rfl, rfl, rfl, rfl, rfl, rfl⟩

/-- The line after the fault is as the change of the streams leaves it (R16), with the timebase moved on. -/
theorem State.ReachesFault.line : u.faultWord.settle.line = { (s.followed t).line with tbLeft := n } := by
  obtain ⟨hum, huw⟩ := hu.inFlight hm hw
  have hunits := State.faultWord_units hum huw
  rw [State.faultWord_settle hum huw] at ht ⊢
  generalize u.faultWord = f at hunits ht ⊢
  obtain ⟨b, rfl⟩ := hu
  obtain ⟨-, -, -, -, -, -, -, -, -, hline, -⟩ := State.settle_fields { s with streams := t.streams }
  rw [State.followed, hline]
  exact State.settledLine_timebase (s := { s with streams := t.streams }) (by rw [hunits]) (by rw [ht])

end

/-! ### The event and the tick -/

section
variable {s : State} {m : Move} {w : InFlight} (hm : s.mover.move = some m) (hw : s.mover.inFlight = some w)
include hw

/-- The tick at which the ready timer ends: the holdoff timer has counted before the fault (log 19). -/
theorem State.timebase_faults (htick : s.line.tbLeft ≤ 1) (htimer : w.timer ≤ 1) :
    s.timebase = (State.faultWord { s with
      line := { s.line with tbLeft := s.line.fmt.tbDiv + 1 }, cq := { s.cq with timer := s.cq.timer.tick } }).settle := by
  simp only [State.timebase, if_pos htick, State.tick, State.readyTick, hw, if_pos htimer]

/-- A period of REFCLK with that tick, up to the bit clock; the sample of BGNT before it touches the bus state only. -/
theorem State.sampleGrant_timebase_faults (htick : s.line.tbLeft ≤ 1) (htimer : w.timer ≤ 1) :
    ∃ u, s.sampleGrant.timebase = u.faultWord.settle
      ∧ s.ReachesFault u (s.line.fmt.tbDiv + 1) { s.cq with timer := s.cq.timer.tick } := by
  rw [s.sampleGrant_eq, State.timebase_faults (by exact hw) (by exact htick) htimer]
  exact ⟨_, rfl, _, rfl⟩

include hm

/-- The event: the fault, and what follows from the change of the streams. -/
theorem exec_busFault (hr : s.resetLow = false) :
    ∃ t, exec .busFault s = .next t ∧ FaultOutcome s t m w s.cq ∧ s.FollowedBy t := by
  have hunits := State.faultWord_units hm hw
  refine ⟨_, congrArg Host.Outcome.next (State.event_run hr _), (State.ReachesFault.refl s).outcome hm hw rfl,
    .of_settle ?_ ?_ ?_ ?_⟩
  · rw [hunits]
    nofun
  · rw [hunits]
  · rw [hunits]
  · rw [hunits]
    exact ⟨rfl, rfl, rfl, rfl⟩

/-- The tick: the fault comes before the bit period (log 31). -/
theorem step_readyTimeout (hr : s.resetLow = false) (hp : s.pending = []) (htick : s.line.tbLeft ≤ 1)
    (htimer : w.timer ≤ 1) :
    ∃ t, step s = .next t ∧ FaultOutcome s t m w { s.cq with timer := s.cq.timer.tick }
      ∧ s.BitClockTo { (s.followed t).line with tbLeft := s.line.fmt.tbDiv + 1 } t.line := by
  obtain ⟨u, heq, hu⟩ := State.sampleGrant_timebase_faults hw htick htimer
  have hstep : step s = .next u.faultWord.settle.bitClock := by
    simp only [step, hp, State.idle, hr, ← heq, Bool.false_eq_true, if_false]
  have hclock := (State.bitClock_spec (s := u.faultWord.settle) (t := u.faultWord.settle)
    (n := u.faultWord.settle.line.tbLeft) rfl rfl).2
  refine ⟨_, hstep, hu.outcome hm hw hclock, ?_⟩
  rw [← hu.line hm hw hclock]
  exact hu.bitClock hm hw

end

/-- With no word in flight neither a bus fault nor RDY does anything (R130, R132). -/
theorem exec_nothingInFlight {s : State} (hr : s.resetLow = false) (hw : s.mover.inFlight = none) :
    exec .busFault s = .next s.settle ∧ ∀ x, exec (.wordTransferComplete x) s = .next s.settle := by
  have hfault : s.faultWord = s := by cases hm : s.mover.move <;> simp only [State.faultWord, hm, hw]
  have hready : ∀ x, s.completeWord x = s := fun x => by
    cases hm : s.mover.move <;> simp only [State.completeWord, hm, hw]
  exact ⟨congrArg Host.Outcome.next ((State.event_run hr _).trans (congrArg State.settle hfault)),
    fun x => congrArg Host.Outcome.next ((State.event_run hr _).trans (congrArg State.settle (hready x)))⟩

/-- Settles O41: the fault, as an event and at the tick, and no fault. -/
theorem busFaultOutcome : Obligations.BusFaultOutcome := by
  unfold Obligations.BusFaultOutcome
  intro s hr
  refine ⟨fun m w hm hw => ⟨exec_busFault hm hw hr, fun hp htick htimer => ?_⟩, exec_nothingInFlight hr⟩
  obtain ⟨t, hstep, hfault, hclock⟩ := step_readyTimeout hm hw hr hp htick htimer
  refine ⟨t, hstep, ?_, hclock⟩
  cases hold : s.cq.timer <;> rw [hold] at hfault <;> exact hfault

end Sys2Proof.Machine
end

section
/-! PROOFS. The group commands (R139 to R144): what GSTART, GSTOP and GABORT make of each member, with the records
member by member in stream order (O13, O14, O15). -/

namespace Sys2Proof.Machine

/-! ### Acts of some streams, one after the other -/

/-- `u` is `s` after each stream `i` of `l` has taken the context `(r i).1` and raised the records `(r i).2`, in the
order of `l`. -/
structure State.EachApplied (s : State) (l : List StreamId) (r : StreamId → StreamCtx × List Record) (u : State) :
    Prop where
  stream : ∀ i, u.stream i = if i ∈ l then (r i).1 else s.stream i
  cq : u.cq = s.cq.raiseAll (l.flatMap fun i => (r i).2)
  pool : (∀ i ∈ l, (r i).1.queue.length ≤ (s.stream i).queue.length) → u.free + u.queued = s.free + s.queued
  frame : u = { s with streams := u.streams, free := u.free, cq := u.cq }

/-- Acts of distinct streams, each resting on its own stream, the line port and the Mover alone. -/
theorem State.foldl_eachApplied {f : State → StreamId → State} {r : StreamId → StreamCtx × List Record}
    {l : List StreamId} (hn : l.Nodup) {s : State}
    (h : ∀ t, ∀ i ∈ l, t.stream i = s.stream i → t.line = s.line → t.mover = s.mover → f t i = t.apply i (r i)) :
    s.EachApplied l r (l.foldl f s) := by
  induction l generalizing s with
  | nil => exact ⟨fun i => by simp, rfl, fun _ => rfl, rfl⟩
  | cons k l ih =>
    obtain ⟨hk, hl⟩ := List.nodup_cons.1 hn
    have hother : ∀ i ∈ l, (s.apply k (r k)).stream i = s.stream i := fun i hi => by
      rw [State.stream_apply, if_neg fun (e : i = k) => hk (e ▸ hi)]
    have hrest := ih hl (s := s.apply k (r k)) fun t i hi hstream hline hmover =>
      h t i (List.mem_cons_of_mem _ hi) (hstream.trans (hother i hi)) hline hmover
    rw [List.foldl_cons, h s k List.mem_cons_self rfl rfl rfl]
    refine ⟨fun i => ?_, ?_, fun hq => ?_, ?_⟩
    · rw [hrest.stream, State.stream_apply]
      by_cases hi : i = k
      · subst hi
        simp [hk]
      · simp [hi]
    · rw [hrest.cq, List.flatMap_cons, CompletionQueue.raiseAll_append]
      rfl
    · rw [hrest.pool fun i hi => by rw [hother i hi]; exact hq i (List.mem_cons_of_mem _ hi)]
      exact State.free_queued_putStream s k (r k).1 (hq k List.mem_cons_self)
    · conv => lhs; rw [hrest.frame]
      rfl

/-- Writing a context back raises nothing and changes nothing. -/
theorem State.apply_self (s : State) (i : StreamId) : s.apply i (s.stream i, []) = s := by
  show s.putStream i (s.stream i) = s
  rw [State.putStream_eq_withStream s i _ rfl, State.withStream_self]

/-! ### The members of a group -/

theorem groupOf_eq {arg : Byte} {g : GroupId} (h : arg.toNat = g.val) : groupOf arg = some g := by
  simp [groupOf, h]

/-- A group command of group `g` answers what its meaning answers. -/
theorem State.runCommand_group {s u : State} {op arg : Byte} {g : GroupId} {run : State → GroupId → Answer}
    {code : ResultCode} {n : Nat} (hr : s.resetLow = false) (hg : arg.toNat = g.val)
    (h : run s g = (u, code, word n)) :
    s.runCommand op arg (fun s => s.forGroup arg (run s)) = u.withResult op arg code n :=
  State.runCommand_answer hr (by simp only [State.forGroup, groupOf_eq hg]; exact h)

section
variable {s : State} {g : GroupId}

theorem State.EachApplied.stream_member {r : StreamId → StreamCtx × List Record} {u : State}
    (h : s.EachApplied (s.members g) r u) {i : StreamId} (hi : (s.stream i).group? = some g) :
    u.stream i = (r i).1 := by
  rw [h.stream, if_pos ((mem_members s g i).2 hi)]

theorem State.EachApplied.stream_other {r : StreamId → StreamCtx × List Record} {u : State}
    (h : s.EachApplied (s.members g) r u) {i : StreamId} (hi : (s.stream i).group? ≠ some g) :
    u.stream i = s.stream i := by
  rw [h.stream, if_neg (mt (mem_members s g i).1 hi)]

theorem members_nodup : (s.members g).Nodup := allStreams_nodup.filter _

theorem members_eq_nil_iff : s.members g = [] ↔ ∀ i, (s.stream i).group? ≠ some g := by
  simp only [List.eq_nil_iff_forall_not_mem, mem_members, ne_eq]

theorem find?_members_eq_none {p : StreamId → Bool} (h : ∀ i, (s.stream i).group? = some g → p i = false) :
    (s.members g).find? p = none :=
  List.find?_eq_none.2 fun i hi => by simp [h i ((mem_members s g i).1 hi)]

/-- The lowest member of which something holds is the one the search over the members finds. -/
theorem find?_members_eq_some {p : StreamId → Bool} {i : StreamId} (hi : (s.stream i).group? = some g)
    (hp : p i = true) (hlow : ∀ j, j < i → (s.stream j).group? = some g → p j = false) :
    (s.members g).find? p = some i := by
  rw [State.members, List.find?_filter]
  refine find?_allStreams_eq_some (by simp [hi, hp]) fun j hj => ?_
  by_cases hm : (s.stream j).group? = some g
  · simp [hlow j hj hm]
  · simp [hm]

/-- Records of the members, member by member, are those of all streams where the others have none. -/
theorem flatMap_members (rs : StreamId → List Record) (h : ∀ i, (s.stream i).group? ≠ some g → rs i = []) :
    (s.members g).flatMap rs = allStreams.flatMap rs := by
  have hall : ∀ l : List StreamId,
      (l.filter fun i => decide ((s.stream i).group? = some g)).flatMap rs = l.flatMap rs := fun l => by
    induction l with
    | nil => rfl
    | cons i l ih =>
      by_cases hm : (s.stream i).group? = some g
      · rw [List.filter_cons_of_pos (by simpa using hm), List.flatMap_cons, List.flatMap_cons, ih]
      · rw [List.filter_cons_of_neg (by simpa using hm), List.flatMap_cons, h i hm, List.nil_append, ih]
  exact hall allStreams

end

/-! ### GSTART (R140, R141) -/

theorem StreamCtx.groupReady_iff (c : StreamCtx) : c.groupReady = true ↔ c.state = .off ∧ c.queue ≠ [] := by
  rw [StreamCtx.groupReady, decide_eq_true_eq]

/-- Every member is armed, and no record raised (R141). -/
theorem State.armMembers_applied (s : State) (g : GroupId) (m : StartMode) :
    s.EachApplied (s.members g) (fun i => ((s.stream i).arm m, [])) (s.armMembers g m) :=
  State.foldl_eachApplied members_nodup fun t i _ hstream _ _ => by
    rw [hstream]
    rfl

theorem State.armMembers_stream (s : State) (g : GroupId) (m : StartMode) (i : StreamId) :
    (s.armMembers g m).stream i = if (s.stream i).group? = some g then (s.stream i).arm m else s.stream i := by
  rw [(s.armMembers_applied g m).stream]
  simp only [mem_members]

/-- Arming moves no descriptor and raises no record: it writes the members' contexts only. -/
theorem State.armMembers_frame (s : State) (g : GroupId) (m : StartMode) :
    s.armMembers g m = { s with streams := (s.armMembers g m).streams } := by
  have h := s.armMembers_applied g m
  have hq : (s.armMembers g m).queued = s.queued := State.queued_of_lengths fun i => by
    rw [s.armMembers_stream]
    split <;> rfl
  have hfree : (s.armMembers g m).free = s.free := by
    have := h.pool fun _ _ => Nat.le_refl _
    omega
  have hcq : (s.armMembers g m).cq = s.cq :=
    h.cq.trans (by rw [List.flatMap_eq_nil_iff.2 fun _ _ => rfl, CompletionQueue.raiseAll_nil])
  conv => lhs; rw [h.frame, hfree, hcq]

section
variable {s : State} {g : GroupId}

theorem State.gstart_badParam (hm : StartMode.parse (s.stageWord 4) (s.stageWord 5) = none) :
    s.gstart g = s.refuse .badParam 1 := by
  simp only [State.gstart, hm]

variable {m : StartMode} (hm : StartMode.parse (s.stageWord 4) (s.stageWord 5) = some m)
include hm

theorem State.gstart_noMember (h : ∀ i, (s.stream i).group? ≠ some g) :
    s.gstart g = s.refuse .groupNotReady 0xFFFF := by
  simp only [State.gstart, hm, if_pos (members_eq_nil_iff.2 h)]

variable {i : StreamId} (hi : (s.stream i).group? = some g)
include hi

/-- Check 4 names the lowest member that is not ready. -/
theorem State.gstart_notReady (hready : (s.stream i).groupReady = false)
    (hlow : ∀ j, j < i → (s.stream j).group? = some g → (s.stream j).groupReady = true) :
    s.gstart g = s.refuse .groupNotReady i.val := by
  have hsome : s.members g ≠ [] := fun h => members_eq_nil_iff.1 h i hi
  have hfind := find?_members_eq_some (p := fun j => !(s.stream j).groupReady) hi (by simp [hready])
    fun j hj hm => by simp [hlow j hj hm]
  simp only [State.gstart, hm, if_neg hsome, hfind]

/-- With every member ready, the last check, and the arming. -/
theorem State.gstart_ready (hready : ∀ j, (s.stream j).group? = some g → (s.stream j).groupReady = true) :
    s.gstart g = if m.late s.line.frame then s.refuse .late s.line.frame.toNat
      else ((s.armMembers g m).setGroup g (.start m)).settle.accept (s.members g).length := by
  have hsome : s.members g ≠ [] := fun h => members_eq_nil_iff.1 h i hi
  have hfind := find?_members_eq_none (s := s) (g := g) (p := fun j => !(s.stream j).groupReady)
    fun j hj => by simp [hready j hj]
  simp only [State.gstart, hm, if_neg hsome, hfind]

end

/-- Settles O13. -/
theorem groupStartOutcome : Obligations.GroupStartOutcome := by
  unfold Obligations.GroupStartOutcome
  intro s g arg hr hg code target mode answer member ready late
  have hexec : ∀ {u code n}, s.gstart g = (u, code, word n) →
      exec (.gstart arg) s = .next (u.withResult 0x10 arg code n) := fun h =>
    congrArg Host.Outcome.next (State.runCommand_group hr hg h)
  have hready : ∀ i, (s.stream i).groupReady = true ↔ ready i := fun i => (s.stream i).groupReady_iff
  refine ⟨fun h2 => hexec (State.gstart_badParam (StartMode.parse_eq_none h2)), fun h1 => ?_⟩
  have hmode : StartMode.parse (s.stageWord 4) (s.stageWord 5) = some mode := StartMode.parse_eq_some h1
  have hlate : mode.late s.line.frame = true ↔ late := StartMode.late_iff h1 _ _
  refine ⟨fun hnone => hexec (State.gstart_noMember hmode hnone), fun i hi hnot hlow => ?_,
    fun ⟨i, hi⟩ hall => ?_⟩
  · exact hexec (State.gstart_notReady hmode hi (Bool.eq_false_iff.2 (mt (hready i).1 hnot))
      fun j hj hm => (hready j).2 (hlow j hj hm))
  · have hrun := State.gstart_ready hmode hi fun j hj => (hready j).2 (hall j hj)
    refine ⟨fun h => hexec (hrun.trans (if_pos (hlate.2 h))), fun h => ?_⟩
    refine ⟨_, hexec (hrun.trans (if_neg (mt hlate.1 h))), s.armMembers_stream g mode, ?_, ?_⟩
    · rw [s.armMembers_frame g mode]
      rfl
    · rw [s.armMembers_frame g mode]
      rfl

/-! ### GSTOP (R143) -/

/-- What GSTOP makes of one member, and its records: an armed one goes OFF (R51), a running one waits for the boundary
of a served line or stops at once (R54, R55), any other stays. -/
def State.gstopResult (s : State) (i : StreamId) : StreamCtx × List Record :=
  match (s.stream i).state with
  | .armed _ _ => (s.stream i).stopArmed i s.line.frame
  | .running =>
    if s.line.served then ({ s.stream i with state := .stopping }, [])
    else (s.stream i).stopNow i s.line.frame (s.headInFlight i)
  | .off | .stopping | .draining _ _ | .halted _ => (s.stream i, [])

section
variable {s : State} {i : StreamId}

theorem State.gstopResult_armed (h : ∃ m e, (s.stream i).state = .armed m e) :
    s.gstopResult i = (s.stream i).stopArmed i s.line.frame := by
  obtain ⟨m, e, h⟩ := h
  simp only [State.gstopResult, h]

theorem State.gstopResult_served (h : (s.stream i).state = .running) (hs : s.line.served = true) :
    s.gstopResult i = ({ s.stream i with state := .stopping }, []) := by
  simp only [State.gstopResult, h, hs, if_true]

theorem State.gstopResult_unserved (h : (s.stream i).state = .running) (hs : s.line.served = false) :
    s.gstopResult i = (s.stream i).stopNow i s.line.frame (s.headInFlight i) := by
  simp only [State.gstopResult, h, hs, Bool.false_eq_true, if_false]

theorem State.gstopResult_other (h : ¬ (∃ m e, (s.stream i).state = .armed m e) ∧ (s.stream i).state ≠ .running) :
    s.gstopResult i = (s.stream i, []) := by
  cases hst : (s.stream i).state with
  | armed m e => exact absurd ⟨m, e, hst⟩ h.1
  | running => exact absurd hst h.2
  | _ => simp only [State.gstopResult, hst]

end

theorem State.gstopMember_eq (s : State) (i : StreamId) : s.gstopMember i = s.apply i (s.gstopResult i) := by
  cases hst : (s.stream i).state with
  | armed m e => simp only [State.gstopMember, State.gstopResult, hst]
  | running =>
    simp only [State.gstopMember, State.gstopResult, hst]
    split <;> rfl
  | _ => simp only [State.gstopMember, State.gstopResult, hst, State.apply_self]

/-- What GSTOP does to a member rests on its stream, the line port and the Mover. -/
theorem State.gstopResult_congr {s t : State} {i : StreamId} (hs : t.stream i = s.stream i) (hl : t.line = s.line)
    (hm : t.mover = s.mover) : t.gstopResult i = s.gstopResult i := by
  have hfly : t.headInFlight i = s.headInFlight i := by simp only [State.headInFlight, State.servesHead, hs, hm]
  simp only [State.gstopResult, hs, hl, hfly]

/-- A stop returns descriptors and takes none (R86). -/
theorem State.gstopResult_queue (s : State) (i : StreamId) :
    (s.gstopResult i).1.queue.length ≤ (s.stream i).queue.length := by
  simp only [State.gstopResult]
  split
  · exact Nat.zero_le _
  · split
    · exact Nat.le_refl _
    · exact ((s.stream i).stopNow_spec i s.line.frame _).queue_length
  all_goals exact Nat.le_refl _

theorem State.gstopMembers_applied (s : State) (g : GroupId) :
    s.EachApplied (s.members g) s.gstopResult ((s.members g).foldl State.gstopMember s) :=
  State.foldl_eachApplied members_nodup fun t i _ hs hl hm => by
    rw [t.gstopMember_eq, State.gstopResult_congr hs hl hm]

theorem StreamCtx.isArmed_iff (c : StreamCtx) : c.isArmed = true ↔ ∃ m e, c.state = .armed m e := by
  cases hst : c.state <;> simp [StreamCtx.isArmed, hst]

section
variable (s : State) (g : GroupId)

theorem State.anyToStop_iff :
    ((s.members g).any fun i => (s.stream i).isArmed || decide ((s.stream i).state = .running)) = true
      ↔ ∃ i, (s.stream i).group? = some g
        ∧ ((∃ m e, (s.stream i).state = .armed m e) ∨ (s.stream i).state = .running) := by
  simp only [List.any_eq_true, mem_members, Bool.or_eq_true, StreamCtx.isArmed_iff, decide_eq_true_eq]

theorem State.anyRunning_iff : ((s.members g).any fun i => decide ((s.stream i).state = .running)) = true
      ↔ ∃ i, (s.stream i).group? = some g ∧ (s.stream i).state = .running := by
  simp only [List.any_eq_true, mem_members, decide_eq_true_eq]

/-- GSTOP leaves a stop pending where the line is served and a member runs (R143). -/
def State.leavesStop : Prop :=
  s.line.served = true ∧ ∃ i, (s.stream i).group? = some g ∧ (s.stream i).state = .running

variable {s g}

theorem State.gstop_refused (h : ∀ i, (s.stream i).group? = some g →
      ¬ (∃ m e, (s.stream i).state = .armed m e) ∧ (s.stream i).state ≠ .running) :
    s.gstop g = s.refuse .state 0 := by
  refine if_neg fun hany => ?_
  obtain ⟨i, hi, hst⟩ := (s.anyToStop_iff g).1 hany
  exact hst.elim (h i hi).1 (h i hi).2

variable (h : ∃ i, (s.stream i).group? = some g
    ∧ ((∃ m e, (s.stream i).state = .armed m e) ∨ (s.stream i).state = .running))
include h

theorem State.gstop_pending (hleft : s.leavesStop g) :
    s.gstop g = (((s.members g).foldl State.gstopMember s).setGroup g .stop).settle.accept 0 :=
  (if_pos ((s.anyToStop_iff g).2 h)).trans (if_pos ⟨hleft.1, (s.anyRunning_iff g).2 hleft.2⟩)

theorem State.gstop_done (hleft : ¬ s.leavesStop g) :
    s.gstop g = ((s.members g).foldl State.gstopMember s).settle.accept 1 :=
  (if_pos ((s.anyToStop_iff g).2 h)).trans (if_neg fun hl => hleft ⟨hl.1, (s.anyRunning_iff g).1 hl.2⟩)

end

/-- Settles O14: the members' stops in stream order, and the pending action by what they leave. -/
theorem groupStopOutcome : Obligations.GroupStopOutcome := by
  unfold Obligations.GroupStopOutcome
  intro s g arg hr hg member armed running
  have hexec : ∀ {u code n}, s.gstop g = (u, code, word n) →
      exec (.gstop arg) s = .next (u.withResult 0x11 arg code n) := fun h =>
    congrArg Host.Outcome.next (State.runCommand_group hr hg h)
  refine ⟨fun h => hexec (State.gstop_refused h), fun h => ?_⟩
  have happ := s.gstopMembers_applied g
  have hpending := State.gstop_pending h
  have hdone := State.gstop_done h
  generalize (s.members g).foldl State.gstopMember s = v at happ hpending hdone
  have hgroups : v.groups = s.groups := by rw [happ.frame]
  obtain ⟨records, hrecords⟩ : ∃ records : StreamId → List Record,
    ∀ i, records i = if member i then (s.gstopResult i).2 else [] := ⟨_, fun _ => rfl⟩
  have hin : ∀ i, member i → (v.stream i, records i) = s.gstopResult i := fun i hi => by
    rw [happ.stream_member hi, hrecords, if_pos hi]
  have hout : ∀ i, ¬ member i → v.stream i = s.stream i ∧ records i = [] := fun i hi => by
    rw [hrecords, if_neg hi]
    exact ⟨happ.stream_other hi, rfl⟩
  have hflat : (s.members g).flatMap (fun i => (s.gstopResult i).2) = allStreams.flatMap records := by
    rw [← flatMap_members (s := s) (g := g) records fun i hi => (hout i hi).2]
    refine List.flatMap_congr fun i hi => ?_
    rw [hrecords, if_pos ((mem_members s g i).1 hi)]
  have hunserved : ∀ i, member i → running i → s.line.served = false →
      (s.stream i).Stopped i s.line.frame (s.headInFlight i) (v.stream i) (records i) := fun i hi hrun hs => by
    have hnow := (s.stream i).stopNow_spec i s.line.frame (s.headInFlight i)
    rw [← State.gstopResult_unserved hrun hs, ← hin i hi] at hnow
    exact hnow
  have hrest : ∀ i, ¬ member i ∨ (¬ armed i ∧ ¬ running i) → v.stream i = s.stream i ∧ records i = [] :=
    fun i hi => by
      by_cases hm : member i
      · exact Prod.mk.inj ((hin i hm).trans (State.gstopResult_other (hi.resolve_left (not_not.2 hm))))
      · exact hout i hm
  refine ⟨{ v with groups := open Classical in if s.leavesStop g then s.groups.set g.val .stop else s.groups },
    records, fun i => ⟨fun hi ha => ?_, fun hi hrun hs => ?_, hunserved i, hrest i⟩, ?_, ?_, fun hleft => ?_,
    fun hleft => ?_, ?_⟩
  · exact Prod.mk.inj ((hin i hi).trans (State.gstopResult_armed ha))
  · exact Prod.mk.inj ((hin i hi).trans (State.gstopResult_served hrun hs))
  · exact happ.cq.trans (by rw [hflat])
  · exact happ.pool fun i _ => s.gstopResult_queue i
  · have hset : v.setGroup g .stop = { v with groups := s.groups.set g.val .stop } := by
      rw [State.setGroup, hgroups]
    rw [if_pos (show s.leavesStop g from hleft), ← hset]
    exact ⟨by rw [State.setGroup_groups, hgroups], hexec (hpending hleft)⟩
  · have hnone : ¬ s.leavesStop g := fun ⟨hs, i, hi, hrun⟩ => hleft.elim (by simp [hs]) fun hall => hall i hi hrun
    rw [if_neg hnone, ← hgroups]
    exact ⟨rfl, hexec (hdone hnone)⟩
  · conv => lhs; rw [happ.frame]

/-! ### GABORT (R144) -/

theorem State.abortable_eq (s : State) (g : GroupId) : s.abortable g
    = allStreams.filter fun i => decide ((s.stream i).group? = some g ∧ (s.stream i).state ≠ .off) := by
  rw [State.abortable, State.members, List.filter_filter]
  refine List.filter_congr fun i _ => ?_
  rw [Bool.and_comm, Bool.decide_and]

theorem mem_abortable {s : State} {g : GroupId} {i : StreamId} :
    i ∈ s.abortable g ↔ (s.stream i).group? = some g ∧ (s.stream i).state ≠ .off := by
  simp only [State.abortable_eq, List.mem_filter, mem_allStreams, true_and, decide_eq_true_eq]

/-- Each member that is not OFF is aborted as ABORT takes it (R65, R144). -/
theorem State.abortMembers_applied (s : State) (g : GroupId) :
    s.EachApplied (s.abortable g) (fun i => (s.stream i).abortNow i s.line.frame true)
      ((s.abortable g).foldl State.abortOne s) :=
  State.foldl_eachApplied (members_nodup.filter _) fun t i hi hs hl _ => by
    have hst : (t.stream i).state ≠ .off := hs ▸ (mem_abortable.1 hi).2
    rw [State.abortOne, if_neg hst, hs, hl]

/-- Settles O15. -/
theorem groupAbortOutcome : Obligations.GroupAbortOutcome := by
  unfold Obligations.GroupAbortOutcome
  intro s g arg hr hg hit
  rw [← s.abortable_eq g]
  have happ := s.abortMembers_applied g
  have hexec : exec (.gabort arg) s = _ := congrArg Host.Outcome.next (State.runCommand_group hr hg rfl)
  generalize (s.abortable g).foldl State.abortOne s = v at happ hexec
  have hgroups : v.groups = s.groups := by rw [happ.frame]
  refine ⟨v.setGroup g .none, hexec, fun i => ?_, happ.cq, happ.pool fun i _ => Nat.zero_le _, ?_, ?_⟩
  · rw [State.stream_setGroup, happ.stream]
    exact if_congr mem_abortable rfl rfl
  · rw [State.setGroup_groups, hgroups]
  · rw [State.setGroup_groups, hgroups]
    conv => lhs; rw [happ.frame]
    rfl

end Sys2Proof.Machine
end

section
/-! PROOFS. Pending group actions agree with the members' states (R139, R141 to R143): only the group commands make a
grouped stream wait, in one act with the pending action, and what follows every other act clears the actions that no
member waits for any more (O55). -/

namespace Sys2Proof.Machine

/-! ### The pending action a stream waits for -/

/-- The group and the pending action that a stream's state belongs to: its group's START, with its mode, in ARMED
(R141), its group's STOP in STOPPING (R143). -/
def StreamCtx.claim (c : StreamCtx) : Option (GroupId × GroupAction) :=
  match c.state with
  | .armed m _ => c.group?.map fun g => (g, .start m)
  | .stopping => c.group?.map fun g => (g, .stop)
  | .off | .running | .draining _ _ | .halted _ => none

theorem StreamCtx.claim_congr {c c' : StreamCtx} (hcfg : c'.cfg = c.cfg) (hst : c'.state = c.state) :
    c'.claim = c.claim := by
  simp only [StreamCtx.claim, hst, StreamCtx.group?_congr hcfg]

theorem StreamCtx.claim_ungrouped {c : StreamCtx} (hg : c.group? = none) : c.claim = none := by
  cases hst : c.state <;> simp [StreamCtx.claim, hst, hg]

theorem StreamCtx.claim_off {c : StreamCtx} (h : c.state = .off) : c.claim = none := by
  simp only [StreamCtx.claim, h]

theorem StreamCtx.claim_eq_some_iff {c : StreamCtx} {g : GroupId} {a : GroupAction} :
    c.claim = some (g, a) ↔ c.group? = some g
      ∧ ((∃ m e, c.state = .armed m e ∧ a = .start m) ∨ (c.state = .stopping ∧ a = .stop)) := by
  cases hst : c.state <;> simp [StreamCtx.claim, hst, eq_comm]

/-- Every claim is the pending action of its group. -/
def State.Claimed (s : State) : Prop :=
  ∀ i g a, (s.stream i).claim = some (g, a) → s.groups[g] = a

/-- The law of the groups: the pending actions are the streams' claims. -/
theorem State.groupLaw_iff (s : State) : s.GroupLaw ↔
    s.Claimed ∧ ∀ g, s.groups[g] ≠ .none → ∃ i, (s.stream i).claim = some (g, s.groups[g]) := by
  constructor
  · intro h
    refine ⟨fun i g a hc => ?_, fun g hne => ?_⟩
    · obtain ⟨hi, ⟨m, e, hst, rfl⟩ | ⟨hst, rfl⟩⟩ := StreamCtx.claim_eq_some_iff.1 hc
      · exact ((h g).2.2 i hi).1 m e hst
      · exact ((h g).2.2 i hi).2 hst
    · obtain ⟨hstart, hstop, hmember⟩ := h g
      cases ha : s.groups[g] with
      | none => exact absurd ha hne
      | start m =>
        obtain ⟨i, hi, harmed⟩ := hstart m ha
        obtain ⟨m', e, hst⟩ := (s.stream i).isArmed_iff.1 harmed
        have hmode := ((hmember i ((mem_members s g i).1 hi)).1 m' e hst).symm.trans ha
        exact ⟨i, StreamCtx.claim_eq_some_iff.2 ⟨(mem_members s g i).1 hi, .inl ⟨m', e, hst, hmode.symm⟩⟩⟩
      | stop =>
        obtain ⟨i, hi, hst⟩ := hstop ha
        exact ⟨i, StreamCtx.claim_eq_some_iff.2 ⟨(mem_members s g i).1 hi, .inr ⟨hst, rfl⟩⟩⟩
  · rintro ⟨hclaimed, hwaited⟩ g
    refine ⟨fun m ha => ?_, fun ha => ?_, fun i hi => ⟨fun m e hst => ?_, fun hst => ?_⟩⟩
    · obtain ⟨i, hc⟩ := hwaited g (by simp [ha])
      obtain ⟨hi, ⟨m', e, hst, -⟩ | ⟨-, hne⟩⟩ := StreamCtx.claim_eq_some_iff.1 hc
      · exact ⟨i, (mem_members s g i).2 hi, (s.stream i).isArmed_iff.2 ⟨m', e, hst⟩⟩
      · simp [ha] at hne
    · obtain ⟨i, hc⟩ := hwaited g (by simp [ha])
      obtain ⟨hi, ⟨_, _, -, hne⟩ | ⟨hst, -⟩⟩ := StreamCtx.claim_eq_some_iff.1 hc
      · simp [ha] at hne
      · exact ⟨i, (mem_members s g i).2 hi, hst⟩
    · exact hclaimed i g _ (StreamCtx.claim_eq_some_iff.2 ⟨hi, .inl ⟨m, e, hst, rfl⟩⟩)
    · exact hclaimed i g _ (StreamCtx.claim_eq_some_iff.2 ⟨hi, .inr ⟨hst, rfl⟩⟩)

theorem State.GroupLaw.claimed {s : State} (h : s.GroupLaw) : s.Claimed := (s.groupLaw_iff.1 h).1

/-- An act that leaves the pending actions and the claims keeps the law. -/
theorem State.GroupLaw.congr {s t : State} (h : s.GroupLaw) (hg : t.groups = s.groups)
    (hc : ∀ i, (t.stream i).claim = (s.stream i).claim) : t.GroupLaw := by
  rw [State.groupLaw_iff] at h ⊢
  simpa only [State.Claimed, hg, hc] using h

/-- An act of the other units keeps the law. -/
theorem State.GroupLaw.of_rest {s t : State} (h : s.GroupLaw) (hs : t.streams = s.streams)
    (hg : t.groups = s.groups) : t.GroupLaw :=
  h.congr hg fun i => by rw [State.stream_congr hs]

/-! ### What follows a change of a stream (R139) -/

/-- The pending action of a group that some stream claims stands; one that no stream claims is cleared. -/
theorem State.Claimed.groupActionNow {s : State} (h : s.Claimed) (g : GroupId) :
    (∀ i a, (s.stream i).claim = some (g, a) → s.groupActionNow g = a)
    ∧ (s.groupActionNow g ≠ .none → ∃ i, (s.stream i).claim = some (g, s.groupActionNow g)) := by
  rw [State.groupActionNow_eq]
  refine ⟨fun i a hc => ?_, fun hne => ?_⟩
  · rw [h i g a hc]
    obtain ⟨hi, ⟨m, e, hst, rfl⟩ | ⟨hst, rfl⟩⟩ := StreamCtx.claim_eq_some_iff.1 hc
    · exact if_pos ⟨i, (mem_members s g i).2 hi, (s.stream i).isArmed_iff.2 ⟨m, e, hst⟩⟩
    · exact if_pos ⟨i, (mem_members s g i).2 hi, hst⟩
  · cases ha : s.groups[g] with
    | none => exact absurd (by rw [ha]) hne
    | start m =>
      have hwait : ∃ i ∈ s.members g, (s.stream i).isArmed = true :=
        of_not_not fun hno => hne (by rw [ha]; exact if_neg hno)
      have ⟨i, hi, harmed⟩ := hwait
      obtain ⟨m', e, hst⟩ := (s.stream i).isArmed_iff.1 harmed
      have hc := StreamCtx.claim_eq_some_iff.2 ⟨(mem_members s g i).1 hi, .inl ⟨m', e, hst, rfl⟩⟩
      refine ⟨i, ?_⟩
      simp only [if_pos hwait, hc, ← ha, h i g _ hc]
    | stop =>
      have hwait : ∃ i ∈ s.members g, (s.stream i).state = .stopping :=
        of_not_not fun hno => hne (by rw [ha]; exact if_neg hno)
      have ⟨i, hi, hst⟩ := hwait
      refine ⟨i, ?_⟩
      simp only [if_pos hwait]
      exact StreamCtx.claim_eq_some_iff.2 ⟨(mem_members s g i).1 hi, .inr ⟨hst, rfl⟩⟩

/-- With every claim pending, a settle clears what no stream claims, and the law holds. -/
theorem State.Claimed.settle {s : State} (h : s.Claimed) : s.settle.GroupLaw := by
  have hgroups : ∀ g : GroupId, s.settle.groups[g] = s.groupActionNow g := fun g => by
    obtain ⟨-, -, -, -, -, -, -, -, -, -, hset⟩ := s.settle_fields
    rw [hset, s.settledGroups_get g]
  have hclaim : ∀ i, (s.settle.stream i).claim = (s.stream i).claim := fun i => by
    obtain ⟨hcfg, hst, -⟩ := StreamCtx.sameButTaken_fields (s.settle_sameButTaken i)
    exact StreamCtx.claim_congr hcfg hst
  rw [State.groupLaw_iff]
  simp only [State.Claimed, hgroups, hclaim]
  exact ⟨fun i g a => (h.groupActionNow g).1 i a, fun g => (h.groupActionNow g).2⟩

/-! ### One stream -/

/-- The stream claims no pending action but the one it claimed before. -/
def StreamCtx.ClaimsNoMore (c c' : StreamCtx) : Prop := c'.claim = none ∨ c'.claim = c.claim

theorem StreamCtx.ClaimsNoMore.refl (c : StreamCtx) : c.ClaimsNoMore c := .inr rfl

theorem StreamCtx.ClaimsNoMore.trans {a b c : StreamCtx} (h : a.ClaimsNoMore b) (k : b.ClaimsNoMore c) :
    a.ClaimsNoMore c := k.elim .inl fun e => h.imp e.trans e.trans

theorem StreamCtx.ClaimsNoMore.of_state {c c' : StreamCtx} (hcfg : c'.cfg = c.cfg) (hst : c'.state = c.state) :
    c.ClaimsNoMore c' := .inr (StreamCtx.claim_congr hcfg hst)

theorem StreamCtx.returnHead_claimsNoMore (c : StreamCtx) (i : StreamId) (frame : BitVec 16) (st : Status)
    (n : Nat) : c.ClaimsNoMore (c.returnHead i frame st n).1 := by
  simp only [StreamCtx.returnHead]
  split
  · exact .refl c
  · exact .of_state rfl rfl

/-- An armed stream keeps its mode when its END descriptor has been fetched (R50). -/
theorem StreamCtx.endReached_claimsNoMore (c : StreamCtx) : c.ClaimsNoMore c.endReached := by
  cases hst : c.state with
  | armed m e => exact .inr (by simp only [StreamCtx.endReached, StreamCtx.claim, hst]; rfl)
  | running => exact .inl (by simp only [StreamCtx.endReached, StreamCtx.claim, hst])
  | _ => exact .inr (by simp only [StreamCtx.endReached, hst])

theorem StreamCtx.fetchWord_claimsNoMore (c : StreamCtx) (i : StreamId) (frame : BitVec 16) (w : Word) :
    c.ClaimsNoMore (c.fetchWord i frame w).1 := by
  have hfed : ∀ {xs bs n k}, c.ClaimsNoMore { c with
      fifo := xs, residual := bs, samplesDone := n, wordsDone := k } := .of_state rfl rfl
  simp only [StreamCtx.fetchWord]
  split
  · split
    · split
      · exact (hfed.trans (StreamCtx.returnHead_claimsNoMore _ i frame _ _)).trans
          (StreamCtx.endReached_claimsNoMore _)
      · exact hfed.trans (StreamCtx.returnHead_claimsNoMore _ i frame _ _)
    · exact hfed
  · exact .refl c

/-- A drain or a flush that ends leaves the stream OFF (R56, R60). -/
theorem StreamCtx.storeWord_claimsNoMore (c : StreamCtx) (i : StreamId) (frame : BitVec 16) (n : Nat) :
    c.ClaimsNoMore (c.storeWord i frame n).1 := by
  have hret : ∀ (st : Status) (k : Nat), c.ClaimsNoMore (StreamCtx.returnHead
      { c with samplesDone := c.samplesDone + n, wordsDone := c.wordsDone + 1 } i frame st k).1 :=
    fun st k => (StreamCtx.ClaimsNoMore.of_state rfl rfl).trans (StreamCtx.returnHead_claimsNoMore _ i frame st k)
  simp only [StreamCtx.storeWord]
  split
  · split
    · split
      · exact .inl rfl
      · split
        · exact .inl rfl
        · exact hret _ _
      all_goals exact hret _ _
    · split
      · exact .inl rfl
      · exact .of_state rfl rfl
  · exact .refl c

theorem StreamCtx.testEnd_claimsNoMore (c : StreamCtx) (n : Nat) : c.ClaimsNoMore (c.testEnd n) := by
  simp only [StreamCtx.testEnd]
  split
  · exact .refl c
  · split
    · exact .inl rfl
    · exact .refl c

theorem StreamCtx.enqueue_claimsNoMore (c : StreamCtx) (d : Descriptor) (n : Nat) :
    c.ClaimsNoMore (c.enqueue d n) := by
  simp only [StreamCtx.enqueue]
  split
  · exact (StreamCtx.ClaimsNoMore.of_state rfl rfl).trans (StreamCtx.testEnd_claimsNoMore _ n)
  · exact .of_state rfl rfl

/-- A stopped stream flushes or is OFF (R54, R55). -/
theorem StreamCtx.Stopped.claim {c c' : StreamCtx} {i : StreamId} {frame : BitVec 16} {b : Bool} {rs : List Record}
    (h : c.Stopped i frame b c' rs) : c'.claim = none := by
  by_cases hf : c.stopFlushes b
  · rw [(h.1 hf).1]
    rfl
  · rw [(h.2 hf).1]
    rfl

theorem StreamCtx.stopNow_claim (c : StreamCtx) (i : StreamId) (frame : BitVec 16) (b : Bool) :
    (c.stopNow i frame b).1.claim = none := (c.stopNow_spec i frame b).claim

/-- A boundary starts or stops what waits for it, or leaves it waiting (R49, R54, R55). -/
theorem StreamCtx.Crossed.claimsNoMore {c c' : StreamCtx} {i : StreamId} {frame : BitVec 16} {b : Bool}
    {rs : List Record} (h : c.Crossed i frame b c' rs) : c.ClaimsNoMore c' := by
  simp only [StreamCtx.Crossed] at h
  split at h
  · split at h
    · rename_i e _ _
      rw [h.1]
      cases e <;> exact .inl rfl
    · rw [h.1]
      exact .refl c
  · exact .inl (StreamCtx.Stopped.claim h)
  · rw [h.1]
    exact .inl rfl
  all_goals
    rw [h.1]
    exact .refl c

/-- At the loss of alignment a stream stops, halts, or stays (R11). -/
theorem State.Lost.claimsNoMore {s : State} {i : StreamId} {c' : StreamCtx} {stops halts : List Record}
    (h : s.Lost i c' stops halts) : (s.stream i).ClaimsNoMore c' := by
  obtain ⟨c1, hstop, halign, hgroup, hrest⟩ := h
  by_cases ha : (s.stream i).alignHalts
  · rw [(halign ha).1]
    exact .inl rfl
  · by_cases hg : s.groupHit i ∧ c1.working = true
    · rw [(hgroup ha hg.1 hg.2).1]
      exact .inl rfl
    · rw [(hrest ha (by rw [not_and_or, Bool.not_eq_true] at hg; exact hg)).1]
      split at hstop
      · exact .inl (StreamCtx.Stopped.claim hstop)
      · rw [hstop.1]
        exact .refl _

/-! ### The whole block -/

/-- The pending actions stay, and no stream claims one it did not claim before. -/
structure State.ClaimsNoMore (s t : State) : Prop where
  groups : t.groups = s.groups
  streams : ∀ i, (s.stream i).ClaimsNoMore (t.stream i)

theorem State.ClaimsNoMore.refl (s : State) : s.ClaimsNoMore s := ⟨rfl, fun _ => .refl _⟩

theorem State.ClaimsNoMore.trans {s t u : State} (h : s.ClaimsNoMore t) (k : t.ClaimsNoMore u) : s.ClaimsNoMore u :=
  ⟨k.groups.trans h.groups, fun i => (h.streams i).trans (k.streams i)⟩

/-- An update of the other units. -/
theorem State.ClaimsNoMore.of_rest {s t : State} (hs : t.streams = s.streams) (hg : t.groups = s.groups) :
    s.ClaimsNoMore t := ⟨hg, fun i => by rw [State.stream_congr hs]; exact .refl _⟩

/-- An act after another, the last one first. -/
theorem State.ClaimsNoMore.after {s t u : State} (k : t.ClaimsNoMore u) (h : s.ClaimsNoMore t) : s.ClaimsNoMore u :=
  h.trans k

theorem State.ClaimsNoMore.foldl {α : Type} {f : State → α → State}
    (h : ∀ (a : State) (x : α), a.ClaimsNoMore (f a x)) (l : List α) (s : State) : s.ClaimsNoMore (l.foldl f s) := by
  induction l generalizing s with
  | nil => exact .refl s
  | cons x l ih => exact (h s x).trans (ih (f s x))

theorem State.ClaimsNoMore.claimed {s t : State} (k : s.ClaimsNoMore t) (h : s.Claimed) : t.Claimed := by
  intro i g a hc
  rw [k.groups]
  obtain hnone | hsame := k.streams i
  · simp [hnone] at hc
  · exact h i g a (hsame.symm.trans hc)

/-- An act that makes no stream wait, with what follows it, keeps the law. -/
theorem State.ClaimsNoMore.settle {s t : State} (k : s.ClaimsNoMore t) (h : s.GroupLaw) : t.settle.GroupLaw :=
  (k.claimed h.claimed).settle

theorem State.putStream_claimsNoMore {s : State} {i : StreamId} {c : StreamCtx} (h : (s.stream i).ClaimsNoMore c) :
    s.ClaimsNoMore (s.putStream i c) :=
  ⟨rfl, fun j => by
    rw [State.stream_putStream]
    split
    · rename_i hj
      exact hj ▸ h
    · exact .refl _⟩

theorem State.apply_claimsNoMore {s : State} {i : StreamId} {r : StreamCtx × List Record}
    (h : (s.stream i).ClaimsNoMore r.1) : s.ClaimsNoMore (s.apply i r) :=
  (State.putStream_claimsNoMore h).trans (.of_rest rfl rfl)

theorem State.MoverAct.claimsNoMore {s t : State} (h : s.MoverAct t) : s.ClaimsNoMore t := by
  obtain ⟨-, -, -, -, hgroups, -⟩ := h.fields
  refine ⟨hgroups, fun i => ?_⟩
  obtain ⟨hcfg, hst, -⟩ := StreamCtx.sameButTaken_fields (h.2 i)
  exact .of_state hcfg hst

theorem State.haltOne_claimsNoMore (s : State) (i : StreamId) (cause : HaltCause) :
    s.ClaimsNoMore (s.haltOne i cause) := by
  simp only [State.haltOne]
  split
  · exact State.apply_claimsNoMore (.inl rfl)
  · exact .refl s

theorem State.haltCascade_claimsNoMore (s : State) (i : StreamId) (cause : HaltCause) :
    s.ClaimsNoMore (s.haltCascade i cause) := by
  simp only [State.haltCascade]
  split
  · exact s.haltOne_claimsNoMore i cause
  · exact (s.haltOne_claimsNoMore i cause).trans (.foldl (fun a j => a.haltOne_claimsNoMore j .group) _ _)

/-! ### The slot line and the slots -/

theorem State.boundary_claimsNoMore (s : State) (lp : BitVec 16 → List Record) : s.ClaimsNoMore (s.boundary lp) := by
  obtain ⟨-, -, -, ⟨_, _, hcross, -⟩, hframe⟩ := s.boundary_spec lp
  exact ⟨by rw [hframe], fun i => (hcross i).claimsNoMore⟩

theorem State.loseAlignment_claimsNoMore (s : State) : s.ClaimsNoMore s.loseAlignment := by
  obtain ⟨_, _, _, hlost, -, -, -, hframe⟩ := s.loseAlignment_spec
  exact ⟨by rw [hframe], fun i => (hlost i).claimsNoMore⟩

theorem State.takeLineDown_claimsNoMore (s : State) : s.ClaimsNoMore s.takeLineDown := by
  obtain ⟨_, -, hstr, -⟩ := s.takeLineDown_spec
  refine ⟨by rw [s.takeLineDown_units], fun i => ?_⟩
  rw [hstr]
  split
  · exact .inl rfl
  · exact .refl _

theorem State.serveTx_claimsNoMore (s : State) (i : StreamId) (width : Nat) : s.ClaimsNoMore (s.serveTx i width) := by
  have hsend : ∀ (t : State) (x : Option Sample), s.ClaimsNoMore t →
      s.ClaimsNoMore { t with line := t.line.drive i width x } := fun t x h => h.trans (.of_rest rfl rfl)
  have hsample : ∀ x rest, s.ClaimsNoMore (s.putStream i ((s.stream i).takeSample x rest)) := fun x rest =>
    State.putStream_claimsNoMore (.of_state rfl rfl)
  have hunder : s.ClaimsNoMore (s.putStream i (s.stream i).underrunNow) :=
    State.putStream_claimsNoMore (.of_state rfl rfl)
  simp only [State.serveTx]
  split
  · exact hsend s none (.refl s)
  · split
    case h_6 =>
      split
      · exact hsend _ (some _) (hsample _ _)
      · exact hsend _ none (State.putStream_claimsNoMore (.inl rfl))
    case h_4 | h_5 =>
      split
      · exact hsend _ (some _) (hsample _ _)
      · split
        · exact hsend _ none (hunder.trans (State.haltCascade_claimsNoMore _ _ _))
        · refine hsend _ _ ?_
          split
          · exact hunder
          · exact hunder.trans (.of_rest rfl rfl)
    all_goals exact hsend s none (.refl s)

theorem State.offerRx_claimsNoMore (s : State) (i : StreamId) (x : Sample) : s.ClaimsNoMore (s.offerRx i x) := by
  by_cases hst : (s.stream i).state = .running ∨ (s.stream i).state = .stopping
  · cases hcfg : (s.stream i).cfg with
    | none =>
      simp only [State.offerRx, hcfg]
      exact .refl s
    | some cfg =>
      have henter : (s.stream i).ClaimsNoMore (((s.stream i).enter x).testEnd (s.uncounted i)) :=
        .trans (.of_state rfl rfl) (StreamCtx.testEnd_claimsNoMore _ _)
      have hover : ∀ n, s.ClaimsNoMore (s.putStream i { s.stream i with overrunSamples := n, overrunEp := true }) :=
        fun n => State.putStream_claimsNoMore (.of_state rfl rfl)
      rw [State.offerRx_taking x hcfg hst]
      split
      · exact State.putStream_claimsNoMore henter
      · split
        · exact (hover _).trans (State.haltCascade_claimsNoMore _ _ _)
        · simp only
          split
          · exact hover _
          · exact (hover _).trans (.of_rest rfl rfl)
  · rw [State.offerRx_refused x (not_or.1 hst)]
    exact .refl s

/-! ### Words transferred and lost -/

theorem State.takeWord_claimsNoMore (s : State) (m : Move) (w : InFlight) (data : Word) :
    s.ClaimsNoMore (s.takeWord m w data) := by
  simp only [State.takeWord]
  split
  · split
    · exact State.apply_claimsNoMore (StreamCtx.fetchWord_claimsNoMore _ _ _ _)
    · exact State.apply_claimsNoMore (StreamCtx.storeWord_claimsNoMore _ _ _ _)
  · exact .refl s

theorem State.completeWord_claimsNoMore (s : State) (x : Option Word) : s.ClaimsNoMore (s.completeWord x) := by
  simp only [State.completeWord]
  split
  · exact .after (State.goOn_act _ _).claimsNoMore ((s.takeWord_claimsNoMore _ _ _).trans (.of_rest rfl rfl))
  · exact .refl s

theorem State.faultWord_claimsNoMore (s : State) : s.ClaimsNoMore s.faultWord := by
  simp only [State.faultWord]
  split
  · refine State.ClaimsNoMore.trans ?_ (State.endTenure_act _).claimsNoMore
    split
    · exact .after (State.haltCascade_claimsNoMore _ _ _) (.of_rest rfl rfl)
    · exact .of_rest rfl rfl
  · exact .refl s

/-! ### The group commands (R141, R143, R144) -/

theorem State.groups_setGroup (s : State) (g g' : GroupId) (a : GroupAction) :
    (s.setGroup g a).groups[g'] = if g' = g then a else s.groups[g'] := by
  simp only [State.setGroup_groups, Fin.getElem_fin, Vector.getElem_set, Fin.val_inj, eq_comm]

/-- An act of the members of a group and its new pending action: a member claims it or nothing, and any other stream
what it claimed before. -/
theorem State.Claimed.setGroup {s t : State} {g : GroupId} {a : GroupAction} (h : s.Claimed)
    (hg : t.groups = s.groups)
    (hmember : ∀ i, (s.stream i).group? = some g → (t.stream i).claim = none ∨ (t.stream i).claim = some (g, a))
    (hother : ∀ i, (s.stream i).group? ≠ some g → t.stream i = s.stream i) : (t.setGroup g a).Claimed := by
  intro i g' b hc
  rw [State.stream_setGroup] at hc
  rw [State.groups_setGroup, hg]
  by_cases hi : (s.stream i).group? = some g
  · obtain hnone | hclaim := hmember i hi
    · simp [hnone] at hc
    · obtain ⟨rfl, rfl⟩ : g = g' ∧ a = b := by simpa [hclaim] using hc
      exact if_pos rfl
  · rw [hother i hi] at hc
    have hne : g' ≠ g := fun e => hi (e ▸ (StreamCtx.claim_eq_some_iff.1 hc).1)
    exact (if_neg hne).trans (h i g' b hc)

/-- A member that GSTOP has stopped claims nothing, or the STOP (R51, R52, R143). -/
theorem State.gstopResult_claim (s : State) {g : GroupId} {i : StreamId} (hi : (s.stream i).group? = some g) :
    (s.gstopResult i).1.claim = none ∨ (s.gstopResult i).1.claim = some (g, .stop) := by
  cases hst : (s.stream i).state with
  | armed m e =>
    rw [State.gstopResult_armed ⟨m, e, hst⟩]
    exact .inl rfl
  | running =>
    cases hs : s.line.served with
    | true =>
      rw [State.gstopResult_served hst hs]
      exact .inr (StreamCtx.claim_eq_some_iff.2 ⟨hi, .inr ⟨rfl, rfl⟩⟩)
    | false =>
      rw [State.gstopResult_unserved hst hs]
      exact .inl (StreamCtx.stopNow_claim _ _ _ _)
  | stopping =>
    rw [State.gstopResult_other (by simp [hst])]
    exact .inr (StreamCtx.claim_eq_some_iff.2 ⟨hi, .inr ⟨hst, rfl⟩⟩)
  | off | draining | halted =>
    rw [State.gstopResult_other (by simp [hst])]
    exact .inl (by simp only [StreamCtx.claim, hst])

/-- Where no stop is left pending, a stopped member claims no more than before. -/
theorem State.gstopResult_claimsNoMore (s : State) {i : StreamId}
    (h : s.line.served = true → (s.stream i).state ≠ .running) : (s.stream i).ClaimsNoMore (s.gstopResult i).1 := by
  by_cases hrun : (s.stream i).state = .running
  · rw [State.gstopResult_unserved hrun (Bool.eq_false_iff.2 fun hs => h hs hrun)]
    exact .inl (StreamCtx.stopNow_claim _ _ _ _)
  · by_cases ha : ∃ m e, (s.stream i).state = .armed m e
    · rw [State.gstopResult_armed ha]
      exact .inl rfl
    · rw [State.gstopResult_other ⟨ha, hrun⟩]
      exact .refl _

section
variable {s : State} (h : s.GroupLaw) (g : GroupId)
include h

theorem State.gstart_groupLaw : (s.gstart g).1.GroupLaw := by
  have harm : ∀ m, ((s.armMembers g m).setGroup g (.start m)).settle.GroupLaw := fun m => by
    refine (h.claimed.setGroup (by rw [s.armMembers_frame]) (fun i hi => .inr ?_)
      fun i hi => by rw [s.armMembers_stream, if_neg hi]).settle
    rw [s.armMembers_stream, if_pos hi]
    exact StreamCtx.claim_eq_some_iff.2 ⟨hi, .inl ⟨m, false, rfl, rfl⟩⟩
  simp only [State.gstart]
  repeat' split
  all_goals try exact h
  exact harm _

theorem State.gstop_groupLaw : (s.gstop g).1.GroupLaw := by
  by_cases hany : ∃ i, (s.stream i).group? = some g
    ∧ ((∃ m e, (s.stream i).state = .armed m e) ∨ (s.stream i).state = .running)
  · have happ := s.gstopMembers_applied g
    have hpending := State.gstop_pending hany
    have hdone := State.gstop_done hany
    generalize (s.members g).foldl State.gstopMember s = v at happ hpending hdone
    have hgroups : v.groups = s.groups := by rw [happ.frame]
    by_cases hleft : s.leavesStop g
    · rw [hpending hleft]
      exact (h.claimed.setGroup hgroups (fun i hi => happ.stream_member hi ▸ s.gstopResult_claim hi)
        fun i hi => happ.stream_other hi).settle
    · rw [hdone hleft]
      refine State.ClaimsNoMore.settle ⟨hgroups, fun i => ?_⟩ h
      by_cases hi : (s.stream i).group? = some g
      · rw [happ.stream_member hi]
        exact s.gstopResult_claimsNoMore fun hs hrun => hleft ⟨hs, i, hi, hrun⟩
      · rw [happ.stream_other hi]
        exact .refl _
  · rw [State.gstop_refused fun i hi => not_or.1 fun hst => hany ⟨i, hi, hst⟩]
    exact h

theorem State.gabort_groupLaw : (s.gabort g).1.GroupLaw := by
  have happ := s.abortMembers_applied g
  refine (h.claimed.setGroup (a := .none) (by rw [happ.frame]) (fun i hi => .inl ?_) fun i hi => ?_).settle
  · rw [happ.stream]
    split
    · rfl
    · rename_i hoff
      exact StreamCtx.claim_off (of_not_not fun hst => hoff (mem_abortable.2 ⟨hi, hst⟩))
  · rw [happ.stream, if_neg fun k => hi (mem_abortable.1 k).1]

end

/-! ### The stream commands -/

section
variable {s : State} (h : s.GroupLaw)
include h

theorem State.runCommand_groupLaw (op arg : Byte) {run : State → Answer} (hr : (run s).1.GroupLaw) :
    (s.runCommand op arg run).GroupLaw := by
  simp only [State.runCommand]
  split
  · exact h
  · exact hr.of_rest rfl rfl

theorem State.forStream_groupLaw (arg : Byte) {run : StreamId → Answer} (hr : ∀ i, (run i).1.GroupLaw) :
    (s.forStream arg run).1.GroupLaw := by
  simp only [State.forStream]
  split
  · exact h
  · exact hr _

theorem State.forGroup_groupLaw (arg : Byte) {run : GroupId → Answer} (hr : ∀ g, (run g).1.GroupLaw) :
    (s.forGroup arg run).1.GroupLaw := by
  simp only [State.forGroup]
  split
  · exact h
  · exact hr _

theorem State.event_groupLaw {run : State → State} (hr : (run s).GroupLaw) : (s.event run).GroupLaw := by
  simp only [State.event]
  split
  · exact h
  · exact hr

theorem State.hostWrite_groupLaw (run : Window → Window) : (s.hostWrite run).GroupLaw := by
  simp only [State.hostWrite]
  split
  · exact h
  · exact h.of_rest rfl rfl

/-- A stream that joins or leaves a group is OFF, and waits for no action of either (R44, R46). -/
theorem State.reconfigure_groupLaw {i : StreamId} (hoff : (s.stream i).state = .off) (cfg : Option StreamConfig) :
    (s.putStream i ((s.stream i).reconfigure cfg)).GroupLaw :=
  h.congr rfl fun j => by
    rw [State.stream_putStream]
    split
    · rename_i hj
      rw [hj, StreamCtx.claim_off hoff]
      exact StreamCtx.claim_off hoff
    · rfl

theorem State.configure_groupLaw (i : StreamId) : (s.configure i).1.GroupLaw := by
  simp only [State.configure]
  split
  · exact h
  · rename_i hidle
    have hput := State.reconfigure_groupLaw h (StreamCtx.off_of_configurable hidle).1
    repeat' split
    all_goals try exact h
    exact (hput _).of_rest rfl rfl

theorem State.deconfigure_groupLaw (i : StreamId) : (s.deconfigure i).1.GroupLaw := by
  simp only [State.deconfigure]
  split
  · exact h
  · rename_i hidle
    exact State.reconfigure_groupLaw h (StreamCtx.off_of_configurable hidle).1 none

theorem State.post_groupLaw (i : StreamId) : (s.post i).1.GroupLaw := by
  have hpost : ∀ d n p, (State.settle
      { s.putStream i ((s.stream i).enqueue d n) with nextPosting := p }).GroupLaw := fun d n p =>
    State.ClaimsNoMore.settle ((State.putStream_claimsNoMore (StreamCtx.enqueue_claimsNoMore (s.stream i) d n)).trans
      (.of_rest rfl rfl)) h
  simp only [State.post]
  repeat' split
  all_goals try exact h
  exact hpost _ _ _

/-- START takes ungrouped streams only (R47). -/
theorem State.startStream_groupLaw (i : StreamId) : (s.startStream i).1.GroupLaw := by
  simp only [State.startStream]
  split
  · exact h
  · rename_i cfg hcfg
    split
    · exact h
    · rename_i hgroup
      have hungrouped : (s.stream i).group? = none := by simp only [StreamCtx.group?, hcfg, hgroup]
      have harm : ∀ m, (s.putStream i ((s.stream i).arm m)).settle.GroupLaw := fun m =>
        (State.putStream_claimsNoMore (c := (s.stream i).arm m) (.inl (StreamCtx.claim_ungrouped hungrouped))).settle h
      repeat' split
      all_goals try exact h
      exact harm _

/-- STOP takes ungrouped streams only (R51). -/
theorem State.stopStream_groupLaw (i : StreamId) : (s.stopStream i).1.GroupLaw := by
  simp only [State.stopStream]
  split
  · exact h
  · rename_i hungrouped
    split
    case h_1 => exact (State.apply_claimsNoMore (.inl rfl)).settle h
    case h_2 =>
      split
      · exact (State.putStream_claimsNoMore (c := { s.stream i with state := .stopping })
          (.inl (StreamCtx.claim_ungrouped hungrouped))).settle h
      · exact (State.apply_claimsNoMore (.inl (StreamCtx.stopNow_claim _ _ _ _))).settle h
    all_goals exact h

theorem State.abortOne_groupLaw (i : StreamId) : (s.abortOne i).settle.GroupLaw := by
  refine State.ClaimsNoMore.settle ?_ h
  simp only [State.abortOne]
  split
  · exact State.apply_claimsNoMore (.of_state rfl rfl)
  · exact State.apply_claimsNoMore (.inl rfl)

theorem State.clearStream_groupLaw (i : StreamId) : (s.clearStream i).1.GroupLaw := by
  simp only [State.clearStream]
  split
  · exact (State.apply_claimsNoMore (.inl rfl)).settle h
  all_goals exact h

/-! ### The map, the completion queue and the window -/

theorem State.mapswap_groupLaw : s.mapswap.1.GroupLaw := by
  simp only [State.mapswap]
  repeat' split
  all_goals exact h.of_rest rfl rfl

theorem State.mapcopy_groupLaw : s.mapcopy.1.GroupLaw := by
  simp only [State.mapcopy]
  split <;> exact h.of_rest rfl rfl

theorem State.cqpop_groupLaw : s.cqpop.1.GroupLaw := by
  simp only [State.cqpop]
  split <;> exact h.of_rest rfl rfl

theorem State.writeMapData_groupLaw (v : Word) : (s.writeMapData v).GroupLaw := by
  simp only [State.writeMapData]
  split <;> exact h.of_rest rfl rfl

theorem State.writeIntCtrl_groupLaw (v : Word) : (s.writeIntCtrl v).GroupLaw := by
  simp only [State.writeIntCtrl]
  split <;> exact h.of_rest rfl rfl

theorem State.writeControl_groupLaw (cw : ControlWord) (v : Word) : (s.writeControl cw v).GroupLaw := by
  cases cw with
  | holdoff => exact h.of_rest rfl rfl
  | busCtrl | readyTimeout =>
    simp only [State.writeControl]
    split <;> exact h.of_rest rfl rfl

/-! ### The slot line -/

theorem State.lineSet_groupLaw : s.lineSet.1.GroupLaw := by
  simp only [State.lineSet]
  repeat' split
  all_goals exact h.of_rest rfl rfl

/-- A frame boundary on a line port that has moved on, with what follows it. -/
theorem State.boundaryAt_groupLaw (l : LinePort) (lp : BitVec 16 → List Record) :
    (State.boundary { s with line := l } lp).settle.GroupLaw :=
  State.ClaimsNoMore.settle (.after (State.boundary_claimsNoMore _ lp) (.of_rest rfl rfl)) h

theorem State.lineUp_groupLaw : s.lineUp.1.GroupLaw := by
  simp only [State.lineUp]
  split
  · exact h
  · split
    · exact h.of_rest rfl rfl
    all_goals exact State.boundaryAt_groupLaw h _ _

theorem State.lineDown_groupLaw : s.lineDown.1.GroupLaw := by
  simp only [State.lineDown]
  split
  · exact s.takeLineDown_claimsNoMore.settle h
  · exact h

theorem State.takeSync_groupLaw (pos : Nat) : (s.takeSync pos).GroupLaw := by
  simp only [State.takeSync]
  split
  · exact h
  · exact h.of_rest rfl rfl
  · split
    · exact h.of_rest rfl rfl
    · split
      · exact State.boundaryAt_groupLaw h _ _
      · exact h
  all_goals
    split
    · exact State.boundaryAt_groupLaw h _ _
    · split
      · exact State.boundaryAt_groupLaw h _ _
      · exact h

theorem State.sampleHigh_groupLaw (bit : Nat) : (s.sampleHigh bit).GroupLaw := by
  simp only [State.sampleHigh]
  split
  · exact State.takeSync_groupLaw h _
  · exact h

theorem State.sampleLow_groupLaw : s.sampleLow.GroupLaw := by
  simp only [State.sampleLow]
  split <;> exact h.of_rest rfl rfl

theorem State.endTrial_groupLaw : s.endTrial.GroupLaw := by
  simp only [State.endTrial]
  split <;> exact h.of_rest rfl rfl

theorem State.missSync_groupLaw : s.missSync.GroupLaw := by
  simp only [State.missSync]
  split
  · split
    · exact State.boundaryAt_groupLaw h _ _
    · exact State.ClaimsNoMore.settle (.after (State.loseAlignment_claimsNoMore _) (.of_rest rfl rfl)) h
  · exact h

theorem State.endFrame_groupLaw : s.endFrame.GroupLaw := by
  simp only [State.endFrame]
  split
  · exact State.boundaryAt_groupLaw h _ _
  · exact h

theorem State.startTxSlot_groupLaw (slot : Nat) : (s.startTxSlot slot).GroupLaw := by
  simp only [State.startTxSlot]
  split
  · exact h
  · exact State.ClaimsNoMore.settle (.after (State.serveTx_claimsNoMore _ _ _) (.of_rest rfl rfl)) h

theorem State.endRxSlot_groupLaw (slot : Nat) (rxd : Sample) : (s.endRxSlot slot rxd).GroupLaw := by
  simp only [State.endRxSlot]
  split
  · exact h
  · exact State.ClaimsNoMore.settle (.after (State.offerRx_claimsNoMore _ _ _) (.of_rest rfl rfl)) h

/-! ### Time and RESET -/

theorem State.sampleGrant_groupLaw : s.sampleGrant.GroupLaw := by
  rw [State.sampleGrant_eq]
  exact h.of_rest rfl rfl

theorem State.releaseReset_groupLaw : s.releaseReset.GroupLaw := by
  simp only [State.releaseReset]
  split
  · exact State.sampleGrant_groupLaw (h.of_rest rfl rfl)
  · exact h

theorem State.readyTick_groupLaw : s.readyTick.GroupLaw := by
  simp only [State.readyTick]
  split
  · exact h
  · split
    · exact s.faultWord_claimsNoMore.settle h
    · exact h.of_rest rfl rfl

theorem State.timebase_groupLaw : s.timebase.GroupLaw := by
  simp only [State.timebase, State.tick]
  split
  · exact State.readyTick_groupLaw (h.of_rest rfl rfl)
  · exact h.of_rest rfl rfl

theorem State.bitClock_groupLaw : s.bitClock.GroupLaw := by
  rw [(State.bitClock_spec (s := s) (t := s) (n := s.line.tbLeft) rfl rfl).2]
  exact h.of_rest rfl rfl

theorem State.idle_groupLaw : s.idle.GroupLaw := by
  simp only [State.idle]
  split
  · exact h
  · exact State.bitClock_groupLaw (State.timebase_groupLaw (State.sampleGrant_groupLaw h))

/-! ### Every step -/

theorem exec_groupLaw {c : Instr} {t : State} (hstep : exec c s = .next t) : t.GroupLaw := by
  have hcmd : ∀ {op arg} {run : State → Answer}, Host.Outcome.next (s.runCommand op arg run) = (.next t : Outcome) →
      (run s).1.GroupLaw → t.GroupLaw := fun k hr => by
    cases k; exact State.runCommand_groupLaw h _ _ hr
  have hev : ∀ {run : State → State}, Host.Outcome.next (s.event run) = (.next t : Outcome) →
      (run s).GroupLaw → t.GroupLaw := fun k hr => by
    cases k; exact State.event_groupLaw h hr
  have hpin : ∀ {m : Mover} {u : State}, s.MoverAct u →
      Host.Outcome.next (if s.resetLow then { s with mover := m } else u.settle) = (.next t : Outcome) →
      t.GroupLaw := fun hu k => by
    cases k
    split
    · exact h.of_rest rfl rfl
    · exact hu.claimsNoMore.settle h
  cases c with
  | configure a => exact hcmd hstep (State.forStream_groupLaw h a (State.configure_groupLaw h))
  | deconfigure a => exact hcmd hstep (State.forStream_groupLaw h a (State.deconfigure_groupLaw h))
  | post a => exact hcmd hstep (State.forStream_groupLaw h a (State.post_groupLaw h))
  | start a => exact hcmd hstep (State.forStream_groupLaw h a (State.startStream_groupLaw h))
  | stop a => exact hcmd hstep (State.forStream_groupLaw h a (State.stopStream_groupLaw h))
  | abort a => exact hcmd hstep (State.forStream_groupLaw h a (State.abortOne_groupLaw h))
  | clear a => exact hcmd hstep (State.forStream_groupLaw h a (State.clearStream_groupLaw h))
  | gstart a => exact hcmd hstep (State.forGroup_groupLaw h a (State.gstart_groupLaw h))
  | gstop a => exact hcmd hstep (State.forGroup_groupLaw h a (State.gstop_groupLaw h))
  | gabort a => exact hcmd hstep (State.forGroup_groupLaw h a (State.gabort_groupLaw h))
  | mapswap a => exact hcmd hstep (State.mapswap_groupLaw h)
  | mapcopy a => exact hcmd hstep (State.mapcopy_groupLaw h)
  | cqpop a => exact hcmd hstep (State.cqpop_groupLaw h)
  | cqflush a => exact hcmd hstep (h.of_rest rfl rfl)
  | lineSet a => exact hcmd hstep (State.lineSet_groupLaw h)
  | lineUp a => exact hcmd hstep (State.lineUp_groupLaw h)
  | lineDown a => exact hcmd hstep (State.lineDown_groupLaw h)
  | unknownOpcode op a => exact hcmd hstep h
  | mapDataWrite v => exact hev hstep (State.writeMapData_groupLaw h v)
  | intCtrlWrite v => exact hev hstep (State.writeIntCtrl_groupLaw h v)
  | controlWordWrite cw v => exact hev hstep (State.writeControl_groupLaw h cw v)
  | statusWrite | readOnlyWrite | samplesServedLowRead | registerWrite =>
    cases hstep
    exact State.hostWrite_groupLaw h _
  | pinReset => cases hstep; exact State.groupLaw_reset.of_rest rfl rfl
  | resetRelease => cases hstep; exact State.releaseReset_groupLaw h
  | syncArrival bit => exact hev hstep (State.sampleHigh_groupLaw h bit)
  | trialTimeout => exact hev hstep (State.endTrial_groupLaw h)
  | missedSync => exact hev hstep (State.missSync_groupLaw h)
  | frameEnd => exact hev hstep (State.endFrame_groupLaw h)
  | transmitSlot k => exact hev hstep (State.startTxSlot_groupLaw h k)
  | receiveSlot k x => exact hev hstep (State.endRxSlot_groupLaw h k x)
  | busGrant => exact hpin s.grant_act hstep
  | busGrantLow => exact hpin s.grantLow_act hstep
  | busGrantWithdrawn => exact hpin s.grantLow_act hstep
  | busYield b =>
    cases hstep
    split
    · exact State.ClaimsNoMore.settle (.after (State.yieldBus_act _).claimsNoMore (.of_rest rfl rfl)) h
    · exact h.of_rest rfl rfl
  | wordTransferComplete x => exact hev hstep ((s.completeWord_claimsNoMore x).settle h)
  | busFault => exact hev hstep (s.faultWord_claimsNoMore.settle h)
  | holdoffExpiry => exact hev hstep (h.of_rest rfl rfl)
  | fsyncLowSample => exact hev hstep (State.sampleLow_groupLaw h)

end

/-- Settles O55: a group command makes its members wait in one act with the pending action, no other row makes a grouped
stream wait, and a row that can end a wait ends with the clearing of the actions that no member waits for. -/
theorem everyStepKeepsTheGroups : Obligations.EveryStepKeepsTheGroups := by
  unfold Obligations.EveryStepKeepsTheGroups
  intro s t h hstep
  simp only [step] at hstep
  split at hstep
  · cases hstep
    exact State.idle_groupLaw h
  · rename_i c rest hp
    exact exec_groupLaw (s := { s with pending := rest }) (h.of_rest rfl rfl) hstep

end Sys2Proof.Machine
end

section
/-! PROOFS. The completion queue and the interrupt, chapter 9: what a raised record does (R150, R158), CQPOP and CQFLUSH
(R153, R154), the expiry of the holdoff timer (R158, logs 5 and 19), the INT condition (R157), and the order of records
raised together (R149). -/

namespace Sys2Proof.Machine

/-! ### A raised record (R150, R158) -/

theorem loadTimer_eq (holdoff : BitVec 16) :
    loadTimer holdoff = if holdoff = 0 then .expired else .counting holdoff.toNat := by
  have hzero : holdoff.toNat = 0 ↔ holdoff = 0 := (BitVec.toNat_eq (y := 0#16)).symm
  simp only [loadTimer, hzero]

namespace CompletionQueue

variable {q : CompletionQueue}

/-- An OVERFLOW record takes the record into its lost count. -/
theorem raise_overflow {n : Nat} (h : q.overflow = some n) (r : Record) :
    q.raise r = { q with overflow := some (if n < 65535 then n + 1 else 65535) } := by
  have hcount : min Config.countMax (n + 1) = if n < 65535 then n + 1 else 65535 := by
    simp only [Config.countMax]
    split <;> omega
  simp only [raise, h, hcount]

/-- A queue with room takes the record as its newest; an empty one loads the timer (R158). -/
theorem raise_room (h : q.overflow = none) (hroom : q.records.length < 31) (r : Record) :
    q.raise r = { q with
      records := q.records ++ [r]
      timer := if q.records ≠ [] then q.timer
        else if q.holdoff = 0 then .expired else .counting q.holdoff.toNat } := by
  simp only [raise, h, Config.recordRoom, if_pos hroom, List.length_eq_zero_iff, loadTimer_eq, ite_not]

/-- A full queue loses the record into a new OVERFLOW record. -/
theorem raise_full (h : q.overflow = none) (hfull : 31 ≤ q.records.length) (r : Record) :
    q.raise r = { q with overflow := some 1 } := by
  simp only [raise, h, Config.recordRoom, if_neg (Nat.not_lt.2 hfull)]

/-- The next record raised in an emptied queue is its first. -/
theorem raise_empty (q : CompletionQueue) (r : Record) :
    (q.empty.raise r).records = [r] ∧ (q.empty.raise r).overflow = none := by
  have h := raise_room (q := q.empty) rfl (Nat.succ_pos 30) r
  exact ⟨congrArg records h, congrArg overflow h⟩

/-! ### The head removed (R153) -/

theorem pop_of_more {r : Record} {rest : List Record} (h : q.records = r :: rest)
    (hmore : rest ≠ [] ∨ q.overflow ≠ none) : q.pop = { q with records := rest } := by
  have hleft : ¬ (rest = [] ∧ q.overflow = none) := not_and_or.2 hmore
  simp only [pop, h, if_neg hleft]

/-- The last record, or an OVERFLOW record that is alone, leaves the queue empty. -/
theorem pop_of_last (h : (∃ r, q.records = [r] ∧ q.overflow = none) ∨ q.records = [] ∧ q.overflow ≠ none) :
    q.pop = q.empty := by
  obtain ⟨r, hr, ho⟩ | ⟨hr, -⟩ := h
  · simp only [pop, hr, ho, and_self, if_true]
  · simp only [pop, hr]

/-! ### The INT condition (R157) -/

theorem count_ne_zero_iff (q : CompletionQueue) : q.count ≠ 0 ↔ q.records ≠ [] ∨ q.overflow ≠ none :=
  q.count_eq_zero_iff.not.trans not_and_or

theorem interrupts_iff (q : CompletionQueue) : q.interrupts = true ↔
    (q.records ≠ [] ∨ q.overflow ≠ none) ∧ q.enable = true
    ∧ (q.threshold ≤ q.count ∨ q.overflow ≠ none ∨ q.timer = .expired) := by
  rw [← q.count_ne_zero_iff]
  simp [interrupts, Nat.pos_iff_ne_zero, Option.isSome_iff_ne_none, and_assoc, or_assoc]

@[simp] theorem interrupts_empty (q : CompletionQueue) : q.empty.interrupts = false := rfl

end CompletionQueue

/-! ### CQPOP and CQFLUSH (R153, R154) -/

theorem exec_cqpop_empty {s : State} (arg : Byte) (hr : s.resetLow = false) (h : s.cq.count = 0) :
    exec (.cqpop arg) s = .next (s.withResult 0x30 arg .empty 0) := by
  have hpop : s.cqpop = (s, .empty, word 0) := by simp only [State.cqpop, if_pos h, State.refuse]
  exact congrArg Host.Outcome.next (State.runCommand_answer hr hpop)

theorem exec_cqpop {s : State} (arg : Byte) (hr : s.resetLow = false) (h : s.cq.count ≠ 0) :
    exec (.cqpop arg) s = .next (State.withResult { s with cq := s.cq.pop } 0x30 arg .ok s.cq.pop.count) := by
  have hpop : s.cqpop = ({ s with cq := s.cq.pop }, .ok, word s.cq.pop.count) := by
    simp only [State.cqpop, if_neg h, State.accept]
  exact congrArg Host.Outcome.next (State.runCommand_answer hr hpop)

theorem exec_cqflush {s : State} (arg : Byte) (hr : s.resetLow = false) :
    exec (.cqflush arg) s = .next (State.withResult { s with cq := s.cq.empty } 0x31 arg .ok s.cq.count) :=
  congrArg Host.Outcome.next (State.runCommand_answer hr rfl)

/-- A queue in its law that holds no record has its timer stopped, so that emptying it changes nothing (R158). -/
theorem CompletionQueue.Law.empty_eq {q : CompletionQueue} (h : q.Law) (h0 : q.count = 0) : q.empty = q := by
  obtain ⟨-, -, htimer, -⟩ := h
  obtain ⟨hrecords, hoverflow⟩ := q.count_eq_zero_iff.1 h0
  simp only [CompletionQueue.empty, ← hrecords, ← hoverflow, ← htimer.2 ⟨hrecords, hoverflow⟩]

/-- Settles O19: the empty queue, a head with more behind it, and the last record or the OVERFLOW record alone. -/
theorem cqPopOutcome : Obligations.CqPopOutcome := by
  unfold Obligations.CqPopOutcome
  intro s arg hr popped
  have hpop : s.cq.count ≠ 0 → popped s.cq.pop := exec_cqpop arg hr
  refine ⟨fun hrecords hoverflow => ?_, fun r rest hrecords hmore => ?_, fun hlast => ?_⟩
  · exact exec_cqpop_empty arg hr (s.cq.count_eq_zero_iff.2 ⟨hrecords, hoverflow⟩)
  · rw [CompletionQueue.pop_of_more hrecords hmore] at hpop
    refine ⟨hpop (s.cq.count_ne_zero_iff.2 (.inl (by simp [hrecords]))), ?_⟩
    simp only [CompletionQueue.count, hrecords, List.length_cons]
    omega
  · rw [CompletionQueue.pop_of_last hlast] at hpop
    have hsome : s.cq.records ≠ [] ∨ s.cq.overflow ≠ none := by
      obtain ⟨r, hrecords, -⟩ | ⟨-, hoverflow⟩ := hlast
      · exact .inl (by simp [hrecords])
      · exact .inr hoverflow
    exact ⟨hpop (s.cq.count_ne_zero_iff.2 hsome), rfl, s.cq.interrupts_empty, s.cq.raise_empty⟩

/-- Settles O20. -/
theorem cqFlushOutcome : Obligations.CqFlushOutcome := by
  unfold Obligations.CqFlushOutcome
  intro s arg hr q
  have hflush := exec_cqflush arg hr
  refine ⟨hflush, s.cq.interrupts_empty, fun hlaw h0 => ?_⟩
  rwa [hlaw.empty_eq h0, h0] at hflush

/-! ### The expiry of the holdoff timer (R158) -/

theorem exec_holdoffExpiry {s : State} (hr : s.resetLow = false) :
    exec .holdoffExpiry s = .next { s with cq := s.cq.expire } :=
  congrArg Host.Outcome.next (State.event_run hr _)

theorem CompletionQueue.expire_counting {q : CompletionQueue} {n : Nat} (h : q.timer = .counting n) :
    q.expire = { q with timer := .expired } := by
  simp only [CompletionQueue.expire, h]

/-- With no timer counting nothing expires (log 5). -/
theorem CompletionQueue.expire_of_not_counting {q : CompletionQueue} (h : ∀ n, q.timer ≠ .counting n) :
    q.expire = q := by
  cases htimer : q.timer with
  | counting n => exact absurd htimer (h n)
  | stopped | expired => simp only [CompletionQueue.expire, htimer]

/-- Settles O21: the three outcomes of a raised record, the timer's expiry, and the INT condition. -/
theorem recordsTimerAndInterrupt : Obligations.RecordsTimerAndInterrupt := by
  unfold Obligations.RecordsTimerAndInterrupt
  refine ⟨fun q r => ⟨fun n h => q.raise_overflow h r, fun h hroom => q.raise_room h hroom r,
    fun h hfull => q.raise_full h hfull r⟩, fun s hr => ⟨fun n h => ?_, fun h => ?_, s.cq.interrupts_iff⟩⟩
  · rw [exec_holdoffExpiry hr, CompletionQueue.expire_counting h]
  · rw [exec_holdoffExpiry hr, CompletionQueue.expire_of_not_counting h]

/-- Settles O22: the order of a batch takes at each turn a record that no earlier record of its chains precedes. -/
theorem recordsRaisedTogetherKeepTheirOrders : Obligations.RecordsRaisedTogetherKeepTheirOrders := by
  unfold Obligations.RecordsRaisedTogetherKeepTheirOrders
  exact State.raiseBatch_spec

end Sys2Proof.Machine
end

section
/-! PROOFS. What each row does to the completion queue (R149, R150): a row that is none of the queue's own only raises
records, and so does every act it is made of. -/

namespace Sys2Proof.Machine

/-! ### Records raised by an act -/

/-- From `s` to `t` the completion queue has taken records, one after the other, or nothing. -/
def State.Raises (s t : State) : Prop := ∃ rs : List Record, t.cq = s.cq.raiseAll rs

theorem State.Raises.cqLaw {s t : State} (h : s.Raises t) (hlaw : s.cq.Law) : t.cq.Law := by
  obtain ⟨rs, hrs⟩ := h
  exact hrs ▸ CompletionQueue.raiseAll_law hlaw rs

/-- An act of the other units. -/
theorem State.Raises.of_cq {s t : State} (h : t.cq = s.cq) : s.Raises t := ⟨[], h⟩

theorem State.Raises.refl (s : State) : s.Raises s := .of_cq rfl

theorem State.Raises.trans {s t u : State} (h : s.Raises t) (k : t.Raises u) : s.Raises u := by
  obtain ⟨rs, hrs⟩ := h
  obtain ⟨qs, hqs⟩ := k
  exact ⟨rs ++ qs, by rw [hqs, hrs, CompletionQueue.raiseAll_append]⟩

theorem State.Raises.foldl {α : Type} {f : State → α → State} (h : ∀ (a : State) (x : α), a.Raises (f a x))
    (l : List α) (s : State) : s.Raises (l.foldl f s) := by
  induction l generalizing s with
  | nil => exact .refl s
  | cons x l ih => exact (h s x).trans (ih (f s x))

theorem State.MoverAct.cq {s t : State} (h : s.MoverAct t) : t.cq = s.cq := by
  obtain ⟨-, -, -, -, -, hcq, -⟩ := h.fields
  exact hcq

theorem State.settle_cq (s : State) : s.settle.cq = s.cq := by
  obtain ⟨-, -, -, hcq, -⟩ := s.settle_fields
  exact hcq

/-- An act, with what follows it (R16, R119, R139). -/
theorem State.Raises.settle {s t : State} (h : s.Raises t) : s.Raises t.settle := h.trans (.of_cq t.settle_cq)

theorem State.raiseAll_raises (s : State) (rs : List Record) : s.Raises (s.raiseAll rs) := ⟨rs, rfl⟩

theorem State.apply_raises (s : State) (i : StreamId) (r : StreamCtx × List Record) : s.Raises (s.apply i r) :=
  ⟨r.2, rfl⟩

/-! ### Halts, boundaries and losses (R11, R13, R20, R63, R146) -/

theorem State.haltOne_raises (s : State) (i : StreamId) (cause : HaltCause) : s.Raises (s.haltOne i cause) := by
  simp only [State.haltOne]
  split
  · exact s.apply_raises i _
  · exact .refl s

theorem State.haltCascade_raises (s : State) (i : StreamId) (cause : HaltCause) :
    s.Raises (s.haltCascade i cause) := by
  simp only [State.haltCascade]
  split
  · exact s.haltOne_raises i cause
  · exact (s.haltOne_raises i cause).trans (.foldl (fun a j => a.haltOne_raises j .group) _ _)

/-- A frame boundary on a line port that has moved on, with what follows it. -/
theorem State.boundaryAt_raises (s : State) (l : LinePort) (own : BitVec 16 → List Record) :
    s.Raises (State.boundary { s with line := l } own).settle := by
  obtain ⟨-, -, -, ⟨_, raised, -, -, -, -, hcq⟩, -⟩ := State.boundary_spec { s with line := l } own
  exact State.Raises.settle ⟨raised, hcq⟩

theorem State.loseAlignment_raises (s : State) : s.Raises s.loseAlignment := by
  obtain ⟨_, _, raised, -, -, hcq, -⟩ := s.loseAlignment_spec
  exact ⟨raised, hcq⟩

theorem State.takeLineDown_raises (s : State) : s.Raises s.takeLineDown := by
  obtain ⟨raised, -, -, -, -, hcq, -⟩ := s.takeLineDown_spec
  exact ⟨raised, hcq⟩

/-! ### The stream commands and the group commands -/

theorem State.forStream_raises {s : State} (arg : Byte) {run : StreamId → Answer} (h : ∀ i, s.Raises (run i).1) :
    s.Raises (s.forStream arg run).1 := by
  simp only [State.forStream]
  split
  · exact .refl s
  · exact h _

theorem State.forGroup_raises {s : State} (arg : Byte) {run : GroupId → Answer} (h : ∀ g, s.Raises (run g).1) :
    s.Raises (s.forGroup arg run).1 := by
  simp only [State.forGroup]
  split
  · exact .refl s
  · exact h _

theorem State.configure_raises (s : State) (i : StreamId) : s.Raises (s.configure i).1 := by
  simp only [State.configure]
  repeat' split
  all_goals exact .of_cq rfl

theorem State.deconfigure_raises (s : State) (i : StreamId) : s.Raises (s.deconfigure i).1 := by
  simp only [State.deconfigure]
  split <;> exact .of_cq rfl

theorem State.post_raises (s : State) (i : StreamId) : s.Raises (s.post i).1 := by
  simp only [State.post]
  repeat' split
  all_goals try exact .refl s
  exact .of_cq (State.settle_cq _)

theorem State.startStream_raises (s : State) (i : StreamId) : s.Raises (s.startStream i).1 := by
  simp only [State.startStream]
  repeat' split
  all_goals try exact .refl s
  exact .of_cq (State.settle_cq _)

theorem State.stopStream_raises (s : State) (i : StreamId) : s.Raises (s.stopStream i).1 := by
  simp only [State.stopStream]
  split
  · exact .refl s
  · split
    case h_1 => exact (s.apply_raises i _).settle
    case h_2 =>
      split
      · exact .of_cq (State.settle_cq _)
      · exact (s.apply_raises i _).settle
    all_goals exact .refl s

theorem State.abortOne_raises (s : State) (i : StreamId) : s.Raises (s.abortOne i) := by
  simp only [State.abortOne]
  split <;> exact s.apply_raises i _

theorem State.clearStream_raises (s : State) (i : StreamId) : s.Raises (s.clearStream i).1 := by
  simp only [State.clearStream]
  split
  · exact (s.apply_raises i _).settle
  all_goals exact .refl s

theorem State.gstart_raises (s : State) (g : GroupId) : s.Raises (s.gstart g).1 := by
  have harm : ∀ m, s.Raises ((s.armMembers g m).setGroup g (.start m)) := fun m =>
    State.Raises.foldl (f := fun a i => a.putStream i ((a.stream i).arm m)) (fun _ _ => .of_cq rfl) (s.members g) s
  simp only [State.gstart]
  repeat' split
  all_goals try exact .refl s
  exact (harm _).settle

theorem State.gstopMember_raises (s : State) (i : StreamId) : s.Raises (s.gstopMember i) := by
  simp only [State.gstopMember]
  split
  case h_1 => exact s.apply_raises i _
  case h_2 =>
    split
    · exact .of_cq rfl
    · exact s.apply_raises i _
  all_goals exact .refl s

theorem State.gstop_raises (s : State) (g : GroupId) : s.Raises (s.gstop g).1 := by
  have hall := State.Raises.foldl State.gstopMember_raises (s.members g) s
  simp only [State.gstop]
  split
  · split
    · exact .settle (hall.trans (.of_cq rfl))
    · exact hall.settle
  · exact .refl s

theorem State.gabort_raises (s : State) (g : GroupId) : s.Raises (s.gabort g).1 :=
  .settle (.trans (.foldl State.abortOne_raises (s.abortable g) s) (.of_cq rfl))

/-! ### The slot map and the slot line -/

theorem State.mapswap_raises (s : State) : s.Raises s.mapswap.1 := by
  simp only [State.mapswap]
  split
  · exact .refl s
  · split
    · exact .refl s
    · split
      · exact .of_cq rfl
      · exact State.raiseAll_raises { s with map := s.map.swap } _

theorem State.mapcopy_raises (s : State) : s.Raises s.mapcopy.1 := by
  simp only [State.mapcopy]
  split <;> exact .of_cq rfl

theorem State.writeMapData_raises (s : State) (v : Word) : s.Raises (s.writeMapData v) := by
  simp only [State.writeMapData]
  split <;> exact .of_cq rfl

theorem State.lineSet_raises (s : State) : s.Raises s.lineSet.1 := by
  simp only [State.lineSet]
  repeat' split
  all_goals exact .of_cq rfl

theorem State.lineUp_raises (s : State) : s.Raises s.lineUp.1 := by
  simp only [State.lineUp]
  split
  · exact .refl s
  · split
    · exact .of_cq rfl
    all_goals exact s.boundaryAt_raises _ _

theorem State.lineDown_raises (s : State) : s.Raises s.lineDown.1 := by
  simp only [State.lineDown]
  split
  · exact s.takeLineDown_raises.settle
  · exact .refl s

theorem State.sampleLow_raises (s : State) : s.Raises s.sampleLow := by
  simp only [State.sampleLow]
  split <;> exact .of_cq rfl

/-- An arrival moves the trial, opens a frame, or does nothing (R7 to R9). -/
theorem State.takeSync_raises (s : State) (pos : Nat) : s.Raises (s.takeSync pos) := by
  simp only [State.takeSync]
  split
  · exact .refl s
  · exact .of_cq rfl
  · split
    · exact .of_cq rfl
    · split
      · exact s.boundaryAt_raises _ _
      · exact .refl s
  all_goals
    split
    · exact s.boundaryAt_raises _ _
    · split
      · exact s.boundaryAt_raises _ _
      · exact .refl s

theorem State.sampleHigh_raises (s : State) (bit : Nat) : s.Raises (s.sampleHigh bit) := by
  simp only [State.sampleHigh]
  split
  · exact s.takeSync_raises _
  · exact .refl s

theorem State.endTrial_raises (s : State) : s.Raises s.endTrial := by
  simp only [State.endTrial]
  split <;> exact .of_cq rfl

theorem State.missSync_raises (s : State) : s.Raises s.missSync := by
  simp only [State.missSync]
  split
  · split
    · exact s.boundaryAt_raises _ _
    · exact (State.loseAlignment_raises { s with line := s.line.passTo s.line.fmt.frameBits }).settle
  · exact .refl s

theorem State.endFrame_raises (s : State) : s.Raises s.endFrame := by
  simp only [State.endFrame]
  split
  · exact s.boundaryAt_raises _ _
  · exact .refl s

/-! ### The slots -/

/-- Only an underrun raises records: UNDERRUN once an episode, or the halts of its policy (R70, R72). -/
theorem State.serveTx_raises (s : State) (i : StreamId) (width : Nat) : s.Raises (s.serveTx i width) := by
  have hhalt : s.Raises ((s.putStream i (s.stream i).underrunNow).haltCascade i .xrun) :=
    State.haltCascade_raises (s.putStream i (s.stream i).underrunNow) i .xrun
  simp only [State.serveTx]
  split
  · exact .of_cq rfl
  · split
    case h_4 | h_5 =>
      split
      · exact .of_cq rfl
      · split
        · exact hhalt
        · split
          · exact .of_cq rfl
          · exact ⟨[.underrun i s.line.frame], rfl⟩
    case h_6 => split <;> exact .of_cq rfl
    all_goals exact .of_cq rfl

/-- Only an overrun raises records: OVERRUN once an episode, or the halts of its policy (R75, R76). -/
theorem State.offerRx_raises (s : State) (i : StreamId) (x : Sample) : s.Raises (s.offerRx i x) := by
  have hhalt : ∀ c, s.Raises ((s.putStream i c).haltCascade i .xrun) := fun c =>
    State.haltCascade_raises (s.putStream i c) i .xrun
  simp only [State.offerRx]
  split
  · exact .refl s
  · split
    case h_5 | h_6 =>
      split
      · exact .of_cq rfl
      · split
        · exact hhalt _
        · split
          · exact .of_cq rfl
          · exact ⟨[.overrun i s.line.frame], rfl⟩
    all_goals exact .refl s

theorem State.startTxSlot_raises (s : State) (slot : Nat) : s.Raises (s.startTxSlot slot) := by
  simp only [State.startTxSlot]
  split
  · exact .refl s
  · exact State.Raises.settle (State.Raises.trans (.of_cq rfl) (State.serveTx_raises _ _ _))

theorem State.endRxSlot_raises (s : State) (slot : Nat) (rxd : Sample) : s.Raises (s.endRxSlot slot rxd) := by
  simp only [State.endRxSlot]
  split
  · exact .refl s
  · exact State.Raises.settle (State.Raises.trans (.of_cq rfl) (State.offerRx_raises _ _ _))

/-! ### The Memory Mover -/

theorem State.takeWord_raises (s : State) (m : Move) (w : InFlight) (data : Word) :
    s.Raises (s.takeWord m w data) := by
  simp only [State.takeWord]
  split
  · split <;> exact s.apply_raises _ _
  · exact .refl s

theorem State.completeWord_raises (s : State) (x : Option Word) : s.Raises (s.completeWord x) := by
  obtain heq | ⟨m, w, heq⟩ := s.completeWord_cases x
  · exact .of_cq (congrArg State.cq heq)
  · have htaken : s.Raises (s.wordTaken m w x) := s.takeWord_raises m w (s.fetched w x)
    rw [heq]
    exact htaken.trans (.of_cq (State.goOn_act _ m).cq)

/-- BUS_FAULT, and the halts of the stream and its group (R132). -/
theorem State.faultWord_raises (s : State) : s.Raises s.faultWord := by
  simp only [State.faultWord]
  split
  · rename_i m w _ _
    refine State.Raises.trans ?_ (.of_cq (State.endTenure_cq _))
    have hfault := s.raiseAll_raises [.busFault m.stream s.line.frame w.addr]
    split
    · exact hfault.trans (State.haltCascade_raises _ _ _)
    · exact hfault
  · exact .refl s

/-! ### Time and RESET -/

theorem State.readyTick_raises (s : State) : s.Raises s.readyTick := by
  simp only [State.readyTick]
  split
  · exact .refl s
  · split
    · exact s.faultWord_raises.settle
    · exact .of_cq rfl

theorem State.sampleGrant_cq (s : State) : s.sampleGrant.cq = s.cq := by rw [State.sampleGrant_eq]

theorem State.bitClock_cq (s : State) : s.bitClock.cq = s.cq := by
  obtain ⟨-, hframe⟩ := State.bitClock_spec (s := s) (t := s) (n := s.line.tbLeft) rfl rfl
  rw [hframe]

theorem State.releaseReset_cq (s : State) : s.releaseReset.cq = s.cq := by
  simp only [State.releaseReset]
  split
  · exact State.sampleGrant_cq _
  · rfl

/-! ### Every row but the queue's own -/

/-- The rows that act on the queue, its timer or its settings. -/
def actsOnQueue : Instr → Bool
  | .cqpop _ | .cqflush _ | .intCtrlWrite _ | .controlWordWrite _ _ | .holdoffExpiry | .pinReset => true
  | _ => false

/-- A command leaves the queue as its outcome does, or as it was while RESET is low (R171). -/
theorem State.runCommand_cq (s : State) (op arg : Byte) (run : State → Answer) :
    (s.runCommand op arg run).cq = s.cq ∨ (s.runCommand op arg run).cq = (run s).1.cq := by
  simp only [State.runCommand]
  split
  · exact .inl rfl
  · exact .inr rfl

/-- An event leaves the queue as its act does, or as it was while RESET is low (R171). -/
theorem State.event_cq (s : State) (run : State → State) :
    (s.event run).cq = s.cq ∨ (s.event run).cq = (run s).cq := by
  simp only [State.event]
  split
  · exact .inl rfl
  · exact .inr rfl

theorem State.hostWrite_cq (s : State) (run : Window → Window) : (s.hostWrite run).cq = s.cq := by
  simp only [State.hostWrite]
  split <;> rfl

/-- Every row that is none of the queue's own only raises records. -/
theorem exec_raises {c : Instr} {s t : State} (hc : actsOnQueue c = false) (h : exec c s = .next t) :
    s.Raises t := by
  have hcmd : ∀ {op arg} {run : State → Answer}, Host.Outcome.next (s.runCommand op arg run) = (.next t : Outcome) →
      s.Raises (run s).1 → s.Raises t := fun {op arg run} h k => by
    cases h
    obtain hcq | hcq := s.runCommand_cq op arg run
    · exact .of_cq hcq
    · exact k.trans (.of_cq hcq)
  have hev : ∀ {run : State → State}, Host.Outcome.next (s.event run) = (.next t : Outcome) →
      s.Raises (run s) → s.Raises t := fun {run} h k => by
    cases h
    obtain hcq | hcq := s.event_cq run
    · exact .of_cq hcq
    · exact k.trans (.of_cq hcq)
  have hpin : ∀ {m : Mover} {u : State}, s.MoverAct u →
      Host.Outcome.next (if s.resetLow then { s with mover := m } else u.settle) = (.next t : Outcome) →
      s.Raises t := fun k h => by
    cases h
    split
    · exact .of_cq rfl
    · exact .settle (.of_cq k.cq)
  cases c with
  | cqpop | cqflush | intCtrlWrite | controlWordWrite | holdoffExpiry | pinReset => cases hc
  | configure a => exact hcmd h (State.forStream_raises a s.configure_raises)
  | deconfigure a => exact hcmd h (State.forStream_raises a s.deconfigure_raises)
  | post a => exact hcmd h (State.forStream_raises a s.post_raises)
  | start a => exact hcmd h (State.forStream_raises a s.startStream_raises)
  | stop a => exact hcmd h (State.forStream_raises a s.stopStream_raises)
  | abort a => exact hcmd h (State.forStream_raises a fun i => (s.abortOne_raises i).settle)
  | clear a => exact hcmd h (State.forStream_raises a s.clearStream_raises)
  | gstart a => exact hcmd h (State.forGroup_raises a s.gstart_raises)
  | gstop a => exact hcmd h (State.forGroup_raises a s.gstop_raises)
  | gabort a => exact hcmd h (State.forGroup_raises a s.gabort_raises)
  | mapswap a => exact hcmd h s.mapswap_raises
  | mapcopy a => exact hcmd h s.mapcopy_raises
  | lineSet a => exact hcmd h s.lineSet_raises
  | lineUp a => exact hcmd h s.lineUp_raises
  | lineDown a => exact hcmd h s.lineDown_raises
  | unknownOpcode op a => exact hcmd h (.refl s)
  | mapDataWrite v => exact hev h (s.writeMapData_raises v)
  | statusWrite | readOnlyWrite | samplesServedLowRead | registerWrite => cases h; exact .of_cq (s.hostWrite_cq _)
  | resetRelease => cases h; exact .of_cq s.releaseReset_cq
  | syncArrival bit => exact hev h (s.sampleHigh_raises bit)
  | trialTimeout => exact hev h s.endTrial_raises
  | missedSync => exact hev h s.missSync_raises
  | frameEnd => exact hev h s.endFrame_raises
  | transmitSlot k => exact hev h (s.startTxSlot_raises k)
  | receiveSlot k x => exact hev h (s.endRxSlot_raises k x)
  | busGrant => exact hpin s.grant_act h
  | busGrantLow | busGrantWithdrawn => exact hpin s.grantLow_act h
  | busYield b =>
    cases h
    split
    · exact .settle (.of_cq (State.yieldBus_act _).cq)
    · exact .of_cq rfl
  | wordTransferComplete x => exact hev h (s.completeWord_raises x).settle
  | busFault => exact hev h s.faultWord_raises.settle
  | fsyncLowSample => exact hev h s.sampleLow_raises

end Sys2Proof.Machine
end

section
/-! PROOFS. The law of the completion queue (R150, R151, R158, R163): raised records keep it, so the queue's own rows and
the tick of its timer remain. -/

namespace Sys2Proof.Machine

/-! ### The queue's own rows -/

namespace CompletionQueue.Law

variable {q : CompletionQueue} (h : q.Law)
include h

/-- R158: only a counting timer expires, so the timer is STOPPED after it as before. -/
theorem expire : q.expire.Law := by
  unfold CompletionQueue.expire
  split
  · rename_i n htimer
    exact CompletionQueue.timer_law h .expired (by simp [htimer]) nofun
  all_goals exact h

/-- R158: a tick never stops the timer, and a count it leaves is not 0. -/
theorem tick : CompletionQueue.Law { q with timer := q.timer.tick } := by
  have hcases : ∀ t : HoldoffTimer, (t.tick = .stopped ↔ t = .stopped) ∧ ∀ n, t.tick = .counting n → 1 ≤ n := by
    intro t
    cases t with
    | stopped | expired => exact ⟨Iff.rfl, nofun⟩
    | counting k =>
      simp only [HoldoffTimer.tick]
      split
      · exact ⟨by simp, nofun⟩
      · refine ⟨by simp, fun n hn => ?_⟩
        cases hn
        omega
  obtain ⟨hstopped, hcount⟩ := hcases q.timer
  exact CompletionQueue.timer_law h _ hstopped hcount

theorem settings (enable : Bool) {threshold : Nat} (hrange : 1 ≤ threshold ∧ threshold ≤ 32) :
    CompletionQueue.Law { q with enable := enable, threshold := threshold } := by
  obtain ⟨hlen, hlost, htimer, hcount, -⟩ := h
  exact ⟨hlen, hlost, htimer, hcount, hrange⟩

end CompletionQueue.Law

section
variable {s : State} (h : s.cq.Law)
include h

theorem State.cqpop_cqLaw : s.cqpop.1.cq.Law := by
  simp only [State.cqpop]
  split
  · exact h
  · exact CompletionQueue.pop_law h

/-- THRESHOLD is written in its range only (R163). -/
theorem State.writeIntCtrl_cqLaw (v : Word) : (s.writeIntCtrl v).cq.Law := by
  simp only [State.writeIntCtrl]
  split
  · exact h
  · exact h.settings _ (by omega)

/-- Of the control words HOLDOFF alone is the queue's, and the law does not name it. -/
theorem State.writeControl_cqLaw (cw : ControlWord) (v : Word) : (s.writeControl cw v).cq.Law := by
  cases cw with
  | holdoff => exact h
  | busCtrl | readyTimeout => simp only [State.writeControl]; split <;> exact h

/-! ### Time -/

theorem State.timebase_cqLaw : s.timebase.cq.Law := by
  simp only [State.timebase, State.tick]
  split
  · exact (State.readyTick_raises _).cqLaw h.tick
  · exact h

/-- One period of REFCLK. -/
theorem State.idle_cqLaw : s.idle.cq.Law := by
  simp only [State.idle]
  split
  · exact h
  · rw [State.bitClock_cq]
    exact State.timebase_cqLaw (s.sampleGrant_cq.symm ▸ h)

/-! ### Every step -/

theorem exec_cqLaw {c : Instr} {t : State} (hstep : exec c s = .next t) : t.cq.Law := by
  have hcmd : ∀ {op arg} {run : State → Answer}, Host.Outcome.next (s.runCommand op arg run) = (.next t : Outcome) →
      (run s).1.cq.Law → t.cq.Law := fun {op arg run} k hr => by
    cases k
    obtain hcq | hcq := s.runCommand_cq op arg run
    · exact hcq ▸ h
    · exact hcq ▸ hr
  have hev : ∀ {run : State → State}, Host.Outcome.next (s.event run) = (.next t : Outcome) →
      (run s).cq.Law → t.cq.Law := fun {run} k hr => by
    cases k
    obtain hcq | hcq := s.event_cq run
    · exact hcq ▸ h
    · exact hcq ▸ hr
  cases c with
  | cqpop a => exact hcmd hstep (State.cqpop_cqLaw h)
  | cqflush a => exact hcmd hstep (CompletionQueue.empty_law h)
  | intCtrlWrite v => exact hev hstep (State.writeIntCtrl_cqLaw h v)
  | controlWordWrite cw v => exact hev hstep (State.writeControl_cqLaw h cw v)
  | holdoffExpiry => exact hev hstep h.expire
  | pinReset =>
    obtain ⟨-, -, hreset, -⟩ := lawsHoldAtReset
    cases hstep
    exact hreset
  | _ => exact (exec_raises rfl hstep).cqLaw h

end

/-- Settles O50: raised records, a pop, a flush, an expiry, a tick, a write in its range and a pin reset each keep the
law of the queue. -/
theorem everyStepKeepsTheRecordQueue : Obligations.EveryStepKeepsTheRecordQueue := by
  unfold Obligations.EveryStepKeepsTheRecordQueue
  intro s t h hstep
  simp only [step] at hstep
  split at hstep
  · cases hstep
    exact State.idle_cqLaw h
  · rename_i c rest hp
    exact exec_cqLaw (s := { s with pending := rest }) h hstep

end Sys2Proof.Machine
end

section
/-! PROOFS. What only the window's own writes and the pin reset change: ACCESS_ERR, the captured high half and the four
control words (R161, R163, R166); and the waiting commands, which no row changes (log 1). -/

namespace Sys2Proof.Machine

/-! ### The host's side of the state -/

/-- The waiting commands, ACCESS_ERR, the captured high half, TENURE_MAX and READY_TIMEOUT. -/
def State.hostSide (s : State) : List Instr × Bool × Word × Nat × Nat :=
  (s.pending, s.win.accessErr, s.win.captured, s.mover.tenureMax, s.mover.readyTimeout)

theorem State.hostSide_fields {s t : State} (h : t.hostSide = s.hostSide) :
    t.pending = s.pending ∧ t.win.accessErr = s.win.accessErr ∧ t.win.captured = s.win.captured
    ∧ t.mover.tenureMax = s.mover.tenureMax ∧ t.mover.readyTimeout = s.mover.readyTimeout := by
  simpa only [State.hostSide, Prod.mk.injEq] using h

theorem foldl_hostSide {α : Type} {f : State → α → State} (h : ∀ a x, (f a x).hostSide = a.hostSide) (xs : List α)
    (s : State) : (xs.foldl f s).hostSide = s.hostSide := by
  induction xs generalizing s with
  | nil => rfl
  | cons x xs ih => exact (ih (f s x)).trans (h s x)

/-! ### The acts of the Mover -/

theorem State.nextWord_hostSide {s t : State} {m : Move} (h : s.nextWord m = some t) : t.hostSide = s.hostSide := by
  obtain ⟨c, w, u, rfl, -⟩ := State.nextWord_spec h
  rfl

theorem State.chooseMove_hostSide (s : State) : s.chooseMove.hostSide = s.hostSide := by
  simp only [State.chooseMove]
  split
  · rfl
  · split
    · rfl
    · split
      · rename_i hnext
        have hkept := State.nextWord_hostSide hnext
        exact hkept
      · rfl

theorem State.beginTenure_hostSide (s : State) : s.beginTenure.hostSide = s.hostSide := by
  simp only [State.beginTenure]
  split
  · rfl
  · exact State.chooseMove_hostSide _

theorem State.pollMover_hostSide (s : State) : s.pollMover.hostSide = s.hostSide := by
  simp only [State.pollMover]
  split
  · split
    · exact State.beginTenure_hostSide _
    · rfl
  · rfl

theorem State.goOn_hostSide (s : State) (m : Move) : (s.goOn m).hostSide = s.hostSide := by
  simp only [State.goOn]
  split
  · rfl
  · split
    · rename_i hnext
      exact State.nextWord_hostSide hnext
    · exact s.chooseMove_hostSide

theorem State.yieldBus_hostSide (s : State) : s.yieldBus.hostSide = s.hostSide := by
  simp only [State.yieldBus]
  split
  · split <;> rfl
  · rfl

theorem State.grant_hostSide (s : State) : s.grant.hostSide = s.hostSide := by
  simp only [State.grant]
  split
  · exact State.beginTenure_hostSide _
  · rfl

theorem State.grantLow_hostSide (s : State) : s.grantLow.hostSide = s.hostSide := by
  simp only [State.grantLow]
  split
  case h_2 => exact State.yieldBus_hostSide _
  all_goals rfl

theorem State.settle_hostSide (s : State) : s.settle.hostSide = s.hostSide := by
  rw [s.settle_eq]
  exact State.pollMover_hostSide _

/-- An act that keeps the host's side, with what follows it. -/
theorem State.hostSide_settle {s t : State} (h : t.hostSide = s.hostSide) : t.settle.hostSide = s.hostSide :=
  t.settle_hostSide.trans h

/-! ### Halts, boundaries and losses -/

theorem State.haltOne_hostSide (s : State) (i : StreamId) (cause : HaltCause) :
    (s.haltOne i cause).hostSide = s.hostSide := by
  simp only [State.haltOne]
  split <;> rfl

theorem State.haltCascade_hostSide (s : State) (i : StreamId) (cause : HaltCause) :
    (s.haltCascade i cause).hostSide = s.hostSide := by
  simp only [State.haltCascade]
  split
  · exact s.haltOne_hostSide i cause
  · exact (foldl_hostSide (fun a j => a.haltOne_hostSide j .group) _ _).trans (s.haltOne_hostSide i cause)

/-- A frame boundary on a line port that has moved on, with what follows it. -/
theorem State.boundaryAt_hostSide (s : State) (l : LinePort) (own : BitVec 16 → List Record) :
    (State.boundary { s with line := l } own).settle.hostSide = s.hostSide := by
  obtain ⟨-, -, -, -, hframe⟩ := State.boundary_spec { s with line := l } own
  refine State.hostSide_settle ?_
  rw [hframe]
  rfl

theorem State.loseAlignment_hostSide (s : State) : s.loseAlignment.hostSide = s.hostSide := by
  obtain ⟨_, _, _, -, -, -, -, hframe⟩ := s.loseAlignment_spec
  rw [hframe]
  rfl

theorem State.takeLineDown_hostSide (s : State) : s.takeLineDown.hostSide = s.hostSide := by
  rw [s.takeLineDown_units]
  rfl

/-! ### The stream commands and the group commands -/

theorem State.forStream_hostSide {s : State} (arg : Byte) {run : StreamId → Answer}
    (h : ∀ i, (run i).1.hostSide = s.hostSide) : (s.forStream arg run).1.hostSide = s.hostSide := by
  simp only [State.forStream]
  split
  · rfl
  · exact h _

theorem State.forGroup_hostSide {s : State} (arg : Byte) {run : GroupId → Answer}
    (h : ∀ g, (run g).1.hostSide = s.hostSide) : (s.forGroup arg run).1.hostSide = s.hostSide := by
  simp only [State.forGroup]
  split
  · rfl
  · exact h _

theorem State.configure_hostSide (s : State) (i : StreamId) : (s.configure i).1.hostSide = s.hostSide := by
  simp only [State.configure]
  repeat' split
  all_goals rfl

theorem State.deconfigure_hostSide (s : State) (i : StreamId) : (s.deconfigure i).1.hostSide = s.hostSide := by
  simp only [State.deconfigure]
  split <;> rfl

theorem State.post_hostSide (s : State) (i : StreamId) : (s.post i).1.hostSide = s.hostSide := by
  simp only [State.post]
  repeat' split
  all_goals try rfl
  exact State.settle_hostSide _

theorem State.startStream_hostSide (s : State) (i : StreamId) : (s.startStream i).1.hostSide = s.hostSide := by
  simp only [State.startStream]
  repeat' split
  all_goals try rfl
  exact State.settle_hostSide _

theorem State.stopStream_hostSide (s : State) (i : StreamId) : (s.stopStream i).1.hostSide = s.hostSide := by
  simp only [State.stopStream]
  repeat' split
  all_goals try rfl
  all_goals exact State.settle_hostSide _

theorem State.abortOne_hostSide (s : State) (i : StreamId) : (s.abortOne i).hostSide = s.hostSide := by
  simp only [State.abortOne]
  split <;> rfl

theorem State.clearStream_hostSide (s : State) (i : StreamId) : (s.clearStream i).1.hostSide = s.hostSide := by
  simp only [State.clearStream]
  split
  · exact State.settle_hostSide _
  all_goals rfl

theorem State.gstart_hostSide (s : State) (g : GroupId) : (s.gstart g).1.hostSide = s.hostSide := by
  have harm : ∀ m, (s.armMembers g m).hostSide = s.hostSide := fun m =>
    foldl_hostSide (f := fun a i => a.putStream i ((a.stream i).arm m)) (fun _ _ => rfl) _ _
  simp only [State.gstart]
  repeat' split
  all_goals try rfl
  exact State.hostSide_settle (harm _)

theorem State.gstopMember_hostSide (s : State) (i : StreamId) : (s.gstopMember i).hostSide = s.hostSide := by
  simp only [State.gstopMember]
  split
  case h_2 => split <;> rfl
  all_goals rfl

theorem State.gstop_hostSide (s : State) (g : GroupId) : (s.gstop g).1.hostSide = s.hostSide := by
  have hall := foldl_hostSide State.gstopMember_hostSide (s.members g) s
  simp only [State.gstop]
  split
  · split <;> exact State.hostSide_settle hall
  · rfl

theorem State.gabort_hostSide (s : State) (g : GroupId) : (s.gabort g).1.hostSide = s.hostSide :=
  State.hostSide_settle (foldl_hostSide State.abortOne_hostSide (s.abortable g) s)

/-! ### The map, the completion queue and the line -/

theorem State.mapswap_hostSide (s : State) : s.mapswap.1.hostSide = s.hostSide := by
  simp only [State.mapswap]
  repeat' split
  all_goals rfl

theorem State.mapcopy_hostSide (s : State) : s.mapcopy.1.hostSide = s.hostSide := by
  simp only [State.mapcopy]
  split <;> rfl

theorem State.cqpop_hostSide (s : State) : s.cqpop.1.hostSide = s.hostSide := by
  simp only [State.cqpop]
  split <;> rfl

theorem State.lineSet_hostSide (s : State) : s.lineSet.1.hostSide = s.hostSide := by
  simp only [State.lineSet]
  repeat' split
  all_goals rfl

theorem State.lineUp_hostSide (s : State) : s.lineUp.1.hostSide = s.hostSide := by
  simp only [State.lineUp]
  split
  · rfl
  · split
    · rfl
    all_goals exact s.boundaryAt_hostSide _ _

theorem State.lineDown_hostSide (s : State) : s.lineDown.1.hostSide = s.hostSide := by
  simp only [State.lineDown]
  split
  · exact State.hostSide_settle s.takeLineDown_hostSide
  · rfl

/-- An arrival moves the trial, opens a frame, or does nothing (R7 to R9). -/
theorem State.takeSync_hostSide (s : State) (pos : Nat) : (s.takeSync pos).hostSide = s.hostSide := by
  simp only [State.takeSync]
  split
  · rfl
  · rfl
  · split
    · rfl
    · split
      · exact s.boundaryAt_hostSide _ _
      · rfl
  all_goals
    split
    · exact s.boundaryAt_hostSide _ _
    · split
      · exact s.boundaryAt_hostSide _ _
      · rfl

theorem State.sampleHigh_hostSide (s : State) (bit : Nat) : (s.sampleHigh bit).hostSide = s.hostSide := by
  simp only [State.sampleHigh]
  split
  · exact s.takeSync_hostSide _
  · rfl

theorem State.sampleLow_hostSide (s : State) : s.sampleLow.hostSide = s.hostSide := by
  simp only [State.sampleLow]
  split <;> rfl

theorem State.endTrial_hostSide (s : State) : s.endTrial.hostSide = s.hostSide := by
  simp only [State.endTrial]
  split <;> rfl

theorem State.missSync_hostSide (s : State) : s.missSync.hostSide = s.hostSide := by
  simp only [State.missSync]
  split
  · split
    · exact s.boundaryAt_hostSide _ _
    · exact State.hostSide_settle (State.loseAlignment_hostSide _)
  · rfl

theorem State.endFrame_hostSide (s : State) : s.endFrame.hostSide = s.hostSide := by
  simp only [State.endFrame]
  split
  · exact s.boundaryAt_hostSide _ _
  · rfl

/-! ### The slots -/

theorem State.serveTx_hostSide (s : State) (i : StreamId) (width : Nat) :
    (s.serveTx i width).hostSide = s.hostSide := by
  have hhalt : ∀ c, ((s.putStream i c).haltCascade i .xrun).hostSide = s.hostSide := fun c =>
    State.haltCascade_hostSide _ _ _
  simp only [State.serveTx]
  split
  · rfl
  · split
    case h_4 | h_5 =>
      split
      · rfl
      · split
        · exact hhalt _
        · split <;> rfl
    case h_6 => split <;> rfl
    all_goals rfl

theorem State.startTxSlot_hostSide (s : State) (slot : Nat) : (s.startTxSlot slot).hostSide = s.hostSide := by
  simp only [State.startTxSlot]
  split
  · rfl
  · exact State.hostSide_settle (State.serveTx_hostSide _ _ _)

theorem State.offerRx_hostSide (s : State) (i : StreamId) (x : Sample) : (s.offerRx i x).hostSide = s.hostSide := by
  simp only [State.offerRx]
  split
  · rfl
  · split
    case h_5 | h_6 =>
      split
      · rfl
      · split
        · exact State.haltCascade_hostSide _ _ _
        · split <;> rfl
    all_goals rfl

theorem State.endRxSlot_hostSide (s : State) (slot : Nat) (rxd : Sample) :
    (s.endRxSlot slot rxd).hostSide = s.hostSide := by
  simp only [State.endRxSlot]
  split
  · rfl
  · exact State.hostSide_settle (State.offerRx_hostSide _ _ _)

/-! ### The bus and the release of RESET -/

theorem State.completeWord_hostSide (s : State) (x : Option Word) : (s.completeWord x).hostSide = s.hostSide := by
  obtain heq | ⟨m, w, heq⟩ := s.completeWord_cases x
  · rw [heq]
  · have htaken : (s.wordTaken m w x).hostSide = s.hostSide := by
      rw [State.wordTaken, s.takeWord_frame]
      rfl
    rw [heq]
    exact (State.goOn_hostSide _ m).trans htaken

theorem State.faultWord_hostSide (s : State) : s.faultWord.hostSide = s.hostSide := by
  simp only [State.faultWord]
  split
  · split
    · exact State.haltCascade_hostSide _ _ _
    · rfl
  · rfl

theorem State.releaseReset_hostSide (s : State) : s.releaseReset.hostSide = s.hostSide := by
  simp only [State.releaseReset]
  split
  · rw [State.sampleGrant_eq]
    rfl
  · rfl

/-! ### Every row but the writes of the host's side -/

/-- The rows that change the host's side or a control word: writes to MAP_DATA, to STATUS, to read-only words and to
the control words, the read that captures, and PIN_RESET. -/
def writesHostSide : Instr → Bool
  | .mapDataWrite _ | .statusWrite _ | .readOnlyWrite _ _ | .intCtrlWrite _ | .controlWordWrite _ _
  | .samplesServedLowRead | .pinReset => true
  | _ => false

theorem State.runCommand_hostSide {s : State} (op arg : Byte) {run : State → Answer}
    (h : (run s).1.hostSide = s.hostSide) : (s.runCommand op arg run).hostSide = s.hostSide := by
  simp only [State.runCommand]
  split
  · rfl
  · exact h

theorem State.event_hostSide {s : State} {run : State → State} (h : (run s).hostSide = s.hostSide) :
    (s.event run).hostSide = s.hostSide := by
  simp only [State.event]
  split
  · rfl
  · exact h

/-- A write to a plain word is none to a flag. -/
theorem State.registerWrite_hostSide (s : State) (p : PlainWord) (v : Word) :
    (s.hostWrite fun w => w.write p v).hostSide = s.hostSide := by
  simp only [State.hostWrite]
  split
  · rfl
  · cases p <;> rfl

theorem exec_hostSide {c : Instr} {s t : State} (hc : writesHostSide c = false) (h : exec c s = .next t) :
    t.hostSide = s.hostSide := by
  have hcmd : ∀ {op arg} {run : State → Answer}, Host.Outcome.next (s.runCommand op arg run) = (.next t : Outcome) →
      (run s).1.hostSide = s.hostSide → t.hostSide = s.hostSide := fun h k => by
    cases h; exact State.runCommand_hostSide _ _ k
  have hev : ∀ {run : State → State}, Host.Outcome.next (s.event run) = (.next t : Outcome) →
      (run s).hostSide = s.hostSide → t.hostSide = s.hostSide := fun h k => by
    cases h; exact State.event_hostSide k
  have hpin : ∀ (b : Bool) {u : State}, u.hostSide = s.hostSide →
      Host.Outcome.next (if s.resetLow then { s with mover := { s.mover with bgnt := b } } else u.settle)
        = (.next t : Outcome) → t.hostSide = s.hostSide := fun b u k h => by
    cases h
    split
    · rfl
    · exact State.hostSide_settle k
  cases c with
  | mapDataWrite | statusWrite | readOnlyWrite | intCtrlWrite | controlWordWrite | samplesServedLowRead
  | pinReset => cases hc
  | configure a => exact hcmd h (State.forStream_hostSide a s.configure_hostSide)
  | deconfigure a => exact hcmd h (State.forStream_hostSide a s.deconfigure_hostSide)
  | post a => exact hcmd h (State.forStream_hostSide a s.post_hostSide)
  | start a => exact hcmd h (State.forStream_hostSide a s.startStream_hostSide)
  | stop a => exact hcmd h (State.forStream_hostSide a s.stopStream_hostSide)
  | abort a => exact hcmd h (State.forStream_hostSide a fun i => State.hostSide_settle (s.abortOne_hostSide i))
  | clear a => exact hcmd h (State.forStream_hostSide a s.clearStream_hostSide)
  | gstart a => exact hcmd h (State.forGroup_hostSide a s.gstart_hostSide)
  | gstop a => exact hcmd h (State.forGroup_hostSide a s.gstop_hostSide)
  | gabort a => exact hcmd h (State.forGroup_hostSide a s.gabort_hostSide)
  | mapswap a => exact hcmd h s.mapswap_hostSide
  | mapcopy a => exact hcmd h s.mapcopy_hostSide
  | cqpop a => exact hcmd h s.cqpop_hostSide
  | cqflush a => exact hcmd h rfl
  | lineSet a => exact hcmd h s.lineSet_hostSide
  | lineUp a => exact hcmd h s.lineUp_hostSide
  | lineDown a => exact hcmd h s.lineDown_hostSide
  | unknownOpcode op a => exact hcmd h rfl
  | registerWrite p v => cases h; exact s.registerWrite_hostSide p v
  | resetRelease => cases h; exact s.releaseReset_hostSide
  | syncArrival bit => exact hev h (s.sampleHigh_hostSide bit)
  | trialTimeout => exact hev h s.endTrial_hostSide
  | missedSync => exact hev h s.missSync_hostSide
  | frameEnd => exact hev h s.endFrame_hostSide
  | transmitSlot k => exact hev h (s.startTxSlot_hostSide k)
  | receiveSlot k x => exact hev h (s.endRxSlot_hostSide k x)
  | busGrant => exact hpin true s.grant_hostSide h
  | busGrantLow | busGrantWithdrawn => exact hpin false s.grantLow_hostSide h
  | busYield b =>
    cases h
    split
    · exact State.hostSide_settle (State.yieldBus_hostSide _)
    · rfl
  | wordTransferComplete x => exact hev h (State.hostSide_settle (s.completeWord_hostSide x))
  | busFault => exact hev h (State.hostSide_settle s.faultWord_hostSide)
  | holdoffExpiry => exact hev h rfl
  | fsyncLowSample => exact hev h s.sampleLow_hostSide

theorem exec_keepsAccessErr {c : Instr} {s t : State} (hc : writesHostSide c = false) (h : exec c s = .next t) :
    t.win.accessErr = s.win.accessErr := by
  obtain ⟨-, herr, -⟩ := State.hostSide_fields (exec_hostSide hc h)
  exact herr

theorem exec_keepsCaptured {c : Instr} {s t : State} (hc : writesHostSide c = false) (h : exec c s = .next t) :
    t.win.captured = s.win.captured := by
  obtain ⟨-, -, hcaptured, -⟩ := State.hostSide_fields (exec_hostSide hc h)
  exact hcaptured

/-! ### The writes of the host's side -/

/-- The writes that are taken or set ACCESS_ERR by their value: MAP_DATA, INT_CTRL and the control words. -/
def writesSetting : Instr → Bool
  | .mapDataWrite _ | .intCtrlWrite _ | .controlWordWrite _ _ => true
  | _ => false

/-- Such a write sets ACCESS_ERR and nothing else, or leaves the whole window alone (R26, R163). -/
theorem exec_writesSetting {c : Instr} {s t : State} (hc : writesSetting c = true) (h : exec c s = .next t) :
    t = { s with win := { s.win with accessErr := true } }
    ∨ ∃ map cq mover, t = { s with map := map, cq := cq, mover := mover } := by
  have hev : ∀ {run : State → State}, Host.Outcome.next (s.event run) = (.next t : Outcome) →
      (run s = { s with win := { s.win with accessErr := true } }
        ∨ ∃ map cq mover, run s = { s with map := map, cq := cq, mover := mover }) →
      t = { s with win := { s.win with accessErr := true } }
      ∨ ∃ map cq mover, t = { s with map := map, cq := cq, mover := mover } := fun h k => by
    cases h
    simp only [State.event]
    split
    · exact .inr ⟨s.map, s.cq, s.mover, rfl⟩
    · exact k
  cases c with
  | mapDataWrite v =>
    refine hev h ?_
    simp only [State.writeMapData]
    split
    · exact .inr ⟨_, s.cq, s.mover, rfl⟩
    · exact .inl rfl
  | intCtrlWrite v =>
    refine hev h ?_
    simp only [State.writeIntCtrl]
    split
    · exact .inl rfl
    · exact .inr ⟨s.map, _, s.mover, rfl⟩
  | controlWordWrite cw v =>
    refine hev h ?_
    cases cw with
    | holdoff => exact .inr ⟨s.map, _, s.mover, rfl⟩
    | busCtrl | readyTimeout =>
      simp only [State.writeControl]
      split
      · exact .inl rfl
      · exact .inr ⟨s.map, s.cq, _, rfl⟩
  | _ => cases hc

/-- A write to the window's own words changes the window only. -/
theorem State.hostWrite_window (s : State) (run : Window → Window) :
    ∃ w : Window, s.hostWrite run = { s with win := w } := by
  simp only [State.hostWrite]
  split
  · exact ⟨s.win, rfl⟩
  · exact ⟨_, rfl⟩

/-- No row touches the waiting commands (log 1). -/
theorem exec_pending {c : Instr} {s t : State} (h : exec c s = .next t) : t.pending = s.pending := by
  have hset : writesSetting c = true → t.pending = s.pending := fun hc => by
    obtain rfl | ⟨_, _, _, rfl⟩ := exec_writesSetting hc h <;> rfl
  have hwin : ∀ {run : Window → Window}, Host.Outcome.next (s.hostWrite run) = (.next t : Outcome) →
      t.pending = s.pending := fun {run} h => by
    obtain ⟨w, hw⟩ := s.hostWrite_window run
    cases h
    rw [hw]
  cases c with
  | mapDataWrite | intCtrlWrite | controlWordWrite => exact hset rfl
  | statusWrite | readOnlyWrite | samplesServedLowRead => exact hwin h
  | pinReset => cases h; rfl
  | _ => exact (State.hostSide_fields (exec_hostSide rfl h)).1

/-! ### The control words (R163) -/

/-- ENABLE, THRESHOLD and HOLDOFF. -/
def CompletionQueue.controls (q : CompletionQueue) : Bool × Nat × BitVec 16 := (q.enable, q.threshold, q.holdoff)

theorem CompletionQueue.raise_controls (q : CompletionQueue) (r : Record) : (q.raise r).controls = q.controls := by
  simp only [CompletionQueue.raise]
  split
  · rfl
  · split <;> rfl

theorem CompletionQueue.raiseAll_controls (q : CompletionQueue) (rs : List Record) :
    (q.raiseAll rs).controls = q.controls := by
  induction rs generalizing q with
  | nil => rfl
  | cons r rs ih => exact (ih (q.raise r)).trans (q.raise_controls r)

theorem CompletionQueue.pop_controls (q : CompletionQueue) : q.pop.controls = q.controls := by
  simp only [CompletionQueue.pop]
  split
  · rfl
  · split <;> rfl

theorem CompletionQueue.expire_controls (q : CompletionQueue) : q.expire.controls = q.controls := by
  simp only [CompletionQueue.expire]
  split <;> rfl

theorem State.cqpop_controls (s : State) : s.cqpop.1.cq.controls = s.cq.controls := by
  simp only [State.cqpop]
  split
  · rfl
  · exact s.cq.pop_controls

theorem exec_controls {c : Instr} {s t : State} (hc : writesHostSide c = false) (h : exec c s = .next t) :
    t.cq.controls = s.cq.controls := by
  have hkept : ∀ {q : CompletionQueue}, t.cq = s.cq ∨ t.cq = q → q.controls = s.cq.controls →
      t.cq.controls = s.cq.controls := fun hcq hq => by
    obtain hcq | hcq := hcq
    · rw [hcq]
    · rw [hcq, hq]
  cases c with
  | cqpop a => cases h; exact hkept (s.runCommand_cq _ _ _) s.cqpop_controls
  | cqflush a => cases h; exact hkept (q := s.cq.empty) (s.runCommand_cq _ _ _) rfl
  | holdoffExpiry => cases h; exact hkept (q := s.cq.expire) (s.event_cq _) s.cq.expire_controls
  | intCtrlWrite | controlWordWrite | pinReset => cases hc
  | _ =>
    obtain ⟨rs, hrs⟩ := exec_raises rfl h
    rw [hrs]
    exact s.cq.raiseAll_controls rs

/-- The rows that are no write to a control word, nor to a flag, leave the four control words as they read. -/
theorem exec_keepsControlWords {c : Instr} {s t : State} (hc : writesHostSide c = false) (h : exec c s = .next t) :
    t.readWord 0x03 = s.readWord 0x03 ∧ t.readWord 0x04 = s.readWord 0x04 ∧ t.readWord 0x05 = s.readWord 0x05
    ∧ t.readWord 0x06 = s.readWord 0x06 := by
  have hq := exec_controls hc h
  simp only [CompletionQueue.controls, Prod.mk.injEq] at hq
  obtain ⟨henable, hthreshold, hholdoff⟩ := hq
  obtain ⟨-, -, -, htenure, hready⟩ := State.hostSide_fields (exec_hostSide hc h)
  have hctrl : t.cq.ctrlWord = s.cq.ctrlWord := by
    rw [CompletionQueue.ctrlWord, henable, hthreshold, CompletionQueue.ctrlWord]
  exact ⟨hctrl, hholdoff, congrArg word htenure, congrArg word hready⟩

end Sys2Proof.Machine
end

section
/-! PROOFS. Every row answers a next state, and what the rows do while RESET is low (R171; logs 9 and 30). -/

namespace Sys2Proof.Machine

theorem exec_completes (c : Instr) (s : State) : ∃ t, exec c s = .next t := by
  cases c <;> exact ⟨_, rfl⟩

/-! ### While RESET is low -/

/-- The rows that are taken while RESET is low: the RESET pin, and the levels of BGNT and BYLD. -/
def takenInReset : Instr → Bool
  | .pinReset | .resetRelease | .busGrant | .busGrantLow | .busGrantWithdrawn | .busYield _ => true
  | _ => false

/-- No slave access is taken, and no other event. -/
theorem exec_resetLow {c : Instr} {s : State} (hc : takenInReset c = false) (hl : s.resetLow = true) :
    exec c s = .next s := by
  have hcmd : ∀ (op arg : Byte) (run : State → Answer),
      Host.Outcome.next (s.runCommand op arg run) = (.next s : Outcome) :=
    fun _ _ _ => congrArg Host.Outcome.next (if_pos hl)
  have hev : ∀ run : State → State, Host.Outcome.next (s.event run) = (.next s : Outcome) :=
    fun _ => congrArg Host.Outcome.next (if_pos hl)
  have hwin : ∀ run : Window → Window, Host.Outcome.next (s.hostWrite run) = (.next s : Outcome) :=
    fun _ => congrArg Host.Outcome.next (if_pos hl)
  cases c with
  | pinReset | resetRelease | busGrant | busGrantLow | busGrantWithdrawn | busYield => cases hc
  | configure | deconfigure | post | start | stop | abort | clear | gstart | gstop | gabort | mapswap | mapcopy | cqpop
  | cqflush | lineSet | lineUp | lineDown | unknownOpcode => exact hcmd _ _ _
  | statusWrite | readOnlyWrite | samplesServedLowRead | registerWrite => exact hwin _
  | mapDataWrite | intCtrlWrite | controlWordWrite | syncArrival | trialTimeout | missedSync | frameEnd | transmitSlot
  | receiveSlot | wordTransferComplete | busFault | holdoffExpiry | fsyncLowSample => exact hev _

/-- BYLD follows its pin, and asks nothing of the Mover. -/
theorem exec_busYield_resetLow {s : State} (hl : s.resetLow = true) (level : Bool) :
    exec (.busYield level) s = .next { s with mover := { s.mover with byld := level } } :=
  congrArg Host.Outcome.next (if_neg fun h => Bool.noConfusion (hl.symm.trans h.1))

/-! ### The release of RESET (R118, R171; logs 12 and 25) -/

/-- The part as RESET rises: a whole timebase tick begins, and no sample of BGNT has been taken. -/
def State.released (s : State) : State :=
  { s with resetLow := false, line := { s.line with tbLeft := s.line.fmt.tbDiv + 1 } }

/-- The first sample of BGNT is taken in the same act. -/
theorem exec_resetRelease {s : State} (hl : s.resetLow = true) :
    exec .resetRelease s = .next { s.released with mover := { s.mover with
      bus := if s.mover.bus = .waitLow ∧ s.mover.bgnt = false then
          if ∃ i, s.request i ≠ none then .requesting else .idle
        else s.mover.bus } } :=
  congrArg Host.Outcome.next ((if_pos hl).trans s.released.sampleGrant_eq)

theorem exec_resetRelease_high {s : State} (hr : s.resetLow = false) : exec .resetRelease s = .next s :=
  congrArg Host.Outcome.next (if_neg (by simp [hr]))

/-- Settles O2. -/
theorem everyCommandCompletes : Obligations.EveryCommandCompletes := by
  unfold Obligations.EveryCommandCompletes
  intro c s
  obtain ⟨t, ht⟩ := exec_completes c s
  refine ⟨t, ht, exec_pending ht, fun hl => ?_⟩
  have hnext : ∀ {u : State}, exec c s = .next u → t = u := fun hu => Host.Outcome.next.inj (ht.symm.trans hu)
  cases c with
  | pinReset => cases ht; rfl
  | resetRelease => rw [hnext (exec_resetRelease hl)]; rfl
  | busGrant | busGrantLow | busGrantWithdrawn => exact hnext (congrArg Host.Outcome.next (if_pos hl))
  | busYield level => exact hnext (exec_busYield_resetLow hl level)
  | _ => exact hnext (exec_resetLow rfl hl)

/-! ### The pin reset -/

/-- After a pin reset no stream presents a request. -/
theorem State.request_pinReset (s : State) (i : StreamId) : s.pinReset.request i = none := by
  have hstream : s.pinReset.stream i = .reset := State.stream_reset i
  rw [State.request, hstream]
  rfl

/-- The Mover goes to IDLE at the release exactly with BGNT low, since nothing requests (R118). -/
theorem pinReset_release_bus {s t u : State} (ht : exec .pinReset s = .next t)
    (hu : exec .resetRelease t = .next u) : u.mover.bus = if s.mover.bgnt then .waitLow else .idle := by
  cases ht
  rw [exec_resetRelease rfl] at hu
  cases hu
  have hquiet : ¬ ∃ i, s.pinReset.request i ≠ none := fun ⟨i, hi⟩ => hi (s.request_pinReset i)
  have hwait : s.pinReset.mover.bus = .waitLow := rfl
  have hpin : s.pinReset.mover.bgnt = s.mover.bgnt := rfl
  simp only [hwait, hpin, if_neg hquiet, true_and]
  cases s.mover.bgnt <;> rfl

/-- The release by the bus state, the level of BGNT and the requests. -/
theorem exec_resetRelease_bus {s : State} (hl : s.resetLow = true) {b : BusState}
    (hb : (if s.mover.bus = .waitLow ∧ s.mover.bgnt = false then
        if ∃ i, s.request i ≠ none then .requesting else .idle else s.mover.bus) = b) :
    exec .resetRelease s = .next { s.released with mover := { s.mover with bus := b } } := by
  rw [exec_resetRelease hl, hb]

theorem CompletionQueue.ctrlWord_reset : CompletionQueue.reset.ctrlWord = 0x0001 := by decide
theorem Window.resultWord_reset : Window.reset.resultWord = 0 := by decide
theorem Window.mapIndexWord_reset : Window.reset.mapIndexWord = 0 := by decide

/-- Settles O47. -/
theorem pinResetAndRelease : Obligations.PinResetAndRelease := by
  unfold Obligations.PinResetAndRelease
  refine fun s => ⟨⟨s.pinReset, rfl, rfl,
    -- the line port
    rfl, rfl, rfl, rfl, rfl, rfl, fun i => ?_, rfl,
    -- the slot map, the streams and the pool
    fun k => ?_, rfl, rfl, State.stream_reset, rfl,
    -- the Mover, the groups, the completion queue and the pins
    rfl, fun g => ?_, rfl, rfl, rfl, rfl,
    -- the window: the staging words and flags, the control words, the words of a command, and the selectors
    fun k => ?_, rfl, rfl, CompletionQueue.ctrlWord_reset, rfl, rfl, rfl, rfl, Window.resultWord_reset, rfl,
    Window.mapIndexWord_reset, rfl, rfl⟩,
    -- the release
    fun hl => ⟨fun h => ?_, fun hw hg hnone => ?_, fun hw hg hsome => ?_⟩,
    fun t u => pinReset_release_bus, exec_resetRelease_high⟩
  case refine_1 | refine_3 | refine_4 => exact Vector.getElem_replicate _
  case refine_2 => exact ⟨Vector.getElem_replicate _, Vector.getElem_replicate _⟩
  case refine_5 =>
    refine exec_resetRelease_bus hl (if_neg fun hlow => ?_)
    obtain h | h := h
    · exact h hlow.1
    · exact Bool.noConfusion (h.symm.trans hlow.2)
  case refine_6 =>
    have hquiet : ¬ ∃ i, s.request i ≠ none := fun ⟨i, hi⟩ => hi (hnone i)
    exact exec_resetRelease_bus hl (by rw [if_pos ⟨hw, hg⟩, if_neg hquiet])
  case refine_7 => exact exec_resetRelease_bus hl (by rw [if_pos ⟨hw, hg⟩, if_pos hsome])

end Sys2Proof.Machine
end

section
/-! PROOFS. The window's own writes with RESET high: STATUS, the read-only words, the control words, ACCESS_ERR and the
captured high half (R160, R161, R163, R166). -/

namespace Sys2Proof.Machine

/-! ### One equation for each write -/

theorem field_low (v : Word) (k : Nat) : field v k 0 = v.toNat % 2 ^ (k + 1) := by simp [field]

/-- A write of a value that INT_CTRL and BUS_CTRL take: 1 to 32 in bits 5 to 0. -/
abbrev TakesCount (v : Word) : Prop := 1 ≤ v.toNat % 64 ∧ v.toNat % 64 ≤ 32

theorem field_count_iff (v : Word) : (field v 5 0 = 0 ∨ 32 < field v 5 0) ↔ ¬ TakesCount v := by
  rw [field_low]
  omega

section
variable {s : State} (hr : s.resetLow = false)
include hr

theorem State.hostWrite_run (run : Window → Window) : s.hostWrite run = { s with win := run s.win } :=
  if_neg (by simp [hr])

theorem exec_statusWrite (v : Word) : exec (.statusWrite v) s
    = .next { s with win := { s.win with accessErr := s.win.accessErr && !v.getLsbD 15 } } := by
  refine congrArg Host.Outcome.next ((State.hostWrite_run hr _).trans ?_)
  have hflag : flag v 15 = v.getLsbD 15 := rfl
  rw [hflag]
  cases v.getLsbD 15 <;> simp

theorem exec_readOnlyWrite (w : ReadOnlyWord) (v : Word) :
    exec (.readOnlyWrite w v) s = .next { s with win := { s.win with accessErr := true } } :=
  congrArg Host.Outcome.next (State.hostWrite_run hr _)

theorem exec_holdoffWrite (v : Word) :
    exec (.controlWordWrite .holdoff v) s = .next { s with cq := { s.cq with holdoff := v } } :=
  congrArg Host.Outcome.next (State.event_run hr _)

theorem exec_intCtrlWrite {v : Word} (hv : TakesCount v) : exec (.intCtrlWrite v) s
    = .next { s with cq := { s.cq with enable := v.getLsbD 15, threshold := v.toNat % 64 } } := by
  refine congrArg Host.Outcome.next ((State.event_run hr _).trans ?_)
  rw [State.writeIntCtrl, if_neg ((field_count_iff v).not_left.2 hv), field_low]
  rfl

theorem exec_intCtrlWrite_misuse {v : Word} (hv : ¬ TakesCount v) :
    exec (.intCtrlWrite v) s = .next { s with win := { s.win with accessErr := true } } :=
  congrArg Host.Outcome.next ((State.event_run hr _).trans (if_pos ((field_count_iff v).2 hv)))

theorem exec_busCtrlWrite {v : Word} (hv : TakesCount v) : exec (.controlWordWrite .busCtrl v) s
    = .next { s with mover := { s.mover with tenureMax := v.toNat % 64 } } := by
  refine congrArg Host.Outcome.next ((State.event_run hr _).trans ?_)
  simp only [State.writeControl]
  rw [if_neg ((field_count_iff v).not_left.2 hv), field_low]
  rfl

theorem exec_busCtrlWrite_misuse {v : Word} (hv : ¬ TakesCount v) :
    exec (.controlWordWrite .busCtrl v) s = .next { s with win := { s.win with accessErr := true } } :=
  congrArg Host.Outcome.next ((State.event_run hr _).trans (if_pos ((field_count_iff v).2 hv)))

theorem exec_readyTimeoutWrite {v : Word} (hv : v.toNat % 256 ≠ 0) : exec (.controlWordWrite .readyTimeout v) s
    = .next { s with mover := { s.mover with readyTimeout := v.toNat % 256 } } := by
  refine congrArg Host.Outcome.next ((State.event_run hr _).trans ?_)
  simp only [State.writeControl, field_low]
  exact if_neg hv

theorem exec_readyTimeoutWrite_misuse {v : Word} (hv : v.toNat % 256 = 0) :
    exec (.controlWordWrite .readyTimeout v) s = .next { s with win := { s.win with accessErr := true } } :=
  congrArg Host.Outcome.next ((State.event_run hr _).trans (if_pos ((field_low v 7).trans hv)))

/-- The read of FIELD_DATA with FIELD_SEL 0AH captures the counter's high half (R166). -/
theorem exec_capture (hsel : s.win.fieldSel = 0x0A#5) : exec .samplesServedLowRead s
    = .next { s with win := { s.win with
        captured := (s.stream s.win.streamSel).samplesServed.extractLsb' 16 16 } } := by
  refine congrArg Host.Outcome.next ((State.hostWrite_run hr _).trans ?_)
  have hn : s.win.fieldSel.toNat = 0x0A := congrArg BitVec.toNat hsel
  have hhigh : word ((s.stream s.win.streamSel).samplesServed.toNat / 2 ^ 16)
      = (s.stream s.win.streamSel).samplesServed.extractLsb' 16 16 := by
    rw [word, BitVec.extractLsb', Nat.shiftRight_eq_div_pow]
  rw [if_pos hn, hhigh]

theorem exec_noCapture (hsel : s.win.fieldSel ≠ 0x0A#5) : exec .samplesServedLowRead s = .next s := by
  refine congrArg Host.Outcome.next ((State.hostWrite_run hr _).trans ?_)
  have hn : s.win.fieldSel.toNat ≠ 0x0A := fun h => hsel (BitVec.eq_of_toNat_eq h)
  rw [if_neg hn]

end

/-! ### ACCESS_ERR (R161) -/

/-- ACCESS_ERR and the completion queue never change in one act. -/
theorem exec_accessErr_or_cq {c : Instr} {t : State} (hc : c ≠ .pinReset) (h : exec c s = .next t) :
    t.win.accessErr = s.win.accessErr ∨ t.cq = s.cq := by
  have hset : writesSetting c = true → t.win.accessErr = s.win.accessErr ∨ t.cq = s.cq := fun hw => by
    obtain rfl | ⟨_, _, _, rfl⟩ := exec_writesSetting hw h
    · exact .inr rfl
    · exact .inl rfl
  cases c with
  | mapDataWrite | intCtrlWrite | controlWordWrite => exact hset rfl
  | statusWrite | readOnlyWrite | samplesServedLowRead => cases h; exact .inr (s.hostWrite_cq _)
  | pinReset => exact absurd rfl hc
  | _ => exact .inl (exec_keepsAccessErr rfl h)

theorem BankId.eq_other_of_ne {b b' : BankId} (h : b ≠ b') : b = b'.other := by
  revert h
  cases b <;> cases b' <;> decide

/-- A write to MAP_DATA is a misuse for the active bank and while a swap is pending (R26). -/
theorem exec_mapDataWrite_accessErr (hr : s.resetLow = false) (v : Word) :
    ∃ t, exec (.mapDataWrite v) s = .next t
      ∧ t.win.accessErr = (s.win.accessErr || decide (s.win.mapBank = s.map.active) || s.map.swapPending) := by
  refine ⟨_, congrArg Host.Outcome.next (State.event_run hr _), ?_⟩
  by_cases h : s.win.mapBank = s.map.active ∨ s.map.swapPending = true
  · rw [s.writeMapData_misuse v h]
    obtain h | h := h <;> simp [h]
  · obtain ⟨hbank, hswap⟩ := not_or.1 h
    rw [State.writeMapData_shadow v (BankId.eq_other_of_ne hbank) (by simpa using hswap)]
    simp [hbank, hswap]

/-- The flag after a write that sets it when its value is out of range. -/
theorem or_decide_of_pos {p : Prop} [Decidable p] (b : Bool) (h : p) : true = (b || decide p) := by simp [h]

theorem or_decide_of_neg {p : Prop} [Decidable p] (b : Bool) (h : ¬ p) : b = (b || decide p) := by simp [h]

/-- Settles O44. -/
theorem accessErrFlag : Obligations.AccessErrFlag := by
  unfold Obligations.AccessErrFlag
  refine ⟨fun c s hr => ?_, fun s b => rfl, fun c s t h hne hc => (exec_accessErr_or_cq hc h).resolve_left hne⟩
  have hrest : writesHostSide c = false → ∃ t, exec c s = .next t ∧ t.win.accessErr = s.win.accessErr := fun hc =>
    (exec_completes c s).imp fun _ ht => ⟨ht, exec_keepsAccessErr hc ht⟩
  have hcount : ∀ v : Word, (v.toNat % 64 = 0 ∨ 32 < v.toNat % 64) ↔ ¬ TakesCount v := fun v => by omega
  cases c with
  | readOnlyWrite w v => exact ⟨_, exec_readOnlyWrite hr w v, rfl⟩
  | mapDataWrite v => exact exec_mapDataWrite_accessErr hr v
  | intCtrlWrite v =>
    by_cases hv : TakesCount v
    · exact ⟨_, exec_intCtrlWrite hr hv, or_decide_of_neg _ ((hcount v).not_left.2 hv)⟩
    · exact ⟨_, exec_intCtrlWrite_misuse hr hv, or_decide_of_pos _ ((hcount v).2 hv)⟩
  | controlWordWrite cw v =>
    cases cw with
    | holdoff => exact ⟨_, exec_holdoffWrite hr v, rfl⟩
    | busCtrl =>
      by_cases hv : TakesCount v
      · exact ⟨_, exec_busCtrlWrite hr hv, or_decide_of_neg _ ((hcount v).not_left.2 hv)⟩
      · exact ⟨_, exec_busCtrlWrite_misuse hr hv, or_decide_of_pos _ ((hcount v).2 hv)⟩
    | readyTimeout =>
      by_cases hv : v.toNat % 256 = 0
      · exact ⟨_, exec_readyTimeoutWrite_misuse hr hv, or_decide_of_pos _ hv⟩
      · exact ⟨_, exec_readyTimeoutWrite hr hv, or_decide_of_neg _ hv⟩
  | statusWrite v => exact ⟨_, exec_statusWrite hr v, rfl⟩
  | samplesServedLowRead =>
    by_cases hsel : s.win.fieldSel = 0x0A#5
    · exact ⟨_, exec_capture hr hsel, rfl⟩
    · exact ⟨_, exec_noCapture hr hsel, rfl⟩
  | pinReset => exact ⟨_, rfl, rfl⟩
  | _ => exact hrest rfl

/-! ### The four control words (R163, section 10.3) -/

/-- INT_CTRL reads back its two fields. -/
theorem ctrlWord_readBack (v : Word) : word ((v.getLsbD 15).toNat * 2 ^ 15 + v.toNat % 64) = v &&& 0x803F := by
  have hflag : (v.getLsbD 15).toNat = v.toNat / 2 ^ 15 % 2 := flag_toNat v 15
  rw [hflag]
  refine word_eq_and (by omega) fun i hi => ?_
  interval_cases i <;> simp <;> omega

/-- What the four words read as, from the items they show. -/
theorem State.controlWords_eq {t : State} {intCtrl holdoff busCtrl readyTimeout : Word}
    (hint : t.cq.ctrlWord = intCtrl) (hholdoff : t.cq.holdoff = holdoff) (hbus : word t.mover.tenureMax = busCtrl)
    (hready : word t.mover.readyTimeout = readyTimeout) :
    t.readWord 0x03 = intCtrl ∧ t.readWord 0x04 = holdoff ∧ t.readWord 0x05 = busCtrl
    ∧ t.readWord 0x06 = readyTimeout :=
  ⟨hint, hholdoff, hbus, hready⟩

/-- Settles O42. -/
theorem controlAndStatusWrites : Obligations.ControlAndStatusWrites := by
  unfold Obligations.ControlAndStatusWrites
  refine ⟨fun s v hr => ⟨exec_statusWrite hr v, fun w => exec_readOnlyWrite hr w v, exec_holdoffWrite hr v,
    fun h1 h32 => ⟨exec_intCtrlWrite hr ⟨h1, h32⟩, exec_busCtrlWrite hr ⟨h1, h32⟩⟩, fun h => ?_,
    fun h => exec_readyTimeoutWrite hr (by omega), exec_readyTimeoutWrite_misuse hr⟩, fun c s hr => ?_⟩
  · have hv : ¬ TakesCount v := by omega
    exact ⟨exec_intCtrlWrite_misuse hr hv, exec_busCtrlWrite_misuse hr hv⟩
  · have hrest (hc : writesHostSide c = false) := (exec_completes c s).imp fun t ht =>
      And.intro ht (exec_keepsControlWords hc ht)
    cases c with
    | intCtrlWrite v =>
      by_cases hv : TakesCount v
      · have hread := ctrlWord_readBack v
        exact ⟨_, exec_intCtrlWrite hr hv, State.controlWords_eq (hread.trans (if_pos hv).symm) rfl rfl rfl⟩
      · exact ⟨_, exec_intCtrlWrite_misuse hr hv, State.controlWords_eq (if_neg hv).symm rfl rfl rfl⟩
    | controlWordWrite cw v =>
      cases cw with
      | holdoff => exact ⟨_, exec_holdoffWrite hr v, State.controlWords_eq rfl rfl rfl rfl⟩
      | busCtrl =>
        by_cases hv : TakesCount v
        · have hread := word_mod_eq_and v 6 (by decide)
          exact ⟨_, exec_busCtrlWrite hr hv, State.controlWords_eq rfl rfl (hread.trans (if_pos hv).symm) rfl⟩
        · exact ⟨_, exec_busCtrlWrite_misuse hr hv, State.controlWords_eq rfl rfl (if_neg hv).symm rfl⟩
      | readyTimeout =>
        by_cases hv : 1 ≤ v.toNat % 256
        · have hread := word_mod_eq_and v 8 (by decide)
          exact ⟨_, exec_readyTimeoutWrite hr (by omega),
            State.controlWords_eq rfl rfl rfl (hread.trans (if_pos hv).symm)⟩
        · exact ⟨_, exec_readyTimeoutWrite_misuse hr (by omega), State.controlWords_eq rfl rfl rfl (if_neg hv).symm⟩
    | mapDataWrite v =>
      refine ⟨_, congrArg Host.Outcome.next (State.event_run hr _), ?_⟩
      simp only [State.writeMapData]
      split <;> exact State.controlWords_eq rfl rfl rfl rfl
    | statusWrite v => exact ⟨_, exec_statusWrite hr v, State.controlWords_eq rfl rfl rfl rfl⟩
    | readOnlyWrite w v => exact ⟨_, exec_readOnlyWrite hr w v, State.controlWords_eq rfl rfl rfl rfl⟩
    | samplesServedLowRead =>
      exact ⟨_, congrArg Host.Outcome.next (State.hostWrite_run hr _), State.controlWords_eq rfl rfl rfl rfl⟩
    | pinReset => exact ⟨_, rfl, State.controlWords_eq CompletionQueue.ctrlWord_reset rfl rfl rfl⟩
    | _ => exact hrest rfl

/-! ### The captured high half (R166) -/

/-- FIELD_SEL 0AH shows the low half. -/
theorem StreamCtx.samplesServed_low (c : StreamCtx) :
    word c.samplesServed.toNat = c.samplesServed.extractLsb' 0 16 := by
  simp [word, BitVec.extractLsb']

theorem State.readWord_fieldData (s : State) (sel : BitVec 5) (h : s.win.fieldSel = sel) :
    s.readWord 0x0B = (s.stream s.win.streamSel).fieldWord s.win.captured sel.toNat := h ▸ rfl

/-- Settles O45. -/
theorem capturedHighHalf : Obligations.CapturedHighHalf := by
  unfold Obligations.CapturedHighHalf
  intro s hr served
  refine ⟨fun hsel => ⟨?_, exec_capture hr hsel⟩, exec_noCapture hr, fun hsel => ?_, fun c t h => ?_⟩
  · exact (s.readWord_fieldData _ hsel).trans (s.stream s.win.streamSel).samplesServed_low
  · exact s.readWord_fieldData _ hsel
  have hset : writesSetting c = true → t.win.captured = s.win.captured := fun hw => by
    obtain rfl | ⟨_, _, _, rfl⟩ := exec_writesSetting hw h <;> rfl
  have hnext : ∀ {u : State}, exec c s = .next u → t = u := fun hu => Host.Outcome.next.inj (h.symm.trans hu)
  cases c with
  | mapDataWrite | intCtrlWrite | controlWordWrite => exact hset rfl
  | statusWrite v => rw [hnext (exec_statusWrite hr v)]
  | readOnlyWrite w v => rw [hnext (exec_readOnlyWrite hr w v)]
  | pinReset => cases h; rfl
  | samplesServedLowRead =>
    by_cases hsel : s.win.fieldSel = 0x0A#5
    · rw [hnext (exec_capture hr hsel)]
      exact (if_pos hsel).symm
    · rw [hnext (exec_noCapture hr hsel)]
      exact (if_neg hsel).symm
  | _ => exact exec_keepsCaptured rfl h

end Sys2Proof.Machine
end

section
/-! PROOFS. The command at the front of the queue (log 1). -/

namespace Sys2Proof.Machine

/-- A step on a queue with a front: the branch of `step` a waiting command takes. -/
theorem step_of_pending {s : State} {c : Instr} {rest : List Instr} (h : s.pending = c :: rest) :
    step s = exec c { s with pending := rest } := by
  simp only [step, h]

/-- Settles O1: of the state before, the front is gone and the rest stands in its place. -/
theorem stepRunsFrontCommand : Obligations.StepRunsFrontCommand := by
  unfold Obligations.StepRunsFrontCommand
  intro c rest s
  have hfront : ({ s with pending := c :: rest } : State).pending = c :: rest := rfl
  exact step_of_pending hfront

end Sys2Proof.Machine
end
